-- ==== Sys2Proof/Word.lean ====
section
/-! DEFINITION. The word types of the GV4 and their plainest arithmetic (R6, R7). -/

namespace Sys2Proof

/-- A 64-bit register value or address. -/
abbrev Word := BitVec 64

/-- One byte of memory. -/
abbrev Byte := BitVec 8

/-- An extension word E1 or E2 (R42). -/
abbrev Ext := BitVec 32

/-- An all-ones or zero word chosen by a truth value. -/
def Word.ofBool (b : Bool) : Word := if b then 1 else 0

end Sys2Proof
end

