-- ==== Sys2Proof/Config.lean ====
section
/-! DEFINITION. What the reference leaves open: free values without a body (R11), and the fixed figures of the device. -/

namespace Sys2Proof.Config

/-- The n-th free choice of the run: which candidate the device delivers where the reference says a result
is not promised (R11). It has no body: nothing can be proved of its values. -/
opaque freeNat : Nat → Nat

/-- The n-th free choice between two candidates. -/
def freeBit (n : Nat) : Bool := freeNat n % 2 == 1

/-- The value an approximate function delivers where the model's interval arithmetic does not separate the
two neighbouring values (R125 fixes it; the model's precision does not reach it). -/
opaque approxTie : (code : Nat) → (bits : Nat) → Nat

/-- The physical address of the acknowledgment word that a notice for a block names (R372): the reference leaves its place to
the device. -/
opaque ackWord : (block : Nat) → Nat

/-- The answer of a SPDM request on a link: identity, certificate chain and measurements as a digest (R399). -/
opaque spdmIdentity : Nat

/-- The home slice of a line among the 48 of its home die: a fixed hash that software must not depend on (R292). -/
opaque sliceHash : (line : Nat) → Nat

/-- The set of a line in an L1 and in an instruction cache (of 256) and in an L2 slice (of 1,024): the reference gives no index (R294). -/
opaque l1Index : (line : Nat) → Nat
opaque icIndex : (line : Nat) → Nat
opaque l2Index : (line : Nat) → Nat

/-- The set of a page in an access TLB (of 64): the reference gives no index (R302). -/
opaque accessIndex : (vbase : Nat) → Nat

/-- Cycles within which a peer module of a page move answers: 50 µs (R311). -/
def peerCycles : Nat := 80000

/-- Cycles of the accounting period (R9). -/
def accountingCycles : Nat := 2048

/-- Compute dies, cores of a die, lanes of a core, slots of a lane (R2, R10). -/
def dies : Nat := 8
def coresPerDie : Nat := 48
def cores : Nat := 384
def lanes : Nat := 128
def slots : Nat := 8

/-- Scratchpad rows of 1 KiB and accumulator tiles of a core (R2). -/
def scratchRows : Nat := 768
def accTiles : Nat := 32

/-- Entries of a team store buffer (R142). -/
def tbEntries : Nat := 512

/-- Tile commands a team may have pending (R222). -/
def teamCommands : Nat := 256

/-- Loads a thread may have outstanding (R166). -/
def maxLoads : Nat := 4

/-- Chains of one runahead episode (R333). -/
def runaheadChains : Nat := 2048

/-- Widened grids a context may have that have not completed (R316). -/
def maxGrids : Nat := 256

/-- Outstanding crossings of a thread (R175). -/
def maxCrossings : Nat := 64

/-- Cycles of the move window and of a pin (R313). -/
def moveWindow : Nat := 1600000
def pinCycles : Nat := 25600000

/-- Ways of an L1 set and of an L2 set, entries of a slice's contention predictor and of its tag-only table (R294, R297, R298). -/
def l1Ways : Nat := 8
def l2Ways : Nat := 24
def predictorEntries : Nat := 256
def tagOnlyEntries : Nat := 256

/-- Records of the move history table (R312). -/
def moveHistory : Nat := 8192

/-- Cycles a SAVE waits for partly arrived barriers (R364). -/
def saveDeferral : Nat := 80000

end Sys2Proof.Config
end

