-- ==== Sys2Proof/Syntax.lean ====
section
/-! DEFINITION. The instructions of the GV4 and the events of its devices: one constructor for each row of the
opcode table (R60, and the steps of the ordering machine, the engines and the device controllers). -/

namespace Sys2Proof

/-- The fields every instruction word carries beside OP, D, A, B and L (R41): the chain bit C, the stall count S,
and the guard, which holds when p[P] XOR N (R46). -/
structure Hdr where
  c : Bool
  s : Fin 8
  n : Bool
  p : Fin 8
  deriving DecidableEq, Repr

/-- The second source of rows 0-4 (R44): the register B (L = 0), E1 (L = 1) or E2:E1 (L = 2). -/
inductive Src2 where
  | reg (b : Fin 32)
  | imm (e1 : Ext)
  | imm64 (e1 e2 : Ext)
  deriving DecidableEq, Repr

/-- The extension words of a row-5 instruction, `trap` or `brk`: none, E1, or E1 and E2 (R45). -/
inductive Exts where
  | none
  | one (e1 : Ext)
  | two (e1 e2 : Ext)
  deriving DecidableEq, Repr

/-- The mask of `gsync` and the count of `txw`: register A (L = 0) or E1 (L = 1) (R45). -/
inductive RegOrExt where
  | reg (a : Fin 32)
  | ext (e1 : Ext)
  deriving DecidableEq, Repr

/-- A compute thread: flat core (die × 48 + core), lane, slot (R10). -/
structure ThreadId where
  core : Nat
  lane : Nat
  slot : Nat
  deriving DecidableEq, Repr

/-- The compute die and the logical core of a thread (R10). -/
def ThreadId.die (t : ThreadId) : Nat := t.core / 48
def ThreadId.logical (t : ThreadId) : Nat := t.core % 48
/-- The lane group, and the position in the group (R10). -/
def ThreadId.laneGroup (t : ThreadId) : Nat := t.lane / 32
def ThreadId.pos (t : ThreadId) : Nat := t.lane % 32
/-- Bits 18:0 of WHO (R199): die, core, lane, slot. -/
def ThreadId.posWord (t : ThreadId) : Nat :=
  t.die * 0x10000 + t.logical * 0x400 + t.lane * 8 + t.slot
/-- The identifier lies in the ranges of R10. -/
def ThreadId.valid (t : ThreadId) : Bool := t.core < 384 && t.lane < 128 && t.slot < 8

/-- A common register image (R30): x0-x31, f0-f31 and the low byte of fcsr. -/
structure Image where
  x : Vector Word 32
  f : Vector Word 32
  fcsr : BitVec 8
  deriving DecidableEq, Repr

/-- An access by a master outside the compute cores, as one step on M (R263): `write` holds the little-endian
value of a write. -/
structure OuterAccess where
  addr : Nat
  size : Nat
  write : Option Nat
  deriving DecidableEq, Repr

/-- The tables that module firmware keeps in memory that belongs to no partition: context descriptors (R362), security entries (R399)
and the admission table (R390). -/
inductive FwTable where
  | context | security | admission
  deriving DecidableEq, Repr

/-- A thread of a hazel core as system software places it (R377): its context, the compute thread that it is when away, its image and
pc, the widened grid whose end it waits for with the return address, whether it sleeps on a ticket, and its privilege. -/
structure HazelThread where
  ctx : Nat
  home : Option ThreadId
  img : Image
  pc : Word
  grid : Option Nat
  ret : Word
  asleep : Bool
  user : Bool
  deriving DecidableEq, Repr

/-- What HAZEL_ACCESS does: an access by the instruction at `pc`; of a doubleword of an entry of a firmware table; or system
software places a thread on the core, or takes its thread off it (R377). -/
inductive HazelOp where
  | mem (pc : Word) (x : OuterAccess)
  | table (t : FwTable) (entry off : Nat) (write : Option Word)
  | place (h : HazelThread)
  | remove
  deriving DecidableEq, Repr

/-- A request on a host link (R399): for identity, certificates and measurements, or a tenant's TDISP session, which binds a context with
the key of its slot. -/
inductive SpdmMsg where
  | measure (link : Fin 2)
  | bind (ctx slot : Nat) (key : BitVec 512)
  deriving DecidableEq, Repr

/-- The TLB that asks for a walk (R302). -/
inductive TlbKind where
  | fetch | access | stream | tile
  deriving DecidableEq, Repr

/-- The exceptions of an away thread on the hazel side (R410). -/
inductive HazelExc where
  | pageNotResident | otherFault | misaligned | illegal | watchpoint | ebreak
  deriving DecidableEq, Repr

/-- Where an uncorrectable pewter error lies (R357): a checkpoint slot; `n` granules from the `g`-th of a core on; `n` rows from a tile's
`row`-th on; the escaped-write log, a commit reply or a status record that holds something of the context `ctx`. -/
inductive PewterWhere where
  | checkpointSlot (t : ThreadId) (k : Fin 2)
  | granule (core : Nat) (g n : Nat)
  | tileRow (core : Nat) (tile row n : Nat)
  | log (core ctx : Nat)
  deriving DecidableEq, Repr

/-- A partition descriptor (R369). -/
structure PartDesc where
  part : Nat
  active : Bool
  slotLo : Nat
  slotN : Nat
  rowLo : Nat
  rowN : Nat
  tileLo : Nat
  tileN : Nat
  ways : BitVec 24
  budget : Nat
  blocks : List Nat
  notice : Nat
  hints : Nat
  deriving DecidableEq, Repr

/-- The payload of a launch packet (R389). -/
structure LaunchPacket where
  dstMod : Nat
  srcMod : Nat
  tenant : Nat
  node : Word
  seq : Word
  stamp : Word
  record : List Word
  deriving DecidableEq, Repr

/-- One constructor per row of the opcode table. The first group are the instruction words of rows 0-7 of the
opcode map (R60); the second are the steps of the ordering machine, the engines and the device controllers, each
with the parties it names. -/
inductive Instr where
  -- row 0 (R103)
  | add (h : Hdr) (d a : Fin 32) (b : Src2)
  | sub (h : Hdr) (d a : Fin 32) (b : Src2)
  | addw (h : Hdr) (d a : Fin 32) (b : Src2)
  | subw (h : Hdr) (d a : Fin 32) (b : Src2)
  | mul (h : Hdr) (d a : Fin 32) (b : Src2)
  | mulw (h : Hdr) (d a : Fin 32) (b : Src2)
  | mulh (h : Hdr) (d a : Fin 32) (b : Src2)
  | mulhz (h : Hdr) (d a : Fin 32) (b : Src2)
  | div (h : Hdr) (d a : Fin 32) (b : Src2)
  | divz (h : Hdr) (d a : Fin 32) (b : Src2)
  | rem (h : Hdr) (d a : Fin 32) (b : Src2)
  | remz (h : Hdr) (d a : Fin 32) (b : Src2)
  | min (h : Hdr) (d a : Fin 32) (b : Src2)
  | max (h : Hdr) (d a : Fin 32) (b : Src2)
  | minz (h : Hdr) (d a : Fin 32) (b : Src2)
  | maxz (h : Hdr) (d a : Fin 32) (b : Src2)
  -- row 1 (R105)
  | and (h : Hdr) (d a : Fin 32) (b : Src2)
  | or (h : Hdr) (d a : Fin 32) (b : Src2)
  | xor (h : Hdr) (d a : Fin 32) (b : Src2)
  | andn (h : Hdr) (d a : Fin 32) (b : Src2)
  | sll (h : Hdr) (d a : Fin 32) (b : Src2)
  | srl (h : Hdr) (d a : Fin 32) (b : Src2)
  | sra (h : Hdr) (d a : Fin 32) (b : Src2)
  | rot (h : Hdr) (d a : Fin 32) (b : Src2)
  | clz (h : Hdr) (d a : Fin 32)
  | ctz (h : Hdr) (d a : Fin 32)
  | popc (h : Hdr) (d a : Fin 32)
  | brev (h : Hdr) (d a : Fin 32)
  | bfx (h : Hdr) (d a : Fin 32) (b : Src2)
  | bfi (h : Hdr) (d a : Fin 32) (b : Src2)
  | clmul (h : Hdr) (d a : Fin 32) (b : Src2)
  | clmulh (h : Hdr) (d a : Fin 32) (b : Src2)
  -- row 2 (R107-R113, R61)
  | icmp (h : Hdr) (cond : Fin 4) (pd : Fin 8) (a : Fin 32) (b : Src2)
  | sel (h : Hdr) (d a : Fin 32) (b : Src2)
  | sh1add (h : Hdr) (d a : Fin 32) (b : Src2)
  | sh2add (h : Hdr) (d a : Fin 32) (b : Src2)
  | sh3add (h : Hdr) (d a : Fin 32) (b : Src2)
  | sh4add (h : Hdr) (d a : Fin 32) (b : Src2)
  | plog (h : Hdr) (fn : Fin 4) (pd : Fin 8) (ia : Bool) (pa : Fin 8) (ib : Bool) (pb : Fin 8)
  | pmovPg (h : Hdr) (d : Fin 32)
  | pmovGp (h : Hdr) (a : Fin 32)
  | gets (h : Hdr) (d : Fin 32) (sr : Fin 32)
  | sets (h : Hdr) (sr : Fin 32) (b : Src2)
  | entryw (h : Hdr)
  | yield (h : Hdr) (b : Src2)
  | hresumeRetry (h : Hdr) (a : Fin 32)
  | hresumeKill (h : Hdr) (a : Fin 32)
  | hresumeTerm (h : Hdr) (a : Fin 32)
  | nop (h : Hdr)
  -- row 3 (R114)
  | faddS (h : Hdr) (d a : Fin 32) (b : Src2)
  | fsubS (h : Hdr) (d a : Fin 32) (b : Src2)
  | fmulS (h : Hdr) (d a : Fin 32) (b : Src2)
  | ffmaS (h : Hdr) (d a : Fin 32) (b : Src2)
  | fminS (h : Hdr) (d a : Fin 32) (b : Src2)
  | fmaxS (h : Hdr) (d a : Fin 32) (b : Src2)
  | fdivS (h : Hdr) (d a : Fin 32) (b : Src2)
  | fsqrtS (h : Hdr) (d a : Fin 32)
  | faddD (h : Hdr) (d a : Fin 32) (b : Src2)
  | fsubD (h : Hdr) (d a : Fin 32) (b : Src2)
  | fmulD (h : Hdr) (d a : Fin 32) (b : Src2)
  | ffmaD (h : Hdr) (d a : Fin 32) (b : Src2)
  | fminD (h : Hdr) (d a : Fin 32) (b : Src2)
  | fmaxD (h : Hdr) (d a : Fin 32) (b : Src2)
  | fdivD (h : Hdr) (d a : Fin 32) (b : Src2)
  | fsqrtD (h : Hdr) (d a : Fin 32)
  -- row 4 (R117-R131)
  | fcmpS (h : Hdr) (cond : Fin 4) (pd : Fin 8) (a : Fin 32) (b : Src2)
  | fcmpD (h : Hdr) (cond : Fin 4) (pd : Fin 8) (a : Fin 32) (b : Src2)
  | fcvt (h : Hdr) (d a : Fin 32) (code : Fin 32)
  | funaryS (h : Hdr) (d a : Fin 32) (code : Fin 32)
  | funaryD (h : Hdr) (d a : Fin 32) (code : Fin 32)
  | fmv (h : Hdr) (d a : Fin 32) (code : Fin 32)
  | pfmaH (h : Hdr) (d a : Fin 32) (b : Src2)
  | pfmaB (h : Hdr) (d a : Fin 32) (b : Src2)
  | fdotH (h : Hdr) (d a : Fin 32) (b : Src2)
  | fdotB (h : Hdr) (d a : Fin 32) (b : Src2)
  | idotB (h : Hdr) (d a : Fin 32) (b : Src2)
  | paddH (h : Hdr) (d a : Fin 32) (b : Src2)
  | pmulH (h : Hdr) (d a : Fin 32) (b : Src2)
  | pshuf (h : Hdr) (d a : Fin 32) (b : Src2)
  -- row 5 (R133-R160): b is the five-bit B field
  | ld (h : Hdr) (d a b : Fin 32) (e : Exts)
  | st (h : Hdr) (d a b : Fin 32) (e : Exts)
  | lda (h : Hdr) (d a b : Fin 32) (e : Exts)
  | stl (h : Hdr) (d a b : Fin 32) (e : Exts)
  | ldnr (h : Hdr) (d a b : Fin 32) (e : Exts)
  | ldf (h : Hdr) (d a b : Fin 32) (e : Exts)
  | stf (h : Hdr) (d a b : Fin 32) (e : Exts)
  | pref (h : Hdr) (a b : Fin 32) (e : Exts)
  | pgreq (h : Hdr) (d a : Fin 32) (e : Exts)
  | atom (h : Hdr) (d a b : Fin 32) (e : Exts)
  | cas (h : Hdr) (d a b : Fin 32) (e : Exts)
  | fence (h : Hdr) (b : Fin 32)
  | pfenceCore (h : Hdr)
  | pfenceModule (h : Hdr)
  | waitc (h : Hdr) (cond : Fin 4) (pd : Fin 8) (a b : Fin 32) (e : Exts)
  | tlbiPage (h : Hdr) (d a : Fin 32)
  | tlbiCtx (h : Hdr) (d : Fin 32)
  | tlbiPart (h : Hdr) (d : Fin 32)
  -- row 6 (R168-R207)
  | next (h : Hdr) (e1 : Ext)
  | nextp (h : Hdr) (e1 e2 : Ext)
  | nextg (h : Hdr) (a : Fin 32)
  | call (h : Hdr) (e1 : Ext)
  | callg (h : Hdr) (a : Fin 32)
  | ret (h : Hdr) (a : Fin 32)
  | exit (h : Hdr)
  | region (h : Hdr) (e1 e2 : Ext)
  | gsync (h : Hdr) (m : RegOrExt)
  | vote (h : Hdr) (d : Fin 32) (inv : Bool) (pa : Fin 8) (code : Fin 32)
  | shfl (h : Hdr) (d a b : Fin 32)
  | barSync (h : Hdr) (a b : Fin 32)
  | barArr (h : Hdr) (a b : Fin 32)
  | recd (h : Hdr) (d a : Fin 32)
  | sysc (h : Hdr) (a : Fin 32)
  | trap (h : Hdr) (e : Exts)
  | brk (h : Hdr) (e : Exts)
  -- row 7 (R208-R243)
  | mma (h : Hdr) (d a b : Fin 32)
  | mmas (h : Hdr) (d a b : Fin 32)
  | mmat (h : Hdr) (d a b : Fin 32)
  | accz (h : Hdr) (d : Fin 32)
  | accrd (h : Hdr) (d a b : Fin 32)
  | accwr (h : Hdr) (d a b : Fin 32)
  | acccvt (h : Hdr) (a b : Fin 32)
  | txf (h : Hdr) (a : Fin 32)
  | txw (h : Hdr) (m : RegOrExt)
  | scfg (h : Hdr) (q : Fin 8) (a : Fin 32)
  | qpop (h : Hdr) (d : Fin 32) (isF : Bool) (q : Fin 8) (pv : Fin 8)
  | qpush (h : Hdr) (q : Fin 8) (a : Fin 32) (isF : Bool)
  | sctlStart (h : Hdr) (q : Fin 8)
  | sctlStop (h : Hdr) (q : Fin 8)
  | sctlDrain (h : Hdr) (q : Fin 8)
  -- steps of threads, buffers and engines
  | yieldEnd (bundle : Nat)
  | txwCompletion (bundle : Nat)
  | streamReadAhead (team : Nat) (q : Fin 8)
  | load (t : ThreadId) (k : Nat)
  | store (t : ThreadId) (k : Nat)
  | rmw (iid : Nat)
  | fencePerform (t : ThreadId) (k : Nat)
  | drain (core : Nat) (entry : Nat)
  | publish (core : Nat)
  | durable (t : ThreadId)
  | wake (t : ThreadId)
  | expire (t : ThreadId)
  | enqueue (cmd : Nat)
  | granuleWrite (cmd : Nat) (target : Nat)
  | sectorWrite (cmd : Nat)
  | completion (cmd : Nat)
  | walk (core : Nat) (ctx : Nat) (va : Word) (kind : TlbKind) (lane : Option Nat) (write : Bool)
  | faultQueueEntry (report : Nat)
  -- issue, launch and release
  | issue (core : Nat) (lg : Fin 4)
  | mergeWindow (bundle : Nat)
  | runaheadEntry (bundle : Nat)
  | runaheadRestore (bundle : Nat)
  | wideningCall (hazel : Nat) (target : Word) (link : Fin 32)
  | launchForm (ctx : Nat) (qcb : Word)
  | dispatch (part : Nat)
  | teamRelease (team : Nat)
  -- hazel side of compute threads
  | arrival (t : ThreadId)
  | hazelReturn (t : ThreadId) (jalr target : Word) (img : Image)
  | nestedCrossing (t : ThreadId) (jal target : Word) (link : Fin 32) (img : Image)
  | hazelException (t : ThreadId) (exc : HazelExc) (pc tval : Word) (size acc : Nat) (img : Image)
  | serviceReply (ctx : Nat)
  -- hosts and fabric
  | hostRecord (link : Fin 2) (window : Nat) (off size : Nat) (record : List Word)
  | launchPacket (p : LaunchPacket)
  | hostAccess (link : Fin 2) (x : OuterAccess)
  | accountingPeriod
  -- page moves
  | moveRequest (iod : Fin 2)
  | moveRelease (move : Nat)
  | peerTimeout (move : Nat)
  | pinEnd (ctx : Nat) (vpage : Word)
  -- CSRs of the hazel cores: written with a value, or read
  | vkpcu (hazelCore : Nat) (machine : Bool) (v : Option Word)
  | vkblk (hazelCore : Nat) (machine : Bool) (v : Option Word)
  | vkqwin (hazelCore : Nat) (machine : Bool) (v : Option Word)
  | vkinj (hazelCore : Nat) (machine : Bool) (v : Option Word)
  | vkhome (hazelCore : Nat) (v : Option Word)
  -- losses, gating and power
  | injectedRailEvent (hazelCore : Nat) (stages : List (ThreadId × Nat))
  | unplannedLoss (core : Nat) (hard : Bool) (stages : List (ThreadId × Nat))
  | correctableError (core : Nat)
  | pewterError (w : PewterWhere)
  | plannedGating (core : Nat)
  | gatedCoreWake (core : Nat)
  | nearThresholdEntry (core : Nat) (lg : Fin 4)
  | nominalReturn (core : Nat) (lg : Fin 4)
  | railHoldExpiry (quad : Nat)
  | railSettled (quad : Nat)
  | clockMask (core : Nat) (mask : BitVec 32)
  | ptpSync (ahead : Bool)
  -- contexts and partitions
  | run (ctx : Nat)
  | runStart (ctx : Nat)
  | save (ctx : Nat)
  | saveStop (ctx : Nat)
  | terminate (ctx : Nat)
  | rearm (ctx : Nat)
  | partitionTableUpdate (p : PartDesc)
  | blockMoveRequest
  | removeAcknowledgment (block : Nat)
  | removeDeadline (block : Nat)
  | scrubComplete (block : Nat) (error : Bool)
  | addAcknowledgment (block : Nat)
  -- module
  | epoch
  | epochComplete
  | modulePowerLoss
  | powerRestore
  | spdmRequest (m : SpdmMsg)
  | bootStage (signatureGood : Bool)
  | hazelAccess (hazelCore : Nat) (x : HazelOp)
  | peerModuleAccess (module : Nat) (x : OuterAccess)
  | frozenGroupRestart (t : ThreadId) (pcs : List (ThreadId × Option Word))
  | frozenSourceClear (module : Nat)
  | waiterReread (t : ThreadId)
  | interlockedResultWrite (t : ThreadId) (k : Nat)
  deriving DecidableEq, Repr

end Sys2Proof
end

