-- ==== Sys2Proof/WellFormed.lean ====
section
/-! DEFINITION. Which instruction words are legal (R41-R47, R52, R62 and the entry of each instruction), and the classes of
instructions the reference names: pipe, segment end, commit instruction, length. -/

namespace Sys2Proof

/-- Number of one bits of an extension word. -/
def popcount32 (x : Ext) : Nat := ((List.range 32).filter fun i => x.getLsbD i).length

namespace Instr

/-- The header of an instruction word; `none` for a device event. -/
def hdr? : Instr → Option Hdr
  | add h .. | sub h .. | addw h .. | subw h .. | mul h .. | mulw h .. | mulh h .. | mulhz h .. | div h .. | divz h ..
  | rem h .. | remz h .. | min h .. | max h .. | minz h .. | maxz h .. | and h .. | or h .. | xor h .. | andn h .. | sll h ..
  | srl h .. | sra h .. | rot h .. | clz h .. | ctz h .. | popc h .. | brev h .. | bfx h .. | bfi h .. | clmul h .. | clmulh h ..
  | icmp h .. | sel h .. | sh1add h .. | sh2add h .. | sh3add h .. | sh4add h .. | plog h .. | pmovPg h .. | pmovGp h ..
  | gets h .. | sets h .. | entryw h .. | yield h .. | hresumeRetry h .. | hresumeKill h .. | hresumeTerm h .. | nop h ..
  | faddS h .. | fsubS h .. | fmulS h .. | ffmaS h .. | fminS h .. | fmaxS h .. | fdivS h .. | fsqrtS h ..
  | faddD h .. | fsubD h .. | fmulD h .. | ffmaD h .. | fminD h .. | fmaxD h .. | fdivD h .. | fsqrtD h ..
  | fcmpS h .. | fcmpD h .. | fcvt h .. | funaryS h .. | funaryD h .. | fmv h .. | pfmaH h .. | pfmaB h .. | fdotH h ..
  | fdotB h .. | idotB h .. | paddH h .. | pmulH h .. | pshuf h .. | ld h .. | st h .. | lda h .. | stl h .. | ldnr h ..
  | ldf h .. | stf h .. | pref h .. | pgreq h .. | atom h .. | cas h .. | fence h .. | pfenceCore h .. | pfenceModule h ..
  | waitc h .. | tlbiPage h .. | tlbiCtx h .. | tlbiPart h .. | next h .. | nextp h .. | nextg h .. | call h .. | callg h ..
  | ret h .. | exit h .. | region h .. | gsync h .. | vote h .. | shfl h .. | barSync h .. | barArr h .. | recd h .. | sysc h ..
  | trap h .. | brk h .. | mma h .. | mmas h .. | mmat h .. | accz h .. | accrd h .. | accwr h .. | acccvt h .. | txf h ..
  | txw h .. | scfg h .. | qpop h .. | qpush h .. | sctlStart h .. | sctlStop h .. | sctlDrain h .. => some h
  | yieldEnd .. | txwCompletion .. | streamReadAhead .. | load .. | store .. | rmw .. | fencePerform .. | drain .. | publish ..
  | durable .. | wake .. | expire .. | enqueue .. | granuleWrite .. | sectorWrite .. | completion .. | walk ..
  | faultQueueEntry .. | issue .. | mergeWindow .. | runaheadEntry .. | runaheadRestore .. | wideningCall .. | launchForm ..
  | dispatch .. | teamRelease .. | arrival .. | hazelReturn .. | nestedCrossing .. | hazelException .. | serviceReply ..
  | hostRecord .. | launchPacket .. | hostAccess .. | accountingPeriod | moveRequest .. | moveRelease .. | peerTimeout ..
  | pinEnd .. | vkpcu .. | vkblk .. | vkqwin .. | vkinj .. | vkhome .. | injectedRailEvent .. | unplannedLoss ..
  | correctableError .. | pewterError .. | plannedGating .. | gatedCoreWake .. | nearThresholdEntry .. | nominalReturn ..
  | railHoldExpiry .. | railSettled .. | clockMask .. | ptpSync .. | run .. | runStart .. | save .. | saveStop ..
  | terminate .. | rearm .. | partitionTableUpdate .. | blockMoveRequest | removeAcknowledgment .. | removeDeadline ..
  | scrubComplete .. | addAcknowledgment .. | epoch | epochComplete | modulePowerLoss | powerRestore | spdmRequest ..
  | bootStage .. | hazelAccess .. | peerModuleAccess .. | frozenGroupRestart .. | frozenSourceClear .. | waiterReread ..
  | interlockedResultWrite .. => none

/-- An instruction that ends its segment (R18). -/
def endsSegment : Instr → Bool
  | next .. | nextp .. | nextg .. | call .. | callg .. | ret .. | exit .. | region .. => true
  | _ => false

/-- A commit instruction other than a crossing call (R161, R185, R239): it must be directly followed by `region`. -/
def isCommit : Instr → Bool
  | atom .. | cas .. | waitc .. | stl .. | stf .. | barSync .. | barArr .. | recd .. | sysc .. | hresumeRetry ..
  | hresumeKill .. | hresumeTerm .. | txf .. | scfg .. | sctlStart .. | sctlStop .. | sctlDrain .. => true
  | ldf _ _ _ b _ => b.val / 8 % 2 == 1
  | _ => false

end Instr

/-- P = 0 with N = 1 is illegal in every instruction (R46). -/
def Hdr.guardOk (h : Hdr) : Bool := !(h.p == 0 && h.n)

/-- P = 0 and N = 0, as segment ends and `entryw` require (R47). -/
def Hdr.noGuard (h : Hdr) : Bool := h.p == 0 && !h.n

namespace WellFormed

/-- At most one extension word (R45). -/
def atMostOne : Exts → Bool
  | .two _ _ => false
  | _ => true

/-- The data register of a `.q` access is even (R135). -/
def evenPair (d b : Fin 32) : Bool := !(b.val % 8 == 4) || d.val % 2 == 0

/-- A target offset is a multiple of 12 (R45). -/
def offset12 (e : Ext) : Bool := e.toInt % 12 == 0

/-- The masks of a `region` (R45, R183): bit 0 of the g mask is 0, and at most 16 bits are set in all. -/
def regionMasks (e1 e2 : Ext) : Bool := !e1.getLsbD 0 && popcount32 e1 + popcount32 e2 ≤ 16

/-- The special registers of R26 that are not reserved. -/
def specialNumber (n : Fin 32) : Bool := n.val ≤ 19 || (24 ≤ n.val && n.val ≤ 26)

/-- The special registers with write access at some level (R26). -/
def specialWritable (n : Fin 32) : Bool := n.val == 15 || (24 ≤ n.val && n.val ≤ 26)

/-- The size codes an `ld` into the class of A[4] accepts (R135, R141). -/
def ldSize (a b : Fin 32) : Bool :=
  let z := b.val % 8
  a.val / 16 == 0 || z == 3 || z == 4 || z == 6 || z == 7

/-- The limits each entry sets on its fields, beside those the syntax already makes. -/
def fields : Instr → Bool
  | .plog _ fn _ _ _ _ _ => fn != 3
  | .gets _ _ sr => specialNumber sr
  | .sets _ sr _ => specialWritable sr
  | .fcvt _ _ _ code => code.val ≤ 25
  | .funaryS _ _ _ code | .funaryD _ _ _ code => code.val ≤ 9
  | .fmv _ _ _ code => code.val ≤ 2
  | .ld _ d a b e => atMostOne e && ldSize a b && evenPair d b
  | .st _ d _ b e => atMostOne e && b.val % 8 ≤ 4 && evenPair d b
  | .lda _ d _ b e => atMostOne e && evenPair d b
  | .stl _ d _ b e => atMostOne e && b.val % 8 ≤ 4 && evenPair d b
  | .ldnr _ _ _ b e => atMostOne e && b.val % 8 != 4
  | .ldf _ d _ b e | .stf _ d _ b e =>
    atMostOne e && (b.val % 8 == 3 || b.val % 8 == 4) && b.val / 16 == 0 && evenPair d b
  | .pref _ _ b e => atMostOne e && b.val < 3
  | .pgreq _ _ _ e => atMostOne e
  | .atom _ _ _ _ e => atMostOne e
  | .cas _ d _ b e => atMostOne e && d.val % 2 == 0 && b.val / 2 % 4 == 0
  | .fence _ b => b.val / 4 ≤ 5
  | .next _ e1 | .call _ e1 => offset12 e1
  | .nextp _ e1 e2 => offset12 e1 && offset12 e2
  | .region _ e1 e2 => regionMasks e1 e2
  | .vote _ _ _ _ code => code.val ≤ 3
  | .barSync _ a _ | .barArr _ a _ => a.val < 16
  | .recd _ d _ => d.val % 8 == 0
  | .trap _ e | .brk _ e => atMostOne e
  | _ => true

/-- The guard and the chain bit of an instruction word (R46, R47, R186). A segment end with C = 1 breaks a limit of its chain
(R52), not of its own word. -/
def header (i : Instr) : Bool :=
  match i.hdr? with
  | none => true
  | some h =>
    h.guardOk
    && (match i with
        | .nextp .. => true
        | .entryw .. => h.noGuard
        | _ => if i.endsSegment then h.noGuard else !(i.isCommit && h.c))

end WellFormed

/-- The word of `i` is a legal instruction by itself (R62). -/
def Instr.wf (i : Instr) : Bool := WellFormed.header i && WellFormed.fields i

end Sys2Proof
end

