-- ==== Sys2Proof/Decode.lean ====
section
/-! DEFINITION. Decoding of instruction words and their extension words (R41-R45, R60-R62), total on any words and bytes,
and the encoder written from the same tables. A word with a non-zero unused field is refused: its fields do not come
back from the encoder (R43). -/

namespace Sys2Proof

/-- Why words are no instruction (R62). -/
inductive DecodeError where
  /-- Fewer words than the instruction word's L asks for. -/
  | truncated
  /-- L = 3 (R42). -/
  | lengthThree
  /-- An unassigned opcode or reserved sub-code (R60, R43). -/
  | unassigned
  /-- A non-zero unused field, an L the entry does not accept, or a limit of the entry (R43-R47). -/
  | illegalField
  deriving DecidableEq, Repr

/-- The fields of an instruction word with its extension words (R41, R42). -/
structure Raw where
  c : Bool
  s : Fin 8
  l : Fin 4
  op : Fin 128
  d : Fin 32
  a : Fin 32
  b : Fin 32
  n : Bool
  p : Fin 8
  e1 : Ext
  e2 : Ext
  deriving DecidableEq, Repr

/-- Fields packed into D, A or B: a condition over a predicate, an inversion over a predicate, a class bit over a
queue (R107, R110, R190, R236). -/
def condPred (cond : Fin 4) (pd : Fin 8) : Fin 32 := ⟨cond.val * 8 + pd.val, by omega⟩
def invPred (inv : Bool) (p : Fin 8) : Fin 32 := ⟨inv.toNat * 8 + p.val, by have := Bool.toNat_lt inv; omega⟩
def classQueue (isF : Bool) (q : Fin 8) : Fin 32 := ⟨isF.toNat * 16 + q.val, by have := Bool.toNat_lt isF; omega⟩
def hi4 (x : Fin 32) : Fin 4 := ⟨x.val / 8, by omega⟩
def lo8 (x : Fin 32) : Fin 8 := ⟨x.val % 8, by omega⟩
def bit0 (x : Fin 32) : Bool := x.val % 2 == 1
def bit3 (x : Fin 32) : Bool := x.val / 8 % 2 == 1
def bit4 (x : Fin 32) : Bool := x.val / 16 == 1

namespace Raw

/-- The header fields. -/
def hdr (r : Raw) : Hdr := ⟨r.c, r.s, r.n, r.p⟩

/-- The second source that L and B name (R44). -/
def src2 (r : Raw) : Src2 :=
  match r.l.val with
  | 0 => .reg r.b
  | 1 => .imm r.e1
  | _ => .imm64 r.e1 r.e2

/-- The extension words of row 5 (R45). -/
def exts (r : Raw) : Exts :=
  match r.l.val with
  | 0 => .none
  | 1 => .one r.e1
  | _ => .two r.e1 r.e2

/-- The register or extension word of `gsync` and `txw` (R45). -/
def regOrExt (r : Raw) : RegOrExt := if r.l.val = 0 then .reg r.a else .ext r.e1

/-- Words without extension words. -/
def dab (op : Fin 128) (h : Hdr) (d a b : Fin 32) : Raw := ⟨h.c, h.s, 0, op, d, a, b, h.n, h.p, 0, 0⟩

/-- Words of rows 0-4 with a second source. -/
def bin (op : Fin 128) (h : Hdr) (d a : Fin 32) : Src2 → Raw
  | .reg b => ⟨h.c, h.s, 0, op, d, a, b, h.n, h.p, 0, 0⟩
  | .imm e1 => ⟨h.c, h.s, 1, op, d, a, 0, h.n, h.p, e1, 0⟩
  | .imm64 e1 e2 => ⟨h.c, h.s, 2, op, d, a, 0, h.n, h.p, e1, e2⟩

/-- Words of row 5, `trap` and `brk`. -/
def mem (op : Fin 128) (h : Hdr) (d a b : Fin 32) : Exts → Raw
  | .none => ⟨h.c, h.s, 0, op, d, a, b, h.n, h.p, 0, 0⟩
  | .one e1 => ⟨h.c, h.s, 1, op, d, a, b, h.n, h.p, e1, 0⟩
  | .two e1 e2 => ⟨h.c, h.s, 2, op, d, a, b, h.n, h.p, e1, e2⟩

/-- Words of `gsync` and `txw`. -/
def regOrE (op : Fin 128) (h : Hdr) : RegOrExt → Raw
  | .reg a => ⟨h.c, h.s, 0, op, 0, a, 0, h.n, h.p, 0, 0⟩
  | .ext e1 => ⟨h.c, h.s, 1, op, 0, 0, 0, h.n, h.p, e1, 0⟩

/-- Words whose operands are extension words alone. -/
def ext1 (op : Fin 128) (h : Hdr) (e1 : Ext) : Raw := ⟨h.c, h.s, 1, op, 0, 0, 0, h.n, h.p, e1, 0⟩
def ext2 (op : Fin 128) (h : Hdr) (e1 e2 : Ext) : Raw := ⟨h.c, h.s, 2, op, 0, 0, 0, h.n, h.p, e1, e2⟩

/-- The fields of a 32-bit instruction word (R41), with its extension words still zero. -/
def ofWord (w : Nat) : Raw :=
  { c := w / 2 ^ 31 % 2 == 1, s := ⟨w / 2 ^ 28 % 8, by omega⟩, l := ⟨w / 2 ^ 26 % 4, by omega⟩
    op := ⟨w / 2 ^ 19 % 128, by omega⟩, d := ⟨w / 2 ^ 14 % 32, by omega⟩, a := ⟨w / 2 ^ 9 % 32, by omega⟩
    b := ⟨w / 2 ^ 4 % 32, by omega⟩, n := w / 2 ^ 3 % 2 == 1, p := ⟨w % 8, by omega⟩, e1 := 0, e2 := 0 }

/-- The instruction word of the fields (R41). -/
def word (r : Raw) : Nat :=
  r.c.toNat * 2 ^ 31 + r.s.val * 2 ^ 28 + r.l.val * 2 ^ 26 + r.op.val * 2 ^ 19 + r.d.val * 2 ^ 14 + r.a.val * 2 ^ 9
    + r.b.val * 2 ^ 4 + r.n.toNat * 2 ^ 3 + r.p.val

end Raw

/-- Row 0 of the opcode map (R60). -/
def decodeRow0 (r : Raw) (h : Hdr) : Nat → Option Instr
  | 0x0 => some (.add h r.d r.a r.src2)
  | 0x1 => some (.sub h r.d r.a r.src2)
  | 0x2 => some (.addw h r.d r.a r.src2)
  | 0x3 => some (.subw h r.d r.a r.src2)
  | 0x4 => some (.mul h r.d r.a r.src2)
  | 0x5 => some (.mulw h r.d r.a r.src2)
  | 0x6 => some (.mulh h r.d r.a r.src2)
  | 0x7 => some (.mulhz h r.d r.a r.src2)
  | 0x8 => some (.div h r.d r.a r.src2)
  | 0x9 => some (.divz h r.d r.a r.src2)
  | 0xA => some (.rem h r.d r.a r.src2)
  | 0xB => some (.remz h r.d r.a r.src2)
  | 0xC => some (.min h r.d r.a r.src2)
  | 0xD => some (.max h r.d r.a r.src2)
  | 0xE => some (.minz h r.d r.a r.src2)
  | 0xF => some (.maxz h r.d r.a r.src2)
  | _ => none

/-- Row 1 of the opcode map (R60). -/
def decodeRow1 (r : Raw) (h : Hdr) : Nat → Option Instr
  | 0x0 => some (.and h r.d r.a r.src2)
  | 0x1 => some (.or h r.d r.a r.src2)
  | 0x2 => some (.xor h r.d r.a r.src2)
  | 0x3 => some (.andn h r.d r.a r.src2)
  | 0x4 => some (.sll h r.d r.a r.src2)
  | 0x5 => some (.srl h r.d r.a r.src2)
  | 0x6 => some (.sra h r.d r.a r.src2)
  | 0x7 => some (.rot h r.d r.a r.src2)
  | 0x8 => some (.clz h r.d r.a)
  | 0x9 => some (.ctz h r.d r.a)
  | 0xA => some (.popc h r.d r.a)
  | 0xB => some (.brev h r.d r.a)
  | 0xC => some (.bfx h r.d r.a r.src2)
  | 0xD => some (.bfi h r.d r.a r.src2)
  | 0xE => some (.clmul h r.d r.a r.src2)
  | 0xF => some (.clmulh h r.d r.a r.src2)
  | _ => none

/-- Row 2 of the opcode map (R60). -/
def decodeRow2 (r : Raw) (h : Hdr) : Nat → Option Instr
  | 0x0 => some (.icmp h (hi4 r.d) (lo8 r.d) r.a r.src2)
  | 0x1 => some (.sel h r.d r.a r.src2)
  | 0x2 => some (.sh1add h r.d r.a r.src2)
  | 0x3 => some (.sh2add h r.d r.a r.src2)
  | 0x4 => some (.sh3add h r.d r.a r.src2)
  | 0x5 => some (.sh4add h r.d r.a r.src2)
  | 0x6 => some (.plog h (hi4 r.d) (lo8 r.d) (bit3 r.a) (lo8 r.a) (bit3 r.b) (lo8 r.b))
  | 0x7 => if r.b.val = 0 then some (.pmovPg h r.d) else if r.b.val = 1 then some (.pmovGp h r.a) else none
  | 0x8 => some (.gets h r.d r.a)
  | 0x9 => some (.sets h r.d r.src2)
  | 0xA => some (.entryw h)
  | 0xB => some (.yield h r.src2)
  | 0xC => if r.d.val = 0 then some (.hresumeRetry h r.a) else if r.d.val = 1 then some (.hresumeKill h r.a) else if r.d.val = 2 then some (.hresumeTerm h r.a) else none
  | 0xF => some (.nop h)
  | _ => none

/-- Row 3 of the opcode map (R60). -/
def decodeRow3 (r : Raw) (h : Hdr) : Nat → Option Instr
  | 0x0 => some (.faddS h r.d r.a r.src2)
  | 0x1 => some (.fsubS h r.d r.a r.src2)
  | 0x2 => some (.fmulS h r.d r.a r.src2)
  | 0x3 => some (.ffmaS h r.d r.a r.src2)
  | 0x4 => some (.fminS h r.d r.a r.src2)
  | 0x5 => some (.fmaxS h r.d r.a r.src2)
  | 0x6 => some (.fdivS h r.d r.a r.src2)
  | 0x7 => some (.fsqrtS h r.d r.a)
  | 0x8 => some (.faddD h r.d r.a r.src2)
  | 0x9 => some (.fsubD h r.d r.a r.src2)
  | 0xA => some (.fmulD h r.d r.a r.src2)
  | 0xB => some (.ffmaD h r.d r.a r.src2)
  | 0xC => some (.fminD h r.d r.a r.src2)
  | 0xD => some (.fmaxD h r.d r.a r.src2)
  | 0xE => some (.fdivD h r.d r.a r.src2)
  | 0xF => some (.fsqrtD h r.d r.a)
  | _ => none

/-- Row 4 of the opcode map (R60). -/
def decodeRow4 (r : Raw) (h : Hdr) : Nat → Option Instr
  | 0x0 => some (.fcmpS h (hi4 r.d) (lo8 r.d) r.a r.src2)
  | 0x1 => some (.fcmpD h (hi4 r.d) (lo8 r.d) r.a r.src2)
  | 0x2 => some (.fcvt h r.d r.a r.b)
  | 0x3 => some (.funaryS h r.d r.a r.b)
  | 0x4 => some (.funaryD h r.d r.a r.b)
  | 0x5 => some (.fmv h r.d r.a r.b)
  | 0x6 => some (.pfmaH h r.d r.a r.src2)
  | 0x7 => some (.pfmaB h r.d r.a r.src2)
  | 0x8 => some (.fdotH h r.d r.a r.src2)
  | 0x9 => some (.fdotB h r.d r.a r.src2)
  | 0xA => some (.idotB h r.d r.a r.src2)
  | 0xB => some (.paddH h r.d r.a r.src2)
  | 0xC => some (.pmulH h r.d r.a r.src2)
  | 0xD => some (.pshuf h r.d r.a r.src2)
  | _ => none

/-- Row 5 of the opcode map (R60). -/
def decodeRow5 (r : Raw) (h : Hdr) : Nat → Option Instr
  | 0x0 => some (.ld h r.d r.a r.b r.exts)
  | 0x1 => some (.st h r.d r.a r.b r.exts)
  | 0x2 => some (.lda h r.d r.a r.b r.exts)
  | 0x3 => some (.stl h r.d r.a r.b r.exts)
  | 0x4 => some (.ldnr h r.d r.a r.b r.exts)
  | 0x5 => some (.ldf h r.d r.a r.b r.exts)
  | 0x6 => some (.stf h r.d r.a r.b r.exts)
  | 0x7 => some (.pref h r.a r.b r.exts)
  | 0x8 => some (.pgreq h r.d r.a r.exts)
  | 0x9 => some (.atom h r.d r.a r.b r.exts)
  | 0xA => some (.cas h r.d r.a r.b r.exts)
  | 0xB => some (.fence h r.b)
  | 0xC => if r.b.val = 0 then some (.pfenceCore h) else if r.b.val = 1 then some (.pfenceModule h) else none
  | 0xD => some (.waitc h (hi4 r.d) (lo8 r.d) r.a r.b r.exts)
  | 0xE => if r.b.val = 0 then some (.tlbiPage h r.d r.a) else if r.b.val = 1 then some (.tlbiCtx h r.d) else if r.b.val = 2 then some (.tlbiPart h r.d) else none
  | _ => none

/-- Row 6 of the opcode map (R60). -/
def decodeRow6 (r : Raw) (h : Hdr) : Nat → Option Instr
  | 0x0 => some (.next h r.e1)
  | 0x1 => some (.nextp h r.e1 r.e2)
  | 0x2 => some (.nextg h r.a)
  | 0x3 => some (.call h r.e1)
  | 0x4 => some (.callg h r.a)
  | 0x5 => some (.ret h r.a)
  | 0x6 => some (.exit h)
  | 0x7 => some (.region h r.e1 r.e2)
  | 0x8 => some (.gsync h r.regOrExt)
  | 0x9 => some (.vote h r.d (bit3 r.a) (lo8 r.a) r.b)
  | 0xA => some (.shfl h r.d r.a r.b)
  | 0xB => if r.d.val = 0 then some (.barSync h r.a r.b) else if r.d.val = 1 then some (.barArr h r.a r.b) else none
  | 0xC => some (.recd h r.d r.a)
  | 0xD => some (.sysc h r.a)
  | 0xE => some (.trap h r.exts)
  | 0xF => some (.brk h r.exts)
  | _ => none

/-- Row 7 of the opcode map (R60). -/
def decodeRow7 (r : Raw) (h : Hdr) : Nat → Option Instr
  | 0x0 => some (.mma h r.d r.a r.b)
  | 0x1 => some (.mmas h r.d r.a r.b)
  | 0x2 => some (.mmat h r.d r.a r.b)
  | 0x3 => some (.accz h r.d)
  | 0x4 => some (.accrd h r.d r.a r.b)
  | 0x5 => some (.accwr h r.d r.a r.b)
  | 0x6 => some (.acccvt h r.a r.b)
  | 0x7 => some (.txf h r.a)
  | 0x8 => some (.txw h r.regOrExt)
  | 0x9 => some (.scfg h (lo8 r.d) r.a)
  | 0xA => some (.qpop h r.d (bit4 r.a) (lo8 r.a) (lo8 r.b))
  | 0xB => some (.qpush h (lo8 r.d) r.a (bit0 r.b))
  | 0xC => if r.b.val = 0 then some (.sctlStart h (lo8 r.d)) else if r.b.val = 1 then some (.sctlStop h (lo8 r.d)) else if r.b.val = 2 then some (.sctlDrain h (lo8 r.d)) else none
  | _ => none

/-- The instruction that the opcode and sub-codes name (R60). -/
def Instr.ofRaw (r : Raw) : Option Instr :=
  let k := r.op.val % 16
  match r.op.val / 16 with
  | 0 => decodeRow0 r r.hdr k
  | 1 => decodeRow1 r r.hdr k
  | 2 => decodeRow2 r r.hdr k
  | 3 => decodeRow3 r r.hdr k
  | 4 => decodeRow4 r r.hdr k
  | 5 => decodeRow5 r r.hdr k
  | 6 => decodeRow6 r r.hdr k
  | _ => decodeRow7 r r.hdr k

/-- The fields of an instruction; `none` for a device event, which has no word. -/
def Instr.toRaw : Instr → Option Raw
  | .add h d a b => some (Raw.bin 0x00 h d a b)
  | .sub h d a b => some (Raw.bin 0x01 h d a b)
  | .addw h d a b => some (Raw.bin 0x02 h d a b)
  | .subw h d a b => some (Raw.bin 0x03 h d a b)
  | .mul h d a b => some (Raw.bin 0x04 h d a b)
  | .mulw h d a b => some (Raw.bin 0x05 h d a b)
  | .mulh h d a b => some (Raw.bin 0x06 h d a b)
  | .mulhz h d a b => some (Raw.bin 0x07 h d a b)
  | .div h d a b => some (Raw.bin 0x08 h d a b)
  | .divz h d a b => some (Raw.bin 0x09 h d a b)
  | .rem h d a b => some (Raw.bin 0x0A h d a b)
  | .remz h d a b => some (Raw.bin 0x0B h d a b)
  | .min h d a b => some (Raw.bin 0x0C h d a b)
  | .max h d a b => some (Raw.bin 0x0D h d a b)
  | .minz h d a b => some (Raw.bin 0x0E h d a b)
  | .maxz h d a b => some (Raw.bin 0x0F h d a b)
  | .and h d a b => some (Raw.bin 0x10 h d a b)
  | .or h d a b => some (Raw.bin 0x11 h d a b)
  | .xor h d a b => some (Raw.bin 0x12 h d a b)
  | .andn h d a b => some (Raw.bin 0x13 h d a b)
  | .sll h d a b => some (Raw.bin 0x14 h d a b)
  | .srl h d a b => some (Raw.bin 0x15 h d a b)
  | .sra h d a b => some (Raw.bin 0x16 h d a b)
  | .rot h d a b => some (Raw.bin 0x17 h d a b)
  | .bfx h d a b => some (Raw.bin 0x1C h d a b)
  | .bfi h d a b => some (Raw.bin 0x1D h d a b)
  | .clmul h d a b => some (Raw.bin 0x1E h d a b)
  | .clmulh h d a b => some (Raw.bin 0x1F h d a b)
  | .sel h d a b => some (Raw.bin 0x21 h d a b)
  | .sh1add h d a b => some (Raw.bin 0x22 h d a b)
  | .sh2add h d a b => some (Raw.bin 0x23 h d a b)
  | .sh3add h d a b => some (Raw.bin 0x24 h d a b)
  | .sh4add h d a b => some (Raw.bin 0x25 h d a b)
  | .faddS h d a b => some (Raw.bin 0x30 h d a b)
  | .fsubS h d a b => some (Raw.bin 0x31 h d a b)
  | .fmulS h d a b => some (Raw.bin 0x32 h d a b)
  | .ffmaS h d a b => some (Raw.bin 0x33 h d a b)
  | .fminS h d a b => some (Raw.bin 0x34 h d a b)
  | .fmaxS h d a b => some (Raw.bin 0x35 h d a b)
  | .fdivS h d a b => some (Raw.bin 0x36 h d a b)
  | .faddD h d a b => some (Raw.bin 0x38 h d a b)
  | .fsubD h d a b => some (Raw.bin 0x39 h d a b)
  | .fmulD h d a b => some (Raw.bin 0x3A h d a b)
  | .ffmaD h d a b => some (Raw.bin 0x3B h d a b)
  | .fminD h d a b => some (Raw.bin 0x3C h d a b)
  | .fmaxD h d a b => some (Raw.bin 0x3D h d a b)
  | .fdivD h d a b => some (Raw.bin 0x3E h d a b)
  | .pfmaH h d a b => some (Raw.bin 0x46 h d a b)
  | .pfmaB h d a b => some (Raw.bin 0x47 h d a b)
  | .fdotH h d a b => some (Raw.bin 0x48 h d a b)
  | .fdotB h d a b => some (Raw.bin 0x49 h d a b)
  | .idotB h d a b => some (Raw.bin 0x4A h d a b)
  | .paddH h d a b => some (Raw.bin 0x4B h d a b)
  | .pmulH h d a b => some (Raw.bin 0x4C h d a b)
  | .pshuf h d a b => some (Raw.bin 0x4D h d a b)
  | .clz h d a => some (Raw.dab 0x18 h d a 0)
  | .ctz h d a => some (Raw.dab 0x19 h d a 0)
  | .popc h d a => some (Raw.dab 0x1A h d a 0)
  | .brev h d a => some (Raw.dab 0x1B h d a 0)
  | .fsqrtS h d a => some (Raw.dab 0x37 h d a 0)
  | .fsqrtD h d a => some (Raw.dab 0x3F h d a 0)
  | .fcvt h d a code => some (Raw.dab 0x42 h d a code)
  | .funaryS h d a code => some (Raw.dab 0x43 h d a code)
  | .funaryD h d a code => some (Raw.dab 0x44 h d a code)
  | .fmv h d a code => some (Raw.dab 0x45 h d a code)
  | .ld h d a b e => some (Raw.mem 0x50 h d a b e)
  | .st h d a b e => some (Raw.mem 0x51 h d a b e)
  | .lda h d a b e => some (Raw.mem 0x52 h d a b e)
  | .stl h d a b e => some (Raw.mem 0x53 h d a b e)
  | .ldnr h d a b e => some (Raw.mem 0x54 h d a b e)
  | .ldf h d a b e => some (Raw.mem 0x55 h d a b e)
  | .stf h d a b e => some (Raw.mem 0x56 h d a b e)
  | .atom h d a b e => some (Raw.mem 0x59 h d a b e)
  | .cas h d a b e => some (Raw.mem 0x5A h d a b e)
  | .icmp h cond pd a b => some (Raw.bin 0x20 h (condPred cond pd) a b)
  | .fcmpS h cond pd a b => some (Raw.bin 0x40 h (condPred cond pd) a b)
  | .fcmpD h cond pd a b => some (Raw.bin 0x41 h (condPred cond pd) a b)
  | .plog h fn pd ia pa ib pb => some (Raw.dab 0x26 h (condPred fn pd) (invPred ia pa) (invPred ib pb))
  | .pmovPg h d => some (Raw.dab 0x27 h d 0 0)
  | .pmovGp h a => some (Raw.dab 0x27 h 0 a 1)
  | .gets h d sr => some (Raw.dab 0x28 h d sr 0)
  | .sets h sr b => some (Raw.bin 0x29 h sr 0 b)
  | .entryw h => some (Raw.dab 0x2A h 0 0 0)
  | .yield h b => some (Raw.bin 0x2B h 0 0 b)
  | .hresumeRetry h a => some (Raw.dab 0x2C h 0 a 0)
  | .hresumeKill h a => some (Raw.dab 0x2C h 1 a 0)
  | .hresumeTerm h a => some (Raw.dab 0x2C h 2 a 0)
  | .nop h => some (Raw.dab 0x2F h 0 0 0)
  | .pref h a b e => some (Raw.mem 0x57 h 0 a b e)
  | .pgreq h d a e => some (Raw.mem 0x58 h d a 0 e)
  | .fence h b => some (Raw.dab 0x5B h 0 0 b)
  | .pfenceCore h => some (Raw.dab 0x5C h 0 0 0)
  | .pfenceModule h => some (Raw.dab 0x5C h 0 0 1)
  | .waitc h cond pd a b e => some (Raw.mem 0x5D h (condPred cond pd) a b e)
  | .tlbiPage h d a => some (Raw.dab 0x5E h d a 0)
  | .tlbiCtx h d => some (Raw.dab 0x5E h d 0 1)
  | .tlbiPart h d => some (Raw.dab 0x5E h d 0 2)
  | .next h e1 => some (Raw.ext1 0x60 h e1)
  | .nextp h e1 e2 => some (Raw.ext2 0x61 h e1 e2)
  | .nextg h a => some (Raw.dab 0x62 h 0 a 0)
  | .call h e1 => some (Raw.ext1 0x63 h e1)
  | .callg h a => some (Raw.dab 0x64 h 0 a 0)
  | .ret h a => some (Raw.dab 0x65 h 0 a 0)
  | .exit h => some (Raw.dab 0x66 h 0 0 0)
  | .region h e1 e2 => some (Raw.ext2 0x67 h e1 e2)
  | .gsync h m => some (Raw.regOrE 0x68 h m)
  | .vote h d inv pa code => some (Raw.dab 0x69 h d (invPred inv pa) code)
  | .shfl h d a b => some (Raw.dab 0x6A h d a b)
  | .barSync h a b => some (Raw.dab 0x6B h 0 a b)
  | .barArr h a b => some (Raw.dab 0x6B h 1 a b)
  | .recd h d a => some (Raw.dab 0x6C h d a 0)
  | .sysc h a => some (Raw.dab 0x6D h 0 a 0)
  | .trap h e => some (Raw.mem 0x6E h 0 0 0 e)
  | .brk h e => some (Raw.mem 0x6F h 0 0 0 e)
  | .mma h d a b => some (Raw.dab 0x70 h d a b)
  | .mmas h d a b => some (Raw.dab 0x71 h d a b)
  | .mmat h d a b => some (Raw.dab 0x72 h d a b)
  | .accrd h d a b => some (Raw.dab 0x74 h d a b)
  | .accwr h d a b => some (Raw.dab 0x75 h d a b)
  | .accz h d => some (Raw.dab 0x73 h d 0 0)
  | .acccvt h a b => some (Raw.dab 0x76 h 0 a b)
  | .txf h a => some (Raw.dab 0x77 h 0 a 0)
  | .txw h m => some (Raw.regOrE 0x78 h m)
  | .scfg h q a => some (Raw.dab 0x79 h (invPred false q) a 0)
  | .qpop h d isF q pv => some (Raw.dab 0x7A h d (classQueue isF q) (invPred false pv))
  | .qpush h q a isF => some (Raw.dab 0x7B h (invPred false q) a (if isF then 1 else 0))
  | .sctlStart h q => some (Raw.dab 0x7C h (invPred false q) 0 0)
  | .sctlStop h q => some (Raw.dab 0x7C h (invPred false q) 0 1)
  | .sctlDrain h q => some (Raw.dab 0x7C h (invPred false q) 0 2)
  | .yieldEnd .. | .txwCompletion .. | .streamReadAhead .. | .load .. | .store .. | .rmw .. | .fencePerform .. | .drain .. | .publish .. | .durable .. | .wake .. | .expire .. | .enqueue .. | .granuleWrite .. | .sectorWrite .. | .completion .. | .walk .. | .faultQueueEntry .. | .issue .. | .mergeWindow .. | .runaheadEntry .. | .runaheadRestore .. | .wideningCall .. | .launchForm .. | .dispatch .. | .teamRelease .. | .arrival .. | .hazelReturn .. | .nestedCrossing .. | .hazelException .. | .serviceReply .. | .hostRecord .. | .launchPacket .. | .hostAccess .. | .accountingPeriod | .moveRequest .. | .moveRelease .. | .peerTimeout .. | .pinEnd .. | .vkpcu .. | .vkblk .. | .vkqwin .. | .vkinj .. | .vkhome .. | .injectedRailEvent .. | .unplannedLoss .. | .correctableError .. | .pewterError .. | .plannedGating .. | .gatedCoreWake .. | .nearThresholdEntry .. | .nominalReturn .. | .railHoldExpiry .. | .railSettled .. | .clockMask .. | .ptpSync .. | .run .. | .runStart .. | .save .. | .saveStop .. | .terminate .. | .rearm .. | .partitionTableUpdate .. | .blockMoveRequest | .removeAcknowledgment .. | .removeDeadline .. | .scrubComplete .. | .addAcknowledgment .. | .epoch | .epochComplete | .modulePowerLoss | .powerRestore | .spdmRequest .. | .bootStage .. | .hazelAccess .. | .peerModuleAccess .. | .frozenGroupRestart .. | .frozenSourceClear .. | .waiterReread .. | .interlockedResultWrite .. => none

/-- Decodes the fields: the opcode names an instruction, every unused field is zero (R43) and the word is legal. -/
def decodeRaw (r : Raw) : Except DecodeError Instr :=
  if r.l.val = 3 then .error .lengthThree
  else match Instr.ofRaw r with
    | none => .error .unassigned
    | some i => if i.toRaw = some r ∧ i.wf = true then .ok i else .error .illegalField

/-- The number of words of an instruction, from its first word (R42). -/
def wordCount (w : Nat) : Nat := 1 + w / 2 ^ 26 % 4

/-- Decodes the instruction that begins a list of words, and says how many words it takes. -/
def decodeWords : List (BitVec 32) → Except DecodeError (Instr × Nat)
  | [] => .error .truncated
  | w :: rest =>
    let r := Raw.ofWord w.toNat
    match r.l.val, rest with
    | 0, _ => (decodeRaw r).map (·, 1)
    | 1, e1 :: _ => (decodeRaw { r with e1 := e1 }).map (·, 2)
    | 2, e1 :: e2 :: _ => (decodeRaw { r with e1 := e1, e2 := e2 }).map (·, 3)
    | 3, _ => .error .lengthThree
    | _, _ => .error .truncated

/-- A word from four bytes, the lowest address first (R7). -/
def wordOfBytes (b0 b1 b2 b3 : Byte) : BitVec 32 := b3 ++ b2 ++ b1 ++ b0

/-- The bytes of a word, the lowest address first (R7). -/
def bytesOfWord (w : BitVec 32) : List Byte :=
  [w.extractLsb' 0 8, w.extractLsb' 8 8, w.extractLsb' 16 8, w.extractLsb' 24 8]

/-- Groups bytes into words; a tail of fewer than four bytes is dropped. -/
def wordsOfBytes : List Byte → List (BitVec 32)
  | b0 :: b1 :: b2 :: b3 :: rest => wordOfBytes b0 b1 b2 b3 :: wordsOfBytes rest
  | _ => []

/-- Decodes the instruction that begins a list of bytes. -/
def decodeBytes (bs : List Byte) : Except DecodeError (Instr × Nat) := decodeWords (wordsOfBytes bs)

/-- The words of the fields, as many as L says (R42). -/
def Raw.words (r : Raw) : List (BitVec 32) :=
  BitVec.ofNat 32 r.word :: (if r.l.val = 0 then [] else if r.l.val = 1 then [r.e1] else [r.e1, r.e2])

/-- The words of an instruction; none for a device event. -/
def encode (i : Instr) : List (BitVec 32) :=
  match i.toRaw with
  | some r => r.words
  | none => []

/-- The number of words of an instruction (R42); 0 for a device event. -/
def Instr.words (i : Instr) : Nat :=
  match i.toRaw with
  | some r => 1 + r.l.val
  | none => 0

/-- The instruction whose bits are `w`, numbered as the opcode table numbers them: bit 0 is the least significant bit of
the first word, and a later word's bits count on from it; bits at and above `nbits` are zero. -/
def decodeTableWord (nbits w : Nat) : Option Instr :=
  let v := w % 2 ^ nbits
  match decodeWords [BitVec.ofNat 32 v, BitVec.ofNat 32 (v / 2 ^ 32), BitVec.ofNat 32 (v / 2 ^ 64)] with
  | .ok (i, _) => some i
  | .error _ => none

end Sys2Proof
end

