-- ==== Sys2Proof/Machine/Checkpoint.lean ====
section
/-! DEFINITION. Checkpoint slots of the pewter shadow (R351-R353) and their check code. -/

namespace Sys2Proof.Machine

/-- A checkpoint slot (R351). `live` holds the live-in values: g registers in ascending number, then f registers. -/
structure CkSlot where
  seqh : BitVec 32
  flags : BitVec 32
  pc : Word
  gmask : Ext
  fmask : Ext
  mode : Word
  pred : Byte
  live : List Word
  crc : BitVec 32
  seqt : BitVec 32
  deriving DecidableEq, Repr

/-- The `n` bytes of a number, the least significant first (R7). -/
def bytesLE : (n : Nat) → Nat → List Byte
  | 0, _ => []
  | n + 1, v => BitVec.ofNat 8 v :: bytesLE n (v / 256)

/-- One bit step of CRC-32C (Castagnoli), reflected form. -/
def crcBit (c : Nat) : Nat := if c % 2 = 1 then (c / 2) ^^^ 0x82F63B78 else c / 2

/-- One byte step of CRC-32C. -/
def crcByte (c : Nat) (b : Byte) : Nat :=
  crcBit (crcBit (crcBit (crcBit (crcBit (crcBit (crcBit (crcBit (c ^^^ b.toNat))))))))

/-- CRC-32C (Castagnoli) of a list of bytes. -/
def crc32c (bs : List Byte) : BitVec 32 := BitVec.ofNat 32 ((bs.foldl crcByte 0xFFFFFFFF) ^^^ 0xFFFFFFFF)

namespace CkSlot

/-- Bytes 0-631 of the slot (R351). -/
def body (k : CkSlot) : List Byte :=
  bytesLE 4 k.seqh.toNat ++ bytesLE 4 k.flags.toNat ++ bytesLE 8 k.pc.toNat ++ bytesLE 4 k.gmask.toNat
    ++ bytesLE 4 k.fmask.toNat ++ bytesLE 8 k.mode.toNat ++ [k.pred] ++ List.replicate 7 0
    ++ ((k.live.take 64).flatMap fun w => bytesLE 8 w.toNat) ++ List.replicate (8 * (64 - (k.live.take 64).length)) 0
    ++ List.replicate 80 0

/-- All 640 bytes of the slot (R351). -/
def bytes (k : CkSlot) : List Byte := k.body ++ bytesLE 4 k.crc.toNat ++ bytesLE 4 k.seqt.toNat

/-- The slot with its check code and its closing serial written. -/
def sealed (k : CkSlot) : CkSlot := { k with crc := crc32c k.body, seqt := k.seqh }

/-- `Complete(k)` of R353 for slot number `n`. -/
def complete (k : CkSlot) (n : Nat) : Bool :=
  k.seqh == k.seqt && k.seqh.toNat % 2 == n && k.crc == crc32c k.body

/-- A slot of zeros. -/
def zero : CkSlot := ⟨0, 0, 0, 0, 0, 0, 0, [], 0, 0⟩

end CkSlot

/-- The kernel-entry live-in mask: g1-g4 and g10-g17 (R19, R352). -/
def launchMask : Ext := 0x0003FC1E

/-- The slot whose Complete checkpoint a live thread resumes from (R353); `none` when its state is lost (R357). -/
def chooseSlot (k0 k1 : CkSlot) : Option CkSlot :=
  match k0.complete 0, k1.complete 1 with
  | true, true => if k0.seqh - k1.seqh = 1 then some k0 else some k1
  | true, false => some k0
  | false, true => some k1
  | false, false => none

end Sys2Proof.Machine
end

