-- ==== Sys2Proof/Machine/State.lean ====
section
/-! DEFINITION. The state of one VKA-GV4-M module as plain data, and the state right after reset (R29, R245). -/

namespace Sys2Proof.Machine

/-- Why the machine stops without a next state. -/
inductive Fault where
  /-- An access to a physical address that does not exist. No instruction raises it: every access of the reference to such an
  address either takes an exception that the reference describes or has no effect (R291, log 38). Safe: it stops nothing. -/
  | unmapped (addr : Nat)
  deriving DecidableEq, Repr

/-- Why an instruction has no meaning. -/
inductive Refusal where
  /-- The instruction is not modelled yet. Safe: nothing is claimed about it. -/
  | notModelled (mnemonic : String)
  deriving DecidableEq, Repr

/-- The cause codes (R337). -/
inductive Cause where
  | fetch | illegal | privilege | scoreboard | access | alignment | notResident | failedGranule | watchpoint
  | badTarget | transit | convergence | barrier | queueFull | softTrap | operand | descriptor | format | stream
  | stateLost | pageRequest | tileStatus
  deriving DecidableEq, Repr

/-- A register that an instruction reads or writes (R22). -/
inductive RegName where
  | g (i : Fin 32)
  | f (i : Fin 32)
  | p (i : Fin 8)
  /-- p1-p7 as the one write of `pmov.gp` (R111) -/
  | preds
  | mode
  /-- the FFLAGS of MODE, as the checks of R57 tell them from its other fields -/
  | fflags
  | cause
  | epc
  | eaddr
  deriving DecidableEq, Repr

/-- The registers of one thread that instructions name as operands (R22, R26). -/
structure Regs where
  g : Vector Word 32
  f : Vector Word 32
  /-- bit n is pn; bit 0 reads true (R23) -/
  p : Byte
  mode : Word
  cause : Byte
  epc : Word
  eaddr : Word
  deriving DecidableEq, Repr

/-- A register write since the entry of the latest region whose checkpoint is durable: the value it replaced, the
instruction cycle from which every consumer reads the new value, the region of the write (R20, R55, R56), and the registers of it
that held invalid values in the runahead copy (R332). -/
structure WriteRec where
  reg : RegName
  old : Word
  ready : Nat
  serial : BitVec 32
  bad : List RegName
  deriving DecidableEq, Repr

/-- Scopes of releases, acquires and read-modify-writes (R137). -/
inductive Scope where
  | thread | group | team | clu | dev | sys
  deriving DecidableEq, Repr

/-- Where an access lands: a physical address, or a byte of a core's scratchpad (R140, R291). -/
inductive Loc where
  | dev (pa : Nat)
  | sp (core : Nat) (off : Nat)
  deriving DecidableEq, Repr

/-- Where a load's result goes (R135): class, register, size code, and the residency predicate of `ldnr`. -/
structure LoadDst where
  isF : Bool
  d : Fin 32
  size : Nat
  pr : Option (Fin 8)
  deriving DecidableEq, Repr

/-- A `waitc` in progress: the check is enabled, a monitor entry is held, or the word is re-read on a timer (R157, R158). -/
inductive MonState where
  | check
  | monitor (hit : Bool)
  | reread (due : Nat)
  deriving DecidableEq, Repr

/-- Cache hints of B[4:3] (R136). -/
inductive Hint where
  | normal | stream | keep | nol1
  deriving DecidableEq, Repr

/-- What a pending access does when it performs (R244, R247). -/
inductive AccKind where
  | ld (dst : LoadDst)
  | lda (dst : LoadDst) (scope : Scope)
  | ldf (dst : LoadDst) (clr : Bool)
  | st
  | stl (scope : Scope)
  | stf (wait : Bool)
  | atom (op : Fin 8) (d : Fin 32) (scope : Scope)
  | cas (d : Fin 32) (expected new : Nat) (scope : Scope)
  | fence (kind : Fin 4) (scope : Scope)
  | pfence (module : Bool)
  | waitc (cond : Fin 4) (pd : Fin 8) (cmp : Word) (deadline : Option Nat) (mon : MonState)
  deriving DecidableEq, Repr

/-- An access of the pending list P(t) (R244): issue number, instruction address, kind, place, bytes, data, and the
region it belongs to. -/
structure Access where
  iid : Nat
  iaddr : Word
  va : Word
  kind : AccKind
  loc : Loc
  size : Nat
  data : Nat
  serial : BitVec 32
  /-- the cache hint of a `ld` or `st` (R136) -/
  hint : Hint
  /-- another thread's access of its issue has performed (R139) -/
  begun : Bool
  /-- it is to be issued anew, from a replay packet or a saved wait (R165, R365): its address is translated and checked again first -/
  replay : Bool
  deriving DecidableEq, Repr

/-- An interlocked result that has been computed and not yet written (R55): a register with flags, or tile rows. -/
inductive ResDst where
  | g (d : Fin 32)
  | f (d : Fin 32)
  | rows (rows : List (Nat × Nat × BitVec 2048))
  deriving DecidableEq, Repr

structure PendRes where
  dst : ResDst
  val : Word
  flags : BitVec 5
  deriving DecidableEq, Repr

/-- What a thread is doing (R350, R347). -/
inductive TStatus where
  | live
  /-- took a trap and sleeps on a ticket, once its entry is written (R40) -/
  | asleep (ticket : Option Word)
  /-- waits with the faulting threads of its bundle (R139) -/
  | waiting
  | away
  /-- its continuation, at this address, is pending (R199) -/
  | continuation (addr : Word)
  | ended (killed : Bool)
  /-- frozen with its group: H-level trap or `brk` (R40, R201) -/
  | frozen
  deriving DecidableEq, Repr

/-- A thread's part of a runahead slot (R331), with what its restore takes back beside the registers: the write records and
the check mark of its segment. `rserial` is that of the runahead copy, which `region` advances there (R204). -/
structure RaThread where
  saved : Regs
  rserial : BitVec 32
  pc : Word
  writes : List WriteRec
  schk : Bool
  invalid : List RegName
  deriving DecidableEq, Repr

/-- What the hazel side gave a thread back in a region (R177, R187, R200): the region's serial, the transfer that left with
its target, and the registers and address of the return; a nested crossing opens a region there. -/
structure Back where
  serial : BitVec 32
  left : Word
  target : Word
  regs : Regs
  pc : Word
  nested : Bool
  deriving DecidableEq, Repr

/-- A compute thread (R22). -/
structure Thread where
  id : ThreadId
  team : Nat
  group : Nat
  pc : Word
  regs : Regs
  /-- registers as the chain being issued reads them (R53); `none` between chains -/
  snap : Option Regs
  writes : List WriteRec
  /-- instruction cycle at which the current chain issues (R55) -/
  ic : Nat
  rserial : BitVec 32
  /-- entry and live-in masks of the current region (R19) -/
  entry : Word
  gmask : Ext
  fmask : Ext
  implicit : Bool
  slot0 : CkSlot
  slot1 : CkSlot
  /-- the checkpoint being written, not yet durable (R352) -/
  stage : Option CkSlot
  status : TStatus
  /-- directions of outstanding crossings, the latest first: true for a call that left for the hazel side (R350) -/
  cross : List Bool
  pending : List Access
  results : List PendRes
  /-- MODE.SCHK as the current segment's checks use it (R57) -/
  schk : Bool
  ra : Option RaThread
  /-- kept commit replies, until the following checkpoint is durable: serial and value (R162, R187) -/
  replies : List (BitVec 32 × Nat)
  /-- the marker in its core's buffer behind which it leaves or performs a release (R254) -/
  marker : Option Nat
  /-- the gsyncs that its bundle has passed with no thread executing: the region, the address, and the group positions whose threads have
  not come there since (R188) -/
  reached : List (BitVec 32 × Word × BitVec 32)
  /-- instruction whose first watchpoint hit is passed (R345) -/
  passWatch : Option Word
  back : Option Back
  deriving DecidableEq, Repr

/-- What a bundle waits at (R321). -/
inductive Hold where
  | none
  | gsync (addr : Word) (masks : List (Nat × BitVec 32))
  | barSync (bar phase : Nat)
  /-- `waitc`, `ldf` or `stf.wait`: until the accesses of this issue have performed -/
  | access (iid : Nat)
  | txw (n : Nat)
  | yield (until_ : Nat)
  | merge (deadline : Nat)
  /-- runahead has ended and the bundle awaits its restoration (R333) -/
  | raEnded
  deriving DecidableEq, Repr

/-- A bundle's runahead episode (R330, R333): the result it waits for, the chains issued, and the segment's state at entry. -/
structure RaBundle where
  thread : ThreadId
  iid : Nat
  chains : Nat
  conv : Option (BitVec 32)
  elapsed : Nat
  producers : List (RegName × Nat × Nat)
  deriving DecidableEq, Repr

/-- State of a 16-byte granule (R149). -/
inductive Gran where
  | empty | full | failed
  deriving DecidableEq, Repr

/-- A member of a chain: its address, instruction and length in words (R52). -/
structure Member where
  pc : Word
  instr : Instr
  words : Nat
  deriving DecidableEq, Repr

/-- A chain in issue one of whose later members waits (R53): where it begins, its members, those still to execute, and the registers
that the chain read. -/
structure MidChain where
  pc : Word
  members : List Member
  rest : List Member
  snaps : List (ThreadId × Regs)
  deriving DecidableEq, Repr

/-- A bundle: threads of one group at one PC that issue as one (R16). -/
structure Bundle where
  id : Nat
  core : Nat
  lg : Nat
  slot : Nat
  lanes : List Nat
  stamp : Nat
  eligible : Nat
  passed : Nat
  boost : Option Nat
  conv : Option (BitVec 32)
  hold : Hold
  /-- instruction cycles of the chains issued in this segment, 1 + S each (R57) -/
  elapsed : Nat
  /-- last fixed-latency producer of each register in this segment: latency and distance mark (R57) -/
  producers : List (RegName × Nat × Nat)
  /-- its chain waits at a `qpop` or an operand granule (R321, R393) -/
  starved : Bool
  /-- operand granules of the product it stands at that have been fetched: number, data and state (R215, R255) -/
  latch : List (Nat × Nat × Gran)
  /-- the chain that it is in the middle of (R53) -/
  mid : Option MidChain
  ra : Option RaBundle
  deriving DecidableEq, Repr

/-- Threads that wait for the tickets of a faulting bundle (R139, R201): each faulting thread with its resolution
(true RETRY, false KILL), and where they go: a region restart, or the instruction after a `trap`. -/
structure SleepGroup where
  members : List ThreadId
  waits : List (ThreadId × Option Bool)
  resumeAt : Option Word
  /-- convergence, distance and producers of the segment, for a return into it (R57, R189) -/
  conv : Option (BitVec 32)
  elapsed : Nat
  producers : List (RegName × Nat × Nat)
  /-- cycles after which the next chain is eligible (R54) -/
  stall : Nat
  deriving DecidableEq, Repr

/-- Who waits for a fault-queue entry (R343). -/
inductive Waiter where
  | thread (t : ThreadId)
  | hazel (t : ThreadId)
  | reg (t : ThreadId) (d : Fin 32)
  | cmd (id : Nat)
  | stream (team : Nat) (q : Nat)
  /-- nobody waits: the thread has ended, sleeps already or restarts; entries of one instruction have one number (R338, R380) -/
  | gone (t : ThreadId) (batch : Nat)
  | nobody
  deriving DecidableEq, Repr

/-- A fault-queue entry on its way to the ring (R339-R343). -/
structure Report where
  id : Nat
  ctx : Nat
  kind : Nat
  cause : Cause
  nr : Bool
  epc : Word
  eaddr : Word
  who : Nat
  rentry : Word
  serial : BitVec 32
  info : Nat
  stamp : Nat
  waiter : Waiter
  deriving DecidableEq, Repr

/-- The ticket of a written entry: its physical address, whether it is resolved, whether its slice's table lists it for merges with its
page, and who waits (R343, R344). -/
structure OpenTicket where
  ctx : Nat
  ticket : Nat
  /-- the ticket's virtual address in its context -/
  va : Word
  done : Bool
  nr : Bool
  eaddr : Word
  /-- the entry's physical address -/
  entry : Nat
  waiters : List Waiter
  /-- the team and group a debug event froze (R402), with its snapshot base -/
  debug : Option (Nat × Nat × Word)
  deriving DecidableEq, Repr

/-- An item of a team store buffer (R249): an entry of one 32-byte sector with its byte mask and contributors, or a
marker. -/
inductive TbItem where
  | entry (id : Nat) (sector : Nat) (mask : Nat) (data : Nat) (contrib : List (ThreadId × BitVec 32))
  | marker (id : Nat)
  deriving DecidableEq, Repr

/-- A translation held by a latch or TLB (R302). -/
structure TlbEntry where
  ctx : Nat
  vbase : Nat
  size : Nat
  pbase : Nat
  r : Bool
  w : Bool
  x : Bool
  u : Bool
  d : Bool
  tag : Nat
  deriving DecidableEq, Repr

/-- The translation structures of a core (R302), most recently used first. -/
structure Tlbs where
  latches : List (Nat × TlbEntry)
  fetch : List TlbEntry
  access : List TlbEntry
  stream : List TlbEntry
  tile : List TlbEntry
  /-- non-leaf entries of the walk cache: context, level, virtual prefix, base of the next table -/
  walk : List (Nat × Nat × Nat × Nat)
  deriving DecidableEq, Repr

/-- A lane group's clock and mode (R59, R393). -/
structure LaneGroup where
  near : Bool
  icycle : Nat
  phase : Nat
  /-- consecutive cycles in which every resident bundle has waited on memory (R393) -/
  waited : Nat
  deriving DecidableEq, Repr

/-- A line of an instruction cache: its number, contents, and the context, page and page size it was fetched by (R51, R294). -/
structure IcLine where
  line : Nat
  bytes : Nat
  ctx : Nat
  page : Nat
  size : Nat
  deriving DecidableEq, Repr

/-- MOESI states of an L1 line (R295). -/
inductive Moesi where
  | m | o | e | s
  deriving DecidableEq, Repr

/-- A line of an L1 (R294, R295): its number, state, a valid bit per 32-byte sector, and the hint it came with. -/
structure L1Line where
  line : Nat
  st : Moesi
  valid : BitVec 2
  hint : Hint
  deriving DecidableEq, Repr

/-- What the drain of a buffer entry needs beside its bytes (R136, R306, R370): the context and address of its latest store, and its hint. -/
structure TbNote where
  id : Nat
  ctx : Nat
  va : Word
  hint : Hint
  deriving DecidableEq, Repr

/-- A compute core. -/
structure Core where
  id : Nat
  sp : List Host.Cell
  gran : List (Nat × Gran)
  held : List (Nat × ThreadId × BitVec 32)
  spShadow : List Host.Cell
  granShadow : List (Nat × Gran)
  /-- tile rows, keyed tile × 32 + row -/
  acc : List (Nat × BitVec 2048)
  /-- region-entry copies of rows, with the thread and region that wrote them, the oldest first (R217) -/
  rowEntry : List (Nat × ThreadId × BitVec 32 × BitVec 2048)
  tb : List TbItem
  tbNotes : List TbNote
  /-- issues whose accesses took a walk past the walk cache (R330), until they perform -/
  slow : List (Nat × ThreadId)
  nh : List Nat
  ltr : Option Nat
  /-- lines of the L1, the latest used first -/
  l1 : List L1Line
  icache : List IcLine
  tlb : Tlbs
  lgs : List LaneGroup
  clockMask : BitVec 32
  gated : Bool
  /-- planned gating has begun: no chain issues (R361) -/
  stopping : Bool
  withdrawn : Bool
  /-- consecutive cycles with no team, and with every live thread at rest (R396) -/
  vacant : Nat
  resting : Nat
  losses : List Nat
  correctable : Nat
  /-- the register-file part of the core's window, as software uses it while no team runs (R293) -/
  rf : List Host.Cell
  deriving DecidableEq, Repr

/-- A team barrier (R193): phase, arrivals, and the target once fixed (0 for every live thread). -/
structure Bar where
  phase : Nat
  count : Nat
  target : Option Nat
  deriving DecidableEq, Repr

/-- A stream queue (R234-R238). `desc` is the bound descriptor's eight doublewords; `stalled` while an entry for a page
that is not resident is unresolved. -/
structure Queue where
  desc : Option (List Word)
  started : Bool
  pos : Nat
  /-- position at the entry of each region that has used it, with its thread, the oldest first (R20) -/
  entries : List (ThreadId × BitVec 32 × Nat)
  /-- elements read ahead, by number -/
  ahead : List (Nat × Nat)
  /-- the element the stream is frozen at (R238) -/
  frozen : Option Nat
  stalled : Bool
  deriving DecidableEq, Repr

/-- A kernel as the loader registered it (R269, R270, R268). -/
structure Kernel where
  entry : Word
  /-- address of its descriptor (R269) -/
  kdesc : Word
  merge : Nat
  ca : Nat
  cb : Nat
  groups : Nat
  acc : Nat
  srows : Nat
  fregs : Nat
  gregs : Nat
  hlevel : Bool
  widen : Bool
  node : Bool
  stack : Nat
  bars : BitVec 16
  qmask : Byte
  pf : List Int
  gp : Word
  /-- base of the stack regions system software has placed for it (R409) -/
  stackBase : Word
  deriving DecidableEq, Repr

/-- A team (R13, R14, R26). -/
structure Team where
  id : Nat
  ctx : Nat
  core : Nat
  /-- (lane group, slot) of each GROUP index -/
  groups : List (Nat × Nat)
  cluster : Nat
  cx : Nat
  cy : Nat
  grid : Nat × Nat × Nat
  gdim : Nat × Nat × Nat
  kernel : Kernel
  rowLo : Nat
  tileLo : Nat
  ecount : Nat
  bars : List Bar
  queues : List Queue
  /-- the widened grid it belongs to, and the origin grids of the records it took (R328) -/
  owner : Option Nat
  origins : List (Option Nat)
  /-- the windows onto it are open: the whole cluster is placed (R36, R320) -/
  started : Bool
  deriving DecidableEq, Repr

/-- A target of a tile command (R228): the cluster position when CMASK names it, the team written to, its frame offset, and
the granule writes to come: granule of the frame, data (none leaves the bytes) and state. -/
structure CmdTarget where
  pos : Option Nat
  team : Nat
  frame : Nat
  writes : List (Nat × Option Nat × Gran)
  deriving DecidableEq, Repr

/-- Where a tile command stands (R232, R257): issued, enqueued with its sources still to be read, its writes under way, completed
with its Count still to be taken, or stopped at a page that is not resident (it then reads or writes again) or at a fault. -/
inductive CmdPhase where
  | issued | reading | writing | counting | stalled (wasReading : Bool) | frozen (wasReading : Bool)
  deriving DecidableEq, Repr

/-- A tile command (R222-R233): its descriptor copy and the writes still to be made. -/
structure TileCmd where
  id : Nat
  team : Nat
  thread : ThreadId
  serial : BitVec 32
  descAddr : Word
  desc : List Word
  phase : CmdPhase
  /-- the marker its Enqueue waits for, once placed -/
  marker : Option Nat
  targets : List CmdTarget
  /-- source reads that have been taken (R256): a piece of its storage by number, or a granule with its state -/
  got : List (Nat × Nat × Gran)
  /-- sector writes to come: virtual address, bit mask over the sector, data (R230) -/
  sectors : List (Nat × Nat × Nat)
  status : Nat
  fmask : Nat
  /-- its context has been terminated: no fault-queue entry (R203, R231) -/
  quiet : Bool
  deriving DecidableEq, Repr

/-- A widened grid (R181, R328). -/
structure Grid where
  id : Nat
  ctx : Nat
  kernel : Kernel
  gdim : Nat × Nat × Nat
  args : List Word
  nextCluster : Nat
  out : Nat
  killed : Nat
  terminated : Bool
  caller : Nat
  deriving DecidableEq, Repr

/-- A node (R195, R273, R325): the block's address, its launch terms, and the origin and age of each pending record,
the oldest first. -/
structure Node where
  qcb : Word
  kernel : Kernel
  thresh : Nat
  maxwait : Nat
  fabric : Bool
  pendingRecs : List (Option Nat × Nat)
  formed : Bool
  deriving DecidableEq, Repr

/-- A launch in a placement queue (R318). -/
inductive Launch where
  | grid (id : Nat)
  | node (ctx : Nat) (qcb : Word)
  deriving DecidableEq, Repr

/-- An armed watchpoint (R348): first byte, size, and the kinds it watches. -/
structure Watch where
  base : Nat
  len : Nat
  rmw : Bool
  w : Bool
  r : Bool
  deriving DecidableEq, Repr

/-- State of a context (R363). -/
inductive CtxSt where
  | saved | running | saving | restoring | terminated | stranded | lost
  deriving DecidableEq, Repr

/-- A context (R362, R399). -/
structure Context where
  id : Nat
  part : Nat
  prio : Nat
  handler : Bool
  tenant : Nat
  root : Nat
  fqcb : Word
  saveArea : Word
  svcq : Word
  st : CtxSt
  gen : Nat
  /-- what system software has written to CMD beyond the command that an event stands for (R363) -/
  cmd : Nat
  done : Word
  /-- the eight watchpoint words pairs of the descriptor, and those armed -/
  watchRaw : List (Word × Word)
  watch : List Watch
  kernels : List Kernel
  nodes : List Node
  enc : Bool
  dbg : Bool
  keyId : Nat
  dbgBlk : Word
  savedAt : Nat
  /-- end of a save's deferral (R364), or until when a start is held (R378) -/
  saveDeadline : Nat
  /-- its threads have stopped for a save (R364) -/
  stopped : Bool
  /-- a completion word is owed for the command in progress -/
  owes : Bool
  deriving DecidableEq, Repr

/-- What a save area holds of one core: scratchpad bytes, granule states, tile rows and row copies (R366). -/
structure CoreSave where
  core : Nat
  sp : List Host.Cell
  gran : List (Nat × Gran)
  acc : List (Nat × BitVec 2048)
  rowEntry : List (Nat × ThreadId × BitVec 32 × BitVec 2048)
  deriving DecidableEq, Repr

/-- What the save area of a context holds (R366). -/
structure Saved where
  ctx : Nat
  stamp : Nat
  threads : List Thread
  bundles : List Bundle
  teams : List Team
  cmds : List TileCmd
  sleepers : List SleepGroup
  reports : List Report
  stores : List CoreSave
  /-- the grid table, and the tickets that its threads wait on: of an area copied in from another module, where this one knows neither -/
  grids : List Grid
  tickets : List OpenTicket
  deriving DecidableEq, Repr

/-- A save area with nothing in it. -/
def Saved.none (ctx : Nat) : Saved := ⟨ctx, 0, [], [], [], [], [], [], [], [], []⟩

/-- A thread on a hazel core (R30, R181, R381, R382): an away compute thread when `home` is set. -/
structure Hazel where
  id : Nat
  ctx : Nat
  home : Option ThreadId
  img : Image
  pc : Word
  /-- the widened grid whose completion it waits for, and the return address -/
  grid : Option Nat
  ret : Word
  /-- asleep on a ticket (R178, R410) -/
  asleep : Bool
  /-- exception raised at the core: RISC-V cause and value -/
  exc : Option (Nat × Word)
  user : Bool
  /-- the image has been shipped back: some false for a return, some true for a nested crossing (R178, R179) -/
  leaving : Option Bool
  /-- the address of a watchpoint hit that the thread passes after RETRY (R345, R410) -/
  pass : Option Word
  deriving DecidableEq, Repr

/-- A page move in progress (R310). -/
structure Move where
  id : Nat
  iod : Nat
  ctx : Nat
  vpage : Word
  size : Nat
  source : Nat
  target : Nat
  done : Word
  /-- the leaf PTEs as step 1 read them: physical address and value, the local one first -/
  ptes : List (Nat × Word)
  /-- TSTAMP at step 1 -/
  began : Nat
  /-- step 2 has been taken -/
  frozen : Bool
  deriving DecidableEq, Repr

/-- A record of the move history table (R312). -/
structure MoveHist where
  ctx : Nat
  vpage : Word
  stamps : List Nat
  pinned : Option Nat
  deriving DecidableEq, Repr

/-- States of a block move (R372). -/
inductive BlockSt where
  | removing | scrubbing | adding
  deriving DecidableEq, Repr

structure BlockMove where
  block : Nat
  src : Option Nat
  dst : Option Nat
  st : BlockSt
  deadline : Nat
  done : Nat
  /-- the notice of its state has been written (R373) -/
  noticed : Bool
  deriving DecidableEq, Repr

/-- A block move request that waits for the move of the same block before it (R374): BLOCK, FROM, TO, the reserved bytes, DEADLINE
and DONE. -/
structure BlockReq where
  block : Nat
  src : Nat
  dst : Nat
  rest : Nat
  deadline : Nat
  done : Nat
  deriving DecidableEq, Repr

/-- A queue window's counters (R386). -/
structure WindowCount where
  link : Nat
  window : Nat
  accept : Nat
  full : Nat
  bad : Nat
  deriving DecidableEq, Repr

/-- An entry of the admission table (R390). -/
structure Admission where
  tenant : Nat
  ctx : Nat
  valid : Bool
  node : Word
  srcLo : Nat
  srcHi : Nat
  budget : Nat
  used : Nat
  appended : Nat
  excess : Nat
  deriving DecidableEq, Repr

/-- A quad's rail (R395): millivolts now, its target, and the end of a hold. -/
structure Rail where
  quad : Nat
  mv : Nat
  target : Nat
  holdUntil : Option Nat
  /-- TSTAMP at which it reaches its target -/
  due : Nat
  deriving DecidableEq, Repr

/-- A sample of a home slice (R306): context, page, requesting die (false) or module (true), and its number. -/
structure Sample where
  ctx : Nat
  vpage : Word
  isModule : Bool
  who : Nat
  /-- the home slice that took it -/
  slice : Nat
  deriving DecidableEq, Repr

/-- The CSR vkinj (R405). -/
structure Vkinj where
  core : Nat
  value : Word
  deriving DecidableEq, Repr

/-- A line in its home slice (R294, R295, R298): its way, a valid and a dirty bit per sector, whether it came with the hint `.keep`,
and its directory entry: owner with its state, hazel domains and quads that may hold it. Which cores are narrow holders (the field
NH) the cores' `nh` say. -/
structure DirEntry where
  line : Nat
  way : Nat
  valid : BitVec 2
  dirty : BitVec 2
  keep : Bool
  owner : Option (Nat × Moesi)
  hzl : BitVec 2
  quads : BitVec 12
  deriving DecidableEq, Repr

/-- An entry of a slice's contention predictor (R297): the transfers between quads of this period, whether the line is contended, and
the whole periods since a transfer. -/
structure Contention where
  line : Nat
  transfers : Nat
  contended : Bool
  quietPeriods : Nat
  deriving DecidableEq, Repr

/-- One VKA-GV4-M module. -/
structure State where
  /-- this module's number (R291) -/
  moduleNo : Nat
  mem : List Host.Cell
  tstamp : Nat
  threads : List Thread
  bundles : List Bundle
  sleepers : List SleepGroup
  teams : List Team
  cores : List Core
  ctxs : List Context
  saved : List Saved
  parts : List PartDesc
  /-- way masks and budgets written since the accounting period began, by partition (R370) -/
  nextQuota : List (Nat × BitVec 24 × Nat)
  queues : List (Nat × List Launch)
  /-- spare cores in use, per die (R359) -/
  spares : List (Nat × Nat)
  /-- die after which the search of R319 begins, per partition -/
  lastDie : List (Nat × Nat)
  grids : List Grid
  cmds : List TileCmd
  reports : List Report
  tickets : List OpenTicket
  hazels : List Hazel
  keystore : List (Nat × List Host.Cell)
  epochOpen : Option (Nat × List Host.Cell)
  epochCount : Nat
  /-- the lines that the home slices hold, the latest used first (R294, R295) -/
  dir : List DirEntry
  /-- the contention predictors, the latest contended first (R297) -/
  contention : List Contention
  /-- lines that a slice keeps without data for a narrow holder, the oldest first (R298) -/
  tagOnly : List Nat
  samples : List Sample
  sampleCount : Nat
  moves : List Move
  history : List MoveHist
  blockMoves : List BlockMove
  /-- block move requests that have been read and wait for their block, in ring order -/
  blockQueue : List BlockReq
  ringTaken : List (Nat × Word)
  windows : List WindowCount
  admissions : List Admission
  refusedCounts : List (Nat × Nat)
  frozenSources : List Nat
  rails : List Rail
  vkinj : List Vkinj
  vkpcu : List (Nat × Word)
  vkblk : Word
  /-- the control blocks that the page copy units and the block controller take requests from (R309, R374) -/
  pcuBlock : List (Nat × Word)
  blkBlock : Word
  vkqwin : Word
  keySlots : List (Nat × BitVec 512)
  /-- records dropped per source of hosts and fabric (R315) -/
  drops : List (Nat × Nat)
  interrupts : List Nat
  /-- exceptions and interrupts raised at hazel cores: core and RISC-V cause, the oldest first (R309, R373, R382, R405) -/
  hazelTraps : List (Nat × Nat)
  bootStage : Nat
  recovery : Bool
  spdm : List (Nat × Nat)
  powered : Bool
  lastSlew : Nat
  spent : List (Nat × Nat)
  /-- TSTAMP at the start of the accounting period (R9) -/
  periodStart : Nat
  /-- the bundle whose chain the next step issues (the model's own) -/
  focus : Option Nat
  /-- device events to come, in order (the model's own; any interleaving is some schedule) -/
  schedule : List Instr
  /-- what the last read of a master outside the compute cores returned (the model's own) -/
  answer : Nat
  /-- number of free choices taken (the model's own) -/
  fresh : Nat
  /-- next number for issues, buffer items, bundles, teams, commands, reports (the model's own) -/
  nextId : Nat
  deriving DecidableEq, Repr

/-- MODE at launch (R27): RAEN is 1 and every other field 0. -/
def Regs.launchMode : Word := 0x200

/-- The registers of a thread at kernel entry with every launch value 0 (R29). -/
def Regs.launch : Regs :=
  { g := Vector.replicate 32 0, f := Vector.replicate 32 0, p := 1, mode := Regs.launchMode, cause := 0, epc := 0, eaddr := 0 }

/-- The kernel-entry checkpoint in slot 0 (R352), for an entry address and registers. -/
def CkSlot.launch (entry : Word) (r : Regs) : CkSlot :=
  ({ CkSlot.zero with pc := entry, gmask := launchMask, mode := r.mode, pred := r.p
                      live := [r.g[1], r.g[2], r.g[3], r.g[4], r.g[10], r.g[11], r.g[12], r.g[13], r.g[14], r.g[15],
                               r.g[16], r.g[17]] } : CkSlot).sealed

/-- A thread at kernel entry (R29, R320, R352). -/
def Thread.launch (id : ThreadId) (team group : Nat) (entry : Word) (r : Regs) : Thread :=
  { id := id, team := team, group := group, pc := entry, regs := r, snap := none, writes := [], ic := 0, rserial := 0
    entry := entry, gmask := launchMask, fmask := 0, implicit := false, slot0 := CkSlot.launch entry r
    slot1 := { CkSlot.zero with seqt := 1 }, stage := none, status := .live, cross := [], pending := [], results := []
    schk := false, ra := none, replies := [], marker := none, reached := [], passWatch := none, back := none }

/-- A core that no team has used: empty, nominal, with every cycle allowed to issue. -/
def Core.fresh (id : Nat) : Core :=
  { id := id, sp := [], gran := [], held := [], spShadow := [], granShadow := [], acc := [], rowEntry := [], tb := [], tbNotes := [], slow := [], nh := []
    ltr := none, l1 := [], icache := [], tlb := ⟨[], [], [], [], [], []⟩, lgs := List.replicate 4 ⟨false, 0, 0, 0⟩
    clockMask := 0xFFFFFFFF, gated := false, stopping := false, withdrawn := false, vacant := 0, resting := 0, losses := [], correctable := 0, rf := [] }

/-- A barrier and a queue at launch (R193, R29). -/
def Bar.fresh : Bar := ⟨0, 0, none⟩
def Queue.idle : Queue := ⟨none, false, 0, [], [], none, false⟩

/-- The kernel of the state of launch: one group, no scratchpad, tiles, stack, barriers or queues, every register in
the budget, entry 0 (DESIGN CHOICE, log 1). -/
def Kernel.reset : Kernel :=
  { entry := 0, kdesc := 0, merge := 0, ca := 1, cb := 1, groups := 1, acc := 0, srows := 0, fregs := 32, gregs := 32, hlevel := false
    widen := false, node := true, stack := 0, bars := 0xFFFF, qmask := 0xFF, pf := [], gp := 0, stackBase := 0 }

/-- The team of the state of launch (R326: GDIM 0x1_0001_0001, CDIM 0x11, grid position and TEAM 0). -/
def Team.reset : Team :=
  { id := 0, ctx := 0, core := 0, groups := [(0, 0)], cluster := 0, cx := 0, cy := 0, grid := (0, 0, 0), gdim := (1, 1, 1)
    kernel := Kernel.reset, rowLo := 0, tileLo := 0, ecount := 0, bars := List.replicate 16 Bar.fresh
    queues := List.replicate 8 Queue.idle, owner := none, origins := [none], started := true }

/-- Context 0, with the state running of a context that has been started (DESIGN CHOICE, log 1: STATE resets to saved, R363, and nothing
runs then), its eight watchpoint pairs 0. -/
def Context.reset : Context :=
  { id := 0, part := 0, prio := 0, handler := false, tenant := 0, root := 0, fqcb := 0, saveArea := 0, svcq := 0, st := .running
    gen := 0, cmd := 0, done := 0, watchRaw := List.replicate 8 (0, 0), watch := [], kernels := [], nodes := [], enc := false, dbg := false
    keyId := 0, dbgBlk := 0, savedAt := 0, saveDeadline := 0, stopped := false, owes := false }

/-- Partition 0 with the whole module (log 1). -/
def PartDesc.whole : PartDesc :=
  { part := 0, active := true, slotLo := 0, slotN := 8, rowLo := 0, rowN := 768, tileLo := 0, tileN := 32, ways := 0xFFFFFF
    budget := 0, blocks := List.range 144, notice := 0, hints := 0 }

/-- The bundle of the state of launch. -/
def Bundle.reset : Bundle :=
  { id := 0, core := 0, lg := 0, slot := 0, lanes := [0], stamp := 0, eligible := 0, passed := 0, boost := none, conv := none
    hold := .none, elapsed := 0, producers := [], starved := false, latch := [], mid := none, ra := none }

/-- The state of launch (R245, R29): a node-launched team of one live thread (R326) at thread (0, 0, 0, 0) of a module in
which nothing else runs. Every value R29 leaves to the launch is 0 (log 1). -/
def State.reset : State :=
  { moduleNo := 0, mem := [], tstamp := 0, threads := [Thread.launch ⟨0, 0, 0⟩ 0 0 0 Regs.launch], bundles := [Bundle.reset], sleepers := []
    teams := [Team.reset], cores := [Core.fresh 0], ctxs := [Context.reset], saved := [], parts := [PartDesc.whole], nextQuota := []
    queues := [], spares := [], lastDie := [], grids := [], cmds := [], reports := [], tickets := [], hazels := [], keystore := []
    epochOpen := none, epochCount := 0, dir := [], contention := [], tagOnly := [], samples := [], sampleCount := 0, moves := [], history := []
    blockMoves := [], blockQueue := [], ringTaken := [], windows := [], admissions := [], refusedCounts := [], frozenSources := [], rails := []
    vkinj := [], vkpcu := [], vkblk := 0, pcuBlock := [], blkBlock := 0, vkqwin := 0, keySlots := [], drops := [], interrupts := [], hazelTraps := [], bootStage := 0
    recovery := false, spdm := [], powered := true, lastSlew := 0, spent := [], periodStart := 0, focus := some 0, schedule := [], answer := 0, fresh := 0
    nextId := 1 }

end Sys2Proof.Machine
end

