-- ==== Sys2Proof/Machine/Ops.lean ====
section
/-! DEFINITION. The named operations over memory, registers, threads and bundles, taking a trap and the return from one. -/

namespace Sys2Proof.Machine

/-- Applies `f` to the elements that meet `p`. -/
def updWhere {α : Type} (p : α → Bool) (f : α → α) (l : List α) : List α := l.map fun x => if p x then f x else x

/-- The value a list of pairs gives to a key, or `d`. -/
def assocD {α : Type} (d : α) (k : Nat) : List (Nat × α) → α
  | [] => d
  | (k', v) :: rest => if k' = k then v else assocD d k rest

/-- Sets the value of a key, in rising order of keys; the value that an unlisted key has is not listed. -/
def assocSet {α : Type} [DecidableEq α] (d : α) (k : Nat) (v : α) : List (Nat × α) → List (Nat × α)
  | [] => if v = d then [] else [(k, v)]
  | (k', v') :: rest =>
    if v = d then (if k = k' then assocSet d k v rest else (k', v') :: assocSet d k v rest)
    else if k < k' then (k, v) :: (k', v') :: rest
    else if k = k' then (k, v) :: rest
    else (k', v') :: assocSet d k v rest

/-- Inserts into a rising list without repeats; sorts by it. -/
def insertNat (n : Nat) : List Nat → List Nat
  | [] => [n]
  | m :: rest => if n < m then n :: m :: rest else if n = m then m :: rest else m :: insertNat n rest
def sortNat : List Nat → List Nat
  | [] => []
  | n :: rest => insertNat n (sortNat rest)

/-! ### Memory (R7, R244, R246): bytes by address, an unlisted byte reads 0 (DESIGN CHOICE, log 2) -/

namespace Memory

/-- What an unlisted byte reads as. -/
def unlisted : Byte := 0

/-- The byte at an address. -/
def read (m : List Host.Cell) (a : Nat) : Byte := assocD unlisted a m

/-- Writes one byte and keeps the canonical form. -/
def write (m : List Host.Cell) (a : Nat) (v : Byte) : List Host.Cell := assocSet unlisted a v m

/-- Addresses strictly rising above `lo`, no entry equal to the unlisted value. -/
def wfFrom : Nat → List Host.Cell → Bool
  | _, [] => true
  | lo, (a, v) :: rest => (lo ≤ a : Bool) && v != unlisted && wfFrom (a + 1) rest

/-- The canonical form of a memory. -/
def wf (m : List Host.Cell) : Bool := wfFrom 0 m

/-- The little-endian value of the `n` bytes at `a` (R7). -/
def readLE (m : List Host.Cell) (a : Nat) : Nat → Nat
  | 0 => 0
  | n + 1 => (read m a).toNat + 256 * readLE m (a + 1) n

/-- Writes the low `n` bytes of a value at `a`, the least significant first (R7). -/
def writeLE (m : List Host.Cell) (a : Nat) : Nat → Nat → List Host.Cell
  | 0, _ => m
  | n + 1, v => writeLE (write m a (BitVec.ofNat 8 v)) (a + 1) n (v / 256)

/-- Writes the bytes of `v` that a bit mask selects among the `n` bytes at `a`. -/
def writeMask (m : List Host.Cell) (a mask : Nat) : Nat → Nat → List Host.Cell
  | 0, _ => m
  | n + 1, v => writeMask (if mask % 2 = 1 then write m a (BitVec.ofNat 8 v) else m) (a + 1) (mask / 2) n (v / 256)

/-- Writes a list of bytes from `a` on. -/
def writeBytes (m : List Host.Cell) (a : Nat) : List Byte → List Host.Cell
  | [] => m
  | b :: rest => writeBytes (write m a b) (a + 1) rest

/-- Doubleword `k` of a structure at `a`. -/
def dword (m : List Host.Cell) (a k : Nat) : Word := BitVec.ofNat 64 (readLE m (a + 8 * k) 8)

end Memory

/-! ### Registers (R22, R23, R26) -/

namespace Regs

/-- Predicate `i`; p0 reads true (R23). -/
def pred (r : Regs) (i : Fin 8) : Bool := i.val == 0 || r.p.getLsbD i.val

/-- g register `i`; g0 reads zero (R23). -/
def gval (r : Regs) (i : Fin 32) : Word := if i.val = 0 then 0 else r.g[i.val]

/-- f register `i`. -/
def fval (r : Regs) (i : Fin 32) : Word := r.f[i.val]

/-- The value of a register; a predicate reads 0 or 1, FFLAGS reads as MODE. -/
def get (r : Regs) : RegName → Word
  | .g i => r.gval i
  | .f i => r.fval i
  | .p i => Word.ofBool' (r.pred i)
  | .preds => (r.p ||| 1).setWidth 64
  | .mode | .fflags => r.mode
  | .cause => r.cause.setWidth 64
  | .epc => r.epc
  | .eaddr => r.eaddr
where Word.ofBool' (b : Bool) : Word := if b then 1 else 0

/-- The low byte of MODE's rounding field (R27). -/
def frm (r : Regs) : Nat := (r.mode.toNat / 32) % 8

/-- Sets bit `i` of the predicate byte; p0 stays true (R23). -/
def setPred (r : Regs) (i : Fin 8) (v : Bool) : Regs :=
  if i.val = 0 then r
  else { r with p := (r.p &&& ~~~((1 : Byte) <<< i.val)) ||| ((if v then 1 else 0) <<< i.val) }

/-- Writes a register; writes to g0 and p0 are discarded (R23). -/
def set (r : Regs) (n : RegName) (v : Word) : Regs :=
  match n with
  | .g i => if i.val = 0 then r else { r with g := r.g.set i.val v }
  | .f i => { r with f := r.f.set i.val v }
  | .p i => r.setPred i (v != 0)
  | .preds => { r with p := v.setWidth 8 ||| 1 }
  | .mode | .fflags => { r with mode := v }
  | .cause => { r with cause := v.setWidth 8 }
  | .epc => { r with epc := v }
  | .eaddr => { r with eaddr := v }

end Regs

/-- MODE as the device loads it from memory or a hazel core (R27): reserved bits zero, NTHINT 0b11 as 0b00. -/
def modeLoaded (v : Word) : Word :=
  let v := v &&& 0xFFF
  if v.toNat / 0x400 = 3 then v &&& 0x3FF else v

/-- The predicates that `pmov.gp` writes and `pmov.pg` reads (R52, R111). -/
def allPreds : List RegName := ((List.finRange 8).drop 1).map .p

/-- The registers that a write of a name writes: `pmov.gp` writes the predicates all at once (R111). -/
def RegName.parts : RegName → List RegName
  | .preds => allPreds
  | n => [n]

namespace Thread

/-- The registers that the chain being issued reads (R53). -/
def view (t : Thread) : Regs := t.snap.getD t.regs

/-- The guard of R46: p[P] XOR N. -/
def guard (t : Thread) (h : Hdr) : Bool := t.view.pred h.p != h.n

/-- A register's value is invalid in the thread's runahead copy (R332). -/
def bad (t : Thread) (n : RegName) : Bool := (t.ra.map fun r => r.invalid.contains n).getD false

/-- Writes a register with a latency in the lane group's instruction cycles, and keeps the replaced value (R20, R55). -/
def put (t : Thread) (n : RegName) (v : Word) (lat : Nat) : Thread :=
  { t with regs := t.regs.set n v, writes := ⟨n, t.regs.get n, if lat = 0 then 0 else t.ic + lat, t.rserial, n.parts.filter t.bad⟩ :: t.writes }

def putG (t : Thread) (d : Fin 32) (v : Word) (lat : Nat) : Thread := t.put (.g d) v lat
def putF (t : Thread) (d : Fin 32) (v : Word) (lat : Nat) : Thread := t.put (.f d) v lat
def putP (t : Thread) (d : Fin 8) (v : Bool) (lat : Nat) : Thread := t.put (.p d) (if v then 1 else 0) lat

/-- Sets the FFLAGS bits of MODE that are raised (R27). -/
def raiseFlags (t : Thread) (fl : BitVec 5) (lat : Nat) : Thread :=
  if fl = 0 then t else t.put .mode (t.regs.mode ||| fl.setWidth 64) lat

/-- The escape gate of the region with a serial (R259): closed while that region's checkpoint is being written. -/
def gateOpen (t : Thread) (serial : BitVec 32) : Bool := t.stage.isNone || t.rserial != serial

/-- The checkpoint of the current region (R352). -/
def curSlot (t : Thread) : CkSlot := t.stage.getD (if t.rserial.toNat % 2 = 0 then t.slot0 else t.slot1)

def setSlot (t : Thread) (k : Nat) (c : CkSlot) : Thread :=
  if k % 2 = 0 then { t with slot0 := c } else { t with slot1 := c }

end Thread

/-- The registers a mask pair selects, g in ascending number, then f (R351). -/
def maskRegs (gm fm : Ext) : List RegName :=
  ((List.finRange 32).filter fun i => gm.getLsbD i.val).map RegName.g
    ++ ((List.finRange 32).filter fun i => fm.getLsbD i.val).map RegName.f

/-- The checkpoint of a region (R20, R351, R352), complete. -/
def checkpointOf (serial : BitVec 32) (entry : Word) (implicit : Bool) (gm fm : Ext) (r : Regs) : CkSlot :=
  ({ seqh := serial, flags := if implicit then 1 else 0, pc := entry, gmask := gm, fmask := fm, mode := r.mode, pred := r.p
     live := if implicit then r.g.toList ++ r.f.toList else (maskRegs gm fm).map r.get, crc := 0, seqt := 0 } : CkSlot).sealed

/-- The registers after loading a checkpoint over registers that keep their values (R345): live-in registers, p1-p7, and MODE, which may
have come from a save area (R27). -/
def CkSlot.load (k : CkSlot) (r : Regs) : Regs :=
  let names := if k.flags = 1 then (List.finRange 32).map RegName.g ++ (List.finRange 32).map RegName.f
               else maskRegs k.gmask k.fmask
  let r := (names.zip k.live).foldl (fun r (n, v) => r.set n v) r
  { r with p := k.pred ||| 1, mode := modeLoaded k.mode }

/-! ### Threads, bundles, teams, cores, contexts -/

namespace Bundle

/-- The thread is one of the bundle's. -/
def has (b : Bundle) (t : ThreadId) : Bool := t.core == b.core && t.slot == b.slot && b.lanes.contains t.lane

end Bundle

/-- A context's threads may issue: it runs, or its save is still deferred (R364). -/
def Context.runs (c : Context) : Bool := c.st == .running || (c.st == .saving && !c.stopped)

namespace State

/-- A free choice among `n` candidates (R11), and the state in which it has been taken. -/
def choose (s : State) (n : Nat) : Nat := Config.freeNat s.fresh % n
def bump (s : State) : State := { s with fresh := s.fresh + 1 }

def thread? (s : State) (t : ThreadId) : Option Thread := s.threads.find? fun x => x.id = t
def modThread (s : State) (t : ThreadId) (f : Thread → Thread) : State :=
  { s with threads := updWhere (fun x => decide (x.id = t)) f s.threads }
def bundle? (s : State) (k : Nat) : Option Bundle := s.bundles.find? fun b => b.id = k
def modBundle (s : State) (k : Nat) (f : Bundle → Bundle) : State :=
  { s with bundles := updWhere (fun b => decide (b.id = k)) f s.bundles }
def team? (s : State) (k : Nat) : Option Team := s.teams.find? fun b => b.id = k
def modTeam (s : State) (k : Nat) (f : Team → Team) : State :=
  { s with teams := updWhere (fun b => decide (b.id = k)) f s.teams }
def ctx? (s : State) (k : Nat) : Option Context := s.ctxs.find? fun b => b.id = k
def modCtx (s : State) (k : Nat) (f : Context → Context) : State :=
  { s with ctxs := updWhere (fun b => decide (b.id = k)) f s.ctxs }
def cmd? (s : State) (k : Nat) : Option TileCmd := s.cmds.find? fun b => b.id = k
def modCmd (s : State) (k : Nat) (f : TileCmd → TileCmd) : State :=
  { s with cmds := updWhere (fun b => decide (b.id = k)) f s.cmds }
def grid? (s : State) (k : Nat) : Option Grid := s.grids.find? fun b => b.id = k
def modGrid (s : State) (k : Nat) (f : Grid → Grid) : State :=
  { s with grids := updWhere (fun b => decide (b.id = k)) f s.grids }
def hazel? (s : State) (k : Nat) : Option Hazel := s.hazels.find? fun b => b.id = k
def modHazel (s : State) (k : Nat) (f : Hazel → Hazel) : State :=
  { s with hazels := updWhere (fun b => decide (b.id = k)) f s.hazels }
def part? (s : State) (k : Nat) : Option PartDesc := s.parts.find? fun p => p.part = k

/-- A core; one that no team has used is `Core.fresh`. -/
def core (s : State) (n : Nat) : Core := (s.cores.find? fun c => c.id = n).getD (Core.fresh n)
def setCore (s : State) (c : Core) : State :=
  if s.cores.any fun x => x.id = c.id then { s with cores := updWhere (fun x => decide (x.id = c.id)) (fun _ => c) s.cores }
  else { s with cores := s.cores ++ [c] }
def modCore (s : State) (n : Nat) (f : Core → Core) : State := s.setCore (f (s.core n))

/-- A thread whose core is powered (R361). -/
def powered? (s : State) (t : ThreadId) : Option Thread := (s.thread? t).filter fun _ => !(s.core t.core).gated

/-- The team and the context of a thread. -/
def teamOf (s : State) (t : Thread) : Team := (s.team? t.team).getD Team.reset
def ctxOf (s : State) (t : Thread) : Context := (s.ctx? (s.teamOf t).ctx).getD Context.reset

/-- The bundle whose chain is being issued, and its threads. -/
def focusBundle (s : State) : Option Bundle := s.focus.bind s.bundle?
def inFocus (s : State) (t : Thread) : Bool :=
  match s.focusBundle with
  | some b => b.has t.id
  | none => false
def focusThreads (s : State) : List Thread := s.threads.filter s.inFocus

/-- Two threads of one group are in the same region (R19, R20): they entered it together, or stand in it in one bundle. -/
def sameRegion (s : State) (t u : Thread) : Bool :=
  t.team == u.team && t.group == u.group && t.entry == u.entry
    && (t.rserial == u.rserial || s.bundles.any fun b => b.has t.id && b.has u.id)

/-- The thread is in this region now, which is the region of another thread of its group too. -/
def shares (s : State) (t : Thread) (u : ThreadId) (k : BitVec 32) : Bool :=
  (s.thread? u).any fun x => x.rserial == k && s.sameRegion x t

/-- The threads that execute an instruction: those of the bundle whose guard holds (R46). -/
def executing (s : State) (h : Hdr) : List Thread := s.threads.filter fun t => s.inFocus t && t.guard h

/-- Applies `f` to every thread of the bundle. -/
def mapFocus (s : State) (f : Thread → Thread) : State := { s with threads := updWhere s.inFocus f s.threads }

/-- Moves every thread of the bundle past `n` words. -/
def advance (s : State) (n : Nat) : State := s.mapFocus fun t => { t with pc := t.pc + BitVec.ofNat 64 (4 * n) }

/-- An instruction of `n` words that acts on each executing thread alone (R16, R17, R46): `f` in the threads whose guard
holds, and every thread of the bundle goes past the words. -/
def lanewise (s : State) (n : Nat) (h : Hdr) (f : Thread → Thread) : State :=
  s.mapFocus fun t =>
    let t' := if t.guard h then f t else t
    { t' with pc := t.pc + BitVec.ofNat 64 (4 * n) }

/-- The escape gate of a thread's region (R259); a thread no longer present has no closed gate. -/
def gate (s : State) (c : ThreadId × BitVec 32) : Bool :=
  match s.thread? c.1 with
  | some t => t.gateOpen c.2
  | none => true

/-- Takes a new number. -/
def newId (s : State) : Nat × State := (s.nextId, { s with nextId := s.nextId + 1 })

/-- Memory access by physical address. -/
def readM (s : State) (a n : Nat) : Nat := Memory.readLE s.mem a n
def writeM (s : State) (a n v : Nat) : State := { s with mem := Memory.writeLE s.mem a n v }

end State

/-- The line and the 32-byte sector of a physical address. -/
def lineOf (pa : Nat) : Nat := pa / 64
def sectorOf (pa : Nat) : Nat := pa / 32

/-- Byte mask of `n` bytes from byte `o`, as a bit mask. -/
def byteMask (o n : Nat) : Nat := (2 ^ n - 1) * 2 ^ o

/-! ### The team store buffer (R244, R248-R251) -/

namespace TbItem

/-- The number of an item; the item is entry `k`. -/
def id : TbItem → Nat
  | .entry k .. => k
  | .marker k => k
def isEntry (k : Nat) : TbItem → Bool
  | .entry k' .. => k' == k
  | .marker _ => false

/-- The entry's contributors' gates are all open (R249). -/
def escaped (s : State) : TbItem → Bool
  | .entry _ _ _ _ c => c.all s.gate
  | .marker _ => true

/-- The bytes of a physical range that an entry holds, as a bit mask over the range. -/
def covers (pa n : Nat) : TbItem → Nat
  | .entry _ sec mask _ _ => if sec = sectorOf pa then (mask / 2 ^ (pa % 32)) % 2 ^ n else 0
  | .marker _ => 0

/-- A thread may read the entry: it is escaped or the thread's own (R248, R259). -/
def readable (s : State) (t : ThreadId) : TbItem → Bool
  | e@(.entry _ _ _ _ c) => e.escaped s || c.all fun x => decide (x.1 = t)
  | .marker _ => false

end TbItem

/-- Bits of `old` replaced under a byte mask by those of `new`, over `n` bytes. -/
def mergeBytes (mask old new : Nat) : Nat → Nat
  | 0 => 0
  | n + 1 => (if mask % 2 = 1 then new % 256 else old % 256) + 256 * mergeBytes (mask / 2) (old / 256) (new / 256) n

namespace Core

/-- The items after the last marker. -/
def lastBatch (c : Core) : List TbItem :=
  (c.tb.reverse.takeWhile fun i => match i with | .marker _ => false | _ => true).reverse

/-- Entries in the buffer (R249). -/
def entryCount (c : Core) : Nat := (c.tb.filter fun i => match i with | .entry .. => true | _ => false).length

end Core

/-- The entry a store may merge into (R249): the youngest of its sector in the last batch, when the entry is escaped and
the store's gate open, or when its one contributor is the store's own. -/
def mergeTarget (s : State) (c : Core) (sec : Nat) (w : ThreadId × BitVec 32) : Option Nat :=
  match (c.lastBatch.reverse.find? fun i => match i with | .entry _ sc _ _ _ => sc = sec | _ => false) with
  | some (e@(.entry k _ _ _ con)) =>
    if (e.escaped s && s.gate w) || (!e.escaped s && con == [w]) then some k else none
  | _ => none

/-- A store of `n` bytes at a physical address joins TB(core) (R248, R249). -/
def tbStore (s : State) (core : Nat) (w : ThreadId × BitVec 32) (pa n v : Nat) : State :=
  let c := s.core core
  let sec := sectorOf pa
  let mask := byteMask (pa % 32) n
  let data := v % 2 ^ (8 * n) * 2 ^ (8 * (pa % 32))
  match mergeTarget s c sec w with
  | some k =>
    s.setCore { c with tb := c.tb.map fun i => match i with
      | .entry k' sc m d con =>
        if k' = k then .entry k' sc (m ||| mask) (mergeBytes mask d data 32) (if con.contains w then con else con ++ [w]) else i
      | .marker _ => i }
  | none =>
    let (k, s) := s.newId
    s.setCore { c with tb := c.tb ++ [.entry k sec mask data [w]] }

/-- The bytes a thread reads at a physical address (R248): from the youngest readable entry of its core's buffer that
holds each, else from M. -/
def tbRead (s : State) (t : ThreadId) (pa n : Nat) : Nat :=
  (s.core t.core).tb.foldl (fun v i => match i with
    | .entry _ _ _ d _ =>
      if i.readable s t then mergeBytes (i.covers pa n) v (d / 2 ^ (8 * (pa % 32))) n else v
    | .marker _ => v) (s.readM pa n)

/-- Markers with nothing before them are removed (R248). -/
def dropMarkers : List TbItem → List TbItem
  | .marker _ :: rest => dropMarkers rest
  | l => l

/-- Lines of NH(c) that an entry up to the latest team release still holds (R248). -/
def nhAfter (c : Core) : List Nat :=
  let upTo : List TbItem := match c.ltr with
    | none => []
    | some k => if (c.tb.any fun i => i.id == k)
                then (c.tb.takeWhile fun (i : TbItem) => i.id != k)
                  ++ (c.tb.filter fun (i : TbItem) => i.isEntry k)
                else []
  c.nh.filter fun l => upTo.any fun i => match i with | .entry _ sec .. => sec / 2 = l | _ => false

/-- A write of this range waits for a page move: it lies in a frozen page or meets a locked PTE (R310). -/
def writeWaits (s : State) (pa n : Nat) : Bool :=
  s.moves.any fun m => m.frozen && ((pa < m.source + m.size && m.source < pa + n) || m.ptes.any fun q => pa < q.1 + 8 && q.1 < pa + n)

/-- A write of M wakes the monitors on its lines (R258). -/
def wakeLine (s : State) (pa n : Nat) : State :=
  { s with threads := s.threads.map fun t => { t with pending := t.pending.map fun a =>
      match a.kind, a.loc with
      | .waitc c p v d (.monitor _), .dev apa =>
        if lineOf pa ≤ lineOf apa ∧ lineOf apa ≤ lineOf (pa + n - 1) then { a with kind := .waitc c p v d (.monitor true) } else a
      | _, _ => a } }

/-- The L1 copies of a written line are invalidated (R296), and the slice's entry names no holder of it any more (R295). -/
def dropCopies (s : State) (pa n : Nat) : State :=
  let hit := fun (l : Nat) => decide (lineOf pa ≤ l ∧ l ≤ lineOf (pa + n - 1))
  { s with cores := s.cores.map fun (c : Core) => { c with l1 := c.l1.filter fun x => !hit x.line }
           dir := updWhere (fun d => hit d.line) (fun (d : DirEntry) => { d with owner := none, hzl := 0, quads := 0 }) s.dir }

/-- A step on M that writes `n` bytes, with the wake of the monitors. -/
def writeMaster (s : State) (pa n v : Nat) : State := dropCopies (wakeLine (s.writeM pa n v) pa n) pa n

/-- Drains one entry: its bytes are appended to M and it leaves the buffer (R248). -/
def drainEntry (s : State) (core : Nat) (k : Nat) : State :=
  let c := s.core core
  match c.tb.find? (·.isEntry k) with
  | some (.entry _ sec mask data _) =>
    let c' := { c with tb := dropMarkers (c.tb.filter fun i => !i.isEntry k) }
    let c' := { c' with nh := nhAfter c' }
    let c' := if c'.nh = [] ∧ (c'.ltr.any fun l => !c'.tb.any fun i => i.id == l)
              then { c' with ltr := none } else c'
    wakeLine { s.setCore c' with mem := Memory.writeMask s.mem (32 * sec) mask 32 data } (32 * sec) 32
  | _ => s

/-- The entries that a Publish of a core drains, in batch order (R248): up to and including its latest team release. -/
def publishSet (c : Core) : List Nat :=
  match c.ltr with
  | none => []
  | some k =>
    let ids := fun (l : List TbItem) => l.filterMap fun i => match i with | .entry k' .. => some k' | .marker _ => none
    match c.tb.find? (fun i => i.id == k) with
    | none => []
    | some last =>
      ids (c.tb.takeWhile fun i => i.id != k) ++ ids [last]

/-- The gates of everything a Publish of the core drains are open, and no page move makes one of its writes wait (R310). -/
def publishable (s : State) (core : Nat) : Bool :=
  let c := s.core core
  let p := publishSet c
  c.tb.all fun i => match i with
    | .entry k sec .. => !p.contains k || (i.escaped s && !writeWaits s (32 * sec) 32)
    | .marker _ => true

/-- The cores whose Publish a step on these lines waits for (R251): those that narrow-hold one, the party's own core
apart. -/
def heldBy (s : State) (own : Option Nat) (lines : List Nat) : List Nat :=
  (s.cores.filter fun c => some c.id != own && lines.any c.nh.contains).map (·.id)

/-- Lines that a core comes to hold narrowly and that no way of their slice holds are kept in its tag-only table (R298). -/
def State.track (s : State) (lines : List Nat) : State :=
  let held := s.tagOnly.filter fun n => s.cores.any fun c => c.nh.contains n
  { s with tagOnly := lines.foldl (fun l n => if l.contains n || s.dir.any (fun d => d.line == n) then l else l ++ [n]) held }

/-- A release places its marker (R249, R250); at TEAM and CLUSTER the lines before it become narrow-held. -/
def placeMarker (s : State) (core : Nat) (narrow : Bool) : State :=
  let c := s.core core
  if c.tb = [] then s else
  let (k, s) := s.newId
  let lines := c.tb.filterMap fun i => match i with | .entry _ sec .. => some (sec / 2) | .marker _ => none
  let c' := { c with tb := c.tb ++ [.marker k] }
  let s := if narrow then s.track lines else s
  s.setCore (if narrow then { c' with nh := sortNat (c.nh ++ lines), ltr := some k } else c')

/-- The release entry of a TEAM or CLUSTER release (R250): its line is narrow-held and it is the latest team release. -/
def narrowRelease (s : State) (core pa : Nat) : State :=
  let c := s.core core
  match c.tb.reverse.find? fun i => match i with | .entry _ sec .. => sec = sectorOf pa | _ => false with
  | some (.entry k ..) => (s.track [lineOf pa]).setCore { c with nh := insertNat (lineOf pa) c.nh, ltr := some k }
  | _ => s

/-- No entry of the core's buffer holds a byte of the range. -/
def tbClear (s : State) (core pa n : Nat) : Bool := (s.core core).tb.all fun i => i.covers pa n == 0

/-! ### Scratchpad (R149, R255) -/

namespace Core

/-- The state of granule `g` (physical number). -/
def granule (c : Core) (g : Nat) : Gran := assocD .empty g c.gran
def setGranule (c : Core) (g : Nat) (v : Gran) : Core := { c with gran := assocSet .empty g v c.gran }

/-- A byte of the range is held by another thread (R255). -/
def heldByOther (c : Core) (t : ThreadId) (off n : Nat) : Bool :=
  c.held.any fun (o, w, _) => off ≤ o && o < off + n && decide (w ≠ t)

/-- Writes scratchpad bytes; `hold` marks them held by a thread's region whose gate is closed (R255), and a write whose
gate is open reaches the shadow at once (R350). -/
def spWrite (c : Core) (off n v : Nat) (hold : Option (ThreadId × BitVec 32)) : Core :=
  let c := { c with sp := Memory.writeLE c.sp off n v
                    held := c.held.filter fun (o, _) => !(off ≤ o && o < off + n) }
  match hold with
  | some (t, k) => { c with held := c.held ++ (List.range n).map fun j => (off + j, t, k) }
  | none => { c with spShadow := Memory.writeLE c.spShadow off n v }

/-- The core as a reader finds it who has fetched some granules before: each with the data and state of its fetch (R215, R256). -/
def withLatch (c : Core) (l : List (Nat × Nat × Gran)) : Core :=
  l.foldl (fun c (g, v, st) => { c with sp := Memory.writeLE c.sp (16 * g) 16 v, gran := assocSet .empty g st c.gran
                                        held := c.held.filter fun e => e.1 / 16 != g }) c

/-- A granule's state in the store, and in the shadow when the writer's gate is open. -/
def granWrite (c : Core) (g : Nat) (v : Gran) : Core :=
  { c.setGranule g v with granShadow := assocSet .empty g v c.granShadow }

/-- The gate of a region opens: its held bytes lose their marks and reach the shadow (R255, R350). -/
def unhold (c : Core) (t : ThreadId) (k : BitVec 32) : Core :=
  let mine := c.held.filter fun (_, w, j) => decide (w = t ∧ j = k)
  { c with held := c.held.filter fun (_, w, j) => !decide (w = t ∧ j = k)
           spShadow := mine.foldl (fun m (o, _) => Memory.write m o (Memory.read c.sp o)) c.spShadow
           granShadow := mine.foldl (fun m (o, _) => assocSet .empty (o / 16) (c.granule (o / 16)) m) c.granShadow }

end Core

/-- Registers outside the register budget are saved as zero and read zero after a restore (R270, R366). -/
def Regs.inBudget (r : Regs) (k : Kernel) : Regs :=
  { r with g := Vector.ofFn fun (i : Fin 32) => if i.val < k.gregs then r.g[i] else 0
           f := Vector.ofFn fun (i : Fin 32) => if i.val < k.fregs then r.f[i] else 0 }

/-! ### Causes and fault-queue entries (R337, R340-R342) -/

/-- The codes of R337. -/
def Cause.code : Cause → Nat
  | .fetch => 0x01 | .illegal => 0x02 | .privilege => 0x03 | .scoreboard => 0x04 | .access => 0x05 | .alignment => 0x06
  | .notResident => 0x07 | .failedGranule => 0x08 | .watchpoint => 0x09 | .badTarget => 0x0A | .transit => 0x0B
  | .convergence => 0x0C | .barrier => 0x0D | .queueFull => 0x0E | .softTrap => 0x0F | .operand => 0x10
  | .descriptor => 0x11 | .format => 0x12 | .stream => 0x13 | .stateLost => 0x14 | .pageRequest => 0x20
  | .tileStatus => 0x21

/-- WHO (R342). -/
def whoWord (mod src pos : Nat) : Nat := mod * 2 ^ 48 + src * 2 ^ 40 + pos
def thisModule : Nat := 0xFFFF

/-- INFO's access fields (R342): log2 of the size and the access code. -/
def accInfo (size acc : Nat) : Nat := Nat.log2 size * 16 + acc

/-- A trap of one thread: cause, EADDR, INFO, and whether the entry takes merges. -/
structure Trap where
  thread : ThreadId
  cause : Cause
  epc : Word
  eaddr : Word
  info : Nat
  nr : Bool
  deriving DecidableEq, Repr

namespace State

/-- Puts a fault-queue entry on its way (R339): the entry is written by FAULT_QUEUE_ENTRY. -/
def report (s : State) (mk : Nat → Report) : State :=
  let (k, s) := s.newId
  { s with reports := s.reports ++ [mk k] }

/-- The entry of a compute thread (R340, R342). -/
def threadReport (s : State) (t : Thread) (kind : Nat) (x : Trap) (w : Waiter) : State :=
  s.report fun k =>
    { id := k, ctx := (s.teamOf t).ctx, kind := kind, cause := x.cause, nr := x.nr, epc := x.epc, eaddr := x.eaddr
      who := whoWord thisModule 0 t.id.posWord, rentry := t.entry, serial := t.rserial, info := x.info
      stamp := s.tstamp, waiter := w }

/-- Removes a bundle; the issue focus leaves it. -/
def dropBundle (s : State) (k : Nat) : State :=
  { s with bundles := s.bundles.filter fun b => b.id != k, focus := if s.focus = some k then none else s.focus }

end State

/-- A thread takes its registers and PC back from the runahead slot; RSERIAL has advanced in the copy alone (R331). -/
def Thread.leaveRa (t : Thread) : Thread :=
  match t.ra with
  | some r => { t with regs := r.saved, pc := r.pc, writes := r.writes, schk := r.schk, ra := none, snap := none }
  | none => t

def Bundle.leaveRa (b : Bundle) : Bundle :=
  match b.ra with
  | some r => { b with ra := none, conv := r.conv, elapsed := r.elapsed, producers := r.producers
                       hold := if b.hold = .raEnded then .none else b.hold }
  | none => b

/-- A bundle is restored from its slot (R334, R335). -/
def restoreBundle (s : State) (b : Bundle) : State :=
  { s with threads := updWhere (fun t => b.has t.id) Thread.leaveRa s.threads }.modBundle b.id Bundle.leaveRa

namespace State

/-- The bundles of a group that run ahead are restored, before the group stops (R335). -/
def restoreGroup (s : State) (team group : Nat) : State :=
  (s.bundles.filter fun b => b.ra.isSome && s.threads.any fun t => t.team == team && t.group == group && b.has t.id).foldl restoreBundle s

/-- Freezes the group of a thread (R40, R201): its live threads stop, and its bundles go; one that runs ahead is restored first (R335). -/
def freezeGroup (s : State) (team group : Nat) : State :=
  let s := s.restoreGroup team group
  let inGroup := fun (t : Thread) => t.team == team && t.group == group && decide (t.status = .live)
  let gone := s.bundles.filter fun b => s.threads.any fun t => inGroup t && b.has t.id
  let s := { s with threads := updWhere inGroup (fun t => { t with status := .frozen, snap := none }) s.threads }
  gone.foldl (fun s b => s.dropBundle b.id) s

/-- The registers an H-level thread's trap writes (R40). -/
def trapRegs (traps : List Trap) (t : Thread) : Thread :=
  match traps.find? (fun x => decide (x.thread = t.id)) with
  | some x => { t with regs := { t.regs with cause := BitVec.ofNat 8 x.cause.code, epc := x.epc, eaddr := x.eaddr } }
  | none => t

/-- A thread that took a watchpoint trap passes the next hit of that instruction (R345). -/
def passNext (traps : List Trap) (t : Thread) : Thread :=
  match traps.find? (fun x => decide (x.thread = t.id ∧ x.cause = .watchpoint)) with
  | some x => { t with passWatch := some x.epc }
  | none => t

/-- The traps of an H-level thread and others of its group (R40): CAUSE, EPC and EADDR are written and the group is frozen. -/
def trapAtH (s : State) (t : Thread) (traps : List Trap) : State :=
  let s := { s with threads := s.threads.map fun t => passNext traps (trapRegs traps t) }
  let s := s.freezeGroup t.team t.group
  { s with interrupts := s.interrupts ++ [(s.teamOf t).ctx] }

/-- The traps of U-level threads of these bundles (R40, R139): each trapping thread sleeps on the ticket of an entry, and the other
threads wait with it. -/
def trapAtU (s : State) (bs : List Bundle) (members : List Thread) (traps : List Trap) (resume : Option Word) : State :=
  let s' := traps.foldl (fun s x => match s.thread? x.thread with
    | some t => s.threadReport t 0 x (.thread t.id)
    | none => s) s
  let sleepy := fun (t : ThreadId) => if (traps.any fun x => decide (x.thread = t)) then TStatus.asleep none else .waiting
  let s' := { s' with threads := updWhere (fun t => bs.any fun b => b.has t.id) (fun t => { t with status := sleepy t.id, snap := none }) s'.threads }
  let s' := { s' with threads := s'.threads.map (passNext traps) }
  let s' := bs.foldl (fun s b => s.dropBundle b.id) s'
  match bs with
  | [] => s'
  | b :: _ =>
    { s' with sleepers := s'.sleepers ++
      [{ members := members.map (·.id), waits := traps.map fun x => (x.thread, none), resumeAt := resume
         conv := b.conv, elapsed := b.elapsed, producers := b.producers, stall := 0 }] }

/-- Taking a trap (R40, R139, R338): the traps of threads of the focus bundle. A bundle in runahead takes none and its
runahead ends (R63). At H, CAUSE, EPC and EADDR are written and the group is frozen. At U, each trapping thread sleeps on
the ticket of an entry, and the other threads of the bundle wait with it. `resume` is where they go on when every ticket is
resolved RETRY: their region's entry, or an address. -/
def takeTraps (s : State) (traps : List Trap) (resume : Option Word := none) : State :=
  match s.focusBundle with
  | none => s
  | some b =>
    if b.ra.isSome then { s.modBundle b.id (fun b => { b with hold := .raEnded }) with focus := none }
    else
      let members := s.focusThreads
      match members with
      | [] => s.dropBundle b.id
      | t0 :: _ => if (s.teamOf t0).kernel.hlevel then s.trapAtH t0 traps else s.trapAtU [b] members traps resume

/-- Traps of threads of one group that have not the issue focus, in these bundles: one that runs ahead is restored first, since the
faults are of what it did before (R334, R335). -/
def faultBundles (s : State) (bs : List Bundle) (traps : List Trap) : State :=
  let s := (bs.filter (·.ra.isSome)).foldl restoreBundle s
  let bs := bs.filterMap fun b => s.bundle? b.id
  let members := s.threads.filter fun t => bs.any fun b => b.has t.id
  match members with
  | [] => s
  | t0 :: _ => if (s.teamOf t0).kernel.hlevel then s.trapAtH t0 traps else s.trapAtU bs members traps none

/-- Traps of threads of a bundle that may not have the issue focus. -/
def faultBundle (s : State) (b : Bundle) (traps : List Trap) : State := s.faultBundles [b] traps

/-- One trap in every thread of the focus bundle, whatever the guards hold (R57, R63). -/
def trapAll (s : State) (cause : Cause) (epc eaddr : Word) (info : Nat) : State :=
  s.takeTraps (s.focusThreads.map fun t => ⟨t.id, cause, epc, eaddr, info, false⟩)

/-- One trap in the given threads, at each thread's PC. -/
def trapIn (s : State) (l : List Thread) (cause : Cause) : State :=
  s.takeTraps (l.map fun t => ⟨t.id, cause, t.pc, 0, 0, false⟩)

/-! ### Forming bundles at a segment entry (R16, R172, R324) -/

/-- A thread arrives at its segment entry: fixed-latency results are written (R58) and SCHK takes effect (R57). -/
def arriveAt (s : State) (t : ThreadId) (pc : Word) : State :=
  s.modThread t fun x =>
    { x with pc := pc, status := .live, snap := none, marker := none, schk := x.regs.mode.getLsbD 8
             writes := x.writes.map fun w => { w with ready := 0 } }

/-- Every live thread of the group, one that has not ended (R188), is among these lanes. -/
def wholeGroup (s : State) (team group : Nat) (lanes : List Nat) : Bool :=
  s.threads.all fun t => !(t.team == team && t.group == group && (match t.status with | .ended _ => false | _ => true))
    || lanes.contains t.id.lane

/-- The merge windows of bundles that hold every live thread of their group close (R324). -/
def closeWindows (s : State) : State :=
  { s with bundles := s.bundles.map fun (b : Bundle) => match b.hold, s.threads.find? (fun t => b.has t.id) with
      | .merge _, some t => if s.wholeGroup t.team t.group b.lanes then { b with hold := .none } else b
      | _, _ => b }

/-- The first of a group's bundles in a merge window at an entry. -/
def windowAt (s : State) (core slot lg : Nat) (pc : Word) : Option Bundle :=
  s.bundles.find? fun b => b.core == core && b.slot == slot && b.lg == lg && (match b.hold with | .merge d => s.tstamp ≤ d | _ => false)
    && s.threads.any fun t => b.has t.id && t.pc == pc

/-- Lanes of one group at one entry form a bundle, or join the one whose merge window is open there (R324). -/
def formBundle (s : State) (core slot lg : Nat) (pc : Word) (lanes : List Nat) : State :=
  match s.threads.find? fun t => t.id.core == core && t.id.slot == slot && lanes.contains t.id.lane with
  | none => s
  | some t =>
    let merge := (s.teamOf t).kernel.merge
    match s.windowAt core slot lg pc with
    | some b =>
      let all := b.lanes ++ lanes
      s.modBundle b.id fun b =>
        { b with lanes := sortNat all, hold := if s.wholeGroup t.team t.group all then .none else b.hold }
    | none =>
      let (k, s) := s.newId
      let hold := if merge = 0 || s.wholeGroup t.team t.group lanes then Hold.none else .merge (s.tstamp + merge)
      { s with bundles := s.bundles ++
        [{ id := k, core := core, lg := lg, slot := slot, lanes := sortNat lanes, stamp := s.tstamp, eligible := 0, passed := 0
           boost := none, conv := none, hold := hold, elapsed := 0, producers := [], starved := false, latch := [], mid := none, ra := none }] }

/-- Threads that arrive together are sorted by group and address into bundles (R172). Fuel is the number of threads. -/
def formBundles (s : State) : Nat → List (ThreadId × Word) → State
  | 0, _ => s
  | _, [] => s
  | n + 1, (t, pc) :: rest =>
    let same := fun (x : ThreadId × Word) =>
      x.1.core == t.core && x.1.slot == t.slot && x.1.laneGroup == t.laneGroup && x.2 == pc
    let s := s.formBundle t.core t.slot t.laneGroup pc (t.lane :: (rest.filter same).map fun x => x.1.lane)
    s.formBundles n (rest.filter fun x => !same x)

/-- Threads enter segments at their addresses. -/
def enter (s : State) (l : List (ThreadId × Word)) : State :=
  let s := l.foldl (fun s (t, pc) => s.arriveAt t pc) s
  s.formBundles l.length l

/-- A thread leaves its bundle, or the group it sleeps in. -/
def leaveBundle (s : State) (t : ThreadId) : State :=
  let gone := (s.bundles.filter fun b => b.has t && b.lanes == [t.lane]).map (·.id)
  let s := { s with bundles := updWhere (fun b => b.has t) (fun (b : Bundle) => { b with lanes := b.lanes.filter (· != t.lane) }) s.bundles
                    sleepers := s.sleepers.map fun (g : SleepGroup) =>
                      { g with members := g.members.filter fun x => decide (x ≠ t), waits := g.waits.filter fun x => decide (x.1 ≠ t) } }
  gone.foldl State.dropBundle s

/-! ### The return from a trap (R203, R345, R346) -/

/-- The grid whose member a thread is (R328): its team's, or the origin of the record it took. -/
def gridOf (s : State) (t : Thread) : Option Nat :=
  let tm := s.teamOf t
  match tm.owner with
  | some g => some g
  | none => ((tm.origins[32 * t.group + t.id.pos]?).getD none)

/-- A thread ends (R182, R346). -/
def endThread (s : State) (t : ThreadId) (killed : Bool) : State :=
  match s.thread? t with
  | none => s
  | some x =>
    let s := s.modThread t fun x => { x with status := .ended killed, snap := none }
    match killed, s.gridOf x with
    | true, some g => s.modGrid g fun g => { g with killed := g.killed + 1 }
    | _, _ => s

end State

/-- A region with a serial at or after another of the same thread. -/
def sinceSerial (k n : BitVec 32) : Bool := (n - k).toNat < 2 ^ 31

/-- Tile rows return to their values at the entry of a thread's region: of several copies the oldest stands (R217). -/
def Core.rowsBack (c : Core) (t : ThreadId) (k : BitVec 32) : Core :=
  let mine := fun (e : Nat × ThreadId × BitVec 32 × BitVec 2048) => decide (e.2.1 = t) && sinceSerial k e.2.2.1
  { c with acc := (c.rowEntry.filter mine).foldr (fun e a => assocSet 0 e.1 e.2.2.2 a) c.acc
           rowEntry := c.rowEntry.filter fun e => !mine e }

/-- Rows read ahead are discarded, and are fetched again (R241, R242). -/
def Queue.dropAhead (q : Queue) : Queue := { q with ahead := [] }

/-- A queue's position returns to its value at the entry of a thread's region, when a region since used it (R20, R242); a frozen
stream stays frozen at its element (R347). -/
def Queue.back (t : ThreadId) (k : BitVec 32) (q : Queue) : Queue :=
  let mine := fun (e : ThreadId × BitVec 32 × Nat) => decide (e.1 = t) && sinceSerial k e.2.1
  match q.entries.find? mine with
  | some e => { q with pos := e.2.2, ahead := [], entries := q.entries.filter fun e => !mine e }
  | none => q

namespace State

/-- Tile rows and queue positions return to their region-entry values, for the region with a serial (R217, R242, R345). -/
def restoreRows (s : State) (t : ThreadId) (k : BitVec 32) : State :=
  match s.thread? t with
  | none => s
  | some x =>
    (s.modCore t.core fun c => c.rowsBack t k).modTeam x.team fun tm => { tm with queues := tm.queues.map (Queue.back t k) }

/-- A thread restarts at its current region's entry (R345): checkpointed registers, p1-p7, MODE and RSERIAL from the
checkpoint, every other register as it is. -/
def restartRegion (s : State) (t : ThreadId) : State :=
  let s := match s.thread? t with
    | some x => s.restoreRows t x.curSlot.seqh
    | none => s
  s.modThread t fun x =>
    let k := x.curSlot
    { x with regs := k.load x.regs, rserial := k.seqh, pc := x.entry, status := .live, snap := none, marker := none
             reached := x.reached.filter fun e => !sinceSerial k.seqh e.1 }

/-- The instruction cycle of a lane group (R59). -/
def cycleOf (s : State) (core lg : Nat) : Nat := (((s.core core).lgs[lg]?).map (·.icycle)).getD 0

/-- Threads of a sleeping group go on at an address inside their segment, as one bundle, with the segment's convergence and
distances, after the stall count of their last chain (R54, R57, R189). -/
def enterAt (s : State) (g : SleepGroup) (l : List ThreadId) (a : Word) : State :=
  let s := l.foldl (fun s t => s.modThread t fun x =>
    { x with pc := a, status := .live, snap := none, marker := none, writes := x.writes.map fun w => { w with ready := 0 } }) s
  match l with
  | [] => s
  | t :: _ =>
    let (k, s) := s.newId
    { s with bundles := s.bundles ++
      [{ id := k, core := t.core, lg := t.laneGroup, slot := t.slot, lanes := sortNat (l.map (·.lane)), stamp := s.tstamp
         eligible := s.cycleOf t.core t.laneGroup + g.stall, passed := 0, boost := none, conv := g.conv, hold := .none, elapsed := g.elapsed
         producers := g.producers, starved := false, latch := [], mid := none, ra := none }] }

/-- A group of threads whose tickets are all resolved goes on (R139, R345, R346): KILL threads end, the others restart at
their region's entry, or after a `trap` at its successor. -/
def wakeGroup (s : State) (g : SleepGroup) : State :=
  let killed := (g.waits.filter fun w => w.2 == some false).map (·.1)
  let s := killed.foldl (fun s t => s.endThread t true) s
  let rest := g.members.filter fun t => !killed.contains t
  match g.resumeAt with
  | some a => s.enterAt g rest a
  | none =>
    let s := rest.foldl (fun s t => s.restartRegion t) s
    s.enter (rest.filterMap fun t => (s.thread? t).map fun x => (t, x.entry))

/-- Every group of threads whose tickets are all resolved goes on. -/
def wakeGroups (s : State) : State :=
  let done := s.sleepers.filter fun g => g.waits.all fun w => w.2.isSome
  let s := { s with sleepers := s.sleepers.filter fun g => !(g.waits.all fun w => w.2.isSome) }
  done.foldl wakeGroup s

/-- A ticket's resolution reaches one waiting thread (R203). -/
def resolveThread (s : State) (t : ThreadId) (retry : Bool) : State :=
  { s with sleepers := s.sleepers.map fun g => { g with waits := g.waits.map fun w => if w.1 = t then (t, some retry) else w } }

end State

end Sys2Proof.Machine
end

