-- ==== Sys2Proof/Machine/Crypto.lean ====
section
/-! DEFINITION. AES-256 in XTS form, as the fill of an instruction cache decrypts a line of a tenant's text (R400): the
cipher of FIPS 197 and the mode of IEEE 1619. -/

namespace Sys2Proof.Machine

/-- Multiplication by x in GF(2^8), and by another element. -/
def gfX (a : Nat) : Nat := if a < 128 then 2 * a else (2 * a - 256) ^^^ 0x1B
def gfMul (a b : Nat) : Nat :=
  ((List.range 8).foldl (fun (x : Nat × Nat) i => (gfX x.1, if b.testBit i then x.2 ^^^ x.1 else x.2)) (a, 0)).2

/-- The substitution: the inverse in GF(2^8), then the affine map. -/
def gfInv (a : Nat) : Nat :=
  let a2 := gfMul a a
  let a4 := gfMul a2 a2
  let a8 := gfMul a4 a4
  let a16 := gfMul a8 a8
  let a32 := gfMul a16 a16
  let a64 := gfMul a32 a32
  let a128 := gfMul a64 a64
  gfMul a2 (gfMul a4 (gfMul a8 (gfMul a16 (gfMul a32 (gfMul a64 a128)))))
def rotByte (a n : Nat) : Nat := (a * 2 ^ n) % 256 ||| a / 2 ^ (8 - n)
def subByte (a : Nat) : Nat :=
  let b := gfInv a
  b ^^^ rotByte b 1 ^^^ rotByte b 2 ^^^ rotByte b 3 ^^^ rotByte b 4 ^^^ 0x63
/-- The inverse substitution. -/
def invSubByte (a : Nat) : Nat := gfInv (rotByte a 1 ^^^ rotByte a 3 ^^^ rotByte a 6 ^^^ 5)

def xorBytes (a b : List Nat) : List Nat := List.zipWith (· ^^^ ·) a b

/-- The key schedule of AES-256: 60 words of four bytes, the latest first. -/
def expandKey : (n : Nat) → (i : Nat) → (rcon : Nat) → List (List Nat) → List (List Nat)
  | 0, _, _, ws => ws
  | n + 1, i, rcon, ws =>
    let prev := ws.headD []
    let back := (ws[7]?).getD []
    let t := if i % 8 = 0 then (match (prev.drop 1 ++ prev.take 1).map subByte with | b :: bs => (b ^^^ rcon) :: bs | [] => [])
      else if i % 8 = 4 then prev.map subByte else prev
    expandKey n (i + 1) (if i % 8 = 0 then gfX rcon else rcon) (xorBytes back t :: ws)

/-- The 15 round keys of a 32-byte key. -/
def roundKeys (key : List Nat) : List (List Nat) :=
  let first := (List.range 8).map fun i => (key.drop (4 * i)).take 4
  let ws := (expandKey 52 8 1 first.reverse).reverse
  (List.range 15).map fun r => ((ws.drop (4 * r)).take 4).flatten

/-- Row shifts over a state of 16 bytes in columns. -/
def shiftRows (k : Nat) (s : List Nat) : List Nat :=
  (List.range 16).map fun i => (s[(i + 4 * k * (i % 4)) % 16]?).getD 0

/-- The column mix with a row of coefficients. -/
def mixColumns (coef : List Nat) (s : List Nat) : List Nat :=
  (List.range 16).map fun i =>
    (List.range 4).foldl (fun acc j => acc ^^^ gfMul ((coef[(j + 4 - i % 4) % 4]?).getD 0) ((s[i / 4 * 4 + j]?).getD 0)) 0

/-- One block enciphered. -/
def aesEncrypt (rk : List (List Nat)) (b : List Nat) : List Nat :=
  let key := fun (r : Nat) => (rk[r]?).getD []
  let s := (List.range 13).foldl (fun s r => xorBytes (mixColumns [2, 3, 1, 1] (shiftRows 1 (s.map subByte))) (key (r + 1)))
    (xorBytes b (key 0))
  xorBytes (shiftRows 1 (s.map subByte)) (key 14)

/-- One block deciphered. -/
def aesDecrypt (rk : List (List Nat)) (b : List Nat) : List Nat :=
  let key := fun (r : Nat) => (rk[r]?).getD []
  let s := (List.range 13).foldl
    (fun s r => mixColumns [14, 11, 13, 9] (xorBytes ((shiftRows 3 s).map invSubByte) (key (13 - r)))) (xorBytes b (key 14))
  xorBytes ((shiftRows 3 s).map invSubByte) (key 0)

/-- The `n` bytes of a number, the least significant first, and back (R7). -/
def natBytes : (n : Nat) → Nat → List Nat
  | 0, _ => []
  | n + 1, v => v % 256 :: natBytes n (v / 256)
def bytesNat (l : List Nat) : Nat := l.foldr (fun b acc => b + 256 * acc) 0

/-- The tweak times x. -/
def xtsNext (t : Nat) : Nat := if t < 2 ^ 127 then 2 * t else (2 * t - 2 ^ 128) ^^^ 0x87

/-- The blocks of a data unit under successive tweaks, each through the cipher in one direction. -/
def xtsBlocks (cipher : List Nat → List Nat) : (n : Nat) → Nat → List Nat → List Nat
  | 0, _, _ => []
  | n + 1, t, bs =>
    let tw := natBytes 16 t
    xorBytes (cipher (xorBytes (bs.take 16) tw)) tw ++ xtsBlocks cipher n (xtsNext t) (bs.drop 16)

/-- One 64-byte line through the cipher (R400): `unit` is the tweak, the line's number in the address space. The first 32 bytes of
the key encipher data, the other 32 the tweak. -/
def xtsUnit (cipher : List (List Nat) → List Nat → List Nat) (key : BitVec 512) (unit line : Nat) : Nat :=
  let kb := natBytes 64 key.toNat
  let t := bytesNat (aesEncrypt (roundKeys (kb.drop 32)) (natBytes 16 unit))
  bytesNat (xtsBlocks (cipher (roundKeys (kb.take 32))) 4 t (natBytes 64 line))

/-- Deciphers a line, as the fill of an instruction cache does; enciphers one, as the loader does with translated code. -/
def xtsLine : BitVec 512 → Nat → Nat → Nat := xtsUnit aesDecrypt
def xtsSeal : BitVec 512 → Nat → Nat → Nat := xtsUnit aesEncrypt

end Sys2Proof.Machine
end

