-- ==== Sys2Proof/Machine/Translate.lean ====
section
/-! DEFINITION. The physical map, page tables, translation structures, the scratchpad aperture, watchpoints, and the checks
of a row-5 access (R34-R36, R138, R291, R292, R299-R304, R348, R371). -/

namespace Sys2Proof.Machine

/-- What a physical address decodes to (R291). -/
inductive PhysKind where
  | near | far | window | host (link : Nat) | peer (module : Nat) | unmapped
  deriving DecidableEq, Repr

/-- The decode of R291. -/
def physKind (pa : Nat) : PhysKind :=
  if pa ≤ 0x7FFFFFFFF then .near
  else if 0x1000000000 ≤ pa ∧ pa ≤ 0x4FFFFFFFFF then .far
  else if 0x8000000000 ≤ pa ∧ pa ≤ 0x817FFFFFFF then .window
  else if 0x10000000000 ≤ pa ∧ pa ≤ 0x1FFFFFFFFFF then .host 0
  else if 0x20000000000 ≤ pa ∧ pa ≤ 0x2FFFFFFFFFF then .host 1
  else if 0x8000000000000 ≤ pa ∧ pa ≤ 0xFFFFFFFFFFFFF then
    let m := (pa - 0x8000000000000) / 0x8000000000
    let o := (pa - 0x8000000000000) % 0x8000000000
    if m ≤ 4095 ∧ (o ≤ 0x7FFFFFFFF ∨ (0x1000000000 ≤ o ∧ o ≤ 0x4FFFFFFFFF)) then .peer m else .unmapped
  else .unmapped

/-- The block of a device-memory address (R292). -/
def blockOf (pa : Nat) : Option Nat :=
  match physKind pa with
  | .near => some (pa / 0x80000000)
  | .far => some (16 + (pa - 0x1000000000) / 0x80000000)
  | _ => none

/-- Where a block begins, and its home die (R292). -/
def blockBase (b : Nat) : Nat := if b < 16 then b * 0x80000000 else 0x1000000000 + (b - 16) * 0x80000000
def blockDie (b : Nat) : Nat := if b < 16 then b / 2 else (b - 16) % 8

/-- The home die of a line (R292): that of its block; die 0 for other memory. -/
def homeDie (pa : Nat) : Nat := ((blockOf pa).map blockDie).getD 0

/-! ### Page tables -/

/-- The permission and attribute bits of a PTE (R299). -/
def pteBit (p : Word) (i : Nat) : Bool := p.getLsbD i
def ptePpn (p : Word) : Nat := p.toNat / 2 ^ 10 % 2 ^ 44

/-- The outcome of reading tables for an address: the translation with the address of its leaf and the non-leaf entries
read, or the fault (R300, R301). -/
inductive WalkRes where
  | leaf (e : TlbEntry) (pteAddr : Nat) (pte : Word) (nonLeaf : List (Nat × Nat × Nat × Nat))
  | notResident
  /-- a table format error (R300) -/
  | format
  /-- a page that the partition may not use (R291, R371), with the tag of its leaf -/
  | access (tag : Nat)
  deriving DecidableEq, Repr

/-- A leaf at a level meets its row of R300. -/
def leafFormat (level : Nat) (p : Word) : Bool :=
  match level with
  | 0 => pteBit p 63 && ptePpn p % 16 == 8
  | 1 => !pteBit p 63 && ptePpn p % 2 ^ 9 == 0
  | 2 => !pteBit p 63 && ptePpn p % 2 ^ 18 == 0
  | _ => false

/-- Page size of a leaf (R300). -/
def leafSize (level : Nat) : Nat := if level = 0 then 0x10000 else if level = 1 then 0x200000 else 0x40000000

/-- The page of a leaf may be used by the partition (R291, R371). -/
def pageAllowed (owned : List Nat) (base size : Nat) : Bool :=
  let ok := fun a => match physKind a with
    | .near | .far => (blockOf a).any owned.contains
    | .host _ | .peer _ => true
    | .window | .unmapped => false
  ok base && ok (base + size - 1)

/-- Walks the tables from a level (R299-R301, R371). Of the 16 entries of a 64 KiB range the one that the address selects is used, also
where they disagree, which the reference does not promise (DESIGN CHOICE, log 67). `rd` reads a PTE; `cached` is the walk cache's next table for a level
and virtual prefix. Where it differs from the tables, which is used is not promised (R304): `pick` takes the cached one. -/
def walkFrom (rd : Nat → Word) (cached : Nat → Nat → Option Nat) (pick : Bool) (owned : List Nat) (ctx : Nat) (va : Nat) :
    (level : Nat) → (base : Nat) → List (Nat × Nat × Nat × Nat) → WalkRes
  | level, base, seen =>
    let pre := va / 2 ^ (12 + 9 * level)
    let a := base + 8 * (pre % 512)
    let p := rd a
    let below := fun (next : Nat) => match level with
      | 0 => WalkRes.format
      | l + 1 => walkFrom rd cached pick owned ctx va l next (seen ++ [(ctx, level, pre, next)])
    let pointer := pteBit p 0 && !pteBit p 1 && !pteBit p 2 && !pteBit p 3 && p.toNat / 2 ^ 54 == 0 && p.toNat / 16 % 16 == 0
    let tables :=
      if !pteBit p 0 then WalkRes.notResident
      else if p.toNat / 2 ^ 56 % 2 ^ 7 ≠ 0 then .format
      else if pointer then below (ptePpn p * 0x1000)
      else if !pteBit p 1 && !pteBit p 2 && !pteBit p 3 then .format
      else if !leafFormat level p then .format
      else
        let size := leafSize level
        let pbase := ptePpn p * 0x1000 / size * size
        if !pageAllowed owned pbase size then .access (p.toNat / 2 ^ 54 % 4)
        else .leaf { ctx := ctx, vbase := va / size * size, size := size, pbase := pbase, r := pteBit p 1, w := pteBit p 2
                     x := pteBit p 3, u := pteBit p 4, d := pteBit p 7, tag := p.toNat / 2 ^ 54 % 4 } a p seen
    match cached level pre with
    | some next => if pointer && ptePpn p * 0x1000 == next then tables else if pick then below next else tables
    | none => tables

namespace State

/-- The blocks that a context's partition owns (R369). -/
def ownedBlocks (s : State) (c : Context) : List Nat := ((s.part? c.part).map (·.blocks)).getD []

/-- A walk for an address of a context by a core (R303); `pick` is the free choice of R304 between the walk cache and the
tables. Bits 56:0 of the address select the entries. -/
def walkFor (s : State) (core : Nat) (c : Context) (va : Word) (pick : Bool) : WalkRes :=
  let t := (s.core core).tlb.walk
  let cached := fun (level pre : Nat) => (t.find? fun e => e.1 == c.id && e.2.1 == level && e.2.2.1 == pre).map (·.2.2.2)
  walkFrom (fun a => BitVec.ofNat 64 (s.readM a 8)) cached pick (s.ownedBlocks c) c.id (va.toNat % 2 ^ 57) 4 (c.root * 0x1000) []

/-- A walk of the tables alone, as agents make it. -/
def walkTables (s : State) (c : Context) (va : Word) : WalkRes :=
  walkFrom (fun a => BitVec.ofNat 64 (s.readM a 8)) (fun _ _ => none) false (s.ownedBlocks c) c.id (va.toNat % 2 ^ 57) 4
    (c.root * 0x1000) []

/-- The lines of the PTEs that a walk reads (R251, R303). -/
def walkLines (s : State) (c : Context) (va : Word) : List Nat :=
  let rec go : Nat → Nat → List Nat
    | 0, _ => []
    | n + 1, base =>
      let a := base + 8 * (va.toNat % 2 ^ 57 / 2 ^ (12 + 9 * n) % 512)
      let p : Word := BitVec.ofNat 64 (s.readM a 8)
      lineOf a :: (if pteBit p 0 && !pteBit p 1 && !pteBit p 2 && !pteBit p 3 then go n (ptePpn p * 0x1000) else [])
  go 5 (c.root * 0x1000)

end State

/-- Canonical addresses (R34). -/
def canonical (va : Word) : Bool := (va.extractLsb' 0 57).signExtend 64 == va

/-- What an access does (R138, R348). -/
inductive Want where
  | read | write | rmw | fetch
  deriving DecidableEq, Repr

/-- ACC of INFO (R342). -/
def Want.acc : Want → Nat
  | .read => 1 | .write => 2 | .rmw => 3 | .fetch => 4
def Want.writes : Want → Bool
  | .write | .rmw => true
  | _ => false

/-- What a translation leaves behind once used: the entry that its TLB and latch take, the PTE and the bits set in it
(R301, R303), and the non-leaf entries of the walk cache. -/
structure XEff where
  kind : TlbKind
  core : Nat
  lane : Option Nat
  entry : TlbEntry
  pte : Option (Nat × Nat)
  nonLeaf : List (Nat × Nat × Nat × Nat)
  /-- the lane's latch gave it, which bypasses every TLB -/
  latched : Bool
  deriving DecidableEq, Repr

inductive XRes where
  | ok (pa : Nat) (eff : XEff)
  | fault (c : Cause)
  deriving DecidableEq, Repr

/-- The entry serves the address. -/
def TlbEntry.serves (e : TlbEntry) (ctx : Nat) (va : Nat) : Bool :=
  e.ctx == ctx && e.vbase ≤ va && va < e.vbase + e.size

/-- The privilege and permission of an access through a translation (R32, R38, R138). -/
def TlbEntry.permits (e : TlbEntry) (hlevel : Bool) : Want → Bool
  | .read => e.r && (e.u || hlevel)
  | .write => e.w && (e.u || hlevel)
  | .rmw => e.r && e.w && (e.u || hlevel)
  | .fetch => e.x && e.tag == 2 && (e.u != hlevel)

/-- Two entries translate alike. -/
def TlbEntry.same (a b : TlbEntry) : Bool :=
  a.vbase == b.vbase && a.size == b.size && a.pbase == b.pbase && a.r == b.r && a.w == b.w && a.x == b.x && a.u == b.u && a.tag == b.tag

def Tlbs.of (t : Tlbs) : TlbKind → List TlbEntry
  | .fetch => t.fetch
  | .access => t.access
  | .stream => t.stream
  | .tile => t.tile

namespace State

/-- The translation of an address in a lane's latch. -/
def latchEntry (s : State) (core : Nat) (lane : Option Nat) (ctx v : Nat) : Option TlbEntry :=
  match lane with
  | some l => ((s.core core).tlb.latches.find? fun e => e.1 == l && e.2.serves ctx v).map (·.2)
  | none => none

/-- The translation that a latch or TLB holds for an access: an entry with D = 0 does not serve a write (R303). -/
def heldEntry (s : State) (kind : TlbKind) (core : Nat) (lane : Option Nat) (ctx v : Nat) (want : Want) : Option TlbEntry :=
  let held : Option TlbEntry := match s.latchEntry core lane ctx v with
    | some e => some e
    | none => ((s.core core).tlb.of kind).find? fun e => e.serves ctx v
  held.filter fun e => e.d || !want.writes

/-- The translation of an address (R303): latch, TLB, then walk. Where a held translation and the tables differ, which
is used is not promised (R304): `pick` takes the held one. -/
def xlate (s : State) (kind : TlbKind) (core : Nat) (lane : Option Nat) (c : Context) (hlevel : Bool) (va : Word) (want : Want)
    (pick : Bool) : XRes :=
  let v := va.toNat % 2 ^ 57
  let walked := s.walkFor core c va pick
  let tables := match walked with
    | .notResident => XRes.fault .notResident
    | .format | .access _ => .fault .access
    | .leaf e a p nl =>
      if !e.permits hlevel want then .fault .access
      else
        let bits := 0x40 ||| (if want.writes then 0x80 else 0)
        let need := p.toNat &&& bits ≠ bits
        .ok (e.pbase + (v - e.vbase))
          ⟨kind, core, lane, { e with d := e.d || want.writes }, if need then some (a, bits) else none, nl, false⟩
  match s.heldEntry kind core lane c.id v want with
  | some e =>
    let held := if e.permits hlevel want then XRes.ok (e.pbase + (v - e.vbase)) ⟨kind, core, lane, e, none, [], (s.latchEntry core lane c.id v).isSome⟩ else .fault .access
    let agree := match walked with | .leaf e' _ _ _ => e.same e' | _ => false
    if agree then held else if pick then held else tables
  | none => tables

/-- Two entries are of the same page. -/
def samePage (a b : TlbEntry) : Bool := a.ctx == b.ctx && a.vbase == b.vbase && a.size == b.size

/-- The entry put in front of a list, at most `n` kept. -/
def tlbPush (n : Nat) (e : TlbEntry) (l : List TlbEntry) : List TlbEntry := (e :: l.filter fun x => !samePage x e).take n

/-- The entry in the access TLB (R302): a full set of 8 gives up its least recently used entry, one that no latch holds as long as
there is one. -/
def accessPush (latched : TlbEntry → Bool) (e : TlbEntry) (l : List TlbEntry) : List TlbEntry :=
  let rest := l.filter fun x => !samePage x e
  let set := rest.filter fun x => Config.accessIndex x.vbase % 64 == Config.accessIndex e.vbase % 64
  let victim := if set.length < 8 then none else match (set.filter fun x => !latched x).getLast? with
    | some v => some v
    | none => set.getLast?
  e :: rest.filter fun x => !victim.any (samePage x)

/-- The entry in the stream TLB, first in, first out. -/
def streamPush (e : TlbEntry) (l : List TlbEntry) : List TlbEntry :=
  if l.any (samePage · e) then l.map fun x => if samePage x e then e else x else (e :: l).take 64

/-- The entry in the tile TLB, which takes a new one at its oldest place. -/
def tilePush (e : TlbEntry) (l : List TlbEntry) : List TlbEntry :=
  if l.any (samePage · e) then e :: l.filter fun x => !samePage x e else l.take 127 ++ [e]

/-- The bits that a translation sets in its PTE wait for a page move, which has locked the PTE (R310). -/
def xWaits (s : State) (x : XEff) : Bool := x.pte.any fun p => writeWaits s p.1 8

/-- The TLB, latch and walk-cache fills of a translation, and the setting of A and D in its PTE (R301-R303). A latch hit touches nothing. -/
def applyXEff (s : State) (x : XEff) : State :=
  if x.latched then s else
  let s := match x.pte with
    | some (a, bits) => writeMaster s a 8 ((s.readM a 8) ||| bits)
    | none => s
  s.modCore x.core fun c =>
    let t := c.tlb
    let t := match x.kind with
      | .fetch => { t with fetch := tlbPush 64 x.entry t.fetch }
      | .access => { t with access := accessPush (fun e => t.latches.any fun n => samePage n.2 e) x.entry t.access }
      | .stream => { t with stream := streamPush x.entry t.stream }
      | .tile => { t with tile := tilePush x.entry t.tile }
    let t := match x.lane with
      | some l => { t with latches := (l, x.entry) :: t.latches.filter fun e => e.1 != l }
      | none => t
    { c with tlb := { t with walk := (x.nonLeaf ++ t.walk.filter fun w => !x.nonLeaf.any fun e => e.1 == w.1 && e.2.1 == w.2.1 && e.2.2.1 == w.2.2.1).take 32 } }
end State

/-! ### The scratchpad aperture (R35, R36, R140) -/

/-- The address lies in the aperture. -/
def inAperture (va : Word) : Bool := va.toNat / 2 ^ 24 == 0xFFFF0000

namespace State

/-- Every thread of the team has ended and no continuation is pending (R36). -/
def teamExited (s : State) (tm : Team) : Bool :=
  s.threads.all fun t => t.team != tm.id || (match t.status with | .ended _ => true | _ => false)

/-- The placed team, not yet released, that a window number of 1 to 12 of a team names (R35). -/
def memberAt (s : State) (tm : Team) (win : Nat) : Option Team :=
  let x := (win - 1) % tm.kernel.ca
  let y := (win - 1) / tm.kernel.ca
  if y < tm.kernel.cb then
    s.teams.find? fun m => m.cluster == tm.cluster && m.ctx == tm.ctx && m.cx == x && m.cy == y
  else none

/-- The team that a window of a team names, when the window is open (R35, R36). -/
def windowTeam (s : State) (tm : Team) (win : Nat) : Option Team :=
  if win = 0 then some tm
  else if win ≤ 12 then (s.memberAt tm win).filter fun m => m.started && !s.teamExited m
  else none

/-- The place of an aperture access, or its access fault (R35, R36). -/
def apertureLoc (s : State) (tm : Team) (va : Word) (n : Nat) : Option Loc :=
  let off := va.toNat % 2 ^ 20
  match s.windowTeam tm (va.toNat / 2 ^ 20 % 16) with
  | some m => if off + n ≤ m.kernel.srows * 1024 then some (.sp m.core (m.rowLo * 1024 + off)) else none
  | none => none

/-- A watchpoint of the context matches (R348). -/
def watched (c : Context) (pa n : Nat) (want : Want) : Bool :=
  c.watch.any fun w => (pa < w.base + w.len && w.base < pa + n) &&
    (match want with | .read => w.r | .write => w.w | .rmw => w.rmw | .fetch => false)

/-- An access by a master of another context, or of none, that hits an armed watchpoint is performed and recorded: a watch
record (R349) with the physical address (log 31). `own` is the master's context. -/
def noteWatch (s : State) (own : Option Nat) (mod src pos : Nat) (pa n : Nat) (want : Want) (acc : Nat) : State :=
  (s.ctxs.filter fun c => some c.id != own && watched c pa n want).foldl (fun s c => s.report fun k =>
    { id := k, ctx := c.id, kind := 4, cause := .watchpoint, nr := false, epc := 0, eaddr := BitVec.ofNat 64 pa
      who := whoWord mod src pos, rentry := 0, serial := 0, info := accInfo n acc, stamp := s.tstamp, waiter := .nobody }) s

end State

/-- Where an instruction may go (condition 4 of R138). -/
inductive Place where
  | any | device | aperture
  deriving DecidableEq, Repr

/-- One thread's access as R138 checks it. -/
structure Probe where
  ea : Word
  size : Nat
  want : Want
  place : Place
  /-- a FAILED granule faults (condition 7) -/
  full : Bool
  deriving DecidableEq, Repr

inductive CheckRes where
  | ok (loc : Loc) (eff : Option XEff)
  | fault (c : Cause)
  deriving DecidableEq, Repr

/-- The translation of a checked access waits for a page move (R310). -/
def CheckRes.waits (s : State) : CheckRes → Bool
  | .ok _ (some x) => s.xWaits x
  | _ => false

namespace State

/-- The conditions of R138 in their order, for one thread, whose access goes through a lane's latch or none (R302). `pick` is the free
choice of R304. -/
def checkVia (lane : Option Nat) (s : State) (t : Thread) (p : Probe) (pick : Bool) : CheckRes :=
  let tm := s.teamOf t
  let c := s.ctxOf t
  if !canonical p.ea then .fault .access
  else if p.ea.toNat % p.size ≠ 0 then .fault .alignment
  else if inAperture p.ea then
    match s.apertureLoc tm p.ea p.size with
    | none => .fault .access
    | some l =>
      if p.place = .device then .fault .access
      else match l with
        | .sp core off =>
          if p.full && (s.core core).granule (off / 16) == .failed then .fault .failedGranule else .ok l none
        | .dev _ => .ok l none
  else if p.place = .aperture then .fault .access
  else match s.xlate .access t.id.core lane c tm.kernel.hlevel p.ea p.want pick with
    | .fault k => .fault k
    | .ok pa eff =>
      if watched c pa p.size p.want && t.passWatch != some t.pc then .fault .watchpoint else .ok (.dev pa) (some eff)

/-- The conditions of R138 for an access of row 5. -/
def check (s : State) (t : Thread) (p : Probe) (pick : Bool) : CheckRes := s.checkVia (some t.id.lane) t p pick

/-- The translation that a check has used, whose walk sets A and D and fills the structures (R301, R303): that of an access that goes on, and
of one that stops at a watchpoint. -/
def usedXlate (lane : Option Nat) (s : State) (t : Thread) (p : Probe) (pick : Bool) : Option XEff :=
  match s.checkVia lane t p pick with
  | .ok _ x => x
  | .fault .watchpoint => match s.xlate .access t.id.core lane (s.ctxOf t) (s.teamOf t).kernel.hlevel p.ea p.want pick with
    | .ok _ x => some x
    | .fault _ => none
  | .fault _ => none

/-- The traces of several translations, which stand even where the accesses do not go on. -/
def applyXEffs (s : State) (l : List XEff) : State := l.foldl applyXEff s

/-- The PTE lines that translating an access reads (R251); none in the aperture or for a non-canonical address. -/
def probeLines (s : State) (t : Thread) (va : Word) : List Nat :=
  if !canonical va || inAperture va then [] else s.walkLines (s.ctxOf t) va

/-- The free choice of R304 for a lane. -/
def stalePick (s : State) (lane : Nat) : Bool := Config.freeBit (s.fresh + lane)

end State

end Sys2Proof.Machine
end

