-- ==== Sys2Proof/Machine/Cache.lean ====
section
/-! DEFINITION. The L1 caches, the home slices with their directory and way masks, the contention predictor, prefetches, and what an
access charges and samples (R136, R148, R292, R294-R298, R306, R370). Bytes are those of M: caches change timing only. -/

namespace Sys2Proof.Machine

/-- The home slice of an address (R292): in its home die for device memory, in die 0 for CXL host memory; peer memory has none. -/
def homeSlice (pa : Nat) : Option Nat :=
  match physKind pa with
  | .near | .far | .host _ => some (48 * homeDie pa + Config.sliceHash (lineOf pa) % 48)
  | _ => none

/-- The valid bit of the sector that holds an address. -/
def sectorBit (pa : Nat) : BitVec 2 := if pa / 32 % 2 = 0 then 1 else 2

/-- The quad of a flat core (R295). -/
def quadOf (core : Nat) : Nat := let c := core % 48; (c / 6 / 2) * 3 + c % 6 / 2

/-- Bytes of the sectors that a pair of bits names. -/
def sectorBytes (b : BitVec 2) : Nat := (if b.getLsbD 0 then 32 else 0) + (if b.getLsbD 1 then 32 else 0)

/-- The cores of a line's home die that hold it narrowly, which alone the directory names (R294). -/
def narrowHolders (s : State) (line : Nat) : List Nat :=
  (s.cores.filter fun c => c.nh.contains line && c.id / 48 == homeDie (64 * line)).map (·.id)

/-- The directory entry's word (R295): OWNER or a quad of QUADS names each narrow holder, which NH tells of. -/
def DirEntry.word (s : State) (d : DirEntry) : Nat :=
  let narrow := narrowHolders s d.line
  let quads : BitVec 12 := (narrow.filter fun c => !d.owner.any (·.1 == c)).foldl (fun q c => q ||| (1 <<< quadOf c)) d.quads
  let o := match d.owner with
    | some (c, .e) => c % 48 * 2 ^ 18 + 2 ^ 16
    | some (c, .m) => c % 48 * 2 ^ 18 + 2 * 2 ^ 16
    | some (c, .o) => c % 48 * 2 ^ 18 + 3 * 2 ^ 16
    | _ => 0
  o + d.hzl.toNat * 2 ^ 14 + (if narrow = [] then 0 else 2 ^ 12) + quads.toNat

/-- What a prefetch brings (R148, R164): the line into L1 and L2, into its home slice, its translation alone, or the line for ownership. -/
inductive Prefetch where
  | l1 | l2 | tlb | own
  deriving DecidableEq, Repr

def Prefetch.of : Nat → Prefetch
  | 0 => .l1
  | 1 => .l2
  | _ => .tlb

/-- The hint of B[4:3] (R136). -/
def Hint.of (b : Nat) : Hint :=
  match b / 8 % 4 with
  | 0 => .normal
  | 1 => .stream
  | 2 => .keep
  | _ => .nol1

/-! ### The contention predictor (R297) -/

namespace Contention

/-- The entry of a line counts a transfer of ownership between quads, and the line is contended from the fourth of a period. -/
def transfer (line : Nat) (l : List Contention) : List Contention :=
  let e := (l.find? fun x => x.line == line).getD ⟨line, 0, false, 0⟩
  let e' := { e with transfers := e.transfers + 1, contended := e.contended || decide (4 ≤ e.transfers + 1), quietPeriods := 0 }
  if e'.contended && e.contended then l.map fun x => if x.line = line then e' else x
  else e' :: l.filter fun x => x.line != line

/-- A full table drops the line that became contended earliest. -/
def trim (slice : Option Nat) (l : List Contention) : List Contention :=
  let mine := l.filter fun x => homeSlice (64 * x.line) == slice
  if mine.length ≤ Config.predictorEntries then l
  else match (mine.filter (·.contended)).getLast?, mine.getLast? with
    | some x, _ => l.filter fun y => y.line != x.line
    | none, some x => l.filter fun y => y.line != x.line
    | none, none => l

/-- A period ends for an entry: two whole periods without a transfer return its line to quiet. -/
def period (d : Contention) : Contention :=
  let n := if d.transfers = 0 then d.quietPeriods + 1 else 0
  { d with transfers := 0, quietPeriods := n, contended := d.contended && n < 2 }

end Contention

namespace State

/-- Atomics on the line run at the home slice (R297). -/
def contended (s : State) (line : Nat) : Bool := s.contention.any fun x => x.line == line && x.contended

/-- Ownership of a line moves between cores. -/
def noteTransfer (s : State) (line src dst : Nat) : State :=
  if quadOf src = quadOf dst then s
  else { s with contention := Contention.trim (homeSlice (64 * line)) (Contention.transfer line s.contention) }

/-! ### Partitions' ways and bytes (R298, R370) -/

def partOf (s : State) (ctx : Nat) : Option PartDesc := (s.ctx? ctx).bind fun c => s.part? c.part

/-- The ways that a context's partition may allocate. -/
def waysOf (s : State) (ctx : Nat) : BitVec 24 := ((s.partOf ctx).map (·.ways)).getD 0

/-- A partition with an empty way mask allocates in no cache. -/
def allocates (s : State) (ctx : Nat) : Bool := s.waysOf ctx != 0

/-- Bytes moved between a home slice and device memory count against the partition's budget. -/
def spend (s : State) (ctx pa n : Nat) : State :=
  match s.ctx? ctx with
  | some c => if n = 0 || (blockOf pa).isNone then s else { s with spent := assocSet 0 c.part (assocD 0 c.part s.spent + n) s.spent }
  | none => s

/-! ### L1 lines (R294-R296) -/

def l1Line (s : State) (core line : Nat) : Option L1Line := (s.core core).l1.find? fun x => x.line == line

/-- The core's L1 holds the sector of an address. -/
def l1Holds (s : State) (core pa : Nat) : Bool := (s.core core).l1.any fun x => x.line == lineOf pa && x.valid &&& sectorBit pa != 0

def dropL1 (s : State) (core line : Nat) : State := s.modCore core fun c => { c with l1 := c.l1.filter fun x => x.line != line }

def setL1 (s : State) (core line : Nat) (st : Moesi) : State :=
  s.modCore core fun c => { c with l1 := updWhere (fun x => x.line == line) (fun x => { x with st := st }) c.l1 }

/-- Other cores that hold a line: of its home die, since no other caches it (R294). -/
def otherHolders (s : State) (core line : Nat) : List Nat := (s.cores.filter fun c => c.id != core && c.l1.any fun x => x.line == line).map (·.id)

def dirOf (s : State) (line : Nat) : Option DirEntry := s.dir.find? fun d => d.line == line
def modDir (s : State) (line : Nat) (f : DirEntry → DirEntry) : State := { s with dir := updWhere (fun d => d.line == line) f s.dir }

/-- A core's copy of a line has left its L1: what it had dirty is written into the slice. -/
def written (x : L1Line) (core : Nat) (d : DirEntry) : DirEntry :=
  { d with owner := if d.owner.any (·.1 == core) then none else d.owner
           dirty := if x.st = .m ∨ x.st = .o then d.dirty ||| x.valid else d.dirty }

/-- The line that a set of an L1 gives up (R136, R294): the least recently used among those with `.stream`, else among those
without `.keep`, else of all. -/
def l1Victim (l : List L1Line) : Option L1Line :=
  match (l.filter fun x => x.hint == .stream).getLast?, (l.filter fun x => x.hint != .keep).getLast? with
  | some x, _ => some x
  | none, some x => some x
  | none, none => l.getLast?

/-- A full set makes room for a line. -/
def l1Room (s : State) (core line : Nat) : State :=
  let set := (s.core core).l1.filter fun x => x.line != line && Config.l1Index x.line % 256 == Config.l1Index line % 256
  if set.length < Config.l1Ways then s
  else match l1Victim set with
    | some v => (s.dropL1 core v.line).modDir v.line (written v core)
    | none => s

/-- A line stands in an L1 as the latest used, with one more valid sector. -/
def l1Put (s : State) (core pa : Nat) (st : Moesi) (h : Hint) : State :=
  let line := lineOf pa
  let s := s.l1Room core line
  s.modCore core fun c =>
    let old := c.l1.find? fun x => x.line == line
    { c with l1 := ⟨line, st, ((old.map (·.valid)).getD 0) ||| sectorBit pa, h⟩ :: c.l1.filter fun x => x.line != line }

/-- A write takes the line in M after every other copy is invalidated (R296). -/
def takeOwnership (s : State) (core pa : Nat) (h : Hint) : State :=
  let line := lineOf pa
  let s := match (s.dirOf line).bind (·.owner) with
    | some (o, _) => s.noteTransfer line o core
    | none => s
  let s := (s.otherHolders core line).foldl (fun s c => s.dropL1 c line) s
  (s.l1Put core pa .m h).modDir line fun d => { d with owner := some (core, .m), hzl := 0, quads := 0 }

/-- Holders of a line that another party reads (R296): an M copy becomes O and goes on supplying data, an E copy becomes S. -/
def demote (s : State) (core line : Nat) : State :=
  (s.otherHolders core line).foldl (fun s c => match s.l1Line c line with
    | some ⟨_, .m, _, _⟩ => (s.setL1 c line .o).modDir line fun d => { d with owner := some (c, .o), quads := d.quads ||| (1 <<< quadOf c) }
    | some ⟨_, .e, _, _⟩ => (s.setL1 c line .s).modDir line fun d => { d with owner := none, quads := d.quads ||| (1 <<< quadOf c) }
    | _ => s) s

/-- A read takes the line in E when no other copy exists, in a core or a hazel domain, else in S (R296). -/
def takeShared (s : State) (core pa : Nat) (h : Hint) : State :=
  let line := lineOf pa
  match s.l1Line core line with
  | some x => s.l1Put core pa x.st h
  | none =>
    if s.otherHolders core line = [] ∧ (s.dirOf line).all (·.hzl == 0) then (s.l1Put core pa .e h).modDir line fun d => { d with owner := some (core, .e) }
    else ((s.demote core line).l1Put core pa .s h).modDir line fun d => { d with quads := d.quads ||| (1 <<< quadOf core) }

/-! ### Home slices (R294, R295, R298) -/

/-- The sectors of a line that some L1 holds dirty. -/
def dirtyIn (s : State) (line : Nat) : BitVec 2 :=
  (s.cores.filterMap fun c => (c.l1.find? fun x => x.line == line && (x.st == .m || x.st == .o)).map (·.valid)).foldl (· ||| ·) 0

/-- Every M and O copy of a range is written back, and every L1 copy of it is invalidated (R310). -/
def writeBack (s : State) (pa n : Nat) : State :=
  dropCopies { s with dir := s.dir.map fun (d : DirEntry) =>
    if pa / 64 ≤ d.line ∧ d.line ≤ (pa + n - 1) / 64 then { d with dirty := d.dirty ||| s.dirtyIn d.line } else d } pa n

/-- A line leaves its slice: every L1 copy is invalidated, dirty sectors go to memory, and a line that a core still holds narrowly
stays in the tag-only table. -/
def evict (s : State) (ctx line : Nat) : State :=
  match s.dirOf line with
  | none => s
  | some d =>
    let s := s.spend ctx (64 * line) (sectorBytes (d.dirty ||| s.dirtyIn line))
    let s := { s with cores := s.cores.map fun (c : Core) => { c with l1 := c.l1.filter fun x => x.line != line }
                      dir := s.dir.filter fun x => x.line != line }
    if s.cores.any fun c => c.nh.contains line then { s with tagOnly := s.tagOnly ++ [line] } else s

/-- The slice holds the sector of an address. -/
def sliceHolds (s : State) (pa : Nat) : Bool := s.dir.any fun d => d.line == lineOf pa && d.valid &&& sectorBit pa != 0

/-- Lines of the same set of the same slice. -/
def sameSet (a b : Nat) : Bool := homeSlice (64 * a) == homeSlice (64 * b) && Config.l2Index a % 1024 == Config.l2Index b % 1024

/-- The tag-only table of a line's slice has no free entry (R298). -/
def tagFull (s : State) (line : Nat) : Bool :=
  Config.tagOnlyEntries ≤ (s.tagOnly.filter fun m => homeSlice (64 * m) == homeSlice (64 * line)).length

/-- The way that a line of a context takes: a free one of its partition's mask, or that of a line that leaves; which is the device's
choice, among those without `.keep` where there are any (R136, R298). A line that is narrow-held leaves only where the slice's tag-only
table has an entry for it. -/
def wayFor (s : State) (ctx line : Nat) : Option (Nat × Option Nat) :=
  let ways := (List.range Config.l2Ways).filter fun w => (s.waysOf ctx).getLsbD w
  let used := s.dir.filter fun d => sameSet d.line line && ways.contains d.way
  match ways.find? fun w => !used.any fun d => d.way == w with
  | some w => some (w, none)
  | none =>
    let used := if s.tagFull line then used.filter fun d => heldBy s none [d.line] == [] else used
    let plain := used.filter fun d => !d.keep
    let cand := if plain = [] then used else plain
    (cand[s.choose cand.length]?).map fun d => (d.way, some d.line)

/-- An access of a context's partition at a line's home slice (R294, R298): a hit in any way, or an allocation in its ways; the sectors
that move between the slice and device memory are charged (R370). `fill`: the sector is read from memory when the slice has it not;
`write`: it is written. -/
def sliceTouch (s : State) (ctx pa : Nat) (fill write : Bool) (h : Hint) : State :=
  let line := lineOf pa
  let bit := sectorBit pa
  if (homeSlice pa).isNone then s
  else match s.dirOf line with
  | some d =>
    let s := if fill && d.valid &&& bit == 0 then s.spend ctx pa 32 else s
    { s with dir := { d with valid := d.valid ||| bit, dirty := if write then d.dirty ||| bit else d.dirty, keep := d.keep || h == .keep }
                      :: s.dir.filter fun x => x.line != line }
  | none =>
    match s.wayFor ctx line with
    | none => s.spend ctx pa 32
    | some (w, v) =>
      let s := match v with | some l => s.bump.evict ctx l | none => s
      let s := if fill then s.spend ctx pa 32 else s
      { s with dir := ⟨line, w, bit, if write then bit else 0, h == .keep, none, 0, 0⟩ :: s.dir, tagOnly := s.tagOnly.filter (· != line) }

/-- A core may hold the line in its L1 (R294, R298). -/
def l1Allows (s : State) (core ctx pa : Nat) (h : Hint) : Bool :=
  homeDie pa == core / 48 && (blockOf pa).isSome && s.allocates ctx && h != .nol1

/-- One access in 64 to device memory is sampled by its home slice (R306); which is the slice's choice. -/
def sample (s : State) (ctx : Nat) (va : Word) (pa : Nat) (isModule : Bool) (who : Nat) : State :=
  if (blockOf pa).isNone then s
  else
    let hit := s.choose 64 == 0
    { s.bump with samples := if hit then s.samples ++ [⟨ctx, va &&& ~~~0xFFFF, isModule, who, (homeSlice pa).getD 0⟩] else s.samples }

/-- An access of a core that its L1 serves, which no home slice sees: a read of a sector that is there, a write under ownership. -/
def l1Hit (s : State) (core pa : Nat) (write whole : Bool) : Bool :=
  (s.l1Line core (lineOf pa)).any fun x => (whole || x.valid &&& sectorBit pa != 0) && (!write || x.st == .m || x.st == .e)

/-- What an access of a core to a device address moves beside its bytes: lines of its L1 and of the home slice, samples of what that slice
sees, and the partition's bytes. `atSlice`: performed at the slice, as a contended atomic is (R297). `whole`: a write of a whole sector, which need
not be read first (R296). -/
def touchLine (s : State) (core ctx : Nat) (va : Word) (pa : Nat) (write whole atSlice : Bool) (h : Hint) : State :=
  let may := s.l1Allows core ctx pa h && !atSlice
  let hit := may && s.l1Hit core pa write (write && whole)
  let s := s.sliceTouch ctx pa (!(write && whole)) write h
  let s := if may && (s.dirOf (lineOf pa)).isSome then (if write then s.takeOwnership core pa h else s.takeShared core pa h)
           else if write then dropCopies s pa 1 else s.demote core (lineOf pa)
  if hit then s else s.sample ctx va pa false (core / 48)

/-- The same for an engine's or agent's access of a partition's context, at the slice. -/
def touchSlice (s : State) (die ctx : Nat) (va : Word) (pa : Nat) (write : Bool) : State :=
  let s := s.sliceTouch ctx pa (!write) write .normal
  let s := if write then s else s.demote Config.cores (lineOf pa)
  s.sample ctx va pa false die

/-! ### Drains and Publish with what they move, and translations that took a long walk -/

/-- The youngest entry of the sector of a store takes the note of the store. -/
def noteStore (s : State) (core ctx pa : Nat) (va : Word) (h : Hint) : State :=
  s.modCore core fun c =>
    match c.tb.reverse.find? fun i => match i with | .entry _ sec .. => sec == sectorOf pa | .marker _ => false with
    | some i => { c with tbNotes := ⟨i.id, ctx, va, h⟩ :: c.tbNotes.filter fun n => n.id != i.id }
    | none => c

def noteOf (s : State) (core k : Nat) : Option TbNote := (s.core core).tbNotes.find? fun n => n.id == k
def dropNote (s : State) (core k : Nat) : State := s.modCore core fun c => { c with tbNotes := c.tbNotes.filter fun n => n.id != k }

/-- A drain with what it moves (R136, R296, R306, R370): under ownership into the L1, or past it to the slice, for the partition of the
latest store of the entry. -/
def drain (s : State) (core k : Nat) : State :=
  let s' := (drainEntry s core k).dropNote core k
  match (s.core core).tb.find? (·.isEntry k), s.noteOf core k with
  | some (.entry _ sec mask _ _), some n => s'.touchLine core n.ctx n.va (32 * sec) true (mask == byteMask 0 32) false n.hint
  | _, _ => s'

/-- Publish (c) (R248), with what its drains move: up to and including LTR(c), NH(c) is empty, and the tag-only entries that only this
core's holding kept are free (R298). -/
def publish (s : State) (core : Nat) : State :=
  (((publishSet (s.core core)).foldl (fun s k => s.drain core k) s).modCore core fun c => { c with nh := [], ltr := none }).track []

/-- Publishes what a step waits for, where every gate is open (R251). -/
def publishFor (s : State) (cores : List Nat) : State := cores.foldl (fun s c => if publishable s c then s.publish c else s) s

/-- The oldest line of a tag-only table of 256 entries that has no room (R298). -/
def tagOver (s : State) : Option Nat :=
  let held := s.tagOnly.filter fun l => heldBy s none [l] != []
  held.find? fun l => Config.tagOnlyEntries < (held.filter fun m => homeSlice (64 * m) == homeSlice (64 * l)).length

/-- While a slice's tag-only table has no room, the holders of its oldest entry publish, and the entry is free (R298). -/
def tagSettle : Nat → State → State
  | 0, s => s
  | n + 1, s => match s.tagOver with
    | some l => tagSettle n (s.publishFor (heldBy s none [l]))
    | none => s

/-- A release's marker, and room for the lines that it makes narrow-held in their slices' tables (R249, R250, R298). -/
def release (s : State) (core : Nat) (narrow : Bool) : State := let s := placeMarker s core narrow; tagSettle s.tagOnly.length s

/-- A prefetch (R148, R164) brings both sectors of the line, and takes it away from no other holder but for ownership. The narrow holders of
the line publish first (R296); where one cannot yet, the prefetch is dropped. What the slice sees of it may be sampled (R306). -/
def prefetch (s : State) (core ctx : Nat) (va : Word) (pa : Nat) (p : Prefetch) : State :=
  if p = .tlb then s
  else
    let hit := p != .l2 && s.l1Allows core ctx pa .normal && [0, 32].all fun o => s.l1Hit core (64 * lineOf pa + o) (p == .own) false
    let s := s.publishFor (heldBy s (some core) [lineOf pa])
    if heldBy s (some core) [lineOf pa] ≠ [] then s
    else
      let s := if hit then s else s.sample ctx va pa false (core / 48)
      [64 * lineOf pa, 64 * lineOf pa + 32].foldl (fun s a =>
        let s := s.sliceTouch ctx a true false .normal
        if p = .l2 || !s.l1Allows core ctx pa .normal || (s.dirOf (lineOf pa)).isNone then s
        else if p = .own then s.takeOwnership core a .normal else s.takeShared core a .normal) s

/-- A hazel core's access of a line at an address of a context (R294, R295, R298, R306): through the home slice, which notes that the hazel
domain of the core's I/O die may hold it, unless the context's partition allocates in no cache. -/
def hazelTouch (s : State) (ctx : Nat) (va : Word) (pa iod : Nat) (write : Bool) : State :=
  let s := s.sliceTouch ctx pa true write .normal
  let s := if write then s else s.demote Config.cores (lineOf pa)
  let s := if s.allocates ctx then s.modDir (lineOf pa) fun d => { d with hzl := if write then 1 <<< iod else d.hzl ||| (1 <<< iod) } else s
  s.sample ctx va pa false (4 * iod)

/-- The walk of a translation read non-leaf entries that its core's walk cache had not (R330): the issue whose result is late. -/
def noteWalk (s : State) (iid : Nat) (t : ThreadId) (e : Option XEff) : State :=
  match e with
  | some x => if x.nonLeaf.all ((s.core t.core).tlb.walk.contains ·) then s
              else s.modCore t.core fun c => { c with slow := (iid, t) :: c.slow }
  | none => s

end State

end Sys2Proof.Machine
end

