-- ==== Sys2Proof/Machine/Operands.lean ====
section
/-! DEFINITION. Operand forms (R44, R45, R133, R134), the registers each instruction reads and writes, its pipe and its
latency (R22, R52, R55, R160, R207). -/

namespace Sys2Proof.Machine

/-- Box (x, 32) (R25). -/
def box32 (x : BitVec 32) : Word := (0xFFFFFFFF : BitVec 32) ++ x

/-- Unbox (f, 32) and Unbox (f, 16) (R25). -/
def unbox32 (f : Word) : BitVec 32 := if f.extractLsb' 32 32 = 0xFFFFFFFF then f.setWidth 32 else 0x7FC00000
def unbox16 (f : Word) : BitVec 16 := if f.extractLsb' 16 48 = 0xFFFFFFFFFFFF then f.setWidth 16 else 0x7E00

end Sys2Proof.Machine

namespace Sys2Proof
open Sys2Proof.Machine

/-- The second source where the entry names B as a g register (R44). -/
def Src2.g (x : Src2) (r : Regs) : Word :=
  match x with
  | .reg b => r.gval b
  | .imm e1 => e1.signExtend 64
  | .imm64 e1 e2 => e2 ++ e1

/-- The second source where the entry names B as an f register (R44). -/
def Src2.f (x : Src2) (r : Regs) : Word :=
  match x with
  | .reg b => r.fval b
  | .imm e1 => box32 e1
  | .imm64 e1 e2 => e2 ++ e1

end Sys2Proof

namespace Sys2Proof.Machine

/-- The effective address (R133). -/
def effAddr (base : Word) : Exts → Word
  | .none => base
  | .one e1 | .two e1 _ => base + e1.signExtend 64

/-- The base register of `ld`, `st`, `ldf` and `stf`: g(A[3:0]) (R134). -/
def base16 (a : Fin 32) : Fin 32 := ⟨a.val % 16, by omega⟩

/-- The class of the data register: A[4] (R134). -/
def isFClass (a : Fin 32) : Bool := a.val / 16 == 1

/-- The register after an even one. -/
def oddOf (d : Fin 32) : Fin 32 := ⟨d.val / 2 * 2 + 1, by omega⟩

/-- Bytes of a size code (R135). -/
def sizeBytes (z : Nat) : Nat :=
  match z with
  | 0 | 5 => 1
  | 1 | 6 => 2
  | 2 | 7 => 4
  | 4 => 16
  | _ => 8

/-- Extend (x, size code) (R135), for codes other than `.q`. -/
def extend (z : Nat) (x : Nat) : Word :=
  match z with
  | 0 => (BitVec.ofNat 8 x).signExtend 64
  | 1 => (BitVec.ofNat 16 x).signExtend 64
  | 2 => (BitVec.ofNat 32 x).signExtend 64
  | _ => BitVec.ofNat 64 x

/-- A data register by class. -/
def dataReg (isF : Bool) (d : Fin 32) : RegName := if isF then .f d else .g d

/-- The value a store takes from its data register or pair (R135). -/
def storeData (r : Regs) (isF : Bool) (d : Fin 32) (z : Nat) : Nat :=
  let v := fun d => if isF then r.fval d else r.gval d
  if z = 4 then (v d).toNat + 2 ^ 64 * (v (oddOf d)).toNat else (v d).toNat % 2 ^ (8 * sizeBytes z)

/-- The pipe of an instruction (R52), by its row. -/
inductive Pipe where
  | i | f | m | x
  deriving DecidableEq, Repr

def pipeOf (i : Instr) : Pipe :=
  match i.toRaw with
  | some r => if r.op.val / 16 ≤ 2 then .i else if r.op.val / 16 ≤ 4 then .f else if r.op.val / 16 = 5 then .m else .x
  | none => .x

end Sys2Proof.Machine

namespace Sys2Proof
open Sys2Proof.Machine

def RegOrExt.src : RegOrExt → List RegName
  | .reg a => [.g a]
  | .ext _ => []
/-- The registers that a second source reads, as a g or an f value. -/
def Src2.gsrc : Src2 → List RegName
  | .reg b => [.g b]
  | _ => []
def Src2.fsrc : Src2 → List RegName
  | .reg b => [.f b]
  | _ => []

end Sys2Proof
end

