-- ==== Sys2Proof/Machine/Flags.lean ====
section
/-! DEFINITION. The sticky flags of MODE (R27, R115) and the exact values, formats and roundings that set them (R72, R73,
R87-R91, R93). -/

namespace Sys2Proof.Machine

/-- FFLAGS bits (R27): 4 NV, 3 DZ, 2 OF, 1 UF, 0 NX. -/
def flagNV : BitVec 5 := 16
def flagDZ : BitVec 5 := 8
def flagOF : BitVec 5 := 4
def flagUF : BitVec 5 := 2
def flagNX : BitVec 5 := 1

/-- The value of a floating encoding: NaN (signalling or not), an infinity, or `(-1)^neg * m * 2^e`. -/
inductive FV where
  | nan (signalling : Bool)
  | inf (neg : Bool)
  | fin (neg : Bool) (m : Nat) (e : Int)
  deriving DecidableEq, Repr

/-- How a format treats its top exponent (R72). -/
inductive FmtTop where
  | ieee | e4m3 | finite
  deriving DecidableEq, Repr

/-- A floating format of R72. -/
structure Fmt where
  ebits : Nat
  mbits : Nat
  bias : Nat
  top : FmtTop
  deriving DecidableEq, Repr

namespace Fmt

def fp64 : Fmt := ⟨11, 52, 1023, .ieee⟩
def fp32 : Fmt := ⟨8, 23, 127, .ieee⟩
def bf16 : Fmt := ⟨8, 7, 127, .ieee⟩
def fp16 : Fmt := ⟨5, 10, 15, .ieee⟩
def e4m3 : Fmt := ⟨4, 3, 7, .e4m3⟩
def e5m2 : Fmt := ⟨5, 2, 15, .ieee⟩
def e3m2 : Fmt := ⟨3, 2, 3, .finite⟩
def e2m3 : Fmt := ⟨2, 3, 1, .finite⟩
def e2m1 : Fmt := ⟨2, 1, 1, .finite⟩

/-- Bits of an element. -/
def bits (f : Fmt) : Nat := 1 + f.ebits + f.mbits

/-- The magnitude code of the largest finite value (R72). -/
def maxCode (f : Fmt) : Nat :=
  match f.top with
  | .ieee => (2 ^ f.ebits - 1) * 2 ^ f.mbits - 1
  | .e4m3 => 2 ^ (f.ebits + f.mbits) - 2
  | .finite => 2 ^ (f.ebits + f.mbits) - 1

/-- The canonical NaN (R91), and the code that a NaN converts to where the format has none (R90). -/
def nanCode (f : Fmt) : Nat :=
  match f.top with
  | .ieee => (2 ^ f.ebits - 1) * 2 ^ f.mbits + 2 ^ (f.mbits - 1)
  | .e4m3 => 2 ^ (f.ebits + f.mbits) - 1
  | .finite => 0

/-- The code with a sign. -/
def signed (f : Fmt) (neg : Bool) (mag : Nat) : Nat := (if neg then 2 ^ (f.ebits + f.mbits) else 0) + mag

/-- The exponent of the subnormal spacing. -/
def qmin (f : Fmt) : Int := 1 - (f.bias : Int) - (f.mbits : Int)

/-- DecodeFP with the infinities and NaNs of R72. A NaN whose quiet bit is 0 is signalling. -/
def decode (f : Fmt) (x : Nat) : FV :=
  let m := x % 2 ^ f.mbits
  let e := x / 2 ^ f.mbits % 2 ^ f.ebits
  let neg := x / 2 ^ (f.ebits + f.mbits) % 2 == 1
  if f.top == .ieee && e == 2 ^ f.ebits - 1 then
    if m = 0 then .inf neg else .nan (m / 2 ^ (f.mbits - 1) == 0)
  else if f.top == .e4m3 && x % 2 ^ (f.ebits + f.mbits) == 2 ^ (f.ebits + f.mbits) - 1 then .nan false
  else if e = 0 then .fin neg m f.qmin
  else .fin neg (2 ^ f.mbits + m) ((e : Int) - f.bias - f.mbits)

end Fmt

/-- `m * 2^-sh` rounded to an integer in mode `rm` (R87), with a sticky part below `m`; and whether it is inexact. -/
def roundShift (rm : Nat) (neg : Bool) (m sh : Nat) (sticky : Bool) : Nat × Bool :=
  let q := m / 2 ^ sh
  let low := m % 2 ^ sh
  let half := if sh = 0 then 1 else 2 ^ (sh - 1)
  let inexact := low != 0 || sticky
  let up := match rm with
    | 0 => half < low || (low == half && (sticky || q % 2 == 1))
    | 1 => false
    | 2 => neg && inexact
    | 3 => !neg && inexact
    | _ => half ≤ low
  (if up then q + 1 else q, inexact)

/-- `m * 2^e` (with a sticky part) as a multiple of `2^q`, rounded in mode `rm`. -/
def roundAt (rm : Nat) (neg : Bool) (m : Nat) (e q : Int) (sticky : Bool) : Nat × Bool :=
  if q ≤ e then ((m * 2 ^ (e - q).toNat), sticky)
  else roundShift rm neg m (q - e).toNat sticky

/-- A rounded result: the code and the flags raised. -/
structure FRes where
  bits : Nat
  flags : BitVec 5
  deriving DecidableEq, Repr

/-- The code of the overflow result of R89. -/
def overflowCode (f : Fmt) (neg : Bool) (rm : Nat) (sat : Bool) : Nat :=
  let toInf := match rm with
    | 0 | 4 => true
    | 1 => false
    | 2 => neg
    | _ => !neg
  match f.top with
  | .ieee => f.signed neg (if toInf && !sat then f.maxCode + 1 else f.maxCode)
  | .e4m3 => if toInf && !sat then f.nanCode else f.signed neg f.maxCode
  | .finite => f.signed neg f.maxCode

/-- The code of an infinite input (R89). -/
def infCode (f : Fmt) (neg : Bool) (sat : Bool) : Nat :=
  match f.top with
  | .ieee => f.signed neg (if sat then f.maxCode else f.maxCode + 1)
  | .e4m3 => if sat then f.signed neg f.maxCode else f.nanCode
  | .finite => f.signed neg f.maxCode

/-- RoundTo of a finite value `m * 2^e` with a sticky part (R88): code and flags OF, UF and NX (R115, tininess after
rounding, R93). -/
def roundFin (f : Fmt) (rm : Nat) (sat : Bool) (neg : Bool) (m : Nat) (e : Int) (sticky : Bool) : FRes :=
  if m = 0 && !sticky then ⟨f.signed neg 0, 0⟩
  else
    -- a wider integer when only sticky bits or too few bits stand
    let m' := m * 2 ^ (f.mbits + 4)
    let e' := e - (f.mbits + 4 : Nat)
    let top : Int := e' + (Nat.log2 m' : Nat)
    let qn := top - f.mbits
    let q := if qn < f.qmin then f.qmin else qn
    let (n, inexact) := roundAt rm neg m' e' q sticky
    -- the magnitude code: value n * 2^q with q at or above the subnormal spacing
    let code := if n < 2 ^ f.mbits then n else (q - f.qmin).toNat * 2 ^ f.mbits + n
    if code > f.maxCode then ⟨overflowCode f neg rm sat, flagOF ||| flagNX⟩
    else
      -- tininess after rounding, with no lower exponent bound
      let (n', _) := roundAt rm neg m' e' qn sticky
      let tiny := m' == 0 || (q == f.qmin && n' * 2 ^ (f.mbits + 1) < 2 ^ ((f.qmin - qn).toNat + 2 * f.mbits + 1))
      ⟨f.signed neg code, if inexact then (if tiny then flagUF ||| flagNX else flagNX) else 0⟩

/-- RoundTo (R88) with the flags of the rounding. -/
def roundTo (f : Fmt) (rm : Nat) (sat : Bool) : FV → FRes
  | .nan _ => ⟨f.nanCode, 0⟩
  | .inf neg => ⟨infCode f neg sat, 0⟩
  | .fin neg m e => roundFin f rm sat neg m e false

/-- RoundFP32, RoundFP64 and Sat32 (R88). -/
def roundFP32 (x : FV) : Nat := (roundTo .fp32 0 false x).bits
def roundFP64 (x : FV) : Nat := (roundTo .fp64 0 false x).bits
def sat32 (x : Int) : Int := max (-2147483648) (min x 2147483647)

namespace FV

def isNan : FV → Bool
  | .nan _ => true
  | _ => false
def isSNan : FV → Bool
  | .nan s => s
  | _ => false
def isInf : FV → Bool
  | .inf _ => true
  | _ => false
def isZero : FV → Bool
  | .fin _ m _ => m == 0
  | _ => false
def neg? : FV → Bool
  | .fin n _ _ => n
  | .inf n => n
  | .nan _ => false

/-- The sign reversed. -/
def negate : FV → FV
  | .fin n m e => .fin (!n) m e
  | .inf n => .inf !n
  | x => x

/-- A finite value as an integer multiple of `2^k`, for `k` at or below its exponent. -/
def scaled (k : Int) : FV → Int
  | .fin n m e => let v : Int := ((m * 2 ^ (e - k).toNat : Nat) : Int); if n then -v else v
  | _ => 0

/-- The exponent, for aligning. -/
def exp : FV → Int
  | .fin _ m e => if m = 0 then 0 else e
  | _ => 0

/-- The exact sum of two finite values; an exact zero sum is +0, or -0 when `rdn` or when both are zeros of sign - (R115). -/
def addFin (rdn : Bool) (a b : FV) : FV :=
  let k := min a.exp b.exp
  let k := if a.isZero then b.exp else if b.isZero then a.exp else k
  let sa := if a.isZero then 0 else a.scaled k
  let sb := if b.isZero then 0 else b.scaled k
  let v := sa + sb
  if v = 0 then
    if a.isZero && b.isZero && a.neg? == b.neg? then .fin a.neg? 0 0 else .fin rdn 0 0
  else .fin (v < 0) v.natAbs k

/-- Sum with the invalid case ∞ - ∞ (R115): the value and whether NV is raised. -/
def add (rdn : Bool) (a b : FV) : FV × Bool :=
  match a, b with
  | .nan s, y => (.nan false, s || y.isSNan)
  | x, .nan s => (.nan false, s || x.isSNan)
  | .inf n, .inf n' => if n = n' then (.inf n, false) else (.nan false, true)
  | .inf n, _ => (.inf n, false)
  | _, .inf n => (.inf n, false)
  | x, y => (addFin rdn x y, false)

/-- The exact product, with the invalid case 0 × ∞. A product that is zero has the sign that its factors' signs give, whatever their
format; for integer elements, which have no zero of sign - (R73), that is the model's (DESIGN CHOICE, log 74). -/
def mul (a b : FV) : FV × Bool :=
  match a, b with
  | .nan s, y => (.nan false, s || y.isSNan)
  | x, .nan s => (.nan false, s || x.isSNan)
  | .inf n, y => if y.isZero then (.nan false, true) else (.inf (n != y.neg?), false)
  | x, .inf n => if x.isZero then (.nan false, true) else (.inf (n != x.neg?), false)
  | .fin n m e, .fin n' m' e' => (.fin (n != n') (m * m') (e + e'), false)

/-- -1, 0, 1 as `a` is below, equal to or above `b`; for numbers. -/
def cmp (a b : FV) : Int :=
  match a, b with
  | .inf n, .inf n' => if n = n' then 0 else if n then -1 else 1
  | .inf n, _ => if n then -1 else 1
  | _, .inf n => if n then 1 else -1
  | x, y =>
    let d := addFin false x y.negate
    if d.isZero then 0 else if d.neg? then -1 else 1

end FV

/-- NV when a condition holds. -/
def nvIf (b : Bool) : BitVec 5 := if b then flagNV else 0

/-- Rounds the value of an operation whose invalid condition is known. -/
def finish (f : Fmt) (rm : Nat) (x : FV × Bool) : FRes :=
  let r := roundTo f rm false x.1
  ⟨r.bits, r.flags ||| nvIf x.2⟩

/-- The floating operations of R114 and R115 on encodings. -/
def fAdd (f : Fmt) (rm a b : Nat) : FRes := finish f rm (FV.add (rm == 2) (f.decode a) (f.decode b))
def fSub (f : Fmt) (rm a b : Nat) : FRes := finish f rm (FV.add (rm == 2) (f.decode a) (f.decode b).negate)
def fMul (f : Fmt) (rm a b : Nat) : FRes := finish f rm (FV.mul (f.decode a) (f.decode b))

/-- a × b + c with one rounding (R97). The product 0 × ∞ is invalid even when the addend is a quiet NaN. -/
def fFma (f : Fmt) (rm a b c : Nat) : FRes :=
  let (p, nv) := FV.mul (f.decode a) (f.decode b)
  let (s, nv') := FV.add (rm == 2) p (f.decode c)
  finish f rm (s, nv || nv')

/-- Division (R114, R115). -/
def fDiv (f : Fmt) (rm a b : Nat) : FRes :=
  match f.decode a, f.decode b with
  | .nan s, y => ⟨f.nanCode, nvIf (s || y.isSNan)⟩
  | _, .nan s => ⟨f.nanCode, nvIf s⟩
  | .inf n, .inf _ => ⟨f.nanCode, if n then flagNV else flagNV⟩
  | .inf n, y => ⟨infCode f (n != y.neg?) false, 0⟩
  | x, .inf n => ⟨f.signed (n != x.neg?) 0, 0⟩
  | .fin n m e, .fin n' m' e' =>
    if m' = 0 then (if m = 0 then ⟨f.nanCode, flagNV⟩ else ⟨infCode f (n != n') false, flagDZ⟩)
    else if m = 0 then ⟨f.signed (n != n') 0, 0⟩
    else
      let k := 2 * f.mbits + 8
      let num := m * 2 ^ k
      roundFin f rm false (n != n') (num / m') (e - e' - (k : Nat)) (num % m' != 0)

/-- Square root of a natural number, rounded down; each round settles one bit from `n` down. -/
def isqrtLoop : Nat → Nat → Nat → Nat
  | 0, _, r => r
  | n + 1, x, r => let r' := r + 2 ^ n; isqrtLoop n x (if r' * r' ≤ x then r' else r)
def isqrt (x : Nat) : Nat := isqrtLoop (Nat.log2 x / 2 + 1) x 0

/-- Square root (R114, R115). -/
def fSqrt (f : Fmt) (rm a : Nat) : FRes :=
  match f.decode a with
  | .nan s => ⟨f.nanCode, nvIf s⟩
  | .inf n => if n then ⟨f.nanCode, flagNV⟩ else ⟨infCode f false false, 0⟩
  | .fin n m e =>
    if m = 0 then ⟨f.signed n 0, 0⟩
    else if n then ⟨f.nanCode, flagNV⟩
    else
      let k := 2 * f.mbits + 8
      let x := if (e % 2 : Int) = 0 then m * 4 ^ k else m * 2 * 4 ^ k
      let h : Int := (if (e % 2 : Int) = 0 then e else e - 1) / 2
      let r := isqrt x
      roundFin f rm false false r (h - (k : Nat)) (r * r != x)

/-- minimumNumber and maximumNumber (R116). -/
def fMinMax (f : Fmt) (max : Bool) (a b : Nat) : FRes :=
  let x := f.decode a
  let y := f.decode b
  let nv := nvIf (x.isSNan || y.isSNan)
  if x.isNan && y.isNan then ⟨f.nanCode, nv⟩
  else if x.isNan then ⟨b, nv⟩
  else if y.isNan then ⟨a, nv⟩
  else
    let aFirst := if x.isZero && y.isZero then x.neg? != max else (FV.cmp x y < 0) != max
    ⟨if aFirst then a else b, nv⟩

/-- The conditions of `fcmp` (R117): 0 eq, 1 lt, 2 le, 3 un. -/
def fCmp (f : Fmt) (cond a b : Nat) : Bool × BitVec 5 :=
  let x := f.decode a
  let y := f.decode b
  let un := x.isNan || y.isNan
  let snan := x.isSNan || y.isSNan
  let c := FV.cmp x y
  match cond with
  | 0 => (!un && c == 0, nvIf snan)
  | 1 => (!un && c < 0, nvIf un)
  | 2 => (!un && c ≤ 0, nvIf un)
  | _ => (un, nvIf snan)

/-- Conversion between floating formats (R119). -/
def fConv (src dst : Fmt) (rm a : Nat) : FRes :=
  let x := src.decode a
  finish dst rm (x, x.isSNan)

/-- A value rounded to an integer by `rm`, and whether it changed. -/
def toInt (rm : Nat) (neg : Bool) (m : Nat) (e : Int) : Int × Bool :=
  let (n, inexact) := roundAt rm neg m e 0 false
  (if neg then -(n : Int) else n, inexact)

/-- FToInt (R120). -/
def fToInt (f : Fmt) (rm : Nat) (lo hi : Int) (a : Nat) : Int × BitVec 5 :=
  match f.decode a with
  | .nan _ => (hi, flagNV)
  | .inf n => (if n then lo else hi, flagNV)
  | .fin n m e =>
    let (y, inexact) := toInt rm n m e
    if hi < y then (hi, flagNV) else if y < lo then (lo, flagNV) else (y, if inexact then flagNX else 0)

/-- Conversion from an integer (R121); zero converts to +0. -/
def intToF (f : Fmt) (rm : Nat) (v : Int) : FRes := roundFin f rm false (v < 0) v.natAbs 0 false

/-- Rounding to an integral value of the same format (R122). -/
def fRound (f : Fmt) (rm a : Nat) : FRes :=
  match f.decode a with
  | .nan s => ⟨f.nanCode, nvIf s⟩
  | .inf _ => ⟨a, 0⟩
  | .fin n m e =>
    if m = 0 || 0 ≤ e then ⟨a, 0⟩
    else
      let (k, inexact) := roundAt rm n m e 0 false
      ⟨(roundFin f 0 false n k 0 false).bits, if inexact then flagNX else 0⟩

/-- The class mask of R124. -/
def fClass (f : Fmt) (a : Nat) : Nat :=
  let mag := a % 2 ^ (f.ebits + f.mbits)
  let normal := 2 ^ f.mbits ≤ mag
  match f.decode a with
  | .nan s => if s then 2 ^ 8 else 2 ^ 9
  | .inf n => if n then 2 ^ 0 else 2 ^ 7
  | .fin n m _ =>
    if m = 0 then (if n then 2 ^ 3 else 2 ^ 4)
    else if normal then (if n then 2 ^ 1 else 2 ^ 6) else (if n then 2 ^ 2 else 2 ^ 5)

/-- The dot products of R129: exact sum of an FP32 addend and products, one rounding. An exact zero sum has the sign that R115 gives a sum
of two, term by term (DESIGN CHOICE, log 75). -/
def fDot (el : Fmt) (rm : Nat) (c : Nat) (ps : List (Nat × Nat)) : FRes :=
  let cv := Fmt.fp32.decode c
  let prods := ps.map fun p => FV.mul (el.decode p.1) (el.decode p.2)
  let invalid := prods.any (·.2) || cv.isSNan
  let terms := cv :: prods.map (·.1)
  let posInf := terms.any fun t => match t with | .inf n => !n | _ => false
  let negInf := terms.any fun t => match t with | .inf n => n | _ => false
  if terms.any FV.isNan then ⟨Fmt.fp32.nanCode, nvIf (invalid || (posInf && negInf))⟩
  else if posInf && negInf then ⟨Fmt.fp32.nanCode, flagNV⟩
  else if posInf || negInf then ⟨infCode .fp32 negInf false, 0⟩
  else
    let s := match terms with
      | [] => FV.fin false 0 0
      | t :: rest => rest.foldl (FV.addFin (rm == 2)) t
    finish .fp32 rm (s, false)

end Sys2Proof.Machine
end

