-- ==== Sys2Proof/Machine/Approx.lean ====
section
/-! DEFINITION. The approximate functions of `funary` (R123-R125): special values, and ApproxRound of the exact value by
integer interval arithmetic. -/

namespace Sys2Proof.Machine

/-- ApproxRound of a non-zero value `m * 2^e` with a sticky part, at a width's format (R125). -/
def approxRound (f : Fmt) (neg : Bool) (m : Nat) (e : Int) (sticky : Bool) : Nat :=
  let m' := m * 2 ^ 32
  let e' := e - 32
  let q0 := e' + (Nat.log2 m' : Nat) - 23
  let q := if q0 < f.qmin then f.qmin else q0
  let (n, _) := roundAt 0 neg m' e' q sticky
  (roundFin f 0 false neg n q false).bits

/-- The result of a value known to lie from `lo * 2^e` to `hi * 2^e`: the rounding both ends share; `Config.approxTie`
where they differ. -/
def approxBetween (f : Fmt) (code x : Nat) (neg : Bool) (lo hi : Nat) (e : Int) : Nat :=
  let a := approxRound f neg lo e false
  if a = approxRound f neg hi e false then a else Config.approxTie code x

/-- Fixed-point constants with 256 fraction bits: ln 2 and 2π, rounded down. -/
def ln2Fix : Nat := 0xb17217f7d1cf79abc9e3b39803f2f6af40f343267298b62d8a0d175b8baafa2b
def twoPiFix : Nat := 0x6487ed5110b4611a62633145c06e0e68948127044533e63a0105df531d89cd912

/-- The error allowed to a series of this file, in units of its last fraction bit. -/
def seriesErr : Nat := 65536

/-- Sum of t^i / i! for i = 1.. in fixed point of `w` bits, from the term before the first. -/
def expSeries (w t : Nat) : (fuel : Nat) → (i : Nat) → (term : Nat) → Nat
  | 0, _, _ => 0
  | n + 1, i, term => let x := term * t / 2 ^ w / i; x + expSeries w t n (i + 1) x

/-- Sum of t^(2i) / (2i+1)... terms with alternating signs: sin (t) for `i0` 1, cos (t) - 1 for `i0` 0, as an integer. -/
def trigSeries (w t : Nat) : (fuel : Nat) → (i : Nat) → (term : Nat) → (neg : Bool) → Int
  | 0, _, _, _ => 0
  | n + 1, i, term, neg =>
    (if neg then -(term : Int) else term) + trigSeries w t n (i + 2) (term * t / 2 ^ w * t / 2 ^ w / ((i + 1) * (i + 2))) (!neg)

/-- Sum of z^(2i+1) / (2i+1) in fixed point: atanh z. -/
def atanhSeries (w z : Nat) : (fuel : Nat) → (i : Nat) → (pow : Nat) → Nat
  | 0, _, _ => 0
  | n + 1, i, pow => pow / i + atanhSeries w z n (i + 2) (pow * z / 2 ^ w * z / 2 ^ w)

/-- `m * 2^e` in fixed point of `w` bits, rounded down. -/
def toFix (w m : Nat) (e : Int) : Nat :=
  let s := e + (w : Int)
  if 0 ≤ s then m * 2 ^ s.toNat else m / 2 ^ (-s).toNat

/-- 1 ÷ x (R125): exact to the sticky bit. -/
def approxRcp (f : Fmt) (neg : Bool) (m : Nat) (e : Int) : Nat :=
  let k := Nat.log2 m + 64
  approxRound f neg (2 ^ k / m) (-e - (k : Nat)) (2 ^ k % m != 0)

/-- 1 ÷ √x: exact to the sticky bit. -/
def approxRsqrt (f : Fmt) (m : Nat) (e : Int) : Nat :=
  let odd := (e % 2 : Int) != 0
  let m := if odd then m * 2 else m
  let e := if odd then e - 1 else e
  let k := (Nat.log2 m / 2 + 64) * 2
  let x := 2 ^ k / m
  let r := isqrt x
  approxRound f false r (-(e / 2) - ((k / 2 : Nat) : Int)) (r * r != x || 2 ^ k % m != 0)

/-- 2^x. -/
def approxExp2 (f : Fmt) (code bits : Nat) (neg : Bool) (m : Nat) (e : Int) : Nat :=
  -- beyond every exponent of the width: overflow or underflow to zero
  if (16 : Int) < e + (Nat.log2 m : Nat) then (if neg then f.signed false 0 else infCode f false false)
  else
    let w := 256
    let x := toFix w m e
    let exact := decide (0 ≤ e + (w : Int)) || m % 2 ^ (-(e + (w : Int))).toNat == 0
    let k := x / 2 ^ w
    let fr := x % 2 ^ w
    -- |x| = k + fr; for a negative x, 2^x = 2^(-k-1) * 2^(1 - fr)
    let (k', fr') : Int × Nat := if neg then (if fr = 0 then (-(k : Int), 0) else (-(k : Int) - 1, 2 ^ w - fr)) else ((k : Int), fr)
    if fr' = 0 && exact then approxRound f false 1 k' false
    else
      let t := fr' * ln2Fix / 2 ^ w
      let v := 2 ^ w + expSeries w t 80 1 (2 ^ w)
      approxBetween f code bits false (v - seriesErr) (v + seriesErr) (k' - (w : Int))

/-- log2 x for x > 0 other than 1. -/
def approxLog2 (f : Fmt) (code bits : Nat) (m : Nat) (e : Int) : Nat :=
  let w := 256
  let lead := Nat.log2 m
  let k : Int := e + (lead : Nat)
  -- x = 2^k * y, 1 ≤ y < 2
  if m = 2 ^ lead then
    let n := k.natAbs
    approxRound f (k < 0) n 0 false
  else
    let y := m * 2 ^ w / 2 ^ lead
    let z := (y - 2 ^ w) * 2 ^ w / (y + 2 ^ w)
    let ln := 2 * atanhSeries w z 90 1 z
    let lg : Int := (ln * 2 ^ w / ln2Fix : Nat)
    let v : Int := k * 2 ^ w + lg
    let neg := v < 0
    approxBetween f code bits neg (v.natAbs - seriesErr) (v.natAbs + seriesErr) (-(w : Int))

/-- Sine of a part of a turn `m * 2^e` from 0 to 1/8, or its cosine: fixed point and width. -/
def sinTurn (m : Nat) (e : Int) : Nat × Nat :=
  let w := 256 + (-(e + (Nat.log2 m : Nat))).toNat
  let t := toFix w (m * twoPiFix) (e - 256)
  ((trigSeries w t 80 1 t false).natAbs, w)
def cosTurn (m : Nat) (e : Int) : Nat × Nat :=
  let w := 256
  let t := toFix w (m * twoPiFix) (e - 256)
  ((trigSeries w t 80 0 (2 ^ w) false).natAbs, w)

/-- sin (2πx) or cos (2πx) (R125), for a finite non-zero x. -/
def approxTrig (f : Fmt) (code bits : Nat) (cosine : Bool) (neg : Bool) (m : Nat) (e : Int) : Nat :=
  -- r = |x| mod 1 as r * 2^e0, with at least three fraction bits
  let m := if -3 < e then m * 2 ^ (e + 3).toNat else m
  let e := if -3 < e then -3 else e
  let one := 2 ^ (-e).toNat
  let r := m % one
  let quarter := one / 4
  let quad := r / quarter
  let p := r % quarter
  if p = 0 then
    -- a multiple of a quarter turn
    let v : Int := if cosine then (match quad with | 0 => 1 | 2 => -1 | _ => 0) else (match quad with | 1 => 1 | 3 => -1 | _ => 0)
    let sgn := if cosine then false else neg
    if v = 0 then f.signed sgn 0
    else (roundFin f 0 false ((v < 0) != sgn) 1 0 false).bits
  else
    -- which function of the part of the quarter, taken from its nearer end
    let useSin0 := cosine == (quad % 2 == 1)
    let (arg, useSin) := if p ≤ quarter / 2 then (p, useSin0) else (quarter - p, !useSin0)
    let (v, w) := if useSin then sinTurn arg e else cosTurn arg e
    let negv := if cosine then quad == 1 || quad == 2 else ((quad == 2 || quad == 3) != neg)
    approxBetween f code bits negv (v - seriesErr) (v + seriesErr) (-(w : Int))

/-- tanh x, for a finite non-zero x. A tiny |x| exceeds |tanh x| by less than |x|^3, and by more than the unit of the fixed point taken
here, so that a tie at x goes to the smaller magnitude. -/
def approxTanh (f : Fmt) (code bits : Nat) (neg : Bool) (m : Nat) (e : Int) : Nat :=
  let top := e + (Nat.log2 m : Nat)
  if (4 : Int) < top then (roundFin f 0 false neg 1 0 false).bits
  else if top < -40 then
    let w := 3 * (-top).toNat + 128
    let x := toFix w m e
    approxBetween f code bits neg (x - 2 ^ (131 : Nat)) (x - 1) (-(w : Int))
  else
    let w := 256 + (-top).toNat
    let t := toFix w m (e + 1)
    -- e^(2x) - 1, halving the argument six times for |x| from 1/2 up
    let em1 :=
      if top < -1 then expSeries w t 90 1 (2 ^ w)
      else
        let u := 2 ^ w + expSeries w (t / 64) 90 1 (2 ^ w)
        let sq := fun u => u * u / 2 ^ w
        sq (sq (sq (sq (sq (sq u))))) - 2 ^ w
    let v := em1 * 2 ^ w / (em1 + 2 * 2 ^ w)
    approxBetween f code bits neg (v - seriesErr) (v + seriesErr) (-(w : Int))

/-- The unary code's result (R125): special values, then ApproxRound; NV and DZ are its only flags. -/
def approxFn (f : Fmt) (code : Nat) (a : Nat) : FRes :=
  let one := (roundFin f 0 false false 1 0 false).bits
  let nan : FRes := ⟨f.nanCode, flagNV⟩
  match f.decode a with
  | .nan s => ⟨f.nanCode, nvIf s⟩
  | .inf n =>
    match code with
    | 3 => ⟨f.signed n 0, 0⟩
    | 4 => if n then nan else ⟨f.signed false 0, 0⟩
    | 5 => ⟨if n then f.signed false 0 else infCode f false false, 0⟩
    | 6 => if n then nan else ⟨infCode f false false, 0⟩
    | 7 | 8 => nan
    | _ => ⟨f.signed n one, 0⟩
  | .fin n m e =>
    if m = 0 then
      match code with
      | 3 | 4 => ⟨infCode f n false, flagDZ⟩
      | 5 | 8 => ⟨one, 0⟩
      | 6 => ⟨infCode f true false, flagDZ⟩
      | _ => ⟨f.signed n 0, 0⟩
    else
      match code with
      | 3 => ⟨approxRcp f n m e, 0⟩
      | 4 => if n then nan else ⟨approxRsqrt f m e, 0⟩
      | 5 => ⟨approxExp2 f code a n m e, 0⟩
      | 6 => if n then nan else if FV.cmp (.fin false m e) (.fin false 1 0) = 0 then ⟨f.signed false 0, 0⟩ else ⟨approxLog2 f code a m e, 0⟩
      | 7 => ⟨approxTrig f code a false n m e, 0⟩
      | 8 => ⟨approxTrig f code a true n m e, 0⟩
      | _ => ⟨approxTanh f code a n m e, 0⟩

end Sys2Proof.Machine
end

