-- ==== Sys2Proof/Machine/Integer.lean ====
section
/-! DEFINITION. Rows 0 and 1 and the compare, select, address, predicate and special-register instructions of row 2
(R99-R113, R61). -/

namespace Sys2Proof.Machine

/-! ### The functions (R103-R106) -/

/-- Sign extension of the low 32 bits. -/
def alu.sx32 (x : Word) : Word := (x.setWidth 32).signExtend 64
def alu.addw (x y : Word) : Word := alu.sx32 (x + y)
def alu.subw (x y : Word) : Word := alu.sx32 (x - y)
def alu.mulw (x y : Word) : Word := alu.sx32 (x * y)
def alu.mulh (x y : Word) : Word := ((x.signExtend 128 * y.signExtend 128).extractLsb' 64 64)
def alu.mulhz (x y : Word) : Word := ((x.setWidth 128 * y.setWidth 128).extractLsb' 64 64)

/-- Division (R104): quotients truncate toward zero; division by zero gives all ones, and its remainder the dividend. -/
def alu.div (x y : Word) : Word := if y = 0 then BitVec.allOnes 64 else x.sdiv y
def alu.divz (x y : Word) : Word := if y = 0 then BitVec.allOnes 64 else x.udiv y
def alu.rem (x y : Word) : Word := if y = 0 then x else x.srem y
def alu.remz (x y : Word) : Word := if y = 0 then x else x.umod y

def alu.min (x y : Word) : Word := if x.slt y then x else y
def alu.max (x y : Word) : Word := if x.slt y then y else x
def alu.minz (x y : Word) : Word := if x.ult y then x else y
def alu.maxz (x y : Word) : Word := if x.ult y then y else x

/-- The shift amount src2[5:0] (R105). -/
def alu.amount (y : Word) : Nat := y.toNat % 64
def alu.sll (x y : Word) : Word := x <<< alu.amount y
def alu.srl (x y : Word) : Word := x >>> alu.amount y
def alu.sra (x y : Word) : Word := x.sshiftRight (alu.amount y)
def alu.rot (x y : Word) : Word := x.rotateRight (alu.amount y)

/-- The numbers of R105 counted over bits 0-63. -/
def alu.clz (x : Word) : Word := BitVec.ofNat 64 (if x = 0 then 64 else 63 - Nat.log2 x.toNat)
def alu.ctz (x : Word) : Word := BitVec.ofNat 64 (((List.range 64).find? fun i => x.getLsbD i).getD 64)
def alu.popc (x : Word) : Word := BitVec.ofNat 64 ((List.range 64).filter fun i => x.getLsbD i).length
def alu.brev (x : Word) : Word := x.reverse

/-- The carry-less product (R105). -/
def alu.clprod (x y : Word) : BitVec 128 :=
  (List.range 64).foldl (fun acc j => if y.getLsbD j then acc ^^^ (x.setWidth 128 <<< j) else acc) 0
def alu.clmul (x y : Word) : Word := (alu.clprod x y).setWidth 64
def alu.clmulh (x y : Word) : Word := (alu.clprod x y).extractLsb' 64 64

/-- The field control word (R106): position and width, cut at bit 63. -/
def alu.fieldPos (ctl : Word) : Nat := ctl.toNat % 64
def alu.fieldWidth (ctl : Word) : Nat := Nat.min (ctl.toNat / 256 % 128) (64 - alu.fieldPos ctl)
def alu.bfx (x ctl : Word) : Word :=
  let w := alu.fieldWidth ctl
  let f := x.toNat / 2 ^ alu.fieldPos ctl % 2 ^ w
  if w = 0 then 0
  else if ctl.getLsbD 15 && f.testBit (w - 1) then BitVec.ofNat 64 (f + (2 ^ 64 - 2 ^ w)) else BitVec.ofNat 64 f
def alu.bfi (old x ctl : Word) : Word :=
  let m : Word := BitVec.ofNat 64 ((2 ^ alu.fieldWidth ctl - 1) * 2 ^ alu.fieldPos ctl)
  (old &&& ~~~m) ||| ((x <<< alu.fieldPos ctl) &&& m)

/-- Conditions of `icmp` (R107). -/
def alu.cond (c : Fin 4) (x y : Word) : Bool :=
  match c with
  | 0 => x == y
  | 1 => x.slt y
  | 2 => x.ult y
  | 3 => x &&& y != 0

/-- Functions of `plog` (R110). -/
def alu.plog (fn : Fin 4) (x y : Bool) : Bool :=
  match fn with
  | 0 => x && y
  | 1 => x || y
  | _ => x != y

/-! ### The forms -/

/-- Extension words of a second source. -/
def src2Words : Src2 → Nat
  | .reg _ => 0
  | .imm _ => 1
  | .imm64 _ _ => 2

/-- gD ← f (gA, src2) with a fixed latency (R103, R105). -/
def gBinary (s : State) (h : Hdr) (d a : Fin 32) (b : Src2) (lat : Nat) (f : Word → Word → Word) : Host.Outcome State Fault Refusal :=
  .next (s.lanewise (1 + src2Words b) h fun t => t.putG d (f (t.view.gval a) (b.g t.view)) lat)

/-- gD ← f (gA) with latency 4 (R105). -/
def gUnary (s : State) (h : Hdr) (d a : Fin 32) (f : Word → Word) : Host.Outcome State Fault Refusal :=
  .next (s.lanewise 1 h fun t => t.putG d (f (t.view.gval a)) 4)

/-- An interlocked result: computed on the sources read at issue, written by INTERLOCKED_RESULT_WRITE (R55). -/
def Thread.owe (t : Thread) (x : PendRes) : Thread := { t with results := t.results ++ [x] }
def gInterlocked (s : State) (h : Hdr) (d a : Fin 32) (b : Src2) (f : Word → Word → Word) : Host.Outcome State Fault Refusal :=
  .next (s.lanewise (1 + src2Words b) h fun t => t.owe ⟨.g d, f (t.view.gval a) (b.g t.view), 0⟩)

/-! ### Row 0 (R103, R104) -/

def execAdd (h : Hdr) (d a : Fin 32) (b : Src2) (s : State) : Host.Outcome State Fault Refusal := gBinary s h d a b 4 (fun x y => x + y)
def execSub (h : Hdr) (d a : Fin 32) (b : Src2) (s : State) : Host.Outcome State Fault Refusal := gBinary s h d a b 4 (fun x y => x - y)
def execAddw (h : Hdr) (d a : Fin 32) (b : Src2) (s : State) : Host.Outcome State Fault Refusal := gBinary s h d a b 4 (alu.addw)
def execSubw (h : Hdr) (d a : Fin 32) (b : Src2) (s : State) : Host.Outcome State Fault Refusal := gBinary s h d a b 4 (alu.subw)
def execMul (h : Hdr) (d a : Fin 32) (b : Src2) (s : State) : Host.Outcome State Fault Refusal := gBinary s h d a b 6 (fun x y => x * y)
def execMulw (h : Hdr) (d a : Fin 32) (b : Src2) (s : State) : Host.Outcome State Fault Refusal := gBinary s h d a b 6 (alu.mulw)
def execMulh (h : Hdr) (d a : Fin 32) (b : Src2) (s : State) : Host.Outcome State Fault Refusal := gBinary s h d a b 6 (alu.mulh)
def execMulhz (h : Hdr) (d a : Fin 32) (b : Src2) (s : State) : Host.Outcome State Fault Refusal := gBinary s h d a b 6 (alu.mulhz)
def execDiv (h : Hdr) (d a : Fin 32) (b : Src2) (s : State) : Host.Outcome State Fault Refusal := gInterlocked s h d a b alu.div
def execDivz (h : Hdr) (d a : Fin 32) (b : Src2) (s : State) : Host.Outcome State Fault Refusal := gInterlocked s h d a b alu.divz
def execRem (h : Hdr) (d a : Fin 32) (b : Src2) (s : State) : Host.Outcome State Fault Refusal := gInterlocked s h d a b alu.rem
def execRemz (h : Hdr) (d a : Fin 32) (b : Src2) (s : State) : Host.Outcome State Fault Refusal := gInterlocked s h d a b alu.remz
def execMin (h : Hdr) (d a : Fin 32) (b : Src2) (s : State) : Host.Outcome State Fault Refusal := gBinary s h d a b 4 (alu.min)
def execMax (h : Hdr) (d a : Fin 32) (b : Src2) (s : State) : Host.Outcome State Fault Refusal := gBinary s h d a b 4 (alu.max)
def execMinz (h : Hdr) (d a : Fin 32) (b : Src2) (s : State) : Host.Outcome State Fault Refusal := gBinary s h d a b 4 (alu.minz)
def execMaxz (h : Hdr) (d a : Fin 32) (b : Src2) (s : State) : Host.Outcome State Fault Refusal := gBinary s h d a b 4 (alu.maxz)

/-! ### Row 1 (R105, R106) -/

def execAnd (h : Hdr) (d a : Fin 32) (b : Src2) (s : State) : Host.Outcome State Fault Refusal := gBinary s h d a b 4 (fun x y => x &&& y)
def execOr (h : Hdr) (d a : Fin 32) (b : Src2) (s : State) : Host.Outcome State Fault Refusal := gBinary s h d a b 4 (fun x y => x ||| y)
def execXor (h : Hdr) (d a : Fin 32) (b : Src2) (s : State) : Host.Outcome State Fault Refusal := gBinary s h d a b 4 (fun x y => x ^^^ y)
def execAndn (h : Hdr) (d a : Fin 32) (b : Src2) (s : State) : Host.Outcome State Fault Refusal := gBinary s h d a b 4 (fun x y => x &&& ~~~y)
def execSll (h : Hdr) (d a : Fin 32) (b : Src2) (s : State) : Host.Outcome State Fault Refusal := gBinary s h d a b 4 (alu.sll)
def execSrl (h : Hdr) (d a : Fin 32) (b : Src2) (s : State) : Host.Outcome State Fault Refusal := gBinary s h d a b 4 (alu.srl)
def execSra (h : Hdr) (d a : Fin 32) (b : Src2) (s : State) : Host.Outcome State Fault Refusal := gBinary s h d a b 4 (alu.sra)
def execRot (h : Hdr) (d a : Fin 32) (b : Src2) (s : State) : Host.Outcome State Fault Refusal := gBinary s h d a b 4 (alu.rot)
def execBfx (h : Hdr) (d a : Fin 32) (b : Src2) (s : State) : Host.Outcome State Fault Refusal := gBinary s h d a b 4 (alu.bfx)
def execClmul (h : Hdr) (d a : Fin 32) (b : Src2) (s : State) : Host.Outcome State Fault Refusal := gBinary s h d a b 4 (alu.clmul)
def execClmulh (h : Hdr) (d a : Fin 32) (b : Src2) (s : State) : Host.Outcome State Fault Refusal := gBinary s h d a b 4 (alu.clmulh)
def execClz (h : Hdr) (d a : Fin 32) (s : State) : Host.Outcome State Fault Refusal := gUnary s h d a alu.clz
def execCtz (h : Hdr) (d a : Fin 32) (s : State) : Host.Outcome State Fault Refusal := gUnary s h d a alu.ctz
def execPopc (h : Hdr) (d a : Fin 32) (s : State) : Host.Outcome State Fault Refusal := gUnary s h d a alu.popc
def execBrev (h : Hdr) (d a : Fin 32) (s : State) : Host.Outcome State Fault Refusal := gUnary s h d a alu.brev
/-- `bfi` also reads gD (R106). -/
def execBfi (h : Hdr) (d a : Fin 32) (b : Src2) (s : State) : Host.Outcome State Fault Refusal :=
  .next (s.lanewise (1 + src2Words b) h fun t => t.putG d (alu.bfi (t.view.gval d) (t.view.gval a) (b.g t.view)) 4)

/-! ### Row 2 (R107-R113, R61) -/

def execIcmp (h : Hdr) (cond : Fin 4) (pd : Fin 8) (a : Fin 32) (b : Src2) (s : State) : Host.Outcome State Fault Refusal :=
  .next (s.lanewise (1 + src2Words b) h fun t => t.putP pd (alu.cond cond (t.view.gval a) (b.g t.view)) 4)

/-- `sel` executes in every thread of the bundle; its P and N are a selector (R46, R108). -/
def execSel (h : Hdr) (d a : Fin 32) (b : Src2) (s : State) : Host.Outcome State Fault Refusal :=
  .next (s.lanewise (1 + src2Words b) ⟨h.c, h.s, false, 0⟩ fun t =>
    t.putG d (if t.guard h then t.view.gval a else b.g t.view) 4)

def execSh1add (h : Hdr) (d a : Fin 32) (b : Src2) (s : State) : Host.Outcome State Fault Refusal :=
  gBinary s h d a b 4 fun x y => (x <<< 1) + y
def execSh2add (h : Hdr) (d a : Fin 32) (b : Src2) (s : State) : Host.Outcome State Fault Refusal :=
  gBinary s h d a b 4 fun x y => (x <<< 2) + y
def execSh3add (h : Hdr) (d a : Fin 32) (b : Src2) (s : State) : Host.Outcome State Fault Refusal :=
  gBinary s h d a b 4 fun x y => (x <<< 3) + y
def execSh4add (h : Hdr) (d a : Fin 32) (b : Src2) (s : State) : Host.Outcome State Fault Refusal :=
  gBinary s h d a b 4 fun x y => (x <<< 4) + y

def execPlog (h : Hdr) (fn : Fin 4) (pd : Fin 8) (ia : Bool) (pa : Fin 8) (ib : Bool) (pb : Fin 8) (s : State) :
    Host.Outcome State Fault Refusal :=
  .next (s.lanewise 1 h fun t => t.putP pd (alu.plog fn (t.view.pred pa != ia) (t.view.pred pb != ib)) 4)

/-- The predicates as a byte; bit 0 is 1 (R111). -/
def Regs.predByte (r : Regs) : Byte := r.p ||| 1

def execPmovPg (h : Hdr) (d : Fin 32) (s : State) : Host.Outcome State Fault Refusal :=
  .next (s.lanewise 1 h fun t => t.putG d (t.view.predByte.setWidth 64) 4)

/-- Writes p1-p7 from bits 7:1 of a value, as one write (R111). -/
def Thread.putPreds (t : Thread) (v : Word) (lat : Nat) : Thread := t.put .preds v lat

def execPmovGp (h : Hdr) (a : Fin 32) (s : State) : Host.Outcome State Fault Refusal :=
  .next (s.lanewise 1 h fun t => t.putPreds (t.view.gval a) 4)

/-- CDIM, GDIM and TEAM (R28). -/
def Team.cdim (tm : Team) : Nat := tm.kernel.cb * 16 + tm.kernel.ca
def Team.gdimWord (tm : Team) : Nat := tm.gdim.2.2 * 2 ^ 32 + tm.gdim.2.1 * 2 ^ 16 + tm.gdim.1
def Team.flat (tm : Team) : Nat :=
  ((tm.grid.2.2 * tm.gdim.2.1 + tm.grid.2.1) * tm.gdim.1 + tm.grid.1) * (tm.kernel.ca * tm.kernel.cb)
    + tm.cy * tm.kernel.ca + tm.cx

/-- The value of a special register for a thread (R26). Of the values that ECOUNT holds between the issue of a `gets` and the write of its
result, the one at issue is returned (DESIGN CHOICE, log 88). -/
def State.special (s : State) (t : Thread) (n : Nat) : Word :=
  let tm := s.teamOf t
  match n with
  | 0 => BitVec.ofNat 64 t.id.lane
  | 1 => BitVec.ofNat 64 t.id.slot
  | 2 => BitVec.ofNat 64 t.group
  | 3 => BitVec.ofNat 64 tm.kernel.groups
  | 4 => BitVec.ofNat 64 t.id.logical
  | 5 => BitVec.ofNat 64 t.id.die
  | 6 => BitVec.ofNat 64 tm.cx
  | 7 => BitVec.ofNat 64 tm.cy
  | 8 => BitVec.ofNat 64 tm.cdim
  | 9 => BitVec.ofNat 64 tm.grid.1
  | 10 => BitVec.ofNat 64 tm.grid.2.1
  | 11 => BitVec.ofNat 64 tm.grid.2.2
  | 12 => BitVec.ofNat 64 tm.gdimWord
  | 13 => BitVec.ofNat 64 tm.flat
  | 14 => BitVec.ofNat 64 s.tstamp
  | 15 => t.view.mode
  | 16 => ((t.ra.map (·.rserial)).getD t.rserial).setWidth 64
  | 17 => BitVec.ofNat 64 tm.ecount
  | 18 => BitVec.ofNat 64 tm.ctx
  | 19 => BitVec.ofNat 64 (s.ctxOf t).part
  | 24 => t.view.cause.setWidth 64
  | 25 => t.view.epc
  | 26 => t.view.eaddr
  | _ => 0

/-- The thread's team runs at H (R37). -/
def State.hlevel (s : State) (t : Thread) : Bool := (s.teamOf t).kernel.hlevel

/-- Registers 24-26 (R26). -/
def isHSpecial (n : Nat) : Bool := 24 ≤ n && n ≤ 26

/-- `gets` (R112): a privilege trap for 24-26 at U. -/
def execGets (h : Hdr) (d : Fin 32) (sr : Fin 32) (s : State) : Host.Outcome State Fault Refusal :=
  let bad := (s.executing h).filter fun t => isHSpecial sr.val && !s.hlevel t
  if bad ≠ [] then .next (s.trapIn bad .privilege)
  else .next (s.lanewise 1 h fun t => t.putG d (s.special t sr.val) 4)

/-- A value that `sets` may write (R27, R113). -/
def setsValueOk (n : Nat) (v : Word) : Bool :=
  if n = 15 then v.toNat < 2 ^ 12 && v.toNat / 32 % 8 ≤ 4 && v.toNat / 2 ^ 10 ≠ 3
  else if n = 24 then v.toNat < 2 ^ 8
  else true

/-- The register that `sets` writes (R113). -/
def setsReg (n : Nat) : RegName :=
  match n with
  | 15 => .mode
  | 24 => .cause
  | 25 => .epc
  | _ => .eaddr

/-- The write of `sets`, of latency 4. One of MODE replaces the flags that earlier instructions of its chain have yet to raise
(R101); no other flags can be on their way (R55). -/
def Thread.setSpecial (t : Thread) (n : Nat) (v : Word) : Thread :=
  { t.put (setsReg n) v 4 with results := if n = 15 ∧ t.ra = none then t.results.map fun (r : PendRes) => { r with flags := 0 } else t.results }

/-- `sets` (R113): a privilege trap for 24-26 at U, an illegal-instruction trap for a value it may not write. -/
def execSets (h : Hdr) (sr : Fin 32) (b : Src2) (s : State) : Host.Outcome State Fault Refusal :=
  let ex := s.executing h
  let priv := ex.filter fun t => isHSpecial sr.val && !s.hlevel t
  let bad := ex.filter fun t => !setsValueOk sr.val (b.g t.view)
  if priv ≠ [] then .next (s.trapIn priv .privilege)
  else if bad ≠ [] then .next (s.trapIn bad .illegal)
  else .next (s.lanewise (1 + src2Words b) h fun t => t.setSpecial sr.val (b.g t.view))

/-- `nop` (R61). -/
def execNop (h : Hdr) (s : State) : Host.Outcome State Fault Refusal := .next (s.lanewise 1 h id)

end Sys2Proof.Machine
end

