-- ==== Sys2Proof/Machine/Floating.lean ====
section
/-! DEFINITION. Rows 3 and 4: scalar floating arithmetic, compares, conversions, unary functions, moves and packed
arithmetic (R114-R131). -/

namespace Sys2Proof.Machine

/-- MODE.FRM of a thread at issue, and whether it is 5-7 (R27). -/
def Thread.frm (t : Thread) : Nat := t.view.frm
def Thread.frmBad (t : Thread) : Bool := 5 ≤ t.frm

/-- An instruction that rounds by MODE.FRM: illegal in a thread whose FRM is 5-7 (R27). -/
def rounding (s : State) (n : Nat) (h : Hdr) (f : Thread → Thread) : Host.Outcome State Fault Refusal :=
  let bad := (s.executing h).filter Thread.frmBad
  if bad ≠ [] then .next (s.trapIn bad .illegal) else .next (s.lanewise n h f)

/-- Two widths of the scalar forms (R25, R114). -/
inductive FWidth where
  | s | d
  deriving DecidableEq, Repr

def FWidth.fmt : FWidth → Fmt
  | .s => .fp32
  | .d => .fp64

/-- A source read at a width, unboxed for FP32. -/
def FWidth.read (w : FWidth) (x : Word) : Nat :=
  match w with
  | .s => (unbox32 x).toNat
  | .d => x.toNat

/-- A result as an f register holds it, boxed for FP32. -/
def FWidth.boxed (w : FWidth) (x : Nat) : Word :=
  match w with
  | .s => box32 (BitVec.ofNat 32 x)
  | .d => BitVec.ofNat 64 x

/-- fD ← result, and the flags it raises, after `lat` cycles (R55, R101). -/
def Thread.putFRes (t : Thread) (w : FWidth) (d : Fin 32) (r : FRes) (lat : Nat) : Thread :=
  (t.putF d (w.boxed r.bits) lat).raiseFlags r.flags lat

/-- The rounded binary forms of R114. -/
def fBinary (s : State) (w : FWidth) (h : Hdr) (d a : Fin 32) (b : Src2) (op : Fmt → Nat → Nat → Nat → FRes) :
    Host.Outcome State Fault Refusal :=
  rounding s (1 + src2Words b) h fun t =>
    t.putFRes w d (op w.fmt t.frm (w.read (t.view.fval a)) (w.read (b.f t.view))) 6

/-- Minimum and maximum, which do not round (R116). -/
def fPick (s : State) (w : FWidth) (h : Hdr) (d a : Fin 32) (b : Src2) (max : Bool) : Host.Outcome State Fault Refusal :=
  .next (s.lanewise (1 + src2Words b) h fun t =>
    t.putFRes w d (fMinMax w.fmt max (w.read (t.view.fval a)) (w.read (b.f t.view))) 6)

/-- Multiply-add, which reads fD (R114). -/
def fMulAdd (s : State) (w : FWidth) (h : Hdr) (d a : Fin 32) (b : Src2) : Host.Outcome State Fault Refusal :=
  rounding s (1 + src2Words b) h fun t =>
    t.putFRes w d (fFma w.fmt t.frm (w.read (t.view.fval a)) (w.read (b.f t.view)) (w.read (t.view.fval d))) 6

/-- Interlocked divide and square root: computed on the sources read at issue (R55, R114). -/
def fDivide (s : State) (w : FWidth) (h : Hdr) (d a : Fin 32) (b : Src2) : Host.Outcome State Fault Refusal :=
  rounding s (1 + src2Words b) h fun t =>
    let r := fDiv w.fmt t.frm (w.read (t.view.fval a)) (w.read (b.f t.view))
    t.owe ⟨.f d, w.boxed r.bits, r.flags⟩
def fRoot (s : State) (w : FWidth) (h : Hdr) (d a : Fin 32) : Host.Outcome State Fault Refusal :=
  rounding s 1 h fun t =>
    let r := fSqrt w.fmt t.frm (w.read (t.view.fval a))
    t.owe ⟨.f d, w.boxed r.bits, r.flags⟩

/-- Compare into a predicate (R117). -/
def fCompare (s : State) (w : FWidth) (h : Hdr) (cond : Fin 4) (pd : Fin 8) (a : Fin 32) (b : Src2) :
    Host.Outcome State Fault Refusal :=
  .next (s.lanewise (1 + src2Words b) h fun t =>
    let r := fCmp w.fmt cond.val (w.read (t.view.fval a)) (w.read (b.f t.view))
    (t.putP pd r.1 6).raiseFlags r.2 6)

/-! ### Row 3 (R114-R116) -/

def execFaddS (h : Hdr) (d a : Fin 32) (b : Src2) (s : State) : Host.Outcome State Fault Refusal := fBinary s .s h d a b fAdd
def execFsubS (h : Hdr) (d a : Fin 32) (b : Src2) (s : State) : Host.Outcome State Fault Refusal := fBinary s .s h d a b fSub
def execFmulS (h : Hdr) (d a : Fin 32) (b : Src2) (s : State) : Host.Outcome State Fault Refusal := fBinary s .s h d a b fMul
def execFfmaS (h : Hdr) (d a : Fin 32) (b : Src2) (s : State) : Host.Outcome State Fault Refusal := fMulAdd s .s h d a b
def execFminS (h : Hdr) (d a : Fin 32) (b : Src2) (s : State) : Host.Outcome State Fault Refusal := fPick s .s h d a b false
def execFmaxS (h : Hdr) (d a : Fin 32) (b : Src2) (s : State) : Host.Outcome State Fault Refusal := fPick s .s h d a b true
def execFdivS (h : Hdr) (d a : Fin 32) (b : Src2) (s : State) : Host.Outcome State Fault Refusal := fDivide s .s h d a b
def execFsqrtS (h : Hdr) (d a : Fin 32) (s : State) : Host.Outcome State Fault Refusal := fRoot s .s h d a
def execFaddD (h : Hdr) (d a : Fin 32) (b : Src2) (s : State) : Host.Outcome State Fault Refusal := fBinary s .d h d a b fAdd
def execFsubD (h : Hdr) (d a : Fin 32) (b : Src2) (s : State) : Host.Outcome State Fault Refusal := fBinary s .d h d a b fSub
def execFmulD (h : Hdr) (d a : Fin 32) (b : Src2) (s : State) : Host.Outcome State Fault Refusal := fBinary s .d h d a b fMul
def execFfmaD (h : Hdr) (d a : Fin 32) (b : Src2) (s : State) : Host.Outcome State Fault Refusal := fMulAdd s .d h d a b
def execFminD (h : Hdr) (d a : Fin 32) (b : Src2) (s : State) : Host.Outcome State Fault Refusal := fPick s .d h d a b false
def execFmaxD (h : Hdr) (d a : Fin 32) (b : Src2) (s : State) : Host.Outcome State Fault Refusal := fPick s .d h d a b true
def execFdivD (h : Hdr) (d a : Fin 32) (b : Src2) (s : State) : Host.Outcome State Fault Refusal := fDivide s .d h d a b
def execFsqrtD (h : Hdr) (d a : Fin 32) (s : State) : Host.Outcome State Fault Refusal := fRoot s .d h d a

/-! ### Row 4 (R117-R131) -/

def execFcmpS (h : Hdr) (cond : Fin 4) (pd : Fin 8) (a : Fin 32) (b : Src2) (s : State) : Host.Outcome State Fault Refusal := fCompare s .s h cond pd a b
def execFcmpD (h : Hdr) (cond : Fin 4) (pd : Fin 8) (a : Fin 32) (b : Src2) (s : State) : Host.Outcome State Fault Refusal := fCompare s .d h cond pd a b

/-- UnboxB (R119). -/
def unboxB (f : Word) : BitVec 16 := if f.extractLsb' 16 48 = 0xFFFFFFFFFFFF then f.setWidth 16 else 0x7FC0

/-- Box (x, 16) (R25). -/
def box16 (x : Nat) : Word := (0xFFFFFFFFFFFF : BitVec 48) ++ BitVec.ofNat 16 x

/-- A conversion's result: a register of a class, with flags. -/
structure CvtRes where
  toG : Bool
  val : Word
  flags : BitVec 5
  deriving DecidableEq, Repr

def cvtF (r : FRes) (b : Nat → Word) : CvtRes := ⟨false, b r.bits, r.flags⟩
def cvtG (r : Int × BitVec 5) (w32 : Bool) : CvtRes :=
  ⟨true, if w32 then (BitVec.ofInt 32 r.1).signExtend 64 else BitVec.ofInt 64 r.1, r.2⟩

/-- The conversion code of R118 applied to its source register's value (R119-R122). -/
def fcvtRes (code : Fin 32) (rm : Nat) (x : Word) : CvtRes :=
  let s := (unbox32 x).toNat
  let d := x.toNat
  let hx := (unbox16 x).toNat
  let box s := box32 (BitVec.ofNat 32 s)
  let raw := BitVec.ofNat 64
  let i32 := (x.setWidth 32).toInt
  let u32 : Int := ((x.setWidth 32).toNat : Int)
  match code.val with
  | 0 => cvtF (fConv .fp64 .fp32 rm d) box
  | 1 => cvtF (fConv .fp32 .fp64 rm s) raw
  | 2 => cvtF (fConv .fp32 .fp16 rm s) box16
  | 3 => cvtF (fConv .fp16 .fp32 rm hx) box
  | 4 => cvtF (fConv .fp32 .bf16 rm s) box16
  | 5 => cvtF (fConv .bf16 .fp32 rm (unboxB x).toNat) box
  | 6 => cvtG (fToInt .fp32 rm (-2147483648) 2147483647 s) true
  | 7 => cvtG (fToInt .fp32 rm 0 4294967295 s) false
  | 8 => cvtG (fToInt .fp32 rm (-9223372036854775808) 9223372036854775807 s) false
  | 9 => cvtG (fToInt .fp32 rm 0 18446744073709551615 s) false
  | 10 => cvtG (fToInt .fp64 rm (-2147483648) 2147483647 d) true
  | 11 => cvtG (fToInt .fp64 rm 0 4294967295 d) false
  | 12 => cvtG (fToInt .fp64 rm (-9223372036854775808) 9223372036854775807 d) false
  | 13 => cvtG (fToInt .fp64 rm 0 18446744073709551615 d) false
  | 14 => cvtF (intToF .fp32 rm i32) box
  | 15 => cvtF (intToF .fp32 rm u32) box
  | 16 => cvtF (intToF .fp32 rm x.toInt) box
  | 17 => cvtF (intToF .fp32 rm (d : Int)) box
  | 18 => cvtF (intToF .fp64 rm i32) raw
  | 19 => cvtF (intToF .fp64 rm u32) raw
  | 20 => cvtF (intToF .fp64 rm x.toInt) raw
  | 21 => cvtF (intToF .fp64 rm (d : Int)) raw
  | 22 => cvtF (fConv .fp64 .fp16 rm d) box16
  | 23 => cvtF (fConv .fp16 .fp64 rm hx) raw
  | 24 => cvtF (fRound .fp32 rm s) box
  | _ => cvtF (fRound .fp64 rm d) raw

/-- Codes that read a g register, and the widening codes, which do not round (R118, R119). -/
def fcvtReadsG (code : Fin 32) : Bool := 14 ≤ code.val && code.val ≤ 21
def fcvtExact (code : Fin 32) : Bool := code.val == 1 || code.val == 3 || code.val == 5 || code.val == 23

/-- `fcvt` in one thread. -/
def Thread.fcvt (t : Thread) (d a : Fin 32) (code : Fin 32) : Thread :=
  let r := fcvtRes code t.frm (if fcvtReadsG code then t.view.gval a else t.view.fval a)
  (if r.toG then t.putG d r.val 6 else t.putF d r.val 6).raiseFlags r.flags 6

def execFcvt (h : Hdr) (d a : Fin 32) (code : Fin 32) (s : State) : Host.Outcome State Fault Refusal :=
  if fcvtExact code then .next (s.lanewise 1 h fun t => t.fcvt d a code) else rounding s 1 h fun t => t.fcvt d a code

/-- A unary code in one thread (R123-R125). -/
def Thread.funary (t : Thread) (w : FWidth) (d a : Fin 32) (code : Fin 32) : Thread :=
  let x := w.read (t.view.fval a)
  let f := w.fmt
  let top := 2 ^ (f.ebits + f.mbits)
  match code.val with
  | 0 => t.putF d (w.boxed (if x / top % 2 = 1 then x - top else x + top)) 6
  | 1 => t.putF d (w.boxed (x % top)) 6
  | 2 => t.putG d (BitVec.ofNat 64 (fClass f x)) 6
  | k => t.putFRes w d (approxFn f k x) 8

def execFunaryS (h : Hdr) (d a : Fin 32) (code : Fin 32) (s : State) : Host.Outcome State Fault Refusal :=
  .next (s.lanewise 1 h fun t => t.funary .s d a code)
def execFunaryD (h : Hdr) (d a : Fin 32) (code : Fin 32) (s : State) : Host.Outcome State Fault Refusal :=
  .next (s.lanewise 1 h fun t => t.funary .d d a code)

/-- `fmv` (R126). -/
def execFmv (h : Hdr) (d a : Fin 32) (code : Fin 32) (s : State) : Host.Outcome State Fault Refusal :=
  .next (s.lanewise 1 h fun t => match code.val with
    | 0 => t.putF d (t.view.gval a) 6
    | 1 => t.putG d (t.view.fval a) 6
    | _ => t.putF d (t.view.fval a) 6)

/-- Halves and bytes of a packed value (R127). -/
def half (x : Word) (i : Nat) : Nat := x.toNat / 2 ^ (16 * i) % 2 ^ 16
def byteOf (x : Word) (i : Nat) : Nat := x.toNat / 2 ^ (8 * i) % 2 ^ 8
def halves (l : List Nat) : Nat := l.foldr (fun v acc => v + 2 ^ 16 * acc) 0

/-- An operation on four halves; the flags are ORed (R128). -/
def packed (op : Nat → FRes) : Word × BitVec 5 :=
  let rs := (List.range 4).map op
  (BitVec.ofNat 64 (halves (rs.map (·.bits))), rs.foldl (fun f r => f ||| r.flags) 0)

def pBinary (s : State) (h : Hdr) (d a : Fin 32) (b : Src2) (op : Nat → Nat → Nat → FRes) : Host.Outcome State Fault Refusal :=
  rounding s (1 + src2Words b) h fun t =>
    let r := packed fun i => op t.frm (half (t.view.fval a) i) (half (b.f t.view) i)
    (t.putF d r.1 6).raiseFlags r.2 6
def pMulAdd (s : State) (f : Fmt) (h : Hdr) (d a : Fin 32) (b : Src2) : Host.Outcome State Fault Refusal :=
  rounding s (1 + src2Words b) h fun t =>
    let r := packed fun i => fFma f t.frm (half (t.view.fval a) i) (half (b.f t.view) i) (half (t.view.fval d) i)
    (t.putF d r.1 6).raiseFlags r.2 6
def fDotProduct (s : State) (f : Fmt) (h : Hdr) (d a : Fin 32) (b : Src2) : Host.Outcome State Fault Refusal :=
  rounding s (1 + src2Words b) h fun t =>
    t.putFRes .s d (fDot f t.frm (unbox32 (t.view.fval d)).toNat
      ((List.range 4).map fun i => (half (t.view.fval a) i, half (b.f t.view) i))) 6

def execPfmaH (h : Hdr) (d a : Fin 32) (b : Src2) (s : State) : Host.Outcome State Fault Refusal := pMulAdd s .fp16 h d a b
def execPfmaB (h : Hdr) (d a : Fin 32) (b : Src2) (s : State) : Host.Outcome State Fault Refusal := pMulAdd s .bf16 h d a b
def execFdotH (h : Hdr) (d a : Fin 32) (b : Src2) (s : State) : Host.Outcome State Fault Refusal := fDotProduct s .fp16 h d a b
def execFdotB (h : Hdr) (d a : Fin 32) (b : Src2) (s : State) : Host.Outcome State Fault Refusal := fDotProduct s .bf16 h d a b
def execPaddH (h : Hdr) (d a : Fin 32) (b : Src2) (s : State) : Host.Outcome State Fault Refusal := pBinary s h d a b (fAdd .fp16)
def execPmulH (h : Hdr) (d a : Fin 32) (b : Src2) (s : State) : Host.Outcome State Fault Refusal := pBinary s h d a b (fMul .fp16)

/-- A byte as a signed number. -/
def sbyte (x : Nat) : Int := (BitVec.ofNat 8 x).toInt

/-- The eight-term integer dot product (R130). -/
def idotRes (acc x y : Word) : Word :=
  let t := (acc.setWidth 32).toInt + ((List.range 8).map fun i => sbyte (byteOf x i) * sbyte (byteOf y i)).foldl (· + ·) 0
  BitVec.ofInt 64 (sat32 t)
def execIdotB (h : Hdr) (d a : Fin 32) (b : Src2) (s : State) : Host.Outcome State Fault Refusal :=
  .next (s.lanewise (1 + src2Words b) h fun t => t.putG d (idotRes (t.view.gval d) (t.view.fval a) (b.f t.view)) 6)

/-- The byte selection of `pshuf` (R131). -/
def pshufRes (old x ctl : Word) : Word :=
  let v := x.toNat + 2 ^ 64 * old.toNat
  BitVec.ofNat 64 ((List.range 8).foldr (fun i acc => v / 2 ^ (8 * (ctl.toNat / 16 ^ i % 16)) % 2 ^ 8 + 2 ^ 8 * acc) 0)
def execPshuf (h : Hdr) (d a : Fin 32) (b : Src2) (s : State) : Host.Outcome State Fault Refusal :=
  .next (s.lanewise (1 + src2Words b) h fun t => t.putF d (pshufRes (t.view.fval d) (t.view.fval a) (b.f t.view)) 6)

end Sys2Proof.Machine
end

