-- ==== Sys2Proof/Machine/Memory.lean ====
section
/-! DEFINITION. Row 5 at issue: addresses, checks and the accesses put on the pending list (R133-R160). The accesses perform
in Machine/Perform.lean. -/

namespace Sys2Proof.Machine

/-- Words of an instruction with the extension words of row 5. -/
def extsWords : Exts → Nat
  | .none => 1
  | .one _ => 2
  | .two _ _ => 3

/-- Two-bit and three-bit scope codes (R137). -/
def scope2 (x : Nat) : Scope := match x % 4 with | 0 => .team | 1 => .clu | 2 => .dev | _ => .sys
def scope3 (x : Nat) : Scope :=
  match x % 8 with | 0 => .thread | 1 => .group | 2 => .team | 3 => .clu | 4 => .dev | _ => .sys

/-- TEAM and CLUSTER, and GROUP, which acts as TEAM (R155, R250). -/
def Scope.narrow : Scope → Bool
  | .thread | .dev | .sys => false
  | _ => true

/-- What one executing thread asks of row 5. -/
structure MemReq where
  probe : Probe
  kind : AccKind
  data : Nat
  hint : Hint
  deriving DecidableEq, Repr

/-- The thread's current region has performed its commit: the kept reply (R162, R187). -/
def Thread.kept (t : Thread) : Option Nat := (t.replies.find? fun e => e.1 == t.rserial).map (·.2)

/-- A commit instruction of row 5 (R161). -/
def AccKind.commits : AccKind → Bool
  | .stl _ | .stf _ | .atom .. | .cas .. | .waitc .. | .ldf _ true => true
  | _ => false

/-- The thread's current region has issued its commit, which has yet to perform. -/
def Thread.committing (t : Thread) : Bool := t.pending.any fun a => a.serial == t.rserial && a.kind.commits

namespace State

/-- The executing threads that will perform: for a commit instruction, those that have neither a kept reply nor, since before a restart
of their region, the commit itself on its way (R162). -/
def performing (s : State) (h : Hdr) (commit : Bool) : List Thread :=
  (s.executing h).filter fun t => !(commit && (t.kept.isSome || t.committing))

/-- The cores whose Publish the walks of these accesses wait for (R251, R303). -/
def walkHolders (s : State) (l : List (Thread × Word)) : List Nat :=
  heldBy s none (l.flatMap fun (t, va) => s.probeLines t va)

/-- A load that counts toward the four outstanding ones (R166). -/
def isLoad (a : Access) : Bool := match a.kind with | .ld _ | .lda .. | .ldf .. => true | _ => false

end State

/-- The trap of a failed check, at the instruction's address (R138, R139). -/
def checkTrap (t : Thread) (p : Probe) (c : Cause) : Trap :=
  ⟨t.id, c, t.pc, p.ea, accInfo p.size p.want.acc, c == .notResident⟩

/-- Puts an access at the end of P(t) (R244). -/
def Thread.push (t : Thread) (iid : Nat) (r : MemReq) (loc : Loc) : Thread :=
  { t with pending := t.pending ++ [{ iid := iid, iaddr := t.pc, va := r.probe.ea, kind := r.kind, loc := loc, size := r.probe.size
                                      data := r.data, serial := t.rserial, hint := r.hint, begun := false, replay := false }] }

/-- A watchpoint hit that was passed is passed once (R345). -/
def usedPass (s : State) (t : Thread) (p : Probe) (loc : Loc) : Bool :=
  match loc with
  | .dev pa => State.watched (s.ctxOf t) pa p.size p.want
  | .sp .. => false

/-- The watch records of other contexts that a thread's access causes (R349). -/
def noteProbe (s : State) (t : Thread) (p : Probe) : CheckRes → State
  | .ok (.dev pa) _ => s.noteWatch (some (s.teamOf t).ctx) thisModule 0 t.id.posWord pa p.size p.want p.want.acc
  | _ => s

/-- A translation has been used by an issue: its fills and PTE bits, and whether its walk was long. -/
def State.translated (s : State) (iid : Nat) (t : ThreadId) (c : CheckRes) : State :=
  match c with
  | .ok _ (some e) => (s.noteWalk iid t (some e)).applyXEff e
  | _ => s

/-- The accesses of these threads at issue: each is checked (R138); a fault in any performs it for none (R139), though the walks of the
others have set A and D and filled the TLBs (R301, R303); otherwise
each access joins its thread's pending list under one issue number, every thread of the bundle goes on as `other` says,
and `after` follows. `hold` makes the bundle wait until the accesses have performed; `latch`: they go through the lanes' latches,
as those of row 5 do (R302). -/
def memIssueOf (s : State) (ts : List Thread) (n : Nat) (hold : Bool) (req : Thread → MemReq) (other : Thread → Thread)
    (after : State → State) (latch : Bool := true) : State :=
  let holders := s.walkHolders (ts.map fun t => (t, (req t).probe.ea))
  if holders ≠ [] then s.publishFor holders
  else
    let lane := fun (t : Thread) => if latch then some t.id.lane else none
    let res := ts.map fun t => (t, req t, s.checkVia (lane t) t (req t).probe (s.stalePick t.id.lane))
    let used := ts.filterMap fun t => s.usedXlate (lane t) t (req t).probe (s.stalePick t.id.lane)
    let traps := res.filterMap fun (t, r, c) => match c with | .fault k => some (checkTrap t r.probe k) | .ok .. => none
    if used.any s.xWaits then s
    else if traps ≠ [] then (s.applyXEffs used).takeTraps traps
    else
      let iid := s.nextId
      let s1 := res.foldl (fun s (t, _, c) => s.translated iid t.id c) { s with nextId := iid + 1 }
      let s1 := res.foldl (fun s (t, r, c) => noteProbe s t r.probe c) s1
      let s2 := { s1 with fresh := s1.fresh + 128 }
      let s3 := s2.mapFocus fun t =>
        let t' := match res.find? (fun (x, _, _) => decide (x.id = t.id)) with
          | some (_, r, .ok loc _) =>
            { t.push iid r loc with passWatch := if usedPass s t r.probe loc then none else t.passWatch }
          | _ => other t
        { t' with pc := t.pc + BitVec.ofNat 64 (4 * n) }
      let s4 := match s.focusBundle with
        | some b => if hold && ts ≠ [] then s3.modBundle b.id fun b => { b with hold := .access iid } else s3
        | none => s3
      after s4

/-- A row-5 instruction at issue. `kept` gives a thread that holds the reply of this region's commit its results (R162). -/
def memIssue (s : State) (n : Nat) (h : Hdr) (commit hold : Bool) (req : Thread → MemReq) (kept : Thread → Nat → Thread) :
    State :=
  memIssueOf s (s.performing h commit) n hold req
    (fun t => match t.kept with
      | some v => if commit && t.guard h then kept t v else t
      | none => t) id

/-- Results that a load writes (R135): the value to the register or pair, and the residency predicate. -/
def LoadDst.results (x : LoadDst) (v : Nat) : List (RegName × Word) :=
  let reg := fun d => if x.isF then RegName.f d else .g d
  (if x.size = 4 then [(reg x.d, BitVec.ofNat 64 v), (reg (oddOf x.d), BitVec.ofNat 64 (v / 2 ^ 64))]
   else [(reg x.d, if x.isF then BitVec.ofNat 64 v else extend x.size v)])
  ++ (match x.pr with | some p => [(.p p, 1)] | none => [])

/-- Writes results that arrive from memory: into the registers, or, while the bundle runs ahead, into the saved copy that
its restore takes (R334). -/
def Thread.deliver (t : Thread) (l : List (RegName × Word)) : Thread :=
  l.foldl (fun t (n, v) => match t.ra with
    | some r => { t with ra := some { r with saved := r.saved.set n v } }
    | none => t.put n v 0) t

/-- A simple request. -/
def mkReq (ea : Word) (size : Nat) (want : Want) (place : Place) (full : Bool) (kind : AccKind) (data : Nat) (hint : Hint := .normal) :
    MemReq :=
  ⟨⟨ea, size, want, place, full⟩, kind, data, hint⟩

/-- A load may not be the thread's fifth outstanding (R166). -/
def loadsFull (s : State) (h : Hdr) : Bool :=
  (s.executing h).any fun t => 4 ≤ (t.pending.filter State.isLoad).length

/-- `ld` (R141): B[4:3] is the cache hint, which changes timing only (R136). -/
def execLd (h : Hdr) (d a b : Fin 32) (e : Exts) (s : State) : Host.Outcome State Fault Refusal :=
  if loadsFull s h then .next s
  else .next (memIssue s (extsWords e) h false false (fun t =>
    mkReq (effAddr (t.view.gval (base16 a)) e) (sizeBytes (b.val % 8)) .read .any true
      (.ld ⟨isFClass a, d, b.val % 8, none⟩) 0 (Hint.of b.val)) (fun t _ => t))

/-- `st` (R142). -/
def execSt (h : Hdr) (d a b : Fin 32) (e : Exts) (s : State) : Host.Outcome State Fault Refusal :=
  .next (memIssue s (extsWords e) h false false (fun t =>
    mkReq (effAddr (t.view.gval (base16 a)) e) (sizeBytes (b.val % 8)) .write .any false .st
      (storeData t.view (isFClass a) d (b.val % 8)) (Hint.of b.val)) (fun t _ => t))

/-- `lda` (R143). -/
def execLda (h : Hdr) (d a b : Fin 32) (e : Exts) (s : State) : Host.Outcome State Fault Refusal :=
  if loadsFull s h then .next s
  else .next (memIssue s (extsWords e) h false false (fun t =>
    mkReq (effAddr (t.view.gval a) e) (sizeBytes (b.val % 8)) .read .any true
      (.lda ⟨false, d, b.val % 8, none⟩ (scope2 (b.val / 8))) 0) (fun t _ => t))

/-- `stl` (R144). -/
def execStl (h : Hdr) (d a b : Fin 32) (e : Exts) (s : State) : Host.Outcome State Fault Refusal :=
  .next (memIssue s (extsWords e) h true false (fun t =>
    mkReq (effAddr (t.view.gval a) e) (sizeBytes (b.val % 8)) .write .any false (.stl (scope2 (b.val / 8)))
      (storeData t.view false d (b.val % 8))) (fun t _ => t))

/-- `ldnr` (R146): a fault of conditions 1-7 gives 0 and false; a watchpoint traps. -/
def execLdnr (h : Hdr) (d a b : Fin 32) (e : Exts) (s : State) : Host.Outcome State Fault Refusal :=
  let pr : Fin 8 := ⟨4 + b.val / 8 % 4, by omega⟩
  let req := fun (t : Thread) => mkReq (effAddr (t.view.gval a) e) (sizeBytes (b.val % 8)) .read .any true
      (.ld ⟨false, d, b.val % 8, some pr⟩) 0
  let ts := s.executing h
  let holders := s.walkHolders (ts.map fun t => (t, (req t).probe.ea))
  if loadsFull s h then .next s
  else if holders ≠ [] then .next (s.publishFor holders)
  else
    let res := ts.map fun t => (t, s.check t (req t).probe (s.stalePick t.id.lane))
    let used := ts.filterMap fun t => s.usedXlate (some t.id.lane) t (req t).probe (s.stalePick t.id.lane)
    let traps := res.filterMap fun (t, c) => match c with
      | .fault .watchpoint => some (checkTrap t (req t).probe .watchpoint) | _ => none
    if used.any s.xWaits then .next s
    else if traps ≠ [] then .next ((s.applyXEffs used).takeTraps traps)
    else
      let iid := s.nextId
      let s1 := res.foldl (fun s (t, c) => s.translated iid t.id c) { s with nextId := iid + 1 }
      let s1 := res.foldl (fun s (t, c) => noteProbe s t (req t).probe c) s1
      let s2 := { s1 with fresh := s1.fresh + 128 }
      .next (s2.mapFocus fun t =>
        let t' := match res.find? (fun (x, _) => decide (x.id = t.id)) with
          | some (_, .ok loc _) =>
            { t.push iid (req t) loc with passWatch := if usedPass s t (req t).probe loc then none else t.passWatch }
          | some (_, .fault _) => (t.putG d 0 0).putP pr false 0
          | none => t
        { t' with pc := t.pc + BitVec.ofNat 64 (4 * extsWords e) })

/-- `ldf` (R150); `.clr` makes it a commit instruction. A FAILED granule is found when the lanes perform, once none is EMPTY. -/
def execLdf (h : Hdr) (d a b : Fin 32) (e : Exts) (s : State) : Host.Outcome State Fault Refusal :=
  let clr := b.val / 8 % 2 == 1
  let dst : LoadDst := ⟨isFClass a, d, b.val % 8, none⟩
  if loadsFull s h then .next s
  else .next (memIssue s (extsWords e) h clr true (fun t =>
    mkReq (effAddr (t.view.gval (base16 a)) e) (sizeBytes (b.val % 8)) .read .aperture false (.ldf dst clr) 0)
    (fun t v => t.deliver (dst.results v)))

/-- `stf` (R151). Without `.wait` a FAILED granule is overwritten. -/
def execStf (h : Hdr) (d a b : Fin 32) (e : Exts) (s : State) : Host.Outcome State Fault Refusal :=
  let wait := b.val / 8 % 2 == 1
  .next (memIssue s (extsWords e) h true wait (fun t =>
    mkReq (effAddr (t.view.gval (base16 a)) e) (sizeBytes (b.val % 8)) .write .aperture wait (.stf wait)
      (storeData t.view (isFClass a) d (b.val % 8))) (fun t _ => t))

/-- A prefetch of one thread: dropped where an access would fault, and in the aperture; no watchpoint matches it (R138, R148). -/
def prefetchIn (s0 s : State) (t : Thread) (ea : Word) (p : Prefetch) : State :=
  if !canonical ea || inAperture ea then s
  else match s0.xlate .access t.id.core (some t.id.lane) (s0.ctxOf t) (s0.hlevel t) ea .read (s0.stalePick t.id.lane) with
    | .ok pa x => if s.xWaits x then s else (s.applyXEff x).prefetch t.id.core (s0.ctxOf t).id ea pa p
    | .fault _ => s

/-- `pref` (R148): `.tlb` fills the access TLB, and the other targets bring lines, which changes timing only. -/
def execPref (h : Hdr) (a b : Fin 32) (e : Exts) (s : State) : Host.Outcome State Fault Refusal :=
  let ea := fun (t : Thread) => effAddr (t.view.gval a) e
  let ts := s.executing h
  let holders := s.walkHolders (ts.map fun t => (t, ea t))
  if holders ≠ [] then .next (s.publishFor holders)
  else
    let s1 := ts.foldl (fun s1 t => prefetchIn s s1 t (ea t) (Prefetch.of b.val)) s
    .next (({ s1 with fresh := s1.fresh + 128 } : State).advance (extsWords e))

/-- The operation of `atom` (R152): bytes, and the new value for an old value and an operand. -/
def atomBytes (op : Fin 8) : Nat := if op.val = 1 ∨ op.val = 6 then 4 else 8
def atomNew (op : Fin 8) (v x : Nat) : Nat :=
  match op.val with
  | 0 => (v + x) % 2 ^ 64
  | 1 => (v + x) % 2 ^ 32
  | 2 => v &&& x
  | 3 => v ||| x
  | 4 => if (BitVec.ofNat 64 v).slt (BitVec.ofNat 64 x) then x else v
  | 5 => x
  | 6 => (fAddRNE .fp32 v (x % 2 ^ 32))
  | _ => (fAddRNE .fp64 v x)
where fAddRNE (f : Fmt) (a b : Nat) : Nat := (fAdd f 0 a b).bits
/-- The old value as written to gD (R152). -/
def atomOld (op : Fin 8) (v : Nat) : Word := if op.val = 1 then (BitVec.ofNat 32 v).signExtend 64 else BitVec.ofNat 64 v

/-- `atom` (R152). -/
def execAtom (h : Hdr) (d a b : Fin 32) (e : Exts) (s : State) : Host.Outcome State Fault Refusal :=
  let op : Fin 8 := ⟨b.val / 4, by omega⟩
  .next (memIssue s (extsWords e) h true false (fun t =>
    mkReq (effAddr (t.view.gval a) e) (atomBytes op) .rmw .any true (.atom op d (scope2 b.val)) (t.view.gval d).toNat)
    (fun t v => t.deliver [(.g d, atomOld op v)]))

/-- What `cas` writes to gD and gD+1 (R154). -/
def casResults (d : Fin 32) (w : Bool) (v : Nat) (fail : Bool) : List (RegName × Word) :=
  [(.g d, if w then (BitVec.ofNat 32 v).signExtend 64 else BitVec.ofNat 64 v), (.g (oddOf d), if fail then 1 else 0)]

/-- `cas` (R154). The access carries expected and new values in its kind and the width in its size; a kept reply is the
observed value with the status in bit 64. -/
def execCas (h : Hdr) (d a b : Fin 32) (e : Exts) (s : State) : Host.Outcome State Fault Refusal :=
  let n := if b.val % 2 = 1 then 8 else 4
  .next (memIssue s (extsWords e) h true false (fun t =>
    let lim := 2 ^ (8 * n)
    mkReq (effAddr (t.view.gval a) e) n .rmw .any true
      (.cas d ((t.view.gval d).toNat % lim) ((t.view.gval (oddOf d)).toNat % lim) (scope2 (b.val / 8))) 0)
    (fun t v => t.deliver (casResults d (n == 4) (v % 2 ^ 64) (2 ^ 64 ≤ v))))

/-- An access that names no place. -/
def Thread.pushFence (t : Thread) (iid : Nat) (k : AccKind) : Thread :=
  { t with pending := t.pending ++ [{ iid := iid, iaddr := t.pc, va := 0, kind := k, loc := .dev 0, size := 0, data := 0
                                      serial := t.rserial, hint := .normal, begun := false, replay := false }] }

/-- `fence` (R155): at THREAD scope it has no effect. -/
def execFence (h : Hdr) (b : Fin 32) (s : State) : Host.Outcome State Fault Refusal :=
  let kind : Fin 4 := ⟨b.val % 4, by omega⟩
  if scope3 (b.val / 4) = .thread then .next (s.lanewise 1 h id)
  else .next ({ s with nextId := s.nextId + 1 }.lanewise 1 h fun t => t.pushFence s.nextId (.fence kind (scope3 (b.val / 4))))

/-- `pfence` (R156). -/
def execPfenceCore (h : Hdr) (s : State) : Host.Outcome State Fault Refusal :=
  .next ({ s with nextId := s.nextId + 1 }.lanewise 1 h fun t => t.pushFence s.nextId (.pfence false))
def execPfenceModule (h : Hdr) (s : State) : Host.Outcome State Fault Refusal :=
  .next ({ s with nextId := s.nextId + 1 }.lanewise 1 h fun t => t.pushFence s.nextId (.pfence true))

/-- The timeout of `waitc` (R157). -/
def waitDeadline (s : State) : Exts → Option Nat
  | .two _ e2 => some (s.tstamp + 16 * e2.toNat)
  | _ => none

/-- `waitc` (R157). -/
def execWaitc (h : Hdr) (cond : Fin 4) (pd : Fin 8) (a b : Fin 32) (e : Exts) (s : State) : Host.Outcome State Fault Refusal :=
  .next (memIssue s (extsWords e) h true true (fun t =>
    mkReq (effAddr (t.view.gval a) e) 8 .read .device false (.waitc cond pd (t.view.gval b) (waitDeadline s e) .check) 0)
    (fun t v => t.deliver [(.p pd, BitVec.ofNat 64 v)]))

/-- `pgreq` in one thread (R147): nothing for a non-canonical or aperture address or a page that permits the read; else a
request entry, whose ticket's address reaches gD when the entry is written or merged. -/
def pgreqThread (s : State) (t : Thread) (d : Fin 32) (ea : Word) : State :=
  let zero := s.modThread t.id fun t => t.putG d 0 0
  if !canonical ea || inAperture ea then zero
  else match s.xlate .access t.id.core (some t.id.lane) (s.ctxOf t) (s.hlevel t) ea .read (s.stalePick t.id.lane) with
    | .ok _ x => if s.xWaits x then zero else zero.applyXEff x
    | .fault c =>
      s.threadReport t 1 ⟨t.id, .pageRequest, t.pc, ea, accInfo 1 1, c == .notResident⟩ (.reg t.id d)

def execPgreq (h : Hdr) (d a : Fin 32) (e : Exts) (s : State) : Host.Outcome State Fault Refusal :=
  let ts := s.executing h
  let ea := fun (t : Thread) => effAddr (t.view.gval a) e
  let holders := s.walkHolders (ts.map fun t => (t, ea t))
  if holders ≠ [] then .next (s.publishFor holders)
  else
    let s' := ts.foldl (fun s t => pgreqThread s t d (ea t)) s
    .next ({ s' with fresh := s'.fresh + 128 }.advance (extsWords e))

/-! ### `tlbi` (R159) -/

/-- Removes swept translations from every core, with the instruction-cache lines and walk-cache entries (R159, R304). -/
def sweep (s : State) (covers : TlbEntry → Bool) (ofPage : IcLine → Bool) (ctxs : List Nat) : State :=
  { s with cores := s.cores.map fun c =>
      { c with tlb := { latches := c.tlb.latches.filter fun e => !covers e.2
                        fetch := c.tlb.fetch.filter fun e => !covers e
                        access := c.tlb.access.filter fun e => !covers e
                        stream := c.tlb.stream.filter fun e => !covers e
                        tile := c.tlb.tile.filter fun e => !covers e
                        walk := c.tlb.walk.filter fun e => !ctxs.contains e.1 }
               icache := c.icache.filter fun l => !ofPage l } }

/-- A translated access of these contexts that may use a swept translation is still pending. -/
def sweepWaits (s : State) (covered : Nat → Word → Bool) : Bool :=
  s.threads.any fun t => t.pending.any fun a => (match a.loc with | .dev _ => a.size != 0 | .sp .. => false) && covered (s.teamOf t).ctx a.va

/-- A sweep at H, waiting for the accesses that used swept translations; a privilege trap at U (R39, R159). An instruction line is known
by the page it was fetched by. -/
def tlbi (s : State) (h : Hdr) (covers : Thread → TlbEntry → Bool) (covered : Thread → Nat → Word → Bool)
    (lines : Thread → IcLine → Bool) (ctxs : Thread → List Nat) :
    Host.Outcome State Fault Refusal :=
  let ex := s.executing h
  let priv := ex.filter fun t => !s.hlevel t
  if priv ≠ [] then .next (s.trapIn priv .privilege)
  else if ex.any fun t => sweepWaits s (covered t) then .next s
  else .next ((ex.foldl (fun s t => sweep s (covers t) (lines t) (ctxs t)) s).advance 1)

def ctxArg (t : Thread) (d : Fin 32) : Nat := (t.view.gval d).toNat % 2 ^ 12

def execTlbiPage (h : Hdr) (d a : Fin 32) (s : State) : Host.Outcome State Fault Refusal :=
  tlbi s h (fun t e => e.ctx == ctxArg t d && e.vbase ≤ (t.view.gval a).toNat % 2 ^ 57 && (t.view.gval a).toNat % 2 ^ 57 < e.vbase + e.size)
    (fun t c va => c == ctxArg t d && (va.toNat % 2 ^ 57) / 2 ^ 30 == (t.view.gval a).toNat % 2 ^ 57 / 2 ^ 30)
    (fun t l => l.ctx == ctxArg t d && l.page ≤ (t.view.gval a).toNat % 2 ^ 57 && (t.view.gval a).toNat % 2 ^ 57 < l.page + l.size)
    (fun t => [ctxArg t d])
def execTlbiCtx (h : Hdr) (d : Fin 32) (s : State) : Host.Outcome State Fault Refusal :=
  tlbi s h (fun t e => e.ctx == ctxArg t d) (fun t c _ => c == ctxArg t d) (fun t l => l.ctx == ctxArg t d) (fun t => [ctxArg t d])
def ctxsOfPart (s : State) (p : Nat) : List Nat := (s.ctxs.filter fun c => c.part == p).map (·.id)
def execTlbiPart (h : Hdr) (d : Fin 32) (s : State) : Host.Outcome State Fault Refusal :=
  let part := fun (t : Thread) => (t.view.gval d).toNat % 16
  tlbi s h (fun t e => (ctxsOfPart s (part t)).contains e.ctx) (fun t c _ => (ctxsOfPart s (part t)).contains c)
    (fun t l => (ctxsOfPart s (part t)).contains l.ctx) (fun t => ctxsOfPart s (part t))

end Sys2Proof.Machine
end

