-- ==== Sys2Proof/Machine/Perform.lean ====
section
/-! DEFINITION. The steps by which pending accesses perform, buffer entries drain, checkpoints become durable and interlocked
results are written (R55, R153, R154, R157, R158, R244-R261), with the caches and counters they move (R295-R297, R306). -/

namespace Sys2Proof.Machine

/-! ### Which pending access may perform (R247) -/

namespace Access

/-- An acquire (R254): a check of `waitc` may be one. -/
def acquires (a : Access) : Bool :=
  match a.kind with
  | .lda .. | .ldf .. | .waitc .. => true
  | .fence k _ => k.val != 1
  | _ => false
def releases (a : Access) : Bool :=
  match a.kind with
  | .stl _ | .stf _ => true
  | .fence k _ => k.val != 0
  | _ => false
def fenceReleases (a : Access) : Bool := match a.kind with | .fence k _ => k.val != 0 | _ => false
def blocksAll (a : Access) : Bool := match a.kind with | .fence k _ => k.val == 3 | .pfence _ => true | _ => false
def writes (a : Access) : Bool := match a.kind with | .st | .stl _ | .stf _ | .atom .. | .cas .. => true | _ => false
def isRmw (a : Access) : Bool := match a.kind with | .atom .. | .cas .. => true | _ => false
/-- A load, or the read part of a read-modify-write. -/
def reads (a : Access) : Bool := match a.kind with | .ld _ | .lda .. | .ldf .. | .atom .. | .cas .. | .waitc .. => true | _ => false
def fenceAcquires (a : Access) : Bool := match a.kind with | .fence k _ => k.val != 1 | _ => false

/-- Two places share a byte. -/
def touches (a b : Access) : Bool :=
  match a.loc, b.loc with
  | .dev x, .dev y => x < y + b.size && y < x + a.size
  | .sp c x, .sp c' y => c == c' && x < y + b.size && y < x + a.size
  | _, _ => false

/-- `b` may perform while the earlier access `a` is pending (R247). A `pfence` waits for every earlier write (R261), and a fence with an
acquire part for every earlier load, which it orders before the later accesses that then follow it (R155). -/
def mayPass (a b : Access) : Bool :=
  !(a.touches b) && !a.acquires && !b.releases && !(a.fenceReleases && b.writes) && !a.blocksAll
    && !(match b.kind with | .pfence _ => a.writes | _ => false) && !(b.fenceAcquires && a.reads)

/-- The lines of a device access. -/
def lines (a : Access) : List Nat := match a.loc with | .dev pa => if a.size = 0 then [] else [lineOf pa] | .sp .. => []

end Access

/-- The access with an issue number, when every earlier pending access lets it perform. -/
def eligible (t : Thread) (iid : Nat) : Option Access :=
  match t.pending.find? fun a => a.iid == iid with
  | some a => if (t.pending.takeWhile fun b => b.iid != iid).all fun b => b.mayPass a then some a else none
  | none => none

namespace Thread

def dropAccess (t : Thread) (iid : Nat) : Thread := { t with pending := t.pending.filter fun a => a.iid != iid }

/-- A commit has performed for the region with a serial: its reply is kept beside those of other regions (R162, R187). -/
def keepReply (t : Thread) (serial : BitVec 32) (v : Nat) : Thread :=
  { t with replies := (serial, v) :: t.replies.filter fun e => e.1 != serial }

end Thread

/-- A long walk's access has performed. -/
def State.dropSlow (s : State) (iid : Nat) (t : ThreadId) : State :=
  s.modCore t.core fun c => { c with slow := c.slow.filter fun e => e != (iid, t) }

/-! ### Holds -/

/-- A bundle that waits for the accesses of an issue goes on when all have performed. -/
def releaseHold (s : State) (iid : Nat) : State :=
  { s with bundles := s.bundles.map fun b =>
      if b.hold = .access iid ∧ !(s.threads.any fun t => b.has t.id && t.pending.any fun a => a.iid == iid) then { b with hold := .none }
      else b }

/-- The bundle of a thread. -/
def bundleOf (s : State) (t : ThreadId) : Option Bundle := s.bundles.find? fun b => b.has t

/-- Faults found when accesses of one issue perform (R139): it is performed for no thread that has not performed; those
accesses leave P(t). -/
def lateFaults (s : State) (iid : Nat) (bad : List (Thread × Access × Cause)) : State :=
  let traps := bad.map fun (t, a, c) => lateTrap t a c
  let bs := s.bundles.filter fun b => s.threads.any fun t => b.has t.id && t.pending.any fun a => a.iid == iid
  let s := { s with threads := s.threads.map (Thread.dropAccess · iid) }
  s.faultBundles bs traps
where
  lateTrap (t : Thread) (a : Access) (c : Cause) : Trap :=
    ⟨t.id, c, a.iaddr, a.va, accInfo a.size (if a.isRmw then 3 else if a.writes then 2 else 1), c == .notResident⟩

/-- The same, of one cause. -/
def lateFault (s : State) (iid : Nat) (bad : List (Thread × Access)) (c : Cause) : State :=
  lateFaults s iid (bad.map fun (t, a) => (t, a, c))

/-- The late fault of an access whose thread is in no bundle any more, since it has ended, sleeps or restarts: it is reported, and the
thread does not wait for the entry (DESIGN CHOICE, log 81). -/
def strayFault (s : State) (iid : Nat) (t : Thread) (a : Access) (c : Cause) : State :=
  let x := lateFaults.lateTrap t a c
  let s := s.modThread t.id (Thread.dropAccess · iid)
  if (s.teamOf t).kernel.hlevel then s.trapAtH t [x] else s.threadReport t 0 x (.gone t.id iid)

/-- An access through a window that is in flight when the member exits completes against its scratchpad before the member's release
or as an access fault; which is a free choice, and after the release it is a fault (R36). One in flight to a block that its partition has
lost is an access fault (R371, R372; DEDUCED, log 87). Once one access of an issue has performed the others do too, since a fault performs
none of them (R139). -/
def placeGone (s : State) (t : Thread) (a : Access) : Bool :=
  match a.loc with
  | .dev pa => !a.begun && (blockOf pa).any fun b => !(s.ownedBlocks (s.ctxOf t)).contains b
  | .sp .. =>
    let tm := s.teamOf t
    let win := a.va.toNat / 2 ^ 20 % 16
    if win = 0 then false
    else match s.memberAt tm win with
      | none => true
      | some m => s.teamExited m && !a.begun && Config.freeBit (s.fresh + a.iid)

/-- The late faults of accesses of one issue, whether their threads are still in a bundle or not. -/
def issueFaults (s : State) (iid : Nat) (bad : List (Thread × Access × Cause)) : State :=
  let out := bad.filter fun x => (bundleOf s x.1.id).isNone
  let s' := match bad.filter fun x => (bundleOf s x.1.id).isSome with
    | [] => s
    | l => lateFaults s iid l
  out.foldl (fun s x => strayFault s iid x.1 x.2.1 x.2.2) s'

/-- The late faults of the accesses of one issue whose windows or blocks have gone (R36, R139, R372). -/
def placeFault (s : State) (iid : Nat) (bad : List (Thread × Access)) : State :=
  issueFaults s iid (bad.map fun (t, a) => (t, a, .access))

/-- The waiting threads of one issue, with their accesses. -/
def lanesOf (s : State) (iid : Nat) : List (Thread × Access) :=
  s.threads.filterMap fun t => (t.pending.find? fun a => a.iid == iid).map fun a => (t, a)

/-- Lanes in ascending order. -/
def byLane (l : List (Thread × Access)) : List (Thread × Access) :=
  (List.range Config.lanes).flatMap fun n => l.filter fun x => x.1.id.lane == n

/-- One access of an issue has performed: a fault of the others would be late (R139). -/
def State.began (s : State) (iid : Nat) : State :=
  { s with threads := s.threads.map fun (t : Thread) =>
      { t with pending := updWhere (fun a => a.iid == iid) (fun (a : Access) => { a with begun := true }) t.pending } }

/-! ### Issue anew after a save or gating (R165, R365) -/

/-- What an access that is issued anew asks of R138. -/
def Access.probe (a : Access) : Probe :=
  match a.kind with
  | .ldf .. => ⟨a.va, a.size, .read, .aperture, false⟩
  | .stf w => ⟨a.va, a.size, .write, .aperture, w⟩
  | .waitc .. => ⟨a.va, a.size, .read, .device, false⟩
  | _ => ⟨a.va, a.size, .read, .any, true⟩

/-- The residency predicate of an `ldnr`, with its destination. -/
def Access.resident (a : Access) : Option (Fin 32 × Fin 8) :=
  match a.kind with
  | .ld ⟨_, d, _, some p⟩ => some (d, p)
  | _ => none

/-- An access that is issued again goes on at the place its check found, or, of an `ldnr`, gives 0 and false (R146). -/
def reissueLane (s0 : State) (s : State) (t : Thread) (a : Access) (c : CheckRes) : State :=
  match c with
  | .ok loc _ =>
    let s := noteProbe (s.translated a.iid t.id c) t a.probe c
    s.modThread t.id fun x => { x with pending := updWhere (fun y => y.iid == a.iid) (fun (y : Access) => { y with loc := loc, replay := false }) x.pending
                                       passWatch := if usedPass s0 { t with pc := a.iaddr } a.probe loc then none else x.passWatch }
  | .fault _ => s.modThread t.id fun x => match a.resident with
    | some (d, p) => (x.dropAccess a.iid).deliver [(.g d, 0), (.p p, 0)]
    | none => x

/-- The saved loads of one issue, or its waits of `ldf`, `stf.wait` or `waitc`, are issued again: each address is translated and checked as
that of a new access, and a fault in any lane, which an `ldnr` takes at a watchpoint alone, performs it for none (R139, R380). -/
def reissue (s : State) (iid : Nat) : State :=
  let ls := byLane ((lanesOf s iid).filter fun x => x.2.replay)
  let at_ := fun (x : Thread × Access) => { x.1 with pc := x.2.iaddr }
  let res := ls.map fun x => (x.1, x.2, s.check (at_ x) x.2.probe (s.stalePick x.1.id.lane))
  let used := ls.filterMap fun x => s.usedXlate (some x.1.id.lane) (at_ x) x.2.probe (s.stalePick x.1.id.lane)
  let holders := heldBy s none (ls.flatMap fun x => s.probeLines x.1 x.2.va)
  let bad := res.filterMap fun (t, a, c) => match c with
    | .fault k => if a.resident.isNone || k == .watchpoint then some (t, a, k) else none
    | .ok .. => none
  if holders ≠ [] then s.publishFor holders
  else if used.any s.xWaits then s
  else if bad ≠ [] then issueFaults (s.applyXEffs used) iid bad
  else { res.foldl (fun u x => reissueLane s u x.1 x.2.1 x.2.2) s with fresh := s.fresh + 128 }

/-! ### Load, and the check of `waitc` (R248, R255, R258) -/

/-- The value at a place that a thread reads, when it may be read now: no other core's Publish is required, and no byte is
held by another thread. -/
def readPlace (s : State) (t : Thread) (a : Access) : Option Nat :=
  match a.loc with
  | .dev pa => if heldBy s (some t.id.core) a.lines = [] then some (tbRead s t.id pa a.size) else none
  | .sp core off =>
    if (s.core core).heldByOther t.id off a.size then none else some (Memory.readLE (s.core core).sp off a.size)

/-- The condition of a `waitc` (R157). -/
def waitMet (cond : Fin 4) (m g : Word) : Bool :=
  match cond with
  | 0 => m == g
  | 1 => m != g
  | 2 => g.sle m
  | 3 => m &&& g != 0

/-- The granule of a scratchpad access. -/
def granOf (s : State) (a : Access) : Gran :=
  match a.loc with
  | .sp core off => (s.core core).granule (off / 16)
  | .dev _ => .empty

/-- `ldf` of one issue, every lane in one step (R150). -/
def performLdf (s : State) (iid : Nat) : State :=
  let ls := lanesOf s iid
  let gone := ls.filter fun x => placeGone s x.1 x.2
  if gone ≠ [] then placeFault s iid gone else
  let ready := ls.all fun (t, a) => (eligible t iid).isSome && granOf s a != .empty && (readPlace s t a).isSome
    && !a.replay && (match a.kind with | .ldf _ true => t.gateOpen a.serial | _ => true)
  if ls = [] || !ready then s
  else
    let bad := ls.filter fun (_, a) => granOf s a == .failed
    if bad ≠ [] then lateFault s iid bad .failedGranule
    else
      let s1 := ls.foldl (fun s1 (t, a) =>
        match a.kind, readPlace s t a with
        | .ldf dst clr, some v =>
          s1.modThread t.id fun t =>
            let t := (t.dropAccess iid).deliver (dst.results v)
            if clr then t.keepReply a.serial v else t
        | _, _ => s1) s
      let s2 := ls.foldl (fun s2 (_, a) => match a.kind, a.loc with
        | .ldf _ true, .sp core off => s2.modCore core fun c => c.granWrite (off / 16) .empty
        | _, _ => s2) s1
      -- an acquire at TEAM or CLUSTER scope is one step (R250)
      releaseHold s2 iid

/-- The check of a `waitc` (R157, R258). A full monitor table makes the waiter re-read every 256 cycles (R158); whether it
is full is a free choice. -/
def performCheck (s : State) (t : Thread) (a : Access) : State :=
  match a.kind, a.loc with
  | .waitc cond pd cmp dl .check, .dev pa =>
    let holders := heldBy s none a.lines
    if placeGone s t a then placeFault s a.iid [(t, a)]
    else if !(t.gateOpen a.serial) || !tbClear s t.id.core pa 8 then s
    else if holders ≠ [] then s.publishFor holders
    else
      let ctx := (s.teamOf t).ctx
      -- the read of the word is made at its home slice (R158)
      let s := s.touchSlice (t.id.core / 48) ctx a.va pa false
      let m : Word := BitVec.ofNat 64 (s.readM pa 8)
      let done := fun (v : Nat) => (releaseHold (s.modThread t.id fun t =>
        ((t.dropAccess a.iid).deliver [(.p pd, BitVec.ofNat 64 v)]).keepReply a.serial v) a.iid).began a.iid
      if waitMet cond m cmp then done 1
      else if dl.any fun d => d ≤ s.tstamp then done 0
      else
        let full := s.choose 2 == 1
        let mon : MonState := if full then .reread (s.tstamp + 256) else .monitor false
        s.bump.modThread t.id fun t => { t with pending := t.pending.map fun x =>
          if x.iid = a.iid then { x with kind := .waitc cond pd cmp dl mon } else x }
  | _, _ => s

/-- Load (t, a) (R248), the read of an `ldf` for all its lanes, and the Check of a `waitc`. -/
def execLoad (t : ThreadId) (k : Nat) (s : State) : Host.Outcome State Fault Refusal :=
  match s.powered? t with
  | none => .next s
  | some th =>
    match eligible th k with
    | none => .next s
    | some a =>
      if a.replay then .next (reissue s k) else
      match a.kind with
      | .ld dst | .lda dst _ =>
        let holders := heldBy s (some t.core) a.lines
        if holders ≠ [] then .next (s.publishFor holders)
        else if placeGone s th a then
          -- an `ldnr` never faults (R146)
          match dst.pr with
          | some p => .next (s.modThread t fun x => (x.dropAccess k).deliver [(.g dst.d, 0), (.p p, 0)])
          | none => .next (placeFault s k [(th, a)])
        else match readPlace s th a with
        | none => .next s
        | some v =>
          let s' := (s.modThread t fun t => (t.dropAccess k).deliver (dst.results v)).began k
          match a.loc with
          | .dev pa => .next ((s'.touchLine t.core (s.teamOf th).ctx a.va pa false false false a.hint).dropSlow k t)
          | .sp .. => .next s'
      | .ldf .. => .next (performLdf s k)
      | .waitc .. => .next (performCheck s th a)
      | _ => .next s

/-! ### Store (R248-R250, R255) -/

/-- A write of scratchpad by a thread (R255): held while its gate is closed; through a window only once it is open. -/
def spStore (s : State) (t : Thread) (serial : BitVec 32) (core off n v : Nat) : Option State :=
  let opened := t.gateOpen serial
  if core = t.id.core then some (s.modCore core fun c => c.spWrite off n v (if opened then none else some (t.id, serial)))
  else if opened then some (s.modCore core fun c => c.spWrite off n v none)
  else none

/-- TB(core) has a free entry. -/
def tbFree (s : State) (core : Nat) : Bool := (s.core core).entryCount < Config.tbEntries

/-- One lane of `stf` performs: release, data and FULL in one step (R151, R255). -/
def stfLane (s : State) (t : Thread) (a : Access) : State :=
  match a.loc with
  | .sp core off =>
    let s := s.release t.id.core true
    let s := s.modCore core fun c => (c.spWrite off a.size a.data none).granWrite (off / 16) .full
    s.modThread t.id fun t => (t.dropAccess a.iid).keepReply a.serial 0
  | .dev _ => s

/-- No lower lane of an issue is still to perform on the granule of an access (R151). -/
def lowestLane (s : State) (iid : Nat) (t : ThreadId) (a : Access) : Bool :=
  (lanesOf s iid).all fun x => t.lane ≤ x.1.id.lane || match a.loc, x.2.loc with
    | .sp c off, .sp c' off' => !(c == c' && off / 16 == off' / 16)
    | _, _ => true

/-- Store (t, a): `st` joins the buffer, `stl` places its marker first, each lane of an `stf` performs in a step of its own, on one granule
in ascending order (R255). An `stl` of the aperture, where no party beyond the cluster reads, acts as at CLUSTER
whatever its scope (DEDUCED, log 64). -/
def execStore (t : ThreadId) (k : Nat) (s : State) : Host.Outcome State Fault Refusal :=
  match s.powered? t with
  | none => .next s
  | some th =>
    match eligible th k with
    | none => .next s
    | some a =>
      let ctx := (s.teamOf th).ctx
      if a.replay then .next (reissue s k) else
      if (match a.kind with | .stf false => false | _ => placeGone s th a) then .next (placeFault s k [(th, a)]) else
      match a.kind, a.loc with
      | .st, .dev pa =>
        if !tbFree s t.core then .next s
        else .next ((((tbStore s t.core (t, a.serial) pa a.size a.data).noteStore t.core ctx pa a.va a.hint).modThread t
          fun x => x.dropAccess k).began k)
      | .st, .sp core off =>
        match spStore s th a.serial core off a.size a.data with
        | some s' => .next ((s'.modThread t fun x => x.dropAccess k).began k)
        | none => .next s
      | .stl sc, .dev pa =>
        if !tbFree s t.core || !th.gateOpen a.serial then .next s
        else
          let s1 := s.release t.core sc.narrow
          let s2 := tbStore s1 t.core (t, a.serial) pa a.size a.data
          let s2 := s2.noteStore t.core ctx pa a.va .normal
          let s3 := if sc.narrow then (narrowRelease s2 t.core pa).tagSettle 4 else s2
          .next ((s3.modThread t fun x => (x.dropAccess k).keepReply a.serial 0).began k)
      | .stl _, .sp core off =>
        if !th.gateOpen a.serial then .next s
        else match spStore (s.release t.core true) th a.serial core off a.size a.data with
          | some s' => .next ((s'.modThread t fun x => (x.dropAccess k).keepReply a.serial 0).began k)
          | none => .next s
      | .stf false, _ =>
        let ls := byLane (lanesOf s k)
        let gone := ls.filter fun x => placeGone s x.1 x.2
        if gone ≠ [] then .next (placeFault s k gone)
        else if !th.gateOpen a.serial || !lowestLane s k t a then .next s
        else .next ((stfLane s th a).began k)
      | .stf true, _ =>
        if !th.gateOpen a.serial || granOf s a == .full || !lowestLane s k t a then .next s
        else if granOf s a == .failed then .next (lateFault s k [(th, a)] .failedGranule)
        else .next (releaseHold (stfLane s th a) k)
      | _, _ => .next s

/-! ### Read-modify-write (R152-R154, R248) -/

/-- The value at a place. -/
def placeValue (s : State) (a : Access) : Nat :=
  match a.loc with
  | .dev pa => s.readM pa a.size
  | .sp core off => Memory.readLE (s.core core).sp off a.size

def placeWrite (s : State) (a : Access) (v : Nat) : State :=
  match a.loc with
  | .dev pa => wakeLine (s.writeM pa a.size v) pa a.size
  | .sp core off => s.modCore core fun c => c.spWrite off a.size v none

/-- The lanes of a read-modify-write in ascending order; `won` holds the places at which a `cas` lane has succeeded. -/
def rmwLanes : List (Thread × Access) → List Loc → State → State
  | [], _, s => s
  | (t, a) :: rest, won, s =>
    let v := placeValue s a
    match a.kind with
    | .atom op d _ =>
      let s := placeWrite s a (atomNew op v a.data)
      rmwLanes rest won (s.modThread t.id fun t =>
        ((t.dropAccess a.iid).deliver [(.g d, atomOld op v)]).keepReply a.serial v)
    | .cas d expected new _ =>
      let ok := !won.contains a.loc && v == expected
      let s := if ok then placeWrite s a new else s
      rmwLanes rest (if ok then a.loc :: won else won) (s.modThread t.id fun t =>
        ((t.dropAccess a.iid).deliver (casResults d (a.size == 4) v (!ok))).keepReply a.serial (if ok then v else v + 2 ^ 64))
    | _ => rmwLanes rest won s

/-- The conditions of an RMW step for one lane (R248, R255): narrow holders are published, its core's own among them. -/
def rmwReady (s : State) (iid : Nat) (t : Thread) (a : Access) : Bool :=
  (eligible t iid).isSome && t.gateOpen a.serial && !(s.core t.id.core).gated &&
    (match a.loc with
     | .dev pa => tbClear s t.id.core pa a.size && heldBy s none a.lines == [] && !writeWaits s pa a.size
     | .sp core off => !(s.core core).heldByOther t.id off a.size)

/-- RMW (R248): one step for every lane of the issue. -/
def execRmw (iid : Nat) (s : State) : Host.Outcome State Fault Refusal :=
  let ls := byLane ((lanesOf s iid).filter fun x => x.2.isRmw)
  let gone := ls.filter fun x => placeGone s x.1 x.2
  let holders := heldBy s none (ls.flatMap fun x => x.2.lines)
  if gone ≠ [] then .next (placeFault s iid gone)
  else if holders ≠ [] then .next (s.publishFor holders)
  else if ls.all fun (t, a) => rmwReady s iid t a then
    let s' := rmwLanes ls [] s
    .next (ls.foldl (fun s' (t, a) => match a.loc, a.kind with
      | .dev pa, .atom _ _ sc | .dev pa, .cas _ _ _ sc =>
        s'.touchLine t.id.core (s.teamOf t).ctx a.va pa true false (sc == .sys || s'.contended (lineOf pa)) .normal
      | _, _ => s') s')
  else .next s

/-! ### Fences, drains, publishes, monitors, checkpoints, results -/

/-- The conditions of `pfence` beside its place in P(t) (R261). -/
def pfenceReady (s : State) (t : Thread) (serial : BitVec 32) (module : Bool) : Bool :=
  t.gateOpen serial && (!module || (s.core t.id.core).tb.all fun i => match i with
    | .entry _ _ _ _ c => !c.any fun x => decide (x.1 = t.id)
    | .marker _ => true)

/-- A marker no longer stands in a buffer: no entry stands before it (R248). -/
def markerGone (s : State) (core m : Nat) : Bool := !(s.core core).tb.any fun i => match i with | .marker k => k == m | _ => false

/-- A `fence.sc` places its marker when it becomes eligible, and leaves P(t) once no entry stands before it (R248). Its data field holds
the marker's number, raised by one. -/
def performSc (s : State) (t : Thread) (a : Access) (sc : Scope) : State :=
  let leave := fun (s : State) => s.modThread t.id fun x => x.dropAccess a.iid
  if a.data ≠ 0 then (if markerGone s t.id.core (a.data - 1) then leave s else s)
  else if (s.core t.id.core).tb = [] then leave s
  else (s.release t.id.core sc.narrow).modThread t.id fun x => { x with pending := x.pending.map fun y =>
    if y.iid = a.iid then { y with data := s.nextId + 1 } else y }

/-- Fence (t, f) (R248, R250, R261). -/
def execFencePerform (t : ThreadId) (k : Nat) (s : State) : Host.Outcome State Fault Refusal :=
  match s.thread? t with
  | none => .next s
  | some th =>
    match eligible th k with
    | none => .next s
    | some a =>
      match a.kind with
      | .fence kind sc =>
        if kind.val = 3 then .next (performSc s th a sc)
        else
          let s' := if kind.val = 0 then s else s.release t.core sc.narrow
          .next (s'.modThread t fun x => x.dropAccess k)
      | .pfence m => if pfenceReady s th a.serial m then .next (s.modThread t fun x => x.dropAccess k) else .next s
      | _ => .next s

/-- Entries before the first marker. -/
def oldestBatch (c : Core) : List TbItem := c.tb.takeWhile fun i => match i with | .entry .. => true | .marker _ => false

/-- An entry may drain (R248, R249, R251, R310): in the oldest batch, the first opened of its sector, escaped, and its line held
by no other core. -/
def drainable (s : State) (core entry : Nat) : Bool :=
  let c := s.core core
  match (oldestBatch c).find? (·.isEntry entry) with
  | some (e@(.entry _ sec _ _ _)) =>
    e.escaped s && heldBy s (some core) [sec / 2] == [] && !writeWaits s (32 * sec) 32
      && !((oldestBatch c).takeWhile fun i => !i.isEntry entry).any fun i => match i with | .entry _ sc .. => sc == sec | _ => false
  | _ => false

/-- Drain (c, E) (R248). -/
def execDrain (core entry : Nat) (s : State) : Host.Outcome State Fault Refusal :=
  if drainable s core entry then
    .next (s.drain core entry)
  else
    -- narrow holders in another core's way are published first (R251)
    match (oldestBatch (s.core core)).find? (·.isEntry entry) with
    | some (.entry _ sec ..) => .next (s.publishFor (heldBy s (some core) [sec / 2]))
    | _ => .next s

/-- Publish (c) (R248, R251). -/
def execPublish (core : Nat) (s : State) : Host.Outcome State Fault Refusal :=
  if publishable s core then .next (s.publish core) else .next s

/-- A queue forgets its positions at the entry of a thread's earlier regions. -/
def Queue.settled (t : ThreadId) (k : BitVec 32) (q : Queue) : Queue :=
  { q with entries := q.entries.filter fun e => decide (e.1 ≠ t) || sinceSerial k e.2.1 }

/-! Armed injections (R405, R406) -/

namespace Vkinj

def armed (v : Vkinj) : Bool := v.value.getLsbD 63
def stage (v : Vkinj) : Nat := v.value.toNat / 2 ^ 61 % 4
def target (v : Vkinj) : ThreadId := ⟨v.value.toNat / 2 ^ 43 % 2 ^ 9, v.value.toNat / 2 ^ 36 % 2 ^ 7, v.value.toNat / 2 ^ 33 % 8⟩
def serial (v : Vkinj) : BitVec 32 := v.value.setWidth 32

/-- The injection matches a checkpoint write of its target in progress. -/
def fires (s : State) (v : Vkinj) : Bool :=
  v.armed && ((s.thread? v.target).any fun t => t.stage.any fun c => c.seqh == v.serial)

/-- ARM becomes 0 and FIRED 1. -/
def fired (v : Vkinj) : Vkinj := { v with value := (v.value &&& ~~~((1 : Word) <<< 63)) ||| ((1 : Word) <<< 60) }

end Vkinj

/-- Durable (R259, R352): the slot is complete, the gate opens, and what the region held back reaches the shadow. It waits
for no access of memory (R251). -/
def execDurable (t : ThreadId) (s : State) : Host.Outcome State Fault Refusal :=
  match s.thread? t with
  | none => .next s
  | some th =>
    match th.stage with
    | none => .next s
    | some ck =>
      -- a cut that an armed injection asks for comes before SEQT (R406)
      if s.vkinj.any fun v => v.fires s && decide (v.target = t) then .next s else
      let s := s.modThread t fun x =>
        { x.setSlot (ck.seqh.toNat % 2) ck with
            stage := none, writes := x.writes.filter fun w => sinceSerial ck.seqh w.serial
            replies := x.replies.filter fun e => sinceSerial ck.seqh e.1 }
      -- copies of earlier regions are no longer needed
      let s := s.modCore t.core fun c =>
        let c := c.unhold t ck.seqh
        { c with rowEntry := c.rowEntry.filter fun e => decide (e.2.1 ≠ t) || sinceSerial ck.seqh e.2.2.1 }
      let s := s.modTeam th.team fun tm => { tm with queues := tm.queues.map (Queue.settled t ck.seqh) }
      -- a forced publish that waited for this gate is taken (R298)
      .next (s.tagSettle s.tagOnly.length)

/-- Changes the state of a thread's monitor. -/
def setMonitor (s : State) (t : ThreadId) (f : MonState → MonState) : State :=
  s.modThread t fun t => { t with pending := t.pending.map fun a => match a.kind with
    | .waitc c p v d m => { a with kind := .waitc c p v d (f m) }
    | _ => a }

/-- Wake (R258): after a write to the word's line, the thread's check is enabled again. -/
def execWake (t : ThreadId) (s : State) : Host.Outcome State Fault Refusal :=
  if (s.powered? t).isNone then .next s else .next (setMonitor s t fun m => match m with | .monitor true => .check | m => m)

/-- Expire (R258): at the deadline, with no write to the line since the last check. -/
def execExpire (t : ThreadId) (s : State) : Host.Outcome State Fault Refusal :=
  match s.powered? t with
  | none => .next s
  | some th =>
    match th.pending.find? fun a => match a.kind with | .waitc _ _ _ (some d) (.monitor false) => d ≤ s.tstamp | _ => false with
    | some a => match a.kind with
      | .waitc _ pd _ _ _ => .next ((releaseHold (s.modThread t fun t =>
          ((t.dropAccess a.iid).deliver [(.p pd, 0)]).keepReply a.serial 0) a.iid).began a.iid)
      | _ => .next s
    | none => .next s

/-- A waiter without a monitor entry reads its word again every 256 cycles, and at its deadline (R158). -/
def execWaiterReread (t : ThreadId) (s : State) : Host.Outcome State Fault Refusal :=
  if (s.powered? t).isNone then .next s else .next (s.modThread t fun x => { x with pending := x.pending.map fun a => match a.kind with
    | .waitc c p v d (.reread due) => if due ≤ s.tstamp || d.any (· ≤ s.tstamp) then { a with kind := .waitc c p v d .check } else a
    | _ => a })

/-- The write of an interlocked result (R55): the register with its flags, or tile rows. -/
def execInterlockedResultWrite (t : ThreadId) (k : Nat) (s : State) : Host.Outcome State Fault Refusal :=
  match s.thread? t with
  | none => .next s
  | some th =>
    match th.results[k]? with
    | none => .next s
    | some r =>
      let s := s.modThread t fun x => { x with results := x.results.eraseIdx k }
      let mode := fun (x : Thread) => match x.ra with | some y => y.saved.mode | none => x.regs.mode
      match r.dst with
      | .g d => .next (s.modThread t fun x => x.deliver [(.g d, r.val)])
      | .f d => .next (s.modThread t fun x => x.deliver ((.f d, r.val) ::
          (if r.flags = 0 then [] else [(.mode, mode x ||| r.flags.setWidth 64)])))
      | .rows l => .next (s.modCore t.core fun c => { c with acc := l.foldl (fun a (_, row, v) => assocSet 0 row v a) c.acc })

end Sys2Proof.Machine
end

