-- ==== Sys2Proof/Machine/Control.lean ====
section
/-! DEFINITION. Row 6 with `entryw` and `yield`: segment transfers, calls, returns and crossings, regions, group operations,
barriers, records, service calls, `trap` and `brk` (R168-R202). -/

namespace Sys2Proof.Machine

/-! ### Agents' accesses -/

/-- The physical address of a context's virtual address, by its tables, for an agent of the device; none of an address that is not
canonical (R34). -/
def ctxPa (s : State) (c : Context) (va : Word) : Option Nat :=
  if !canonical va then none
  else match s.walkTables c va with
  | .leaf e _ _ _ => some (e.pbase + (va.toNat % 2 ^ 57 - e.vbase))
  | _ => none

/-- The lines an agent's access at a virtual address touches: its PTEs and its bytes. -/
def agentLines (s : State) (c : Context) (va : Word) (n : Nat) : List Nat :=
  s.walkLines c va ++ (match ctxPa s c va with
    | some pa => (List.range ((pa + n - 1) / 64 - pa / 64 + 1)).map fun k => pa / 64 + k
    | none => [])

/-- What a fill brings into an instruction cache (R400): the line's bytes, deciphered where the context's text is encrypted;
nothing when its key slot is empty. -/
def fillLine (s : State) (c : Context) (pa : Nat) (va : Nat) : Option Nat :=
  let raw := s.readM (64 * lineOf pa) 64
  if c.enc then (s.keySlots.find? fun k => k.1 == c.keyId).map fun k => xtsLine k.2 (va / 64) raw else some raw

/-- The 4-byte word of a context's code at a physical and a virtual address, as a fetch delivers it (R400). -/
def codeWord (s : State) (c : Context) (pa va : Nat) : Option Nat :=
  (fillLine s c pa va).map fun l => l / 2 ^ (8 * (pa % 64)) % 2 ^ 32

/-- The word of a context's code at an address, as the tables map it. -/
def codeAt (s : State) (c : Context) (va : Word) : Option Nat :=
  (ctxPa s c va).bind fun pa => codeWord s c pa (va.toNat % 2 ^ 57)

/-- The narrow holders of any line of the ranges an agent touches (R251). -/
def agentHolders (s : State) (l : List (Nat × Nat)) : List Nat :=
  heldBy s none (l.flatMap fun (pa, n) => (List.range ((pa + n - 1) / 64 - pa / 64 + 1)).map fun k => pa / 64 + k)

/-! ### Packets and targets (R48, R168, R173) -/

/-- The packet that holds an address, and the first packet boundary at or after one. -/
def packetOf (a : Word) : Word := BitVec.ofNat 64 (a.toNat / 12 * 12)
def packetUp (a : Word) : Word := BitVec.ofNat 64 ((a.toNat + 11) / 12 * 12)

/-- A static target (R168). -/
def staticTarget (pc : Word) (e : Ext) : Word := packetOf pc + e.signExtend 64

/-- The word is that of `region` (OP 0x67). -/
def isRegionWord (w : Nat) : Bool := w / 2 ^ 19 % 128 == 0x67

inductive Transfer where
  | seg (indirect : Bool) | call (indirect : Bool) | ret
  deriving DecidableEq, Repr

/-- What becomes of a thread's transfer (R168, R176). -/
inductive Fate where
  | stay
  | cross
  | fault (c : Cause) (nr : Bool)
  deriving DecidableEq, Repr

/-- The checks of R168 and R176 in their order. `rp` is a call's return point. A call or return to a page of tag 00 or 11 does not stay
on this side and fails check 5 of R176 (DEDUCED, log 65). -/
def fateOf (s : State) (t : Thread) (k : Transfer) (target rp : Word) : Fate :=
  let c := s.ctxOf t
  let page := s.walkTables c target
  let h := s.hlevel t
  if !canonical target then .fault .access false
  else match k with
  | .seg ind => if ind && target.toNat % 12 ≠ 0 then .fault .badTarget false else .stay
  | .call _ | .ret =>
    let indirect := k != .call false
    match page with
    | .format => if indirect && target.toNat % 2 ≠ 0 then .fault .badTarget false else .fault .access false
    | .access tag => if indirect && target.toNat % (if tag = 1 then 2 else 12) ≠ 0 then .fault .badTarget false else .fault .access false
    | .notResident => if indirect && target.toNat % 2 ≠ 0 then .fault .badTarget false else .fault .transit true
    | .leaf e _ _ _ =>
      if indirect && target.toNat % (if e.tag = 1 then 2 else 12) ≠ 0 then .fault .badTarget false
      else if e.tag = 2 then .stay
      else
        let rpBad := k != .ret && (match s.walkTables c rp with
          | .leaf r _ _ _ => r.tag == 2 && r.x && !((codeAt s c rp).any isRegionWord)
          | _ => false)
        if rpBad then .fault .illegal false
        else if h then .fault .transit false
        else if k != .ret && Config.maxCrossings ≤ t.cross.length then .fault .transit false
        else if k == .ret && t.cross.head? != some false then .fault .transit false
        else if e.tag ≠ 1 || !e.x || !e.u then .fault .transit false
        else .cross

/-- The image a crossing ships (R30). -/
def imageOf (r : Regs) : Image := { x := r.g.set 0 0, f := r.f, fcsr := r.mode.setWidth 8 }

/-- A crossing departs (R175, R177): the thread is away, and a hazel thread runs it from the target. -/
def depart (s : State) (t : Thread) (isCall : Bool) (target : Word) : State :=
  let (k, s) := s.newId
  let s := s.modThread t.id fun x =>
    { x with status := .away, snap := none, marker := none, cross := if isCall then true :: x.cross else x.cross.drop 1
             back := some ⟨x.rserial, x.pc, target, x.regs, x.pc, false⟩ }
  { s with hazels := s.hazels ++
    [{ id := k, ctx := (s.teamOf t).ctx, home := some t.id, img := imageOf ((s.thread? t.id).getD t).regs, pc := target, grid := none
       ret := 0, asleep := false, exc := none, user := true, leaving := none, pass := none }] }

/-- The thread may depart or perform a commit that leaves the core: its accesses and results are done, its gate is open, and no entry
before its marker stands in its core's buffer (R162, R254). -/
def quiet (s : State) (t : Thread) : Bool :=
  t.pending == [] && t.results == [] && t.gateOpen t.rserial &&
    (match t.marker with | some m => markerGone s t.id.core m | none => (s.core t.id.core).tb == [])

/-- The release that a leaving thread waits behind (R254): once its accesses are done, its marker at the end of the buffer. -/
def releaseMark (s : State) (t : Thread) : State :=
  if t.marker.isSome || t.pending != [] then s
  else match (s.core t.id.core).tb.getLast? with
    | none => s
    | some (.marker k) => s.modThread t.id fun x => { x with marker := some k }
    | some (.entry ..) => (s.release t.id.core false).modThread t.id fun x => { x with marker := some s.nextId }

/-! ### Live threads, barriers and `gsync` (R188, R193) -/

/-- A thread that has not ended. -/
def Thread.alive (t : Thread) : Bool := match t.status with | .ended _ => false | _ => true

def liveCount (s : State) (team : Nat) : Nat := (s.threads.filter fun t => t.team == team && t.alive).length

/-- A barrier whose arrivals have reached the target completes its phase (R193). -/
def Bar.settle (b : Bar) (live : Nat) : Bar :=
  match b.target with
  | none => b
  | some n => if (if n = 0 then live else n) ≤ b.count then ⟨b.phase + 1, 0, none⟩ else b

/-- Barriers complete and their `.sync` waiters proceed. -/
def settleBars (s : State) : State :=
  let s := { s with teams := s.teams.map fun (tm : Team) => { tm with bars := tm.bars.map fun (b : Bar) => b.settle (liveCount s tm.id) } }
  { s with bundles := s.bundles.map (settled s) }
where
  settled (s : State) (b : Bundle) : Bundle :=
    match b.hold, s.threads.find? (fun t => b.has t.id) with
    | .barSync k ph, some t => if ((s.teamOf t).bars[k]?.map (·.phase)) = some ph then b else { b with hold := .none }
    | _, _ => b

/-- The bundles of the group of a bundle that wait at the same `gsync`. -/
def gsyncPeers (s : State) (b : Bundle) (a : Word) : List Bundle :=
  s.bundles.filter fun x => x.core == b.core && x.slot == b.slot && x.lg == b.lg
    && (match x.hold with | .gsync a' _ => a' == a | _ => false)

def gsyncMasks (b : Bundle) : List (Nat × BitVec 32) := match b.hold with | .gsync _ m => m | _ => []

/-- The peers that a set of bundles names, directly or through others; fuel is the number of peers. -/
def gsyncClosure (peers : List Bundle) : Nat → List Bundle → List Bundle
  | 0, l => l
  | n + 1, l =>
    let named := fun (pos : Nat) => l.any fun b => (gsyncMasks b).any fun m => m.2.getLsbD pos
    gsyncClosure peers n (peers.filter fun p => (l.any fun x => x.id == p.id) || p.lanes.any fun ln => named (ln % 32))

/-- The group positions of some lanes. -/
def lanesMask (l : List Nat) : BitVec 32 := l.foldl (fun m k => m ||| (1#32 <<< (k % 32))) 0

/-- A thread has passed the `gsync` at an address, and the thread at a position has not come there since (log 80). -/
def Thread.passed (t : Thread) (a : Word) (pos : Nat) : Bool := t.reached.any fun e => e.2.1 == a && e.2.2.getLsbD pos

/-- Threads at some positions have come to an address: each leaves the oldest pass there that it had not met. -/
def clearPass (a : Word) : BitVec 32 → List (BitVec 32 × Word × BitVec 32) → List (BitVec 32 × Word × BitVec 32)
  | _, [] => []
  | m, e :: r =>
    if e.2.1 = a then
      let left := e.2.2 &&& ~~~m
      let rest := clearPass a (m &&& ~~~e.2.2) r
      if left = 0 then rest else (e.1, a, left) :: rest
    else e :: clearPass a m r

/-- A thread that is not among those that have come to an address meets them there. -/
def Thread.met (a : Word) (m : BitVec 32) (t : Thread) : Thread := { t with reached := clearPass a m t.reached }

/-- The threads of a bundle's group that are not in some lanes. -/
def otherIn (b : Bundle) (lanes : List Nat) (t : Thread) : Bool :=
  t.id.core == b.core && t.id.slot == b.slot && t.id.laneGroup == b.lg && !lanes.contains t.id.lane

/-- The threads of a bundle pass a `gsync` that none of them executes: the live others of the group that have not passed it before them
may still come to it (DESIGN CHOICE, log 80). -/
def passGsync (s : State) (b : Bundle) (a : Word) : State :=
  let others := s.threads.filter (otherIn b b.lanes)
  let toward := fun (t : Thread) => lanesMask ((others.filter fun x => x.alive && !x.passed a t.id.pos).map (·.id.lane))
  let marked := fun (t : Thread) => if toward t = 0 then t else { t with reached := t.reached ++ [(t.rserial, a, toward t)] }
  { s with threads := s.threads.map fun t =>
      if s.inFocus t then marked t else if otherIn b b.lanes t then t.met a (lanesMask b.lanes) else t }

/-- A `gsync` all of whose named live threads have arrived: the arrived bundles become one, converged (R188, R189), or, where
their masks differ, every executing thread traps. A thread that has passed the `gsync` with no thread of its bundle executing counts once
for each thread that had not come there before it (DESIGN CHOICE, log 80). -/
def settleGsync (s : State) (b : Bundle) : State :=
  match b.hold with
  | .gsync a _ =>
    let set := gsyncClosure (gsyncPeers s b a) 32 [b]
    let masks := set.flatMap gsyncMasks
    let here := set.flatMap (·.lanes)
    let missing := s.threads.any fun t => otherIn b here t && t.alive
      && masks.any fun m => m.2.getLsbD t.id.pos && !t.passed a (m.1 % 32)
    if missing || !set.any (fun x => x.id == b.id) then s
    else
      match masks with
      | [] => s
      | (_, m0) :: _ =>
        -- the bundle in issue goes on as the converged one (R53)
        let main := (set.find? fun x => s.focus == some x.id).getD b
        let one := { main with lanes := sortNat here, hold := .none, conv := some m0, eligible := set.foldl (fun n x => max n x.eligible) 0 }
        let s1 := { s with threads := updWhere (otherIn b here) (Thread.met a (lanesMask here)) s.threads, bundles := s.bundles.filterMap fun x =>
          if x.id = main.id then some one else if set.any fun y => y.id == x.id then none else some x }
        if masks.all fun m => m.2 == m0 then s1
        else
          let bad := s1.threads.filter fun t => one.has t.id && masks.any fun m => m.1 == t.id.lane
          s1.faultBundle one (bad.map fun t => ⟨t.id, .illegal, a, 0, 0, false⟩)
  | _ => s

/-- Every barrier, `gsync` and merge window that the present live threads complete (R188, R193, R324). -/
def settle (s : State) : State :=
  let s := settleBars s
  (s.bundles.foldl (fun s b => match s.bundle? b.id with | some x => settleGsync s x | none => s) s).closeWindows

/-! ### Transfers (R168-R175, R182) -/

/-- A thread enters a region: RSERIAL advances and the checkpoint is written with the registers that the `region` reads (R53, R184), not
yet durable. A watchpoint hit is passed in the restarted region alone (R345). -/
def Thread.startRegion (t : Thread) (entry : Word) (implicit : Bool) (gm fm : Ext) : Thread :=
  let serial := t.rserial + 1
  { t with rserial := serial, entry := entry, gmask := gm, fmask := fm, implicit := implicit, marker := none, passWatch := none
           stage := some (checkpointOf serial entry implicit gm fm t.view) }

/-- The kept return of a crossing that the region has already made (R177, R187). -/
def Thread.returned (t : Thread) (target : Word) : Option Back :=
  t.back.filter fun b => b.serial == t.rserial && b.left == t.pc && b.target == target

/-- The thread comes back as it did when its crossing first returned. -/
def Thread.comeBack (t : Thread) (b : Back) : Thread :=
  let t := { t with regs := b.regs, snap := none }
  if b.nested then t.startRegion b.pc true 0xFFFFFFFE 0xFFFFFFFF else t

/-- Where a thread enters a segment after a transfer, if it does. -/
def entersAt (t : Thread) (a : Word) (f : Option Fate) : Option (ThreadId × Word) :=
  match f with
  | some .stay => some (t.id, a)
  | some .cross => (t.returned a).map fun b => (t.id, b.pc)
  | _ => none

/-- The bundle leaves its segment: each thread goes to its target, crosses, or ends. -/
def transferTo (s : State) (k : Transfer) (l : List (Thread × Word × Option Fate)) (link : Option Word) : State :=
  let s := match s.focusBundle with
    | some b => s.dropBundle b.id
    | none => s
  let s := l.foldl (fun s (t, _, _) => match link with
    | some a => s.modThread t.id fun x => x.putG 1 a 0
    | none => s) s
  let s := l.foldl (fun s (t, a, f) => match f with
    | some .cross => match t.returned a with
      | some b => s.modThread t.id fun x => x.comeBack b
      | none => depart s t (k != .ret) a
    | none => s.endThread t.id false
    | _ => s) s
  settle (s.enter (l.filterMap fun (t, a, f) => entersAt t a f))

/-- A segment transfer, call or return of the whole bundle (R168): a fault in any thread is a fault of the bundle; a
crossing waits until every crossing thread may leave (R177, R254). -/
def transfer (s : State) (k : Transfer) (words : Nat) (target : Thread → Word) : State :=
  let ts := s.focusThreads
  let rp := fun (t : Thread) => packetUp (t.pc + BitVec.ofNat 64 (4 * words))
  let holders := match k with
    | .seg _ => []
    | .call _ => s.walkHolders (ts.map fun t => (t, target t)) ++ heldBy s none (ts.flatMap fun t => agentLines s (s.ctxOf t) (rp t) 4)
    | .ret => s.walkHolders (ts.map fun t => (t, target t))
  if holders ≠ [] then s.publishFor holders
  else
    let fates := ts.map fun t =>
      (t, target t, if k == .ret && target t == 0 then none
                    else if (t.returned (target t)).isSome then some .cross
                    else some (fateOf s t k (target t) (rp t)))
    let traps := fates.filterMap fun (t, a, f) => match f with
      | some (.fault c nr) => some (⟨t.id, c, t.pc, a, 0, nr⟩ : Trap)
      | _ => none
    if traps ≠ [] then s.takeTraps traps
    else
      let leaving := fates.filter fun x => x.2.2 == some .cross && (x.1.returned x.2.1).isNone
      if leaving.all fun x => quiet s x.1 then
        transferTo s k fates (match k with | .call _ => (ts.head?.map rp) | _ => none)
      else leaving.foldl (fun s x => releaseMark s x.1) s

def execNext (_h : Hdr) (e1 : Ext) (s : State) : Host.Outcome State Fault Refusal :=
  .next (transfer s (.seg false) 2 fun t => staticTarget t.pc e1)

/-- `nextp`: the selector of each thread chooses its target (R46, R170). -/
def execNextp (h : Hdr) (e1 e2 : Ext) (s : State) : Host.Outcome State Fault Refusal :=
  .next (transfer s (.seg false) 3 fun t => staticTarget t.pc (if t.guard h then e1 else e2))

def execNextg (_h : Hdr) (a : Fin 32) (s : State) : Host.Outcome State Fault Refusal :=
  .next (transfer s (.seg true) 1 fun t => t.view.gval a)

def execCall (_h : Hdr) (e1 : Ext) (s : State) : Host.Outcome State Fault Refusal :=
  .next (transfer s (.call false) 2 fun t => staticTarget t.pc e1)

def execCallg (_h : Hdr) (a : Fin 32) (s : State) : Host.Outcome State Fault Refusal :=
  .next (transfer s (.call true) 1 fun t => t.view.gval a)

def execRet (_h : Hdr) (a : Fin 32) (s : State) : Host.Outcome State Fault Refusal :=
  .next (transfer s .ret 1 fun t => t.view.gval a)

/-- `exit` (R182). -/
def execExit (_h : Hdr) (s : State) : Host.Outcome State Fault Refusal :=
  .next (transferTo s (.seg false) (s.focusThreads.map fun t => (t, 0, none)) none)

/-! ### Regions (R183, R184, R352) -/

/-- A `region` waits while the thread's last checkpoint is not durable (R352), and while tile rows of the region that ends
are still to be written (R217). -/
def regionWaits (s : State) : Bool :=
  s.focusThreads.any fun t => t.stage.isSome || t.results.any fun r => match r.dst with | .rows _ => true | _ => false

def execRegion (_h : Hdr) (e1 e2 : Ext) (s : State) : Host.Outcome State Fault Refusal :=
  if regionWaits s then .next s
  else
    let ts := s.focusThreads
    let entry := fun (t : Thread) => packetUp (t.pc + 12)
    let s := ts.foldl (fun s t => s.modThread t.id fun x => x.startRegion (entry t) false e1 e2) s
    .next (transferTo s (.seg false) (ts.map fun t => (t, entry t, some .stay)) none)

/-- `entryw` is `nop` for a compute thread (R180). -/
def execEntryw (h : Hdr) (s : State) : Host.Outcome State Fault Refusal := .next (s.lanewise 1 h id)

/-- `yield` (R202): the bundle is not ready for the count, and loses its age. Where its executing threads hold different counts, the largest is
the bundle's (DESIGN CHOICE, log 99). -/
def execYield (h : Hdr) (b : Src2) (s : State) : Host.Outcome State Fault Refusal :=
  let n := (s.executing h).foldl (fun n t => max n (min (b.g t.view).toNat 4095)) 0
  let s' := s.advance (1 + src2Words b)
  match s.focusBundle with
  | some x => if s.executing h = [] then .next s'
              else .next (s'.modBundle x.id fun y => { y with hold := .yield (s.tstamp + 1 + n), stamp := s.tstamp })
  | none => .next s'

/-! ### Group operations (R188-R191) -/

def gsyncMask (t : Thread) : RegOrExt → BitVec 32
  | .reg a => (t.view.gval a).setWidth 32
  | .ext e => e

def regOrExtWords : RegOrExt → Nat
  | .reg _ => 1
  | .ext _ => 2

/-- `gsync` (R188). A bundle none of whose threads executes it waits where a waiter names one of its threads, and otherwise goes on, not
converged, and counts as having reached it (DESIGN CHOICE, log 80). -/
def execGsync (h : Hdr) (m : RegOrExt) (s : State) : Host.Outcome State Fault Refusal :=
  let ex := s.executing h
  let bad := ex.filter fun t => !(gsyncMask t m).getLsbD t.id.pos
  if bad ≠ [] then .next (s.trapIn bad .illegal)
  else
    let s' := s.advance (regOrExtWords m)
    match s.focusBundle, ex with
    | some b, t :: _ =>
      .next (settle (s'.modBundle b.id fun x => { x with hold := .gsync t.pc (ex.map fun t => (t.id.lane, gsyncMask t m)) }))
    | some b, [] =>
      -- its threads have reached the `gsync`; they wait with those that name them, and otherwise go on
      let a := ((s.focusThreads.head?).map (·.pc)).getD 0
      let named := (gsyncPeers s b a).any fun x => (gsyncMasks x).any fun m => b.lanes.any fun l => m.2.getLsbD (l % 32)
      if named then .next (settle (s'.modBundle b.id fun x => { x with hold := .gsync a [] }))
      else .next (passGsync s' b a)
    | none, _ => .next s'

/-- The executing threads lie within the mask of a converged bundle (R189). -/
def converged (s : State) (ex : List Thread) : Bool :=
  match s.focusBundle.bind (·.conv) with
  | some m => ex.all fun t => m.getLsbD t.id.pos
  | none => ex == []

/-- The value `vote` gives a thread at a position (R190). -/
def voteValue (code : Nat) (es ts : List Nat) (pos : Nat) : Word :=
  match code with
  | 0 => BitVec.ofNat 64 (ts.foldl (fun m k => m + 2 ^ k) 0 + es.length * 2 ^ 32 + ts.length * 2 ^ 40)
  | 1 => BitVec.ofNat 64 (ts.filter fun k => k < pos).length
  | 2 => BitVec.ofNat 64 (ts.foldl min 32)
  | _ => BitVec.ofNat 64 ts.length

def execVote (h : Hdr) (d : Fin 32) (inv : Bool) (pa : Fin 8) (code : Fin 32) (s : State) : Host.Outcome State Fault Refusal :=
  let ex := s.executing h
  if !converged s ex then .next (s.trapIn ex .convergence)
  else
    let es := ex.map (·.id.pos)
    let ts := (ex.filter fun t => t.view.pred pa != inv).map (·.id.pos)
    .next (s.lanewise 1 h fun t => t.putG d (voteValue code.val es ts t.id.pos) 0)

/-- The folds of `shfl` (R191). -/
def shflFold (fold : Nat) (own far : Word) : Word :=
  match fold with
  | 0 => far
  | 1 => own + far
  | 2 => alu.min own far
  | 3 => alu.max own far
  | 4 => alu.minz own far
  | 5 => alu.maxz own far
  | 6 => own &&& far
  | _ => own ||| far

def execShfl (h : Hdr) (d a b : Fin 32) (s : State) : Host.Outcome State Fault Refusal :=
  let ex := s.executing h
  if !converged s ex then .next (s.trapIn ex .convergence)
  else
    .next (s.lanewise 1 h fun t =>
      let x := t.view.gval b
      match ex.find? fun u => u.id.pos == x.toNat % 32 with
      | none => t.putG d (t.view.gval a) 0
      | some u => t.putG d (shflFold (x.toNat / 256 % 8) (t.view.gval a) (u.view.gval a)) 0)

/-! ### Barriers (R192-R194) -/

/-- The target an arriving thread asks for lies in range. -/
def barTargetOk (s : State) (t : Thread) (v : Word) : Bool := v.toNat ≤ (s.teamOf t).kernel.groups * 32

/-- No tile row of the thread is still to be written (R216). -/
def Thread.rowsDone (t : Thread) : Bool := t.results.all fun r => match r.dst with | .rows _ => false | _ => true

/-- An arrival (R193): a commit instruction and a release at TEAM scope (R194). It waits until the arriving threads' earlier
accesses and tile rows are done and their gates are open. -/
def barArrive (h : Hdr) (a b : Fin 32) (sync : Bool) (s : State) : State :=
  let all := s.executing h
  let ex := all.filter fun t => t.kept.isNone
  match s.focusBundle, all with
  | some bd, t0 :: _ =>
    let old := ((s.teamOf t0).bars[a.val]?).getD Bar.fresh
    match ex with
    | [] =>
      -- every arrival was made before a restart; a `.sync` still waits where a thread's phase is not complete
      let waits := all.any fun t => t.kept == some old.phase
      (s.advance 1).modBundle bd.id fun x => if sync && waits then { x with hold := .barSync a.val old.phase } else x
    | t1 :: _ =>
      let target := old.target.getD (t1.view.gval b).toNat
      let bad := ex.filter fun t => !barTargetOk s t (t.view.gval b) || (t.view.gval b).toNat != target
      if bad ≠ [] then s.trapIn bad .barrier
      else if ex.all fun t => t.pending == [] && t.gateOpen t.rserial && t.rowsDone then
        let s1 := s.release bd.core true
        let s2 := s1.modTeam t1.team fun tm =>
          { tm with bars := tm.bars.set a.val ⟨old.phase, old.count + ex.length, some target⟩ }
        let s3 := ex.foldl (fun s t => s.modThread t.id fun x => x.keepReply x.rserial old.phase) s2
        let s4 := (s3.advance 1).modBundle bd.id fun x => if sync then { x with hold := .barSync a.val old.phase } else x
        settle s4
      else s
  | _, _ => s.advance 1

def execBarSync (h : Hdr) (a b : Fin 32) (s : State) : Host.Outcome State Fault Refusal := .next (barArrive h a b true s)
def execBarArr (h : Hdr) (a b : Fin 32) (s : State) : Host.Outcome State Fault Refusal := .next (barArrive h a b false s)

/-! ### Records (R195-R197) -/

/-- A check of R138 for an agent's 64-byte or 8-byte store on behalf of a thread: the place in device memory. A handle, BASE or slot in
the scratchpad aperture, for which the reference states no store, is an access fault (DESIGN CHOICE, log 82). -/
def storeCheck (s : State) (t : Thread) (va : Word) (size : Nat) : Except Cause (Nat × XEff) :=
  if !canonical va then .error .access
  else if va.toNat % size ≠ 0 then .error .alignment
  else if inAperture va then .error .access
  else match s.xlate .access t.id.core none (s.ctxOf t) (s.hlevel t) va .write (s.stalePick t.id.lane) with
    | .fault c => .error c
    | .ok pa x => .ok (pa, x)

/-! ### Node launches (R325, R407) -/

/-- A launch joins its partition's placement queue (R318). -/
def joinQueue (s : State) (part : Nat) (l : Launch) : State :=
  if s.queues.any fun q => q.1 == part then
    { s with queues := s.queues.map fun (q : Nat × List Launch) => if q.1 == part then (q.1, q.2 ++ [l]) else q }
  else { s with queues := s.queues ++ [(part, [l])] }

/-- Records pending in a queue control block. -/
def pendingAt (s : State) (qcbPa : Nat) : Nat := (s.readM (qcbPa + 16) 8 + 2 ^ 64 - s.readM (qcbPa + 24) 8) % 2 ^ 64

/-- The conditions of R325 that form a launch. -/
def forms (s : State) (n : Node) (pending : Nat) : Bool :=
  !n.formed && (n.thresh ≤ pending
    || (1 ≤ pending && n.maxwait != 0 && (n.pendingRecs.head?.any fun r => 16 * n.maxwait ≤ s.tstamp - r.2)))

def modNode (s : State) (ctx : Nat) (qcb : Word) (f : Node → Node) : State :=
  s.modCtx ctx fun c => { c with nodes := updWhere (fun n => n.qcb == qcb) f c.nodes }

/-- The slice of a node's queue control block looks whether a launch forms (R325); a line of the block, or of the
entries that translate its address, that is narrow-held is published first, by LAUNCH_FORM (R251). -/
def formNode (s : State) (c : Context) (n : Node) : State :=
  match ctxPa s c n.qcb with
  | some pa =>
    if !forms s n (pendingAt s pa) || (n.kernel.hlevel && !c.handler) || heldBy s none (agentLines s c n.qcb 64) != [] then s
    else joinQueue (modNode s c.id n.qcb fun n => { n with formed := true }) c.part (.node c.id n.qcb)
  | none => s

/-- The check after an append step (R407). -/
def formAt (s : State) (ctx : Nat) (qcb : Word) : State :=
  match s.ctx? ctx with
  | some c => match c.nodes.find? fun n => n.qcb == qcb with
    | some n => formNode s c n
    | none => s
  | none => s

/-- The check of every slice at a cycle (R407), in the order of contexts and nodes (DESIGN CHOICE, log 94). -/
def formDue (s : State) : State :=
  if s.powered then s.ctxs.foldl (fun s c => c.nodes.foldl (fun s n => formNode s c n) s) s else s

/-! ### Appends (R196) -/

/-- One append to a node's queue (R196): the record, TAIL, and the record's origin and age (R325, R328). -/
def appendRecord (s : State) (ctx : Nat) (qcb : Word) (qcbPa slotPa : Nat) (rec : List Word) (origin : Option Nat) : State :=
  let tail := s.readM (qcbPa + 16) 8
  let s := ((List.range 8).foldl (fun s k => s.writeM (slotPa + 8 * k) 8 ((rec[k]?).getD 0).toNat) s)
  let s := dropCopies (wakeLine s slotPa 64) slotPa 64
  let s := writeMaster s (qcbPa + 16) 8 ((tail + 1) % 2 ^ 64)
  let s := s.modCtx ctx fun c => { c with nodes := c.nodes.map fun n =>
    if n.qcb = qcb then { n with pendingRecs := n.pendingRecs ++ [(origin, s.tstamp)] } else n }
  match origin with
  | some g => s.modGrid g fun g => { g with out := g.out + 1 }
  | none => s

/-- The slot's virtual address for the `j`-th record to come (R196). -/
def recordSlot (s : State) (qcbPa j : Nat) : Word :=
  let cap := s.readM (qcbPa + 8) 8
  BitVec.ofNat 64 (s.readM qcbPa 8 + 64 * ((s.readM (qcbPa + 16) 8 + j) % (if cap = 0 then 1 else cap)))

/-- The eight registers from gD (R196). -/
def recordOf (t : Thread) (d : Fin 32) : List Word :=
  (List.range 8).map fun k => if h : d.val + k < 32 then t.view.gval ⟨d.val + k, h⟩ else 0

/-- How many threads of a bundle append to the queue of a thread before it. -/
def recordIndex (ts : List Thread) (a : Fin 32) (t : Thread) : Nat :=
  ((ts.filter fun u => u.view.gval a == t.view.gval a).takeWhile fun u => decide (u.id ≠ t.id)).length

/-- The faults of `rec` in one thread: the handle, BASE, and the slots its bundle takes (R196). -/
def recFault (s : State) (ts : List Thread) (a : Fin 32) (t : Thread) : Option Trap :=
  let hd := t.view.gval a
  let same := (ts.filter fun u => u.view.gval a == hd).length
  let mk := fun (c : Cause) (ea : Word) => some (⟨t.id, c, t.pc, ea, accInfo 64 2, c == .notResident⟩ : Trap)
  match storeCheck s t hd 64 with
  | .error c => mk c hd
  | .ok (pa, _) =>
    let base : Word := BitVec.ofNat 64 (s.readM pa 8)
    match storeCheck s t base 64 with
    | .error c => mk c base
    | .ok _ =>
      let slot := recordSlot s pa (recordIndex ts a t)
      match storeCheck s t slot 64 with
      | .error c => mk c slot
      | .ok _ =>
        if s.readM (pa + 8) 8 < (s.readM (pa + 16) 8 + 2 ^ 64 - s.readM (pa + 24) 8) % 2 ^ 64 + same then mk .queueFull hd
        else none

/-- The address of the slot that a thread of a bundle's takes (R196), when its handle is mapped. -/
def recordVa (s : State) (ts : List Thread) (a : Fin 32) (t : Thread) : Option Word :=
  (ctxPa s (s.ctxOf t) (t.view.gval a)).map fun pa => recordSlot s pa (recordIndex ts a t)

/-- The block of a thread's handle. -/
def recordBlock (s : State) (a : Fin 32) (t : Thread) : Option (Nat × Nat) :=
  match storeCheck s t (t.view.gval a) 64 with
  | .ok (pa, _) => some (pa, 64)
  | .error _ => none

/-- Where that slot lies. -/
def recordPlace (s : State) (ts : List Thread) (a : Fin 32) (t : Thread) : Option (Nat × Nat) :=
  ((recordVa s ts a t).bind (ctxPa s (s.ctxOf t))).map fun pa => (pa, 64)

/-- The lines that the checks of these records read (R251): the blocks of the handles, and the PTEs of the handle, of BASE and of the
slot. -/
def recordWalks (s : State) (ts : List Thread) (a : Fin 32) : List Nat :=
  ts.flatMap fun t =>
    let base := (ctxPa s (s.ctxOf t) (t.view.gval a)).map fun pa => (BitVec.ofNat 64 (s.readM pa 8) : Word)
    agentLines s (s.ctxOf t) (t.view.gval a) 64 ++ (base.map (s.probeLines t)).getD [] ++ ((recordVa s ts a t).map (s.probeLines t)).getD []

/-- A page move has locked a PTE whose bits these records set, or frozen the page of a block or slot that they write (R310). -/
def recordLocked (s : State) (ts : List Thread) (a : Fin 32) : Bool :=
  let waits := fun (t : Thread) (va : Word) => match storeCheck s t va 64 with | .ok (_, x) => s.xWaits x | .error _ => false
  (ts.any fun t => waits t (t.view.gval a) || ((recordVa s ts a t).any (waits t)))
    || (ts.filterMap (recordBlock s a) ++ ts.filterMap (recordPlace s ts a)).any fun x => writeWaits s x.1 x.2

/-- Threads in ascending lane order. -/
def laneOrder (l : List Thread) : List Thread := (List.range Config.lanes).flatMap fun n => l.filter fun t => t.id.lane == n

/-- `rec` (R196, R197): a release at DEVICE scope, taken once the bundle's earlier writes are in M. -/
def execRecd (h : Hdr) (d a : Fin 32) (s : State) : Host.Outcome State Fault Refusal :=
  let ts := laneOrder ((s.executing h).filter fun t => t.kept.isNone)
  let traps := ts.filterMap (recFault s ts a)
  let walks := heldBy s none (recordWalks s ts a)
  if walks ≠ [] then .next (s.publishFor walks)
  else if traps ≠ [] then .next (s.takeTraps traps)
  else if !ts.all (quiet s) then .next (ts.foldl (fun s t => releaseMark s t) s)
  else
    let holders := agentHolders s (ts.filterMap (recordBlock s a) ++ ts.filterMap (recordPlace s ts a))
    if holders ≠ [] then .next (s.publishFor holders)
    else if recordLocked s ts a then .next s
    else
      let s' := ts.foldl (fun u t => match storeCheck s t (t.view.gval a) 64 with
        | .ok (pa, x) => match storeCheck s t (recordSlot s pa (recordIndex ts a t)) 64 with
          | .ok (slot, y) =>
            (appendRecord ((u.applyXEff x).applyXEff y) (s.teamOf t).ctx (t.view.gval a) pa slot (recordOf t d) (s.gridOf t)).modThread t.id
              fun z => z.keepReply z.rserial 0
          | .error _ => u
        | .error _ => u) s
      let s' := ts.foldl (fun u t => match recordPlace s ts a t, recordBlock s a t with
        | some (slot, _), some (pa, _) =>
          let c := (s.teamOf t).ctx
          ((u.touchSlice (t.id.core / 48) c ((recordVa s ts a t).getD 0) slot true).touchSlice (t.id.core / 48) c (t.view.gval a) pa true)
        | _, _ => u) s'
      let s' := ts.foldl (fun s t => formAt s (s.teamOf t).ctx (t.view.gval a)) s'
      .next (s'.advance 1)

/-! ### Service calls (R198, R199) -/

/-- The masks of the `region` that follows a word at `pc`, as a fetch delivers them; a mask on a page that is not mapped reads 0
(DESIGN CHOICE, log 84). -/
def followingMasks (s : State) (t : Thread) : Ext × Ext :=
  let rd := fun (o : Nat) => BitVec.ofNat 32 ((codeAt s (s.ctxOf t) (t.pc + BitVec.ofNat 64 o)).getD 0)
  (rd 8, rd 12)

/-- g10-g17 as a mask (R198). -/
def serviceMask : Ext := 0x3FC00

/-- The continuation of R199 as 24 doublewords. -/
def continuationOf (s : State) (t : Thread) (svc : Nat) (gm fm : Ext) : List Word :=
  let r := t.view
  let saved := (maskRegs (gm &&& ~~~serviceMask) fm).map r.get
  [t.pc + 4, BitVec.ofNat 64 (svc * 2 ^ 48 + (s.teamOf t).ctx * 2 ^ 32 + t.id.posWord), BitVec.ofNat 64 s.tstamp,
   t.rserial.setWidth 64, fm ++ gm, r.mode, 0, 0]
    ++ [r.g[10], r.g[11], r.g[12], r.g[13], r.g[14], r.g[15], r.g[16], r.g[17]]
    ++ (saved ++ List.replicate 8 0).take 8

/-- Writes a doubleword at a virtual address of a context; nothing where no page is mapped. -/
def vaWrite (s : State) (c : Context) (va v : Word) : State :=
  match ctxPa s c va with
  | some pa => writeMaster s pa 8 v.toNat
  | none => s

/-- Writes doublewords from a virtual address on, where the tables of the state `m` map them. -/
def vaWritesBy (m : State) (c : Context) (va : Word) : List Word → State → State
  | [], s => s
  | w :: rest, s => vaWritesBy m c (va + 8) rest (match ctxPa m c va with
    | some pa => writeMaster s pa 8 w.toNat
    | none => s)
def vaWrites (s : State) (c : Context) (va : Word) (l : List Word) : State := vaWritesBy s c va l s

/-- Writes doublewords from a physical address. -/
def writeDwords (s : State) (pa : Nat) : List Word → State
  | [] => s
  | w :: rest => writeDwords (writeMaster s pa 8 w.toNat) (pa + 8) rest

/-- A thread whose service call of this region has been answered takes the kept answer (R187). -/
def Thread.answered (t : Thread) : Thread :=
  match t.back with
  | some b => if t.kept.isSome && b.serial == t.rserial then { t with regs := b.regs } else t
  | none => t

/-- The address of the `k`-th slot to come of a service queue. -/
def serviceSlot (s : State) (q k : Nat) : Word :=
  let cap := s.readM (q + 8) 8
  BitVec.ofNat 64 (s.readM q 8 + 192 * ((s.readM (q + 16) 8 + k) % (if cap = 0 then 1 else cap)))

/-- The lines of a 192-byte continuation, which may lie on two pages (R199). -/
def continuationLines (s : State) (c : Context) (va : Word) : List Nat :=
  agentLines s c va 64 ++ agentLines s c (va + 64) 64 ++ agentLines s c (va + 128) 64

/-- The lines of the PTEs that translating the pages of a continuation reads (R251). -/
def continuationWalks (s : State) (c : Context) (va : Word) : List Nat := s.walkLines c va ++ s.walkLines c (va + 184)

/-- A page move has frozen the control block of a service queue or a page of one of the slots from TAIL on (R310). -/
def serviceLocked (s : State) (c : Context) (q n : Nat) : Bool :=
  writeWaits s q 64 || (List.range n).any fun k => ([0, 64, 128] : List Word).any fun o => (ctxPa s c (serviceSlot s q k + o)).any fun pa => writeWaits s pa 64

/-- Every page of a continuation is mapped. -/
def continuationMapped (s : State) (c : Context) (va : Word) : Bool := (ctxPa s c va).isSome && (ctxPa s c (va + 184)).isSome

/-- `sysc` (R198, R199): the continuation goes to the service queue and the thread's slot is held. The executing threads come to the queue in
lane order, and those that find it full (R391) take the queue-full trap, with EADDR the queue's address (DESIGN CHOICE, log 66); a queue or
slot on a page that is not mapped is an access fault (log 18). -/
def execSysc (h : Hdr) (a : Fin 32) (s : State) : Host.Outcome State Fault Refusal :=
  let ex := laneOrder (s.executing h)
  let ts := ex.filter fun t => t.kept.isNone
  match ex with
  | [] => .next (s.advance 1)
  | t0 :: _ =>
    let c := s.ctxOf t0
    let (gm, fm) := followingMasks s t0
    let first := heldBy s none (agentLines s c c.svcq 64 ++ agentLines s c (t0.pc + 8) 4 ++ agentLines s c (t0.pc + 12) 4)
    if first ≠ [] then .next (s.publishFor first)
    else if gm &&& serviceMask ≠ serviceMask then .next (s.trapIn ex .illegal)
    else match ctxPa s c c.svcq with
    | none => .next (s.trapIn ts .access)
    | some q =>
      let cap := s.readM (q + 8) 8
      let used := (s.readM (q + 16) 8 + 2 ^ 64 - s.readM (q + 24) 8) % 2 ^ 64
      let done := ts.take (cap - used)
      let full := (ts.drop (cap - used)).map fun t => (⟨t.id, .queueFull, t.pc, c.svcq, 0, false⟩ : Trap)
      let walks := heldBy s none (done.zipIdx.flatMap fun x => continuationWalks s c (serviceSlot s q x.2))
      let lost := done.zipIdx.filter fun x => !continuationMapped s c (serviceSlot s q x.2)
      if full ≠ [] && done = [] then .next (s.takeTraps full)
      else if walks ≠ [] then .next (s.publishFor walks)
      else if lost ≠ [] then
        .next (s.takeTraps ((lost.map fun x => ⟨x.1.id, .access, x.1.pc, serviceSlot s q x.2, 0, false⟩) ++ full))
      else if !done.all (quiet s) then .next (done.foldl (fun s t => releaseMark s t) s)
      else
        let holders := heldBy s none (done.zipIdx.flatMap fun x => continuationLines s c (serviceSlot s q x.2))
        if holders ≠ [] then .next (s.publishFor holders)
        else if serviceLocked s c q done.length then .next s
        else
          -- where a thread traps, the instruction is past for those alone that have performed
          let s1 := if full = [] then (s.advance 1).mapFocus fun t => if ex.any fun x => x.id = t.id then t.answered else t else s
          let s2 := done.zipIdx.foldl (fun s1 (t, k) =>
            let tail := s1.readM (q + 16) 8
            let va := serviceSlot s q k
            let s1 := vaWritesBy s c va (continuationOf s t ((t.view.gval a).toNat % 2 ^ 16) gm fm) s1
            let s1 := writeMaster s1 (q + 16) 8 ((tail + 1) % 2 ^ 64)
            s1.modThread t.id fun x => { (x.keepReply x.rserial 0) with status := .continuation va, snap := none, pc := t.pc + 4 }) s1
          match s.focusBundle with
          | none => .next s2
          | some b =>
            let gone := done.map (·.id.lane)
            let left := b.lanes.filter fun l => !gone.contains l
            if left = [] then .next (s2.dropBundle b.id)
            else
              let s3 := s2.modBundle b.id fun x => { x with lanes := left }
              if full = [] then .next s3 else .next (s3.takeTraps full)

/-! ### `trap` (R201) -/

/-- The code of `trap` and `brk`. -/
def trapCode : Exts → Word
  | .none => 0
  | .one e1 | .two e1 _ => e1.setWidth 64

def execTrap (h : Hdr) (e : Exts) (s : State) : Host.Outcome State Fault Refusal :=
  let ex := s.executing h
  match ex with
  | [] => .next (s.advance (extsWords e))
  | t :: _ =>
    .next (s.takeTraps (ex.map fun t => ⟨t.id, .softTrap, t.pc, trapCode e, 0, false⟩)
      (some (t.pc + BitVec.ofNat 64 (4 * extsWords e))))

end Sys2Proof.Machine
end

