-- ==== Sys2Proof/Machine/Rails.lean ====
section
/-! DEFINITION. The rails of the quads (R395), the islands they feed (R393), and the cycles of idleness after which a core is
gated (R396). -/

namespace Sys2Proof.Machine

/-! ### Rails (R395) -/

/-- The quad of a flat core, 0-95: twelve to a die. -/
def quadIndex (core : Nat) : Nat := 12 * (core / 48) + quadOf core

/-- A rail; at power-on nominal (DESIGN CHOICE, log 3). -/
def railOf (s : State) (quad : Nat) : Rail := (s.rails.find? fun r => r.quad == quad).getD ⟨quad, 700, 700, none, 0⟩
def setRail (s : State) (r : Rail) : State := { s with rails := r :: s.rails.filter fun x => x.quad != r.quad }

/-- A partition's vote in a quad: 2 for a lane group of its teams in nominal mode, 0 when every core of the quad is gated. -/
def partVote (s : State) (quad part : Nat) : Nat :=
  let teams := s.teams.filter fun tm => quadIndex tm.core == quad && ((s.ctx? tm.ctx).any fun c => c.part == part)
  let cores := (List.range Config.cores).filter fun c => quadIndex c == quad
  let nominal := teams.any fun tm => !(s.core tm.core).gated && tm.groups.any fun g => !(((s.core tm.core).lgs[g.1]?).any (·.near))
  if teams = [] ∨ cores.all (fun c => (s.core c).gated) then 0 else if nominal then 2 else 1

/-- The voltage that the highest vote of a quad asks for. -/
def demand (s : State) (quad : Nat) : Nat :=
  match (s.parts.map fun p => partVote s quad p.part).foldl Nat.max 0 with
  | 0 => 0
  | 1 => 420
  | _ => 700

/-- The voltage now: a falling rail that has not arrived stands above its target, a rising one below it. -/
def Rail.now (r : Rail) (t : Nat) : Nat :=
  let left := (r.due - t) / 160
  if r.mv ≤ r.target then r.target - left else Nat.min r.mv (r.target + left)

/-- A rail that moves to a voltage from where it stands, at 10 mV/µs. -/
def Rail.toward (r : Rail) (t mv : Nat) : Rail :=
  let now := r.now t
  { r with mv := now, target := mv, holdUntil := none, due := t + ((mv - now) + (now - mv)) * 160 }

/-- The highest voter has left: the rail holds for 100 µs. -/
def noteVote (s : State) (quad : Nat) : State :=
  let r := railOf s quad
  if demand s quad < r.target ∧ r.holdUntil = none then setRail s { r with holdUntil := some (s.tstamp + 160000) } else s

/-- The quad's lane groups are in near-threshold. -/
def slowQuad (s : State) (quad : Nat) : State :=
  let slow := fun (g : LaneGroup) => if g.near then g else { g with near := true, phase := 0 }
  { s with cores := updWhere (fun (c : Core) => quadIndex c.id == quad) (fun (c : Core) => { c with lgs := c.lgs.map slow }) s.cores }

/-- A voter has come: a rail below the highest vote rises, and the quad's lane groups are in near-threshold until it arrives, those of a
core that joins while it rises among them; a hold whose voter is back ends. -/
def noteRise (s : State) (quad : Nat) : State :=
  let r := railOf s quad
  let d := demand s quad
  if r.target < d then setRail (slowQuad s quad) (r.toward s.tstamp d)
  else if r.now s.tstamp < r.target then slowQuad s quad
  else if r.target = d ∧ r.holdUntil.isSome then setRail s { r with holdUntil := none }
  else s

/-- The votes of the quads of some cores, after teams have come or gone there. -/
def noteVotes (s : State) (cores : List Nat) : State := (cores.map quadIndex).eraseDups.foldl noteVote s
def noteRises (s : State) (cores : List Nat) : State := (cores.map quadIndex).eraseDups.foldl noteRise s

/-- The rail feeds an island in its mode: 0.42 V in near-threshold, 0.70 V in nominal mode (R393). -/
def fed (s : State) (core : Nat) (g : LaneGroup) : Bool := (if g.near then 420 else 700) ≤ (railOf s (quadIndex core)).now s.tstamp

/-! ### Idle cores (R396) -/

/-- A live thread that waits at `waitc`, sleeps on a ticket, is away or holds a pending continuation. -/
def Thread.rests (t : Thread) : Bool :=
  match t.status with
  | .asleep _ | .away | .continuation _ => true
  | .live => t.pending.any fun a => match a.kind with | .waitc .. => true | _ => false
  | _ => false

/-- A cycle counts for the gating of a core: those with no team on it, and those in which every live thread of it rests. -/
def Core.idleCycle (s : State) (c : Core) : Core :=
  let ts := s.threads.filter fun t => t.id.core == c.id && t.alive
  { c with vacant := if s.teams.any fun tm => tm.core == c.id then 0 else c.vacant + 1
           resting := if ts != [] && ts.all Thread.rests then c.resting + 1 else 0 }

end Sys2Proof.Machine
end

