-- ==== Sys2Proof/Machine/Matrix.lean ====
section
/-! DEFINITION. Canonical frames, block scales and quantization (R70-R92), the matrix products and the accumulator
instructions (R208-R221). -/

namespace Sys2Proof.Machine

/-! ### Element values and conversions -/

/-- E8M0: the value of a block scale (R74). -/
def scaleVal (b : Nat) : FV := if b = 0xFF then .nan false else .fin false 1 ((b : Int) - 127)

/-- RoundTo INT8 (R88-R90): integers, limited to -128 and 127; a NaN gives 0. -/
def roundInt8 (rm : Nat) (x : FV) : Nat :=
  let lim := fun (v : Int) => ((max (-128) (min v 127)) % 256).toNat
  match x with
  | .nan _ => 0
  | .inf n => lim (if n then -128 else 127)
  | .fin n m e => lim (toInt rm n m e).1

/-- The HS4 grid point n + ½ that mode `rm` takes for a finite value (R87), before saturation. -/
def hs4Point (rm : Nat) (neg : Bool) (m : Nat) (e : Int) : Int :=
  if m = 0 then (if rm = 0 || !neg then (if rm = 2 then -1 else 0) else (if rm = 3 then 0 else -1))
  else
    let d : Nat := 2 ^ (-1 - e).toNat
    let mag : Int := (m * 2 ^ (e + 1).toNat : Nat)
    let num : Int := if neg then -mag else mag
    -- v - ½ = (num - d) / 2d
    let n := (num - (d : Int)) / (2 * d : Nat)
    let r := (num - (d : Int)) - n * (2 * d : Nat)
    if r = 0 then n
    else match rm with
      | 0 => if r < d then n else if (d : Int) < r then n + 1 else if n % 2 = 0 then n else n + 1
      | 1 => if neg then (if n + 1 ≤ -1 then n + 1 else -1) else (if n ≤ -1 then 0 else n)
      | 2 => n
      | 3 => n + 1
      | _ => if r < d then n else if (d : Int) < r then n + 1 else if neg then n else n + 1

/-- RoundTo HS4 (R87-R90): the code, saturated; a NaN gives code 0. -/
def roundHs4 (rm : Nat) (x : FV) : Nat :=
  let lim := fun (v : Int) => ((max (-8) (min v 7)) % 16).toNat
  match x with
  | .nan _ => 0
  | .inf n => if n then 8 else 7
  | .fin n m e => lim (hs4Point rm n m e)

/-- `x × 2^k`. -/
def FV.shift (k : Int) : FV → FV
  | .fin n m e => .fin n m (e + k)
  | x => x

/-- A two's complement code of `w` bits. -/
def signedCode (w x : Nat) : Int := if x % 2 ^ w < 2 ^ (w - 1) then (x % 2 ^ w : Nat) else ((x % 2 ^ w : Nat) : Int) - 2 ^ w

/-- An integer as an exact value. -/
def FV.ofInt (v : Int) (e : Int) : FV := .fin (v < 0) v.natAbs e

/-- Element formats beyond R72: how a code of a storage format or kind reads (R72, R73). -/
inductive Elem where
  | fp (f : Fmt) | int8 | mxint8 | hs4 | t2
  deriving DecidableEq, Repr

def Elem.bits : Elem → Nat
  | .fp f => f.bits
  | .int8 | .mxint8 => 8
  | .hs4 => 4
  | .t2 => 2

/-- The element's own value v (R72, R73); T2 code 0b10 reads as 0. -/
def Elem.value : Elem → Nat → FV
  | .fp f, x => f.decode x
  | .int8, x => FV.ofInt (signedCode 8 x) 0
  | .mxint8, x => FV.ofInt (signedCode 8 x) (-6)
  | .hs4, x => FV.ofInt (2 * signedCode 4 x + 1) (-1)
  | .t2, x => match x % 4 with | 1 => .fin false 1 0 | 3 => .fin true 1 0 | _ => .fin false 0 0

/-- RoundTo (x, format, rm, sat) (R88). -/
def Elem.round (f : Elem) (rm : Nat) (sat : Bool) (x : FV) : Nat :=
  match f with
  | .fp f => (roundTo f rm sat x).bits
  | .int8 | .mxint8 => roundInt8 rm x
  | .hs4 => roundHs4 rm x
  | .t2 => match x with | .fin n m _ => if m = 0 then 0 else if n then 3 else 1 | _ => 0

/-- Emax of R92. -/
def Elem.emax : Elem → Int
  | .fp f => if f = .e4m3 then 8 else if f = .e3m2 then 4 else 2
  | .hs4 => 2
  | _ => 0

/-- The larger magnitude of two finite values. -/
def largerMag (a : Nat × Int) : FV → Nat × Int
  | .fin _ m e => if FV.cmp (.fin false a.1 a.2) (.fin false m e) < 0 then (m, e) else a
  | _ => a

/-- QuantizeBlock (R92): the scale and the element codes. -/
def quantizeBlock (f : Elem) (rm : Nat) (v : List FV) : Nat × List Nat :=
  if v.any fun x => x.isNan || x.isInf then (0xFF, v.map fun _ => 0)
  else
    let a := v.foldl largerMag (0, 0)
    let e : Int := if a.1 = 0 then -127 else max (-127) (min (a.2 + (Nat.log2 a.1 : Nat) - f.emax) 127)
    let k := if f = .mxint8 then 6 - e else -e
    ((e + 127).toNat, v.map fun x => f.round rm true (x.shift k))

/-! ### Kinds, headers and frames (R77-R83) -/

/-- A canonical kind: K, element width, summation block (R79). -/
structure Kind where
  elem : Elem
  K : Nat
  block : Nat
  deriving DecidableEq, Repr

/-- The kinds of R79. -/
def kindOf (code : Nat) : Option Kind :=
  match code with
  | 0x01 => some ⟨.fp .fp64, 16, 16⟩
  | 0x02 => some ⟨.fp .fp32, 32, 16⟩
  | 0x03 => some ⟨.fp .bf16, 64, 16⟩
  | 0x04 => some ⟨.fp .fp16, 64, 16⟩
  | 0x05 => some ⟨.fp .e4m3, 128, 32⟩
  | 0x06 => some ⟨.fp .e5m2, 128, 32⟩
  | 0x07 => some ⟨.fp .e2m1, 256, 32⟩
  | 0x08 => some ⟨.int8, 128, 32⟩
  | 0x09 => some ⟨.hs4, 256, 32⟩
  | 0x0A => some ⟨.t2, 128, 32⟩
  | _ => none

/-- Bytes of a frame, and its granules (R77). -/
def frameBytes : Nat := 9216
def frameGranules : Nat := 576

/-- A header's fields (R78). -/
structure FrameHdr where
  kind : Nat
  scaled : Bool
  orient : Bool
  sparse : Nat
  reserved : Bool
  deriving DecidableEq, Repr

def frameHdr (v : Nat) : FrameHdr :=
  ⟨v % 256, v / 2 ^ 8 % 2 == 1, v / 2 ^ 9 % 2 == 1, v / 2 ^ 10 % 4, v % 2 ^ 64 / 2 ^ 12 != 0⟩

/-- SPARSE that R81 allows for a kind. -/
def sparseOk (kind sparse : Nat) : Bool :=
  match sparse with
  | 0 => true
  | 1 => kind == 5 || kind == 6 || kind == 8
  | 2 => kind == 7 || kind == 9
  | _ => false

/-- A header in format violation (R83). -/
def FrameHdr.violates (h : FrameHdr) : Bool :=
  (kindOf h.kind).isNone || h.reserved || (h.scaled && [1, 2, 3, 4, 10].contains h.kind) || (!h.scaled && h.kind == 9)
    || !sparseOk h.kind h.sparse || (h.sparse != 0 && h.orient) || (h.kind == 10 && !h.orient)

/-- The kind of a frame; a violating header has none and reads as K16B. -/
def FrameHdr.k (h : FrameHdr) : Kind := (kindOf h.kind).getD ⟨.fp .bf16, 64, 16⟩

/-- How the frame's elements read: a scaled KI8 frame is MXINT8 (R80). -/
def FrameHdr.elem (h : FrameHdr) : Elem := if h.kind = 8 && h.scaled then .mxint8 else h.k.elem

/-- A frame's 9 KiB as a little-endian number: one byte, and `w` bits at a byte offset and bit. -/
def frByte (fr o : Nat) : Nat := fr / 2 ^ (8 * o) % 256
def frBits (fr o bit w : Nat) : Nat := fr / 2 ^ (8 * o + bit) % 2 ^ w

/-- Element (i, k) of an ORIENT 0 frame: its code (R80). -/
def elemA (h : FrameHdr) (fr i k : Nat) : Nat := frBits fr (1024 + 128 * i) (h.k.elem.bits * k) h.k.elem.bits
/-- Element (k, j) of an ORIENT 1 frame: its code (R80); KT2 from its planes as a T2 code (R82). -/
def elemB (h : FrameHdr) (fr k j : Nat) : Nat :=
  if h.kind = 10 then
    if frBits fr (1024 + 16 * k) j 1 = 0 then 0 else if frBits fr (1024 + 16 * k) (64 + j) 1 = 0 then 1 else 3
  else frBits fr (1024 + 8 * h.k.elem.bits * k) (h.k.elem.bits * j) h.k.elem.bits

/-- Blocks of 32 in a row of a frame: over the logical row of a compressed one (R80, R81). -/
def FrameHdr.rowBlocks (h : FrameHdr) : Nat := (if h.sparse = 0 then 1 else 2) * h.k.K / 32

/-- Where a block's scale lies: of row i, or of column j (R80). -/
def scaleOffA (h : FrameHdr) (i n : Nat) : Nat := 64 + i * h.rowBlocks + n
def scaleOffB (j n : Nat) : Nat := 64 + 64 * n + j
/-- The scale of the block of 32 that holds logical position `k`; 1.0 in an unscaled frame (R80). -/
def scaleA (h : FrameHdr) (fr i k : Nat) : FV := if h.scaled then scaleVal (frByte fr (scaleOffA h i (k / 32))) else .fin false 1 0
def scaleB (h : FrameHdr) (fr j k : Nat) : FV := if h.scaled then scaleVal (frByte fr (scaleOffB j (k / 32))) else .fin false 1 0

/-- Mask bytes of a compressed row (R81): their number and the bits each sets. -/
def maskCount (sparse : Nat) : Nat := if sparse = 1 then 32 else 64
def maskBits (sparse : Nat) : Nat := if sparse = 1 then 4 else 2
def maskOf (fr i g : Nat) : Nat := frByte fr (1024 + 128 * (32 + i) + g)
def popcount8 (m : Nat) : Nat := ((List.range 8).filter fun b => m / 2 ^ b % 2 == 1).length

/-- The logical positions that a compressed row keeps, in ascending order (R81). -/
def keptPositions (h : FrameHdr) (fr i : Nat) : List Nat :=
  (List.range (maskCount h.sparse)).flatMap fun g =>
    ((List.range 8).filter fun b => maskOf fr i g / 2 ^ b % 2 == 1).map fun b => 8 * g + b

/-- Row i as (logical position, value) terms: every k, or the kept ones (R81, R96). R81 gives a 2:8 row 256 kept elements and 64 masks of
two bits, which name 128 positions: the row's first 128 values go to these positions and the others to none (DESIGN CHOICE, log 72). -/
def rowTerms (h : FrameHdr) (fr i : Nat) : List (Nat × FV) :=
  let v := fun k => h.elem.value (elemA h fr i k)
  if h.sparse = 0 then (List.range h.k.K).map fun k => (k, v k)
  else
    let ps := keptPositions h fr i
    (ps.zip (List.range h.k.K)).map fun (p, k) => (p, v k)

/-! ### Matrix sums (R94-R96) -/

/-- The type of an accumulator (R211). -/
inductive Acc where
  | fp32 | fp64 | int32
  deriving DecidableEq, Repr

/-- The exact sum of the block's terms for column j (R94, R95). `b` gives B's value and scale at a logical row. -/
def blockSum (terms : List (FV × FV × FV × FV)) : FV :=
  match terms.map fun (xa, xb, a, b) => (FV.mul (FV.mul (FV.mul xa xb).1 a).1 b).1 with
  | [] => .fin false 0 0
  | p :: ps => ps.foldl (fun s x => (FV.add false s x).1) p

/-- One block's rounding or saturation into an accumulator element (R94). -/
def accumulate (acc : Acc) (old : Nat) (s : FV) : Nat :=
  match acc with
  | .fp32 => roundFP32 (FV.add false (Fmt.fp32.decode old) s).1
  | .fp64 => roundFP64 (FV.add false (Fmt.fp64.decode old) s).1
  | .int32 => (sat32 (signedCode 32 old + s.scaled 0) % 2 ^ 32).toNat

/-- B's element and scale at a logical row: one frame, or the two of `mmas` (R213). -/
def bAt (h : FrameHdr) (fr fr2 : Nat) (j k : Nat) : FV × FV :=
  let K := h.k.K
  let f := if k < K then fr else fr2
  (h.elem.value (elemB h f (k % K) j), scaleB h f j (k % K))

/-- MatrixOutput (i, j) (R94). -/
def matrixOutput (acc : Acc) (ha hb : FrameHdr) (fa fb fb2 i j old : Nat) : Nat :=
  let terms := rowTerms ha fa i
  let depth := (if ha.sparse = 0 then 1 else 2) * ha.k.K
  (List.range (depth / ha.k.block)).foldl (fun old n =>
    accumulate acc old (blockSum ((terms.filter fun t => t.1 / ha.k.block == n).map fun (k, a) =>
      (scaleA ha fa i k, (bAt hb fb fb2 j k).2, a, (bAt hb fb fb2 j k).1)))) old

/-! ### Tiles -/

/-- A tile row of a core; a cleared one is not listed. -/
def Core.row (c : Core) (tile row : Nat) : BitVec 2048 := assocD 0 (tile * 32 + row) c.acc

/-- A row's value at the entry of a thread's region: what a thread of the group that is in the region too has kept, else the row. -/
def State.rowAtEntry (s : State) (t : Thread) (r : Nat) : BitVec 2048 :=
  let c := s.core t.id.core
  match c.rowEntry.find? fun e => e.1 == r && s.shares t e.2.1 e.2.2.1 with
  | some e => e.2.2.2
  | none => assocD 0 r c.acc

/-- The first write of a tile row in a thread's region keeps the row's value at the region's entry (R217). -/
def State.keepRow (s : State) (t : Thread) (r : Nat) : State :=
  s.modCore t.id.core fun c =>
    if c.rowEntry.any fun e => e.1 == r && decide (e.2.1 = t.id) && e.2.2.1 == t.rserial then c
    else { c with rowEntry := c.rowEntry ++ [(r, t.id, t.rserial, s.rowAtEntry t r)] }

/-- Element j of a row of 64 FP32 or INT32 elements, and of a row with element j replaced; words of 64 bits. -/
def rowElem (v : BitVec 2048) (w j : Nat) : Nat := v.toNat / 2 ^ (w * j) % 2 ^ w
def rowOf (w : Nat) (l : List Nat) : BitVec 2048 :=
  BitVec.ofNat 2048 (l.foldr (fun x acc => x % 2 ^ w + 2 ^ w * acc) 0)
def rowSetWord (v : BitVec 2048) (w : Nat) (x : Word) : BitVec 2048 :=
  rowOf 64 ((List.range 32).map fun k => if k = w then x.toNat else rowElem v 64 k)

/-- The tile of a team's own numbering. -/
def State.tileOf (s : State) (t : Thread) (d : Nat) : Nat := (s.teamOf t).tileLo + d

/-- A tile is at or beyond the team's `.acc` count (R24). -/
def tileBad (s : State) (d : Nat) (t : Thread) : Bool := (s.teamOf t).kernel.acc ≤ d

/-- A thread's earlier tile rows are still to be written (R216). -/
def rowsPending (t : Thread) : Bool := t.results.any fun r => match r.dst with | .rows _ => true | _ => false

/-! ### Operands of a product (R208, R209, R215) -/

/-- The aperture address of an offset, with WIN 0 (R35). -/
def apertureAddr (off : Nat) : Word := BitVec.ofNat 64 (0xFFFF0000 * 2 ^ 24 + off)

/-- A thread has a scratchpad access still to perform. -/
def spPending (t : Thread) : Bool := t.pending.any fun a => match a.loc with | .sp .. => true | .dev _ => false

/-- The granules that hold `n` bytes from an offset. -/
def granules (off n : Nat) : List Nat := (List.range ((off + n + 15) / 16 - off / 16)).map fun k => off / 16 + k

/-- The three products. -/
inductive Product where
  | mma | mmas | mmat
  deriving DecidableEq, Repr

/-- The granules of the A frame that a thread reads, by offset in the frame (R215). -/
def granulesA (h : FrameHdr) (p : Product) (i : Nat) : List Nat :=
  [0] ++ granules (1024 + 128 * i) 128
    ++ (if h.scaled then granules (scaleOffA h i 0) h.rowBlocks else [])
    ++ (if p = .mmas then granules (1024 + 128 * (32 + i)) 128 else [])
/-- The granules of a B frame (R215). -/
def granulesB (h : FrameHdr) : List Nat :=
  [0] ++ granules 1024 (if h.kind = 10 then 2048 else 8192)
    ++ (if h.scaled then granules 64 (64 * (h.k.K / 32)) else [])

/-- The fields of an A operand word (R208). -/
def aFrame (w : Word) : Nat := w.toNat / 2 ^ 10 % 2 ^ 10
def aRow (w : Word) : Nat := w.toNat % 64
def aWordOk (p : Product) (w : Word) : Bool :=
  w.toNat < 2 ^ 20 && w.toNat / 2 ^ 6 % 16 == 0 && aFrame w ≤ 767 && (p != .mmas || aRow w ≤ 31)
def bWordOk (w : Word) : Bool := w.toNat < 2 ^ 20 && w.toNat % 2 ^ 10 == 0 && aFrame w ≤ 767

/-- The frame pair's accumulator, when it is accepted (R211, R213, R214). -/
def accOf (p : Product) (ha hb : FrameHdr) : Option Acc :=
  let fp8 := fun (k : Nat) => k == 5 || k == 6
  let fp4 := fun (k : Nat) => k == 7 || k == 9
  let ki8 := if ha.scaled || hb.scaled then Acc.fp32 else .int32
  let same := ha.kind == hb.kind
  match p with
  | .mma =>
    if ha.orient || ha.sparse != 0 || !hb.orient || hb.sparse != 0 then none
    else if ha.kind = 1 then (if same then some .fp64 else none)
    else if ha.kind = 8 then (if same then some ki8 else none)
    else if 2 ≤ ha.kind && ha.kind ≤ 4 then (if same then some .fp32 else none)
    else if (fp8 ha.kind && fp8 hb.kind) || (fp4 ha.kind && fp4 hb.kind) then some .fp32 else none
  | .mmas =>
    if ha.orient || ha.sparse = 0 || !hb.orient || hb.sparse != 0 then none
    else if ha.kind = 8 then (if same then some ki8 else none)
    else if (fp8 ha.kind && fp8 hb.kind) || (fp4 ha.kind && fp4 hb.kind) then some .fp32 else none
  | .mmat =>
    if ha.kind = 8 && !ha.orient && !ha.scaled && ha.sparse = 0 && hb.kind = 10 then some .int32 else none

/-- A mask that the operand of a `mmas` reads, or a KT2 element, is in violation (R83). -/
def dataViolatesA (h : FrameHdr) (fr i : Nat) : Bool :=
  h.sparse != 0 && (List.range (maskCount h.sparse)).any fun g => popcount8 (maskOf fr i g) != maskBits h.sparse
def dataViolatesB (h : FrameHdr) (fr : Nat) : Bool :=
  h.kind == 10 && (List.range 128).any fun k => (List.range 64).any fun j =>
    frBits fr (1024 + 16 * k) j 1 == 0 && frBits fr (1024 + 16 * k) (64 + j) 1 == 1

/-- What the step that performs a product finds. -/
inductive ProductRes where
  | wait
  | trap (l : List Trap)
  /-- each thread's rows: tile, row, value -/
  | rows (l : List (Thread × List (Nat × Nat × BitVec 2048)))
  deriving DecidableEq, Repr

/-- The check of the operand words (step 1 of R215): the offending value, if any. Within a step of R215 the order is the model's: the A word
before the B word here, and in step 6 differing B frames before the pair that is not accepted (DESIGN CHOICE, log 90). -/
def operandWords (p : Product) (a b : Fin 32) (ex : List Thread) (t : Thread) : Option Word :=
  let av := t.view.gval a
  let bv := t.view.gval b
  if !aWordOk p av then some av
  else if !bWordOk bv then some bv
  else if ex.any fun u => aFrame (u.view.gval a) != aFrame av then some av
  else if ex.any fun u => u.view.gval b != bv then some bv
  else none

/-- The check of the frames' places (step 2 of R215). -/
def framesPlaced (s : State) (p : Product) (a b : Fin 32) (t : Thread) : Option Word :=
  let av := t.view.gval a
  let bv := t.view.gval b
  let alloc := (s.teamOf t).kernel.srows * 1024
  if alloc < aFrame av * 1024 + frameBytes then some av
  else if alloc < aFrame bv * 1024 + (if p = .mmas then 2 else 1) * frameBytes then some bv
  else none

/-- What steps 1 and 2 find in a thread: the offending value, if any. -/
def productWords (s : State) (p : Product) (a b : Fin 32) (ex : List Thread) (t : Thread) : Option Word :=
  (operandWords p a b ex t).or (framesPlaced s p a b t)

/-- A core as the product of the bundle in issue reads it, with the granules that it has fetched (R215, R255). -/
def State.operandCore (s : State) (core : Nat) : Core := (s.core core).withLatch ((s.focusBundle.map (·.latch)).getD [])

/-- The operand granules of a product that a thread reads, by their numbers in the core's store (R215). -/
def operandGranules (s : State) (p : Product) (a b : Fin 32) (t : Thread) : List Nat :=
  let c := s.operandCore t.id.core
  let lo := (s.teamOf t).rowLo * 1024
  let ao := lo + aFrame (t.view.gval a) * 1024
  let bo := lo + aFrame (t.view.gval b) * 1024
  let hd := fun (o : Nat) => frameHdr (Memory.readLE c.sp o 8)
  (granulesA (hd ao) p (aRow (t.view.gval a))).map (ao / 16 + ·) ++ (granulesB (hd bo)).map (bo / 16 + ·)
    ++ (if p = .mmas then (granulesB (hd (bo + frameBytes))).map ((bo + frameBytes) / 16 + ·) else [])

/-- The row or rows of one thread's result (R211, R212). -/
def productRow (s : State) (acc : Acc) (d : Nat) (ha hb : FrameHdr) (fa fb fb2 i : Nat) (t : Thread) :
    List (Nat × Nat × BitVec 2048) :=
  let c := s.core t.id.core
  let tile := s.tileOf t d
  let row := t.id.pos
  let out := fun (w : Nat) (tile j k : Nat) => matrixOutput acc ha hb fa fb fb2 i j (rowElem (c.row tile row) w k)
  match acc with
  | .fp64 => [(tile, row, rowOf 64 ((List.range 32).map fun k => out 64 tile k k)),
              (tile + 1, row, rowOf 64 ((List.range 32).map fun k => out 64 (tile + 1) (32 + k) k))]
  | _ => [(tile, row, rowOf 32 ((List.range 64).map fun k => out 32 tile k k))]

/-- A product of a bundle (R212-R215), in the order of the checks. With both frames in format violation EADDR names the A frame's header
(DESIGN CHOICE, log 90). -/
def product (s : State) (p : Product) (d a b : Fin 32) (ex : List Thread) : ProductRes :=
  match ex with
  | [] => .rows []
  | t0 :: _ =>
    let mk := fun (c : Cause) (info : Nat) (t : Thread) (ea : Word) => (⟨t.id, c, t.pc, ea, info, false⟩ : Trap)
    let words := ex.filterMap fun t => (operandWords p a b ex t).map (mk .operand 0 t)
    let places := ex.filterMap fun t => (framesPlaced s p a b t).map (mk .operand 0 t)
    if words ≠ [] then .trap words
    else if places ≠ [] then .trap places
    else if ex.any fun t => rowsPending t || spPending t then .wait
    else
      let c := s.operandCore t0.id.core
      let lo := (s.teamOf t0).rowLo * 1024
      let ao := aFrame (t0.view.gval a) * 1024
      let bo := aFrame (t0.view.gval b) * 1024
      let rd := fun (o n : Nat) => Memory.readLE c.sp (lo + o) n
      let ha := frameHdr (rd ao 8)
      let hb := frameHdr (rd bo 8)
      let hb2 := frameHdr (rd (bo + frameBytes) 8)
      let reads := operandGranules s p a b
      if ex.any fun t => (reads t).any fun g => c.granule g == .empty || c.heldByOther t.id (16 * g) 16 then .wait
      else
        let failed := ex.filterMap fun t =>
          match ((reads t).filter fun g => c.granule g == .failed) with
          | [] => none
          | g :: gs => some (mk .failedGranule (accInfo 16 1) t (apertureAddr (16 * gs.foldl Nat.min g - lo)))
        if failed ≠ [] then .trap failed
        else
          let fa := rd ao frameBytes
          let fb := rd bo frameBytes
          let fb2 := if p = .mmas then rd (bo + frameBytes) frameBytes else 0
          let badB := if hb.violates || dataViolatesB hb fb then some bo
            else if p = .mmas && (hb2.violates || dataViolatesB hb2 fb2) then some (bo + frameBytes) else none
          let format := ex.filterMap fun t =>
            if ha.violates || (p = .mmas && dataViolatesA ha fa (aRow (t.view.gval a))) then some (mk .format 0 t (apertureAddr ao))
            else badB.map fun o => mk .format 0 t (apertureAddr o)
          if format ≠ [] then .trap format
          else if p = .mmas && (hb.kind != hb2.kind || hb.scaled != hb2.scaled) then
            .trap (ex.map fun t => mk .operand 0 t (t.view.gval b))
          else match accOf p ha hb with
            | none => .trap (ex.map fun t => mk .operand 0 t (t.view.gval a))
            | some acc =>
              if (p = .mmas && accOf p ha hb2 != some acc)
                  || (acc == .fp64 && (d.val % 2 == 1 || tileBad s (d.val + 1) t0)) then
                .trap (ex.map fun t => mk .operand 0 t (t.view.gval a))
              else .rows (ex.map fun t => (t, productRow s acc d.val ha hb fa fb fb2 (aRow (t.view.gval a)) t))

/-- The product that an instruction is, with its operands. -/
def productOf : Instr → Option (Product × Hdr × Fin 32 × Fin 32)
  | .mma h _ a b => some (.mma, h, a, b)
  | .mmas h _ a b => some (.mmas, h, a, b)
  | .mmat h _ a b => some (.mmat, h, a, b)
  | _ => none

/-- The operand granules that the product of the bundle with the focus has still to fetch (step 3 of R215); none before steps 1 and 2 are
passed. -/
def unfetched (s : State) (i : Instr) : List Nat :=
  match productOf i with
  | none => []
  | some (p, h, a, b) =>
    let ex := s.executing h
    let have_ := (s.focusBundle.map (·.latch)).getD []
    if ex.any fun t => (productWords s p a b ex t).isSome then []
    else ((ex.flatMap fun t => operandGranules s p a b t).eraseDups).filter fun g => !have_.any fun e => e.1 == g

/-- The matrix unit fetches operand granules of a bundle's product, each with its state in one step and in any order (R215, R255): of those
that are not EMPTY and that no other thread holds, one at least and whichever others, as a free choice names them. The fetch follows every earlier
scratchpad access of the bundle's threads. -/
def fetchOperands (s : State) (b : Bundle) (i : Instr) : State :=
  let s' := { s with focus := some b.id }
  let ts := s'.focusThreads
  let c := s.core b.core
  let can := (unfetched s' i).filter fun g => c.granule g != .empty && !c.held.any fun e => e.1 / 16 == g
  if ts.any spPending then s
  else
    let now := (can.zipIdx.filter fun x => x.2 == s.choose can.length || Config.freeBit (s.fresh + 1 + x.2)).map fun x =>
      (x.1, Memory.readLE c.sp (16 * x.1) 16, c.granule x.1)
    if now = [] then s
    else { s.modBundle b.id (fun b => { b with latch := b.latch ++ now }) with fresh := s.fresh + 4096 }

/-- Keeps the region-entry values of rows that a product is about to write (R217), and holds the rows as results (R55). -/
def oweRows (s : State) (t : Thread) (rows : List (Nat × Nat × BitVec 2048)) : State :=
  let l := rows.map fun (tile, row, v) => (tile, tile * 32 + row, v)
  let s := l.foldl (fun s e => s.keepRow t e.2.1) s
  s.modThread t.id fun x => x.owe ⟨.rows l, 0, 0⟩

/-- A matrix product (R210-R216). -/
def execProduct (p : Product) (h : Hdr) (d a b : Fin 32) (s : State) : State :=
  let ex := s.executing h
  let bad := ex.filter (tileBad s d.val)
  if bad ≠ [] then s.trapIn bad .illegal
  else match product s p d a b ex with
    | .wait => s
    | .trap l => s.takeTraps l
    | .rows l => (l.foldl (fun s x => oweRows s x.1 x.2) s).advance 1

def execMma (h : Hdr) (d a b : Fin 32) (s : State) : Host.Outcome State Fault Refusal := .next (execProduct .mma h d a b s)
def execMmas (h : Hdr) (d a b : Fin 32) (s : State) : Host.Outcome State Fault Refusal := .next (execProduct .mmas h d a b s)
def execMmat (h : Hdr) (d a b : Fin 32) (s : State) : Host.Outcome State Fault Refusal := .next (execProduct .mmat h d a b s)

/-! ### Accumulator instructions (R218-R221) -/

/-- An accumulator instruction: illegal for a tile beyond the count; it waits for the rows of the executing threads, and not for those that
other threads of the bundle are owed (R216; DESIGN CHOICE, log 95). -/
def accInstr (s : State) (h : Hdr) (tile : Nat) (act : State → Thread → State) : State :=
  let ex := s.executing h
  let bad := ex.filter (tileBad s tile)
  if bad ≠ [] then s.trapIn bad .illegal
  else if ex.any rowsPending then s
  else (ex.foldl act s).advance 1

/-- Writes a row of a team's tile at once. -/
def State.putTile (s : State) (t : Thread) (d row : Nat) (v : BitVec 2048) : State :=
  let r := s.tileOf t d * 32 + row
  (s.keepRow t r).modCore t.id.core fun c => { c with acc := assocSet 0 r v c.acc }

def execAccz (h : Hdr) (d : Fin 32) (s : State) : Host.Outcome State Fault Refusal :=
  .next (accInstr s h d.val fun s t => s.putTile t d.val t.id.pos 0)

/-- Tile index (R208): row and word. -/
def idxRow (w : Word) : Nat := w.toNat / 32 % 32
def idxWord (w : Word) : Nat := w.toNat % 32

def execAccrd (h : Hdr) (d a b : Fin 32) (s : State) : Host.Outcome State Fault Refusal :=
  .next (accInstr s h a.val fun s t =>
    let i := t.view.gval b
    let v := (s.core t.id.core).row (s.tileOf t a.val) (idxRow i)
    s.modThread t.id fun x => x.putG d (BitVec.ofNat 64 (rowElem v 64 (idxWord i))) 0)

/-- `accwr` (R219). Of two threads that write one word of a row, the later in the bundle's thread order writes last (DESIGN CHOICE,
log 89). -/
def execAccwr (h : Hdr) (d a b : Fin 32) (s : State) : Host.Outcome State Fault Refusal :=
  .next (accInstr s h d.val fun s t =>
    let i := t.view.gval b
    let v := (s.core t.id.core).row (s.tileOf t d.val) (idxRow i)
    s.putTile t d.val (idxRow i) (rowSetWord v (idxWord i) (t.view.gval a)))

/-- The conversion control word (R220). -/
structure CvtCtl where
  srci : Bool
  sat : Bool
  rnd : Nat
  scaled : Bool
  orient : Bool
  kind : Nat
  frame : Nat
  qpos : Nat
  rowb : Nat
  reserved : Bool
  deriving DecidableEq, Repr

def cvtCtl (w : Word) : CvtCtl :=
  let v := w.toNat
  { srci := v / 2 ^ 31 % 2 == 1, sat := v / 2 ^ 30 % 2 == 1, rnd := v / 2 ^ 27 % 8, scaled := v / 2 ^ 26 % 2 == 1
    orient := v / 2 ^ 25 % 2 == 1, kind := v / 2 ^ 20 % 16, frame := v / 2 ^ 10 % 2 ^ 10, qpos := v / 2 ^ 8 % 4, rowb := v % 64
    reserved := v / 2 ^ 32 != 0 || v / 2 ^ 24 % 2 == 1 || v / 2 ^ 6 % 4 != 0 }

/-- The combinations of R221 for a target row. -/
def CvtCtl.ok (c : CvtCtl) (alloc t : Nat) : Bool :=
  let K := ((kindOf c.kind).map (·.K)).getD 0
  !c.reserved && c.rnd ≤ 4 && 2 ≤ c.kind && c.kind ≤ 9 && c.frame * 1024 + frameBytes ≤ alloc &&
    (if c.orient then c.kind ≤ 8 && t < K && c.qpos == 0 && !c.scaled
     else 3 ≤ c.kind && t ≤ 63 && 64 * (c.qpos + 1) ≤ K && (!c.scaled || [5, 7, 8, 9].contains c.kind) && (c.kind != 9 || c.scaled))

/-- Bits of `w`-bit codes in ascending order. -/
def packCodes (w : Nat) (l : List Nat) : Nat := l.foldr (fun x acc => x % 2 ^ w + 2 ^ w * acc) 0

/-- A scratchpad write of an instruction by a thread: bytes held while its gate is closed, each granule FULL (R221, R255). -/
def Core.fill (c : Core) (t : Thread) (off n v : Nat) : Core :=
  let opened := t.gateOpen t.rserial
  let c := c.spWrite off n v (if opened then none else some (t.id, t.rserial))
  (granules off n).foldl (fun c g => if opened then c.granWrite g .full else c.setGranule g .full) c

/-- The values of a tile row (R221). -/
def rowValues (srci : Bool) (v : BitVec 2048) : List FV :=
  (List.range 64).map fun j => if srci then FV.ofInt (signedCode 32 (rowElem v 32 j)) 0 else Fmt.fp32.decode (rowElem v 32 j)

/-- `acccvt` in one thread (R221). -/
def cvtThread (s : State) (a : Nat) (c : CvtCtl) (t : Thread) : State :=
  let row := c.rowb + t.id.pos
  let xs := rowValues c.srci ((s.core t.id.core).row (s.tileOf t a) t.id.pos)
  let el := (frameHdr c.kind).elem
  let mx : Elem := if c.kind = 8 then .mxint8 else el
  let w := el.bits
  let q := [quantizeBlock mx c.rnd (xs.take 32), quantizeBlock mx c.rnd (xs.drop 32)]
  let codes := if c.scaled then q.flatMap (·.2) else xs.map (el.round c.rnd c.sat)
  let base := (s.teamOf t).rowLo * 1024 + c.frame * 1024
  let K := ((kindOf c.kind).map (·.K)).getD 0
  let off := if c.orient then 1024 + 8 * w * row else 1024 + 128 * row + 8 * w * c.qpos
  let hdr := c.kind + (if c.scaled then 256 else 0) + (if c.orient then 512 else 0)
  s.modCore t.id.core fun k =>
    let k := k.fill t (base + off) (8 * w) (packCodes w codes)
    let k := if c.scaled then k.fill t (base + 64 + row * (K / 32) + 2 * c.qpos) 2 (packCodes 8 (q.map (·.1))) else k
    (k.fill t (base + 16) 48 0).fill t base 16 hdr

/-- `acccvt` (R220, R221). -/
def execAcccvt (h : Hdr) (a b : Fin 32) (s : State) : Host.Outcome State Fault Refusal :=
  let ex := s.executing h
  let ctl := fun (t : Thread) => t.view.gval b
  let bad := ex.filter fun t => (ex.any fun u => ctl u != ctl t)
    || !(cvtCtl (ctl t)).ok ((s.teamOf t).kernel.srows * 1024) ((cvtCtl (ctl t)).rowb + t.id.pos)
  if !(ex.any (tileBad s a.val)) && bad ≠ [] then
    .next (s.takeTraps (bad.map fun t => ⟨t.id, .operand, t.pc, ctl t, 0, false⟩))
  else if !(ex.any (tileBad s a.val)) && ex.any spPending then .next s
  else .next (accInstr s h a.val fun s t => cvtThread s a.val (cvtCtl (ctl t)) t)

end Sys2Proof.Machine
end

