-- ==== Sys2Proof/Machine/Engine.lean ====
section
/-! DEFINITION. The tile engine (R222-R233, R256, R257) and the stream engine (R234-R238). -/

namespace Sys2Proof.Machine

/-! ### Storage formats (R70) -/

/-- A storage format: element, whether blocked, default kind. -/
structure Storage where
  elem : Elem
  blocked : Bool
  kind : Nat
  deriving DecidableEq, Repr

def storageOf (code : Nat) : Storage :=
  match code with
  | 0 => ⟨.fp .fp64, false, 1⟩
  | 1 => ⟨.fp .fp32, false, 2⟩
  | 2 => ⟨.fp .bf16, false, 3⟩
  | 3 => ⟨.fp .fp16, false, 4⟩
  | 4 => ⟨.fp .e4m3, false, 5⟩
  | 5 => ⟨.fp .e5m2, false, 6⟩
  | 6 => ⟨.fp .e3m2, false, 6⟩
  | 7 => ⟨.fp .e2m3, false, 5⟩
  | 8 => ⟨.fp .e2m1, false, 7⟩
  | 9 => ⟨.fp .e4m3, true, 5⟩
  | 10 => ⟨.fp .e3m2, true, 6⟩
  | 11 => ⟨.fp .e2m1, true, 7⟩
  | 12 => ⟨.mxint8, true, 8⟩
  | 13 => ⟨.int8, false, 8⟩
  | 14 => ⟨.hs4, true, 9⟩
  | _ => ⟨.t2, false, 10⟩

/-! ### Tile descriptors (R223-R225) -/

/-- The fields of a tile descriptor. -/
structure TileDesc where
  ctl : Nat
  base : Word
  stride : Nat
  rows : Nat
  cols : Nat
  frame : Nat
  cmask : Nat
  scales : Word
  meta' : Word
  doneAt : Word
  deriving DecidableEq, Repr

def tileDesc (d : List Word) : TileDesc :=
  let w := fun k => (d[k]?).getD 0
  { ctl := (w 0).toNat, base := w 1, stride := (w 2).toNat, rows := (w 3).toNat % 2 ^ 32, cols := (w 3).toNat / 2 ^ 32
    frame := (w 4).toNat % 2 ^ 32, cmask := (w 4).toNat / 2 ^ 32, scales := w 5, meta' := w 6, doneAt := w 7 }

namespace TileDesc

def xop (d : TileDesc) : Nat := d.ctl % 16
def fmt (d : TileDesc) : Nat := d.ctl / 2 ^ 8 % 16
def orient (d : TileDesc) : Bool := d.ctl / 2 ^ 15 % 2 == 1
def widen (d : TileDesc) : Bool := d.ctl / 2 ^ 16 % 2 == 1
def sparse (d : TileDesc) : Nat := d.ctl / 2 ^ 17 % 4
def rnd (d : TileDesc) : Nat := d.ctl / 2 ^ 19 % 8
def sat (d : TileDesc) : Bool := d.ctl / 2 ^ 22 % 2 == 1
def cwen (d : TileDesc) : Bool := d.ctl / 2 ^ 23 % 2 == 1
def storage (d : TileDesc) : Storage := storageOf d.fmt
/-- The kind an IN or MC writes (R70, R86, R225). -/
def target (d : TileDesc) : Nat := if d.widen then 3 else d.storage.kind
def targetK (d : TileDesc) : Nat := ((kindOf d.target).map (·.K)).getD 0
/-- Bytes of one storage row. -/
def rowBytes (d : TileDesc) : Nat := (d.cols * d.storage.elem.bits + 7) / 8

/-- The CTL rules of R224. -/
def ctlOk (d : TileDesc) : Bool :=
  let isIn := d.xop = 0 || d.xop = 2
  d.ctl / 2 ^ 24 == 0 && d.ctl / 2 ^ 12 % 8 == 0 && d.ctl / 2 ^ 4 % 16 == 0 && d.xop ≤ 3
    && (d.xop == 1 || (!d.sat && d.rnd == 0)) && d.rnd ≤ 4
    && (isIn || (d.sparse == 0 && !d.widen)) && d.sparse ≤ 2
    && (d.xop != 3 || (!d.orient && d.fmt == 0 && d.base.toNat / 2 ^ 20 == 0))

/-- The frame at an offset lies in the allocation (R225). -/
def frameOk (alloc off : Nat) : Bool := off % 1024 == 0 && off + frameBytes ≤ alloc

/-- The rules for IN and MC of R225. -/
def inOk (d : TileDesc) : Bool :=
  let K := d.targetK
  d.rows ≤ 64 && 1 ≤ d.rows && 1 ≤ d.cols && d.cols ≤ K && d.cols * d.storage.elem.bits % 8 == 0
    && (!d.widen || (4 ≤ d.fmt && d.sparse == 0))
    && (d.fmt != 15 || d.widen || d.orient)
    && (d.sparse == 0 || (!d.orient && d.rows ≤ 32 && sparseOk d.storage.kind d.sparse && d.cols % (if d.sparse = 1 then 4 else 2) == 0))
    && (d.fmt != 14 || d.widen || d.cols == K)

/-- The rules for OUT of R225. -/
def outOk (d : TileDesc) : Bool :=
  1 ≤ d.rows && d.rows ≤ 64 && 1 ≤ d.cols && (!d.storage.blocked || d.cols % 32 == 0)

/-- The checks of R225, for a team's allocation, cluster rectangle and own position. -/
def ok (d : TileDesc) (alloc ca cb own : Nat) : Bool :=
  let dst := d.base.toNat % 2 ^ 20
  let multi := d.xop = 2 || d.xop = 3
  d.ctlOk && frameOk alloc d.frame
    && (d.xop != 3 || (frameOk alloc dst &&
          !(d.cmask / 2 ^ own % 2 == 1 && d.frame < dst + frameBytes && dst < d.frame + frameBytes)))
    && (d.xop = 1 || d.xop = 3 || d.inOk) && (d.xop != 1 || d.outOk)
    && (d.xop = 3 || d.rows ≤ 1 || d.rowBytes ≤ d.stride)
    && (if multi then d.cmask != 0 && d.cmask / 2 ^ (ca * cb) == 0 else d.cmask == 0)
    && canonical d.base && canonical d.scales && canonical d.meta' && canonical d.doneAt
    && (!d.cwen || d.doneAt.toNat % 8 == 0)

end TileDesc

/-! ### `txf` and `txw` (R222, R233) -/

/-- A descriptor offset (R208); the 64 bytes it names, as eight words. -/
def descOffOk (w : Word) : Bool := w.toNat < 2 ^ 20 && w.toNat % 64 == 0
def readDesc (s : State) (t : Thread) (off : Nat) : List Word :=
  (List.range 8).map fun k => Memory.dword (s.core t.id.core).sp ((s.teamOf t).rowLo * 1024 + off) k

/-- The copy waits for the thread's own scratchpad writes and for bytes that others hold (R222). -/
def descWaits (s : State) (t : Thread) (off : Nat) : Bool :=
  spPending t || (s.core t.id.core).heldByOther t.id ((s.teamOf t).rowLo * 1024 + off) 64

/-- The faults of a descriptor offset (R208, R209). -/
def descOffTrap (s : State) (t : Thread) (w : Word) : Option Trap :=
  if !descOffOk w then some ⟨t.id, .operand, t.pc, w, 0, false⟩
  else if (s.teamOf t).kernel.srows * 1024 < w.toNat + 64 then some ⟨t.id, .descriptor, t.pc, apertureAddr w.toNat, 0, false⟩
  else none

/-- The cluster position of a team (R223). -/
def Team.position (tm : Team) : Nat := tm.cy * tm.kernel.ca + tm.cx

def descTrap (s : State) (t : Thread) (w : Word) : Option Trap :=
  let tm := s.teamOf t
  if (tileDesc (readDesc s t w.toNat)).ok (tm.kernel.srows * 1024) tm.kernel.ca tm.kernel.cb tm.position then none
  else some ⟨t.id, .descriptor, t.pc, apertureAddr w.toNat, 0, false⟩

/-- The commands of a team that have not completed (R222). -/
def pendingCmds (s : State) (team : Nat) : Nat := (s.cmds.filter fun c => c.team == team).length

/-- One thread issues its command: ECOUNT rises (R222). -/
def issueCmd (s : State) (t : Thread) (w : Word) : State :=
  let (k, s) := s.newId
  let s := s.modTeam t.team fun tm => { tm with ecount := tm.ecount + 1 }
  { s with cmds := s.cmds ++ [{ id := k, team := t.team, thread := t.id, serial := t.rserial, descAddr := apertureAddr w.toNat
                                desc := readDesc s t w.toNat, phase := .issued, marker := none, targets := [], got := [], sectors := []
                                status := 0, fmask := 0, quiet := false }] }

/-- The thread's region has issued its command, before a restart (R239). -/
def commanded (s : State) (t : Thread) : Bool := t.kept.isSome || s.cmds.any fun c => decide (c.thread = t.id ∧ c.serial = t.rserial)

/-- `txf` (R209, R222, R239): each thread's descriptor is copied once it may be read; the threads with an excluded offset or descriptor fault
together. -/
def execTxf (h : Hdr) (a : Fin 32) (s : State) : Host.Outcome State Fault Refusal :=
  let ts := laneOrder ((s.executing h).filter fun t => !commanded s t)
  let w := fun (t : Thread) => t.view.gval a
  if ts.any fun t => (descOffTrap s t (w t)).isNone && descWaits s t (w t).toNat then .next s
  else
    let bad := ts.filterMap fun t => (descOffTrap s t (w t)).or (descTrap s t (w t))
    if bad ≠ [] then .next (s.takeTraps bad)
    else if ts.any fun t => Config.teamCommands < pendingCmds s t.team + ts.length then .next s
    else .next ((ts.foldl (fun s t => issueCmd s t (w t)) s).advance 1)

/-- The count that a thread of a `txw` waits for (R233). -/
def txwCount (t : Thread) : RegOrExt → Nat
  | .reg a => (t.view.gval a).toNat
  | .ext e => e.toNat

/-- `txw` (R233): the bundle waits until ECOUNT is at most every executing thread's count. -/
def execTxw (h : Hdr) (m : RegOrExt) (s : State) : Host.Outcome State Fault Refusal :=
  let s' := s.advance (regOrExtWords m)
  match s.focusBundle, s.executing h with
  | some b, t :: ts =>
    let n := ts.foldl (fun n t => Nat.min n (txwCount t m)) (txwCount t m)
    if (s.teamOf t).ecount ≤ n then .next s' else .next (s'.modBundle b.id fun b => { b with hold := .txw n })
  | _, _ => .next s'

/-- The team of a bundle. -/
def teamOfBundle (s : State) (b : Bundle) : Option Team := (s.threads.find? fun t => b.has t.id).map s.teamOf

/-- TXW_COMPLETION: a waiting `txw` completes (R257). -/
def execTxwCompletion (bundle : Nat) (s : State) : Host.Outcome State Fault Refusal :=
  match s.bundle? bundle with
  | some b => match b.hold, teamOfBundle s b with
    | .txw n, some tm => if tm.ecount ≤ n then .next (s.modBundle bundle fun b => { b with hold := .none }) else .next s
    | _, _ => .next s
  | none => .next s

/-! ### Accesses of the engines (R232, R256) -/

/-- A run of bytes within one page and one access. -/
inductive EngRes where
  | ok (pa : Nat) (eff : XEff)
  | fault (c : Cause)
  deriving DecidableEq, Repr

/-- An access of a team's engine at a virtual address: canonical, translated, permitted and not watched (R232, R238). -/
def engineCheck (s : State) (tm : Team) (kind : TlbKind) (va : Word) (n : Nat) (write : Bool) : EngRes :=
  let c := (s.ctx? tm.ctx).getD Context.reset
  if !canonical va then .fault .access
  else match s.xlate kind tm.core none c tm.kernel.hlevel va (if write then .write else .read) (s.stalePick 0) with
    | .fault k => .fault k
    | .ok pa e => if State.watched c pa n (if write then .write else .read) then .fault .watchpoint else .ok pa e

/-- The virtual address that a translation gives a physical one for. -/
def XEff.vaOf (e : XEff) (pa : Nat) : Word := BitVec.ofNat 64 (e.entry.vbase + (pa - e.entry.pbase))

/-- What an engine's access leaves behind: its translation, watch records of other contexts (R349), and what it moves at the slice. -/
def engineEff (s : State) (tm : Team) (e : XEff) (pa n : Nat) (write : Bool) : State :=
  let src := if e.kind = .stream then 2 else 1
  let s := { s.applyXEff e with fresh := s.fresh + 1 }
  (s.noteWatch (some tm.ctx) thisModule src (tm.core / 48 * 0x10000 + tm.core % 48 * 0x400) pa n (if write then .write else .read)
    (if write then 6 else 5)).touchSlice (tm.core / 48) tm.ctx (e.vaOf pa) pa write

/-- The bytes that a bit mask over a 32-byte sector touches. -/
def maskedBytes (mask : Nat) : List Nat := (List.range 32).filter fun o => mask / 2 ^ (8 * o) % 256 != 0

/-- The check and the traces of a write of the bytes of a sector that a bit mask touches: a watchpoint is hit by those alone (R348). -/
def engineCheckMask (s : State) (tm : Team) (va : Word) (mask : Nat) : EngRes :=
  let c := (s.ctx? tm.ctx).getD Context.reset
  if !canonical va then .fault .access
  else match s.xlate .tile tm.core none c tm.kernel.hlevel va .write (s.stalePick 0) with
    | .fault k => .fault k
    | .ok pa e => if (maskedBytes mask).any fun o => State.watched c (pa + o) 1 .write then .fault .watchpoint else .ok pa e
def engineEffMask (s : State) (tm : Team) (e : XEff) (pa mask : Nat) : State :=
  let s := { s.applyXEff e with fresh := s.fresh + 1 }
  let hit := s.ctxs.filter fun c => c.id != tm.ctx && (maskedBytes mask).any fun o => State.watched c (pa + o) 1 .write
  let s := hit.foldl (fun s c => s.report fun k =>
    { id := k, ctx := c.id, kind := 4, cause := .watchpoint, nr := false, epc := 0, eaddr := BitVec.ofNat 64 pa
      who := whoWord thisModule 1 (tm.core / 48 * 0x10000 + tm.core % 48 * 0x400), rentry := 0, serial := 0, info := accInfo 32 6
      stamp := s.tstamp, waiter := .nobody }) s
  s.touchSlice (tm.core / 48) tm.ctx (e.vaOf pa) pa true

/-- What an engine's read of several runs gives. -/
inductive EngRead where
  | ok (bytes : Nat) (s : State)
  /-- cores whose Publish it waits for -/
  | holders (l : List Nat)
  | fault (c : Cause) (va : Word)
  deriving DecidableEq, Repr

/-- Narrow holders of the lines of an engine's access: its PTEs and its bytes (R251). -/
def engineHolders (s : State) (tm : Team) (va : Word) (data : List Nat) : List Nat :=
  heldBy s none ((if canonical va then s.walkLines ((s.ctx? tm.ctx).getD Context.reset) va else []) ++ data)

/-- Reads the `n` bytes at a virtual address, which lie in one 32-byte sector. -/
def engineRead (s : State) (tm : Team) (kind : TlbKind) (va : Word) (n : Nat) : EngRead :=
  let walk := engineHolders s tm va []
  if walk ≠ [] then .holders walk
  else match engineCheck s tm kind va n false with
    | .fault c => .fault c va
    | .ok pa e =>
      let data := heldBy s none [lineOf pa]
      if data ≠ [] || s.xWaits e then .holders data else .ok (s.readM pa n) (engineEff s tm e pa n false)

/-- A run of bytes in pieces of one sector each; fuel is the number of sectors. -/
def pieces : (fuel : Nat) → Word → Nat → List (Word × Nat)
  | 0, _, _ => []
  | fuel + 1, va, n =>
    let here := Nat.min n (32 - va.toNat % 32)
    if n = 0 then [] else (va, here) :: pieces fuel (va + BitVec.ofNat 64 here) (n - here)

/-- Reads several pieces in turn, from number `k` on; one that has been read before is not read again. -/
def engineReads (s : State) (tm : Team) (kind : TlbKind) (got : List (Nat × Nat × Gran)) : Nat → List (Word × Nat) → List Nat →
    EngRead × List Nat
  | _, [], acc => (.ok 0 s, acc.reverse)
  | k, (va, n) :: rest, acc =>
    match got.find? fun e => e.1 == k with
    | some e => engineReads s tm kind got (k + 1) rest (e.2.1 :: acc)
    | none => match engineRead s tm kind va n with
      | .ok v s => engineReads s tm kind got (k + 1) rest (v :: acc)
      | r => (r, acc.reverse)

/-- The values of runs from the values of their pieces. -/
def joinPieces : List (Word × Nat) → List Nat → Nat
  | (_, n) :: ps, v :: vs => v % 2 ^ (8 * n) + 2 ^ (8 * n) * joinPieces ps vs
  | _, _ => 0
def joinRuns : List (List (Word × Nat)) → List Nat → List Nat
  | [], _ => []
  | r :: rest, vs => joinPieces r (vs.take r.length) :: joinRuns rest (vs.drop r.length)

/-! ### Building a frame (R85, R86, R226, R227) -/

/-- A stored element code in the target kind (R85). -/
def expandCode (st : Storage) (kind : Nat) (x : Nat) : Nat :=
  match st.elem, kindOf kind with
  | .fp f, some k => match k.elem with
    | .fp g => (roundTo g 0 false (f.decode x)).bits
    | _ => x
  | _, _ => x

/-- The widened BF16 of an element under a scale, when the test of R86 holds. -/
def widenCode (st : Storage) (scale x : Nat) : Option Nat :=
  let v := (FV.mul (scaleVal scale) (st.elem.value x)).1
  let r := roundTo .bf16 0 false v
  match v with
  | .fin .. => if r.flags = 0 then some r.bits else none
  | _ => some r.bits

/-- What the engine read of storage: rows as numbers, scale bytes by row and block, masks by row. -/
structure Fetched where
  rows : List Nat
  scales : List Nat
  masks : List Nat
  deriving DecidableEq, Repr

/-- Scale bytes of one storage row (R75). In a compressed transfer they cover the logical row of 2 × COLS positions, whose blocks R81 lays
the scales over, where R75 speaks of the columns of the row (DESIGN CHOICE, log 73). -/
def TileDesc.scaleCount (d : TileDesc) : Nat := if d.storage.blocked then (if d.sparse = 0 then 1 else 2) * d.cols / 32 else 0
/-- Mask bytes of one storage row (R227); where 2 × COLS is no multiple of 8, rounded up (DESIGN CHOICE, log 91). -/
def TileDesc.maskRow (d : TileDesc) : Nat := if d.sparse = 0 then 0 else (2 * d.cols + 7) / 8

/-- Element (row, column) of the fetched storage, and its scale byte (0x7F in an unblocked format). -/
def Fetched.code (f : Fetched) (d : TileDesc) (r c : Nat) : Nat :=
  (f.rows[r]?).getD 0 / 2 ^ (d.storage.elem.bits * c) % 2 ^ d.storage.elem.bits
def Fetched.scale (f : Fetched) (d : TileDesc) (r n : Nat) : Nat :=
  if d.storage.blocked then (f.scales[r]?).getD 0 / 2 ^ (8 * n) % 256 else 0x7F

/-- Storage that expansion refuses (R84, R86): T2 code 0b10, a blocked column count that is no multiple of 32, or a
widened element that BF16 does not hold. -/
def expandBad (d : TileDesc) (f : Fetched) : Bool :=
  (d.storage.blocked && d.cols % 32 != 0) ||
    (List.range d.rows).any fun r => (List.range d.cols).any fun c =>
      (d.fmt == 15 && f.code d r c == 2) || (d.widen && (widenCode d.storage (f.scale d r (c / 32)) (f.code d r c)).isNone)

/-- The frame element of storage (r, c). -/
def frameCode (d : TileDesc) (f : Fetched) (r c : Nat) : Nat :=
  if d.widen then (widenCode d.storage (f.scale d r (c / 32)) (f.code d r c)).getD 0
  else expandCode d.storage d.target (f.code d r c)

/-- Sum of `g i` for `i` below `n`. -/
def sumRange (n : Nat) (g : Nat → Nat) : Nat := (List.range n).foldl (fun acc i => acc + g i) 0

/-- The data area, as bits from frame offset 1,024 (R80, R82, R226, R227). Every index row has masks: those of storage rows at or beyond ROWS are
padded as the groups beyond the logical row are (DESIGN CHOICE, log 100). -/
def frameData (d : TileDesc) (f : Fetched) : Nat :=
  let w := ((kindOf d.target).map (·.elem.bits)).getD 8
  let data := sumRange d.rows fun r => sumRange d.cols fun c =>
    let x := frameCode d f r c
    if d.target = 10 then (x % 2) * 2 ^ (128 * c + r) + (x / 2 % 2) * 2 ^ (128 * c + 64 + r)
    else if d.orient then x * 2 ^ (64 * w * c + w * r) else x * 2 ^ (1024 * r + w * c)
  let masks := if d.sparse = 0 then 0
    else sumRange 32 fun r => sumRange (maskCount d.sparse) fun g =>
      let m := if r < d.rows ∧ g < d.maskRow then (f.masks[r]?).getD 0 / 2 ^ (8 * g) % 256 else if d.sparse = 1 then 0x0F else 0x03
      m * 2 ^ (1024 * (32 + r) + 8 * g)
  data + masks

/-- The scale area, as bits from frame offset 64: 0x7F where a block is padded (R226). -/
def frameScales (d : TileDesc) (f : Fetched) : Nat :=
  if !d.storage.blocked || d.widen then 0
  else
    let rows := if d.sparse = 0 then 64 else 32
    let blocks := (if d.sparse = 0 then 1 else 2) * d.targetK / 32
    sumRange rows fun r => sumRange blocks fun n =>
      let x := if r < d.rows ∧ n < d.scaleCount then f.scale d r n else 0x7F
      x * 2 ^ (8 * (if d.orient then 64 * n + r else r * blocks + n))

/-- The whole frame (R226). -/
def frameOf (d : TileDesc) (f : Fetched) : Nat :=
  let scaled := d.storage.blocked && !d.widen
  let hdr := d.target + (if scaled then 256 else 0) + (if d.orient then 512 else 0) + d.sparse * 1024
  hdr + 2 ^ 512 * frameScales d f + 2 ^ 8192 * frameData d f

/-- The order of granules in a frame: data and side granules rising, the header granule last (R230). -/
def granuleOrder : List Nat := (List.range frameGranules).drop 1 ++ [0]

/-- The writes of a whole frame. -/
def frameWrites (fr : Nat) : List (Nat × Option Nat × Gran) :=
  granuleOrder.map fun g => (g, some (fr / 2 ^ (128 * g) % 2 ^ 128), .full)
/-- Every granule FAILED. -/
def failedWrites : List (Nat × Option Nat × Gran) := granuleOrder.map fun g => (g, none, .failed)

/-- The targets of a command (R226, R228): for MC and CP, every position of CMASK. -/
def cmdTargets (s : State) (tm : Team) (d : TileDesc) (writes : List (Nat × Option Nat × Gran)) : List CmdTarget :=
  match d.xop with
  | 0 => [⟨none, tm.id, d.frame, writes⟩]
  | 1 => []
  | _ =>
    let dst := if d.xop = 2 then d.frame else d.base.toNat % 2 ^ 20
    (List.range 12).filterMap fun p =>
      if d.cmask / 2 ^ p % 2 = 1 then
        let m := s.teams.find? fun m => m.ctx == tm.ctx && m.cluster == tm.cluster && m.position == p
        some ⟨some p, (m.map (·.id)).getD (s.nextId), dst, writes⟩
      else none

/-! ### OUT (R229, R230) -/

/-- The exact value of element (r, c) of a frame in storage order, X × v. -/
def outValue (h : FrameHdr) (fr r c : Nat) : FV :=
  if h.orient then (FV.mul (scaleB h fr r c) (h.elem.value (elemB h fr c r))).1
  else (FV.mul (scaleA h fr r c) (h.elem.value (elemA h fr r c))).1

/-- The source granules of an OUT (R229). -/
def outGranules (d : TileDesc) (h : FrameHdr) : List Nat :=
  let w := h.k.elem.bits
  let data := if h.kind = 10 then (List.range d.cols).flatMap fun k => granules (1024 + 16 * k) 16
    else if h.orient then (List.range d.cols).flatMap fun k => granules (1024 + 8 * w * k) ((d.rows * w + 7) / 8)
    else (List.range d.rows).flatMap fun i => granules (1024 + 128 * i) ((d.cols * w + 7) / 8)
  let scales := if h.scaled then (List.range d.rows).flatMap fun r => (List.range ((d.cols + 31) / 32)).flatMap fun n =>
      granules (if h.orient then scaleOffB r n else scaleOffA h r n) 1
    else []
  0 :: data ++ scales

/-- The element codes and scale bytes of one storage row. -/
def outRow (d : TileDesc) (h : FrameHdr) (fr r : Nat) : List Nat × List Nat :=
  let st := d.storage
  let vals := (List.range d.cols).map fun c => outValue h fr r c
  if st.blocked then
    let q := (List.range (d.cols / 32)).map fun n => quantizeBlock st.elem d.rnd ((vals.drop (32 * n)).take 32)
    (q.flatMap (·.2), q.map (·.1))
  else if d.fmt = 15 then ((List.range d.cols).map fun c => elemB h fr c r, [])
  else (vals.map (st.elem.round d.rnd d.sat), [])

/-- Puts bits of a run of memory into 32-byte sectors: sector, bit mask, data. Fuel is the number of sectors. -/
def splitSectors : (fuel : Nat) → (va bits v : Nat) → List (Nat × Nat × Nat)
  | 0, _, _, _ => []
  | n + 1, va, bits, v =>
    let sh := 8 * (va % 32)
    let here := Nat.min bits (256 - sh)
    if bits = 0 then []
    else (va / 32, (2 ^ here - 1) * 2 ^ sh, v % 2 ^ here * 2 ^ sh) :: splitSectors n (va / 32 * 32 + 32) (bits - here) (v / 2 ^ here)

/-- Joins a sector into a list in rising order. -/
def joinSector (x : Nat × Nat × Nat) : List (Nat × Nat × Nat) → List (Nat × Nat × Nat)
  | [] => [x]
  | y :: rest =>
    if x.1 < y.1 then x :: y :: rest
    else if x.1 = y.1 then (x.1, y.2.1 ||| x.2.1, (y.2.2 - (y.2.2 &&& x.2.1)) ||| x.2.2) :: rest
    else y :: joinSector x rest

/-- The sectors of an OUT, in ascending address order (R230). -/
def outSectors (d : TileDesc) (h : FrameHdr) (fr : Nat) : List (Nat × Nat × Nat) :=
  let w := d.storage.elem.bits
  let runs := (List.range d.rows).flatMap fun r =>
    let (codes, scales) := outRow d h fr r
    let va := (d.base + BitVec.ofNat 64 (r * d.stride)).toNat
    let sva := (d.scales + BitVec.ofNat 64 (r * (d.cols / 32))).toNat
    splitSectors (d.rowBytes / 32 + 2) va (w * d.cols) (packCodes w codes)
      ++ splitSectors (d.cols / 1024 + 2) sva (8 * scales.length) (packCodes 8 scales)
  runs.foldl (fun acc x => joinSector x acc) []

/-! ### A command's life (R230-R232, R257) -/

/-- The entry of a command in the context's fault queue (R231, R232, R340-R342). -/
def cmdReport (s : State) (c : TileCmd) (cause : Cause) (eaddr : Word) (info : Nat) (w : Waiter) : State :=
  match s.team? c.team with
  | none => s
  | some tm => s.report fun k =>
    { id := k, ctx := tm.ctx, kind := 2, cause := cause, nr := cause == .notResident, epc := c.descAddr, eaddr := eaddr
      who := whoWord thisModule 1 c.thread.posWord, rentry := 0, serial := c.serial, info := info, stamp := s.tstamp, waiter := w }

/-- A command meets a fault in an access of `n` bytes (R232): a page that is not resident stalls it, anything else freezes it. -/
def cmdFault (s : State) (c : TileCmd) (cause : Cause) (va : Word) (n acc : Nat) : State :=
  let reading := c.phase == .reading
  let s := s.modCmd c.id fun c => { c with phase := if cause = .notResident then .stalled reading else .frozen reading }
  cmdReport s c cause va (accInfo n acc) (.cmd c.id)

/-- A command's commit has performed (R187, R222): its region's reply is kept. -/
def keepOld (t : Thread) (serial : BitVec 32) : Thread := t.keepReply serial 0

/-- The runs of bytes a command reads, in pieces: rows, scales, masks (R226, R227). -/
def inRuns (d : TileDesc) : List (List (Word × Nat)) :=
  let at' := fun (base : Word) (step n : Nat) => (List.range d.rows).map fun r => pieces (n / 32 + 2) (base + BitVec.ofNat 64 (r * step)) n
  at' d.base d.stride d.rowBytes ++ at' d.scales d.scaleCount d.scaleCount ++ at' d.meta' d.maskRow d.maskRow

/-- IN and MC read storage and take up their writes (R226-R228); a format violation gives FAILED frames with status 1. -/
def readIn (s : State) (c : TileCmd) (tm : Team) (d : TileDesc) : State :=
  match engineReads s tm .tile c.got 0 (inRuns d).flatten [] with
  | (.holders l, _) => s.publishFor l
  | (.fault k va, vs) => cmdFault s c k va ((((inRuns d).flatten[vs.length]?).map (·.2)).getD 1) 5
  | (.ok _ s, vs) =>
    let vs := joinRuns (inRuns d) vs
    let f : Fetched := ⟨vs.take d.rows, (vs.drop d.rows).take d.rows, vs.drop (2 * d.rows)⟩
    let bad := expandBad d f
    let ts := cmdTargets s tm d (if bad then failedWrites else frameWrites (frameOf d f))
    s.modCmd c.id fun c => { c with phase := .writing, targets := ts, status := if bad then 1 else 0 }

/-- The core as a command reads it, with the granules it has read before (R256). -/
def sourceCore (s : State) (c : TileCmd) (tm : Team) : Core := (s.core tm.core).withLatch c.got

/-- Granules of a frame of the team by state; bytes held by a thread wait as EMPTY ones do. -/
def sourceState (k : Core) (tm : Team) (frame : Nat) (gs : List Nat) (st : Gran) : Bool :=
  gs.any fun g => k.granule ((tm.rowLo * 1024 + frame) / 16 + g) == st
def sourceHeld (k : Core) (tm : Team) (frame : Nat) (gs : List Nat) : Bool :=
  gs.any fun g => k.held.any fun e => e.1 / 16 == (tm.rowLo * 1024 + frame) / 16 + g

/-- OUT reads its source granules (R229). -/
def readOut (s : State) (c : TileCmd) (tm : Team) (d : TileDesc) : State :=
  let k := sourceCore s c tm
  let rd := fun (n : Nat) => Memory.readLE k.sp (tm.rowLo * 1024 + d.frame) n
  let finish := fun (st : Nat) => s.modCmd c.id fun c => { c with phase := .writing, status := st }
  if sourceState k tm d.frame [0] .empty || sourceHeld k tm d.frame [0] then s
  else if sourceState k tm d.frame [0] .failed then finish 4
  else
    let h := frameHdr (rd 8)
    if h.violates || h.sparse != 0 || h.orient != d.orient || h.k.K < d.cols || (d.fmt == 15 && h.kind != 10) then finish 1
    else
      let gs := outGranules d h
      if sourceState k tm d.frame gs .empty || sourceHeld k tm d.frame gs then s
      else if sourceState k tm d.frame gs .failed then finish 4
      else s.modCmd c.id fun c => { c with phase := .writing, sectors := outSectors d h (rd frameBytes) }

/-- CP reads its source frame, states and all (R228). -/
def readCp (s : State) (c : TileCmd) (tm : Team) (d : TileDesc) : State :=
  let gs := List.range frameGranules
  let k := sourceCore s c tm
  if sourceState k tm d.frame gs .empty || sourceHeld k tm d.frame gs then s
  else
    let base := tm.rowLo * 1024 + d.frame
    let ws := granuleOrder.map fun g => (g, some (Memory.readLE k.sp (base + 16 * g) 16), k.granule (base / 16 + g))
    s.modCmd c.id fun c => { c with phase := .writing, targets := cmdTargets s tm d ws }

/-- An enqueued command reads those of its sources that it has still to read, once it may (R256). -/
def readSources (s : State) (c : TileCmd) : State :=
  match s.team? c.team with
  | none => s
  | some tm =>
    let d := tileDesc c.desc
    match d.xop with
    | 1 => readOut s c tm d
    | 3 => readCp s c tm d
    | _ => readIn s c tm d

/-- One read of an enqueued command, by its number among the pieces of its storage or the granules of its frame (R256): the reads of a
command are taken in any order, and steps of other parties may stand between them. -/
def readOne (s : State) (c : TileCmd) (n : Nat) : State :=
  match s.team? c.team with
  | none => s
  | some tm =>
    let d := tileDesc c.desc
    let take := fun (s : State) (e : Nat × Nat × Gran) =>
      if c.got.any fun x => x.1 == e.1 then s else s.modCmd c.id fun c => { c with got := c.got ++ [e] }
    if d.xop = 1 ∨ d.xop = 3 then
      let k := s.core tm.core
      if frameGranules ≤ n || sourceState k tm d.frame [n] .empty || sourceHeld k tm d.frame [n] then s
      else
        let g := (tm.rowLo * 1024 + d.frame) / 16 + n
        take s (g, Memory.readLE k.sp (16 * g) 16, k.granule g)
    else match (inRuns d).flatten[n]? with
      | none => s
      | some (va, len) => match engineRead s tm .tile va len with
        | .holders l => s.publishFor l
        | .fault k va => if c.got.any fun x => x.1 == n then s else cmdFault s c k va len 5
        | .ok v s => take s (n, v, .full)

/-- The `txf` of an issued command may enter the engine (R222, R257): it is the first of its team, its thread's earlier
accesses have performed, and its gate is open. -/
def mayEnqueue (s : State) (c : TileCmd) : Bool :=
  !(s.cmds.any fun x => x.team == c.team && x.id < c.id && x.phase == .issued)
    && s.gate (c.thread, c.serial)
    && (match s.thread? c.thread with | some t => t.pending.all fun a => c.id < a.iid | none => true)

/-- The engines of a gated core stand with what they had done (R241). -/
def cmdStands (s : State) (c : TileCmd) : Bool := (s.team? c.team).any fun tm => (s.core tm.core).gated

/-- ENQUEUE (R257): the command enters the engine once what stands before its marker has drained; an enqueued command
takes up its sources. -/
def execEnqueue (cmd : Nat) (s : State) : Host.Outcome State Fault Refusal :=
  match s.cmd? cmd with
  | none => .next s
  | some c =>
    if cmdStands s c then .next s
    else match c.phase with
    | .reading => .next (readSources s c)
    | .issued =>
      if !mayEnqueue s c then .next s
      else
        let tb := (s.core c.thread.core).tb
        let drained := match c.marker with | some m => !tb.any fun i => i.id == m | none => tb == []
        if drained then
          let s := (s.modThread c.thread fun t => keepOld t c.serial).modCmd cmd fun c => { c with phase := .reading }
          match s.cmd? cmd with
          | some c => .next (readSources s c)
          | none => .next s
        else if c.marker.isNone then
          .next ((s.release c.thread.core false).modCmd cmd fun c => { c with marker := some s.nextId })
        else .next s
    | _ => .next s

/-- Whether a target's window is open, refused with the allocation held, or released (R228). -/
inductive Window where
  | opened | refused | released
  deriving DecidableEq, Repr

def targetWindow (s : State) (x : CmdTarget) : Window :=
  match s.team? x.team with
  | none => .released
  | some tm => if x.pos.isSome && s.teamExited tm then .refused else .opened

/-- A granule of a team's frame written by the engine, data and state in one step (R255). -/
def engineGranule (s : State) (tm : Team) (frame g : Nat) (data : Option Nat) (st : Gran) : State :=
  s.modCore tm.core fun c =>
    let off := tm.rowLo * 1024 + frame + 16 * g
    let c := match data with
      | some v => c.spWrite off 16 v none
      | none => c
    c.granWrite (off / 16) st

/-- GRANULE_WRITE (R257): the first write of one target frame; a refused target takes FAILED granules, a released one
nothing, and both are listed as failed (R228); a status that the command has already is kept (R231; DESIGN CHOICE, log 100). Of a command that has still to read its sources, a read by its number (R256). -/
def execGranuleWrite (cmd target : Nat) (s : State) : Host.Outcome State Fault Refusal :=
  match s.cmd? cmd with
  | none => .next s
  | some c =>
    if cmdStands s c then .next s
    else match c.phase, c.targets[target]? with
    | .reading, _ => .next (readOne s c target)
    | .writing, some x =>
      match x.writes with
      | [] => .next s
      | (g, v, st) :: rest =>
        let fail := fun (s : State) => s.modCmd cmd fun c =>
          { c with fmask := c.fmask ||| 2 ^ (x.pos.getD 0), status := if c.status = 0 then 2 else c.status }
        let set := fun (s : State) (w : List (Nat × Option Nat × Gran)) => s.modCmd cmd fun c =>
          { c with targets := c.targets.set target { x with writes := w } }
        match targetWindow s x, s.team? x.team with
        | .opened, some tm => .next (set (engineGranule s tm x.frame g v st) rest)
        | .refused, some tm => .next (fail (set (engineGranule s tm x.frame g none .failed) rest))
        | _, _ => .next (fail (set s []))
    | _, _ => .next s

/-- SECTOR_WRITE (R257): the first 32-byte sector of an OUT, its covered bits in one step (R230). -/
def execSectorWrite (cmd : Nat) (s : State) : Host.Outcome State Fault Refusal :=
  match s.cmd? cmd with
  | none => .next s
  | some c =>
    if cmdStands s c then .next s
    else match c.phase, c.sectors, s.team? c.team with
    | .writing, (sec, mask, data) :: rest, some tm =>
      let va : Word := BitVec.ofNat 64 (32 * sec)
      let walk := engineHolders s tm va []
      if walk ≠ [] then .next (s.publishFor walk)
      else match engineCheckMask s tm va mask with
        | .fault k => .next (cmdFault s c k va 32 6)
        | .ok pa e =>
          let hold := heldBy s none [lineOf pa]
          if hold ≠ [] then .next (s.publishFor hold)
          else if writeWaits s pa 32 || s.xWaits e then .next s
          else
            let s := engineEffMask s tm e pa mask
            let old := s.readM pa 32
            let s := writeMaster s pa 32 ((old - (old &&& mask)) ||| (data &&& mask))
            .next (s.modCmd cmd fun c => { c with sectors := rest })
    | _, _, _ => .next s

/-- The completion word (R231). -/
def completionWord (c : TileCmd) : Nat := 2 ^ 63 + c.fmask % 2 ^ 12 * 2 ^ 16 + c.status

/-- The command has completed: an entry for a status other than 0 (R231), and its Count is still to come (R257). -/
def finishCmd (s : State) (c : TileCmd) : State :=
  let s := if c.status ≠ 0 && !c.quiet then cmdReport s c .tileStatus 0 (c.fmask % 2 ^ 12 * 2 ^ 16 + c.status * 2 ^ 8) .nobody else s
  s.modCmd c.id fun c => { c with phase := .counting }

/-- Count (R257): the command leaves the engine and ECOUNT falls by one. -/
def countCmd (s : State) (c : TileCmd) : State :=
  let s := s.modTeam c.team fun tm => { tm with ecount := tm.ecount - 1 }
  { s with cmds := s.cmds.filter fun x => x.id != c.id }

/-- Nothing of the command is left to write. -/
def TileCmd.drained (c : TileCmd) : Bool := c.sectors == [] && c.targets.all fun x => x.writes == []

/-- COMPLETION (R231, R257): the completion word, and as a step of its own the Count. -/
def execCompletion (cmd : Nat) (s : State) : Host.Outcome State Fault Refusal :=
  match s.cmd? cmd with
  | none => .next s
  | some c =>
    if cmdStands s c then .next s
    else match c.phase, s.team? c.team with
    | .counting, _ => .next (countCmd s c)
    | .writing, some tm =>
      if !c.drained then .next s
      else
        let d := tileDesc c.desc
        if !d.cwen then .next (finishCmd s c)
        else
          let walk := engineHolders s tm d.doneAt []
          if walk ≠ [] then .next (s.publishFor walk)
          else match engineCheck s tm .tile d.doneAt 8 true with
            | .fault k => if c.quiet then .next (finishCmd s c) else .next (cmdFault s c k d.doneAt 8 6)
            | .ok pa e =>
              let hold := heldBy s none [lineOf pa]
              if hold ≠ [] then .next (s.publishFor hold)
              else if writeWaits s pa 8 || s.xWaits e then .next s
              else
                let s := engineEff s tm e pa 8 true
                .next (finishCmd (writeMaster s pa 8 (completionWord c)) c)
    | _, _ => .next s

/-- A command is ended with status 3 (R231): granules not yet written become FAILED, sectors not yet written stay. One that KILL ends
while it is stalled or frozen at its completion word writes none (DESIGN CHOICE, log 85); a context's end lets it be written (R203). -/
def endCmd (s : State) (cmd : Nat) (quiet : Bool) : State :=
  s.modCmd cmd fun c =>
    let d := tileDesc c.desc
    let reading := match c.phase with | .issued | .reading | .stalled true | .frozen true => true | _ => false
    let done := c.drained && (match c.phase with | .stalled false | .frozen false => true | _ => false)
    let ts := if !reading then c.targets.map fun x => { x with writes := x.writes.map fun w => (w.1, none, Gran.failed) }
      else match s.team? c.team with
        | some tm => cmdTargets s tm d failedWrites
        | none => []
    if c.phase = .counting then c else
    { c with phase := .writing, status := 3, targets := ts, sectors := [], quiet := c.quiet || quiet
             desc := if done && !quiet then c.desc.set 0 (((c.desc[0]?).getD 0) &&& ~~~(0x800000 : Word)) else c.desc }

/-- A stalled command replays its access (R232). -/
def retryCmd (s : State) (cmd : Nat) : State :=
  s.modCmd cmd fun c => match c.phase with
    | .stalled true => { c with phase := .reading }
    | .stalled false => { c with phase := .writing }
    | _ => c

/-! ### Streams (R234-R238) -/

/-- The fields of a stream descriptor (R234). -/
def sdCtl (d : List Word) : Nat := ((d[0]?).getD 0).toNat
def sdDims (d : List Word) : Nat := sdCtl d / 32 % 4 + 1
def sdOut (d : List Word) : Bool := sdCtl d / 16 % 2 == 1
def sdF (d : List Word) : Bool := sdCtl d / 8 % 2 == 1
def sdSigned (d : List Word) : Bool := sdCtl d / 4 % 2 == 1
def sdSize (d : List Word) : Nat := 2 ^ (sdCtl d % 4)
def sdCount (d : List Word) (k : Nat) : Nat := ((d[2 + k / 2]?).getD 0).toNat / 2 ^ (32 * (k % 2)) % 2 ^ 32
def sdStride (d : List Word) (k : Nat) : Word := (d[4 + k]?).getD 0

/-- A stream descriptor that `scfg` accepts. -/
def sdOk (d : List Word) : Bool :=
  sdCtl d / 2 ^ 7 == 0 && (!sdF d || 2 ≤ sdCtl d % 4) && (List.range (sdDims d)).all fun k => sdCount d k != 0

/-- The number of elements, and the address of element `e`, in the mixed radix of the counts. -/
def sdTotal (d : List Word) : Nat := (List.range (sdDims d)).foldl (fun n k => n * sdCount d k) 1
def sdAddr (d : List Word) (e : Nat) : Word :=
  ((List.range (sdDims d)).foldl (fun (acc : Nat × Word) k =>
    (acc.1 / sdCount d k, acc.2 + BitVec.ofNat 64 (acc.1 % sdCount d k) * sdStride d k)) (e, (d[1]?).getD 0)).2

/-- Queue `q` of a team, and its change. -/
def Team.queue (tm : Team) (q : Nat) : Queue := (tm.queues[q]?).getD Queue.idle
def State.modQueue (s : State) (team q : Nat) (f : Queue → Queue) : State :=
  s.modTeam team fun tm => { tm with queues := tm.queues.set q (f (tm.queue q)) }

/-- Threads that perform a queue instruction of the bundle (R235): none when one of them holds the reply, since the queue has then been acted
on; the others keep no reply of it (DESIGN CHOICE, log 101). -/
def queueActors (s : State) (h : Hdr) : List Thread :=
  let ex := laneOrder (s.executing h)
  if ex.any fun t => t.kept.isSome then [] else ex

/-- The replies of a commit that the bundle has performed. -/
def keepAll (s : State) (l : List Thread) : State := l.foldl (fun s t => s.modThread t.id fun x => x.keepReply x.rserial 0) s

/-- `scfg` (R235): the operands of the lowest executing lane, once every gate is open. The binding that is discarded takes its region-entry
positions with it (DESIGN CHOICE, log 101). -/
def execScfg (h : Hdr) (q : Fin 8) (a : Fin 32) (s : State) : Host.Outcome State Fault Refusal :=
  match queueActors s h with
  | [] => .next (s.advance 1)
  | t :: rest =>
    let w := t.view.gval a
    match descOffTrap s t w with
    | some x => .next (s.takeTraps [x])
    | none =>
      if descWaits s t w.toNat then .next s
      else
        let d := readDesc s t w.toNat
        if !sdOk d then .next (s.takeTraps [⟨t.id, .descriptor, t.pc, apertureAddr w.toNat, 0, false⟩])
        else if !(t :: rest).all fun t => t.gateOpen t.rserial then .next s
        else
          let s := s.modQueue t.team q.val fun _ => { Queue.idle with desc := some d }
          .next ((keepAll s (t :: rest)).advance 1)

/-- A `sctl` operation, once every gate is open and `ready` holds. -/
def sctl (s : State) (h : Hdr) (q : Fin 8) (ready : Thread → Bool) (f : Queue → Queue) : State :=
  match queueActors s h with
  | [] => s.advance 1
  | t :: rest =>
    if (t :: rest).all (fun t => t.gateOpen t.rserial) && ready t then
      (keepAll (s.modQueue t.team q.val f) (t :: rest)).advance 1
    else s

/-- Starting an idle queue does nothing. -/
def Queue.start (q : Queue) : Queue := if q.desc.isSome then { q with started := true } else q

def execSctlStart (h : Hdr) (q : Fin 8) (s : State) : Host.Outcome State Fault Refusal := .next (sctl s h q (fun _ => true) Queue.start)
def execSctlStop (h : Hdr) (q : Fin 8) (s : State) : Host.Outcome State Fault Refusal :=
  .next (sctl s h q (fun _ => true) fun x => { x with started := false })

/-- Every store of the team's threads has joined the buffer. -/
def pushesStored (s : State) (t : Thread) : Bool := s.threads.all fun u => u.team != t.team || u.pending.all fun a => a.kind != .st

/-- Every element pushed has drained (R235): the stores have, up to the marker that the drain placed behind them. -/
def pushesDrained (s : State) (t : Thread) : Bool :=
  pushesStored s t && (match t.marker with | some m => markerGone s t.id.core m | none => (s.core t.id.core).tb == [])

def execSctlDrain (h : Hdr) (q : Fin 8) (s : State) : Host.Outcome State Fault Refusal :=
  let outbound := fun (t : Thread) => (((s.teamOf t).queue q.val).desc.map sdOut).getD false
  let waiting := (s.executing h).filter fun t => outbound t && !pushesDrained s t
  if waiting ≠ [] && (queueActors s h) ≠ [] && (s.executing h).all (fun t => t.gateOpen t.rserial) then
    .next ((waiting.filter (pushesStored s)).foldl (fun s t => releaseMark s t) s)
  else .next (sctl s h q (fun t => !outbound t || pushesDrained s t) fun x =>
    if (x.desc.map sdOut).getD false then x else { x with ahead := [] })

/-- The faults of `qpop` and `qpush` before their elements (R238). -/
def queueTrap (s : State) (q : Fin 8) (isF outbound : Bool) (t : Thread) : Option Trap :=
  let x := (s.teamOf t).queue q.val
  match x.desc with
  | none => some ⟨t.id, .stream, t.pc, 0, 0, false⟩
  | some d =>
    if !x.started || sdOut d != outbound then some ⟨t.id, .stream, t.pc, 0, 0, false⟩
    else if sdF d != isF then some ⟨t.id, .operand, t.pc, 0, 0, false⟩
    else none

/-- An element as a register takes it (R236). -/
def sdExtend (d : List Word) (v : Nat) : Word :=
  if sdSigned d && !sdF d then BitVec.ofInt 64 (signedCode (8 * sdSize d) v) else BitVec.ofNat 64 v

/-- A queue's position at the entry of a thread's region: what a thread of the group that is in the region too has kept, else the
position. -/
def State.posAtEntry (s : State) (q : Queue) (t : Thread) : Nat :=
  ((q.entries.find? fun e => s.shares t e.1 e.2.1).map (·.2.2)).getD q.pos

/-- The position moves past a row; each executing thread's region keeps the position at its entry (R20). -/
def Queue.takeRow (s : State) (l : List Thread) (q : Queue) : Queue :=
  let new := (l.filter fun t => !q.entries.any fun e => decide (e.1 = t.id) && e.2.1 == t.rserial).map fun t => (t.id, t.rserial, s.posAtEntry q t)
  { q with pos := q.pos + 32, entries := q.entries ++ new, ahead := q.ahead.filter fun e => q.pos + 32 ≤ e.1 }

/-- The elements of the row that the next `qpop` takes, and those of them not yet read ahead (R236). -/
def Queue.row (x : Queue) : List Nat := ((List.range 32).map (x.pos + ·)).filter fun e => e < sdTotal (x.desc.getD [])
def Queue.missing (x : Queue) : List Nat := x.row.filter fun n => !x.ahead.any fun e => e.1 == n

/-- The row of a `qpop` has still to be fetched, and the stream is not frozen in it. -/
def rowAwaited (s : State) (h : Hdr) (isF : Bool) (q : Fin 8) : Bool :=
  match s.executing h with
  | [] => false
  | t0 :: ts =>
    let x := (s.teamOf t0).queue q.val
    (t0 :: ts).all (fun t => (queueTrap s q isF false t).isNone) && x.missing != [] && !x.frozen.any x.row.contains

/-- `qpop` (R236, R238): it waits for its row. -/
def execQpop (h : Hdr) (d : Fin 32) (isF : Bool) (q : Fin 8) (pv : Fin 8) (s : State) : Host.Outcome State Fault Refusal :=
  let ex := s.executing h
  let bad := ex.filterMap (queueTrap s q isF false)
  match ex with
  | [] => .next (s.advance 1)
  | t0 :: _ =>
    if bad ≠ [] then .next (s.takeTraps bad)
    else
      let x := (s.teamOf t0).queue q.val
      let ds := x.desc.getD []
      match x.missing, x.frozen.filter x.row.contains with
      | _, some e => .next (s.takeTraps (ex.map fun t => ⟨t.id, .stream, t.pc, sdAddr ds e, 0, false⟩))
      | _ :: _, none => .next s
      | [], none =>
        let s' := s.lanewise 1 h fun t =>
          let e := x.pos + t.id.pos
          let v := if e < sdTotal ds then sdExtend ds (assocD 0 e x.ahead) else 0
          (t.put (dataReg isF d) v 0).putP pv (decide (e < sdTotal ds)) 0
        .next (s'.modQueue t0.team q.val (Queue.takeRow s ex))

/-- `qpush` (R237, R238): each thread's element as a relaxed store of that thread. -/
def execQpush (h : Hdr) (q : Fin 8) (a : Fin 32) (isF : Bool) (s : State) : Host.Outcome State Fault Refusal :=
  let ex := s.executing h
  let bad := ex.filterMap (queueTrap s q isF true)
  match ex with
  | [] => .next (s.advance 1)
  | t0 :: _ =>
    if bad ≠ [] then .next (s.takeTraps bad)
    else
      let x := (s.teamOf t0).queue q.val
      let ds := x.desc.getD []
      let ts := ex.filter fun t => x.pos + t.id.pos < sdTotal ds
      .next (memIssueOf s ts 1 false (fun t =>
        mkReq (sdAddr ds (x.pos + t.id.pos)) (sdSize ds) .write .any false .st
          ((t.view.get (dataReg isF a)).toNat % 2 ^ (8 * sdSize ds))) id
        (fun s1 => s1.modQueue t0.team q.val (Queue.takeRow s ex)) (latch := false))

/-- The first element that is not read ahead. -/
def nextAhead (x : Queue) : Nat :=
  x.ahead.foldl (fun m e => Nat.max m (e.1 + 1)) x.pos

/-- The stream engine's report: stalled at a page that is not resident (R238), or frozen at a watchpoint (R349). -/
def streamReport (s : State) (tm : Team) (q : Nat) (cause : Cause) (va : Word) (size : Nat) : State :=
  s.report fun k =>
    { id := k, ctx := tm.ctx, kind := 3, cause := cause, nr := cause == .notResident, epc := 0, eaddr := va
      who := whoWord thisModule 2 (tm.core / 48 * 0x10000 + tm.core % 48 * 0x400 + ((tm.groups.map (·.1)).head?.getD 0) * 256
        + ((tm.groups.map (·.2)).head?.getD 0))
      rentry := 0, serial := 0, info := accInfo size 5, stamp := s.tstamp
      waiter := if cause = .notResident then .stream tm.id q else .nobody }

/-- The stream stands frozen at an element or before it (R238). -/
def Queue.frozenAt (q : Queue) (e : Nat) : Bool := match q.frozen with | some n => n ≤ e | none => false

/-- The look-ahead (R302, R303): the page of the first of the next 32 rows' elements that the stream TLB does not hold is walked, and its
entry inserted. A page that gives no translation now is left to the read itself. -/
def lookAhead (s : State) (tm : Team) (d : List Word) (e : Nat) : State :=
  let c := (s.ctx? tm.ctx).getD Context.reset
  let held := fun (va : Word) => (s.heldEntry .stream tm.core none c.id (va.toNat % 2 ^ 57) .read).isSome
  match (List.range (Nat.min 1024 (sdTotal d - (e + 1)))).find? fun k => !held (sdAddr d (e + 1 + k)) with
  | none => s
  | some k =>
    let va := sdAddr d (e + 1 + k)
    if !canonical va || engineHolders s tm va [] ≠ [] then s
    else match s.xlate .stream tm.core none c tm.kernel.hlevel va .read (s.stalePick 0) with
      | .ok _ x => if s.xWaits x then s else { s.applyXEff x with fresh := s.fresh + 1 }
      | .fault _ => s

/-- Reads the next element ahead, which is one step on M (R246), with one walk of the look-ahead (DESIGN CHOICE, log 96). -/
def readAhead (s : State) (team q : Nat) : State :=
  match s.team? team with
  | none => s
  | some tm =>
    let x := tm.queue q
    match x.desc with
    | none => s
    | some d =>
      let e := nextAhead x
      let va := sdAddr d e
      let sz := sdSize d
      if !x.started || (s.core tm.core).gated || sdOut d || x.stalled || x.frozenAt e || sdTotal d ≤ e then s
      else
        let freeze := s.modQueue team q fun x => { x with frozen := some e }
        if !canonical va || va.toNat % sz ≠ 0 then freeze
        else
          let walk := engineHolders s tm va []
          if walk ≠ [] then s.publishFor walk
          else match engineCheck s tm .stream va sz false with
            | .fault .notResident => streamReport (s.modQueue team q fun x => { x with stalled := true }) tm q .notResident va sz
            | .fault .watchpoint => streamReport freeze tm q .watchpoint va sz
            | .fault _ => freeze
            | .ok pa y =>
              let hold := heldBy s none [lineOf pa]
              if hold ≠ [] then s.publishFor hold
              else if s.xWaits y then s
              else
                let v := s.readM pa sz
                let s := engineEff s tm y pa sz false
                (lookAhead s tm d e).modQueue team q fun x => { x with ahead := x.ahead ++ [(e, v)] }

/-- STREAM_READ_AHEAD (R236): the next element of the rows of a started inbound queue. -/
def execStreamReadAhead (team : Nat) (q : Fin 8) (s : State) : Host.Outcome State Fault Refusal :=
  .next (readAhead s team q.val)

end Sys2Proof.Machine
end

