-- ==== Sys2Proof/Machine/Resume.lean ====
section
/-! DEFINITION. The fault queue (R339-R344), tickets and `hresume` (R203, R345, R346), the end of a context, grid completion
(R328, R329), and `brk` (R201, R402). -/

namespace Sys2Proof.Machine

/-- The instruction at an address, as the tables map it. -/
def instrAt (s : State) (c : Context) (a : Word) : Option Instr :=
  let w := fun (o : Nat) => BitVec.ofNat 32 ((codeAt s c (a + BitVec.ofNat 64 o)).getD 0)
  match decodeWords [w 0, w 4, w 8] with
  | .ok (i, _) => some i
  | .error _ => none

/-! ### Grid completion (R181, R328, R329) -/

/-- The widening caller resumes after its call with a0 and a1 (R181); the grid is no more. -/
def completeGrid (s : State) (g : Grid) (a0 a1 : Nat) : State :=
  let s := s.modHazel g.caller fun h =>
    { h with grid := none, pc := h.ret
             img := { h.img with x := (h.img.x.set 10 (BitVec.ofNat 64 a0)).set 11 (BitVec.ofNat 64 a1) } }
  { s with grids := s.grids.filter fun x => x.id != g.id
           queues := s.queues.map fun (q : Nat × List Launch) => (q.1, q.2.filter fun l => l != .grid g.id) }

/-- A grid completes when its last team has been dispatched and its outstanding count is 0 (R328, R329). -/
def gridDone (s : State) (gid : Nat) : State :=
  match s.grid? gid with
  | none => s
  | some g =>
    if g.nextCluster = g.gdim.1 * g.gdim.2.1 * g.gdim.2.2 ∧ g.out = 0 then
      completeGrid s g (if g.killed = 0 then 0 else 2) (Nat.min g.killed (2 ^ 32 - 1))
    else s

/-! ### The end of a context (R203, R346, R368) -/

/-- Accesses of an ended thread that still perform: the stores and fences it has made. -/
def outlives (a : Access) : Bool :=
  match a.kind with
  | .st | .stl _ | .stf false | .fence .. | .pfence _ => true
  | _ => false

/-- A thread of a terminated context ends. -/
def Thread.terminate (t : Thread) : Thread :=
  match t.status with
  | .ended _ => t
  | _ => { t with status := .ended true, snap := none, pending := t.pending.filter outlives, results := [], cross := [], ra := none }

/-- The queued records of a context's nodes are discarded: HEAD moves to TAIL (R329). -/
def dropRecords (s : State) (c : Context) : State :=
  let s := c.nodes.foldl (fun s n => match ctxPa s c n.qcb with
    | some pa => writeMaster s (pa + 24) 8 (s.readM (pa + 16) 8)
    | none => s) s
  s.modCtx c.id fun c => { c with nodes := c.nodes.map fun (n : Node) => { n with pendingRecs := [], formed := false } }

/-- The lines of the control blocks whose records are discarded. -/
def recordLines (s : State) (c : Context) : List Nat := c.nodes.flatMap fun n => agentLines s c n.qcb 64

/-- The commands of a saved context that have not completed and write a completion word when they end, with their teams (R203). -/
def savedCmds (s : State) (ctx : Nat) : List (Team × TileCmd) :=
  match s.saved.find? fun x => x.ctx == ctx with
  | some x => x.cmds.filterMap fun k =>
      if k.phase = .counting || !(tileDesc k.desc).cwen then none else (x.teams.find? fun tm => tm.id == k.team).map fun tm => (tm, k)
  | none => []

/-- The command of a saved context ends with status 3 (R203). -/
def endSavedCmd (s : State) (tm : Team) (k : TileCmd) : State :=
  let a := (tileDesc k.desc).doneAt
  match engineCheck s tm .tile a 8 true with
  | .ok pa e => writeMaster (engineEff s tm e pa 8 true) pa 8 (completionWord { k with status := 3 })
  | .fault _ => s

/-- The lines that the end of a context reads and writes (R251). -/
def termLines (s : State) (ctx : Nat) : List Nat :=
  match s.ctx? ctx with
  | some c => recordLines s c ++ (savedCmds s ctx).flatMap fun x => agentLines s c (tileDesc x.2.desc).doneAt 8
  | none => []

/-- The party of a report is one of these threads or a command of these teams. -/
def Waiter.isOf (s : State) (ids : List ThreadId) (teams : List Nat) (w : Waiter) : Bool :=
  match w with
  | .thread t | .reg t _ | .hazel t | .gone t _ => ids.contains t
  | .cmd k => (s.cmd? k).any fun x => teams.contains x.team
  | _ => false

/-- Nobody waits any more for a ticket of a context that has ended: all who did are its own. -/
def OpenTicket.ended (ctx : Nat) (o : OpenTicket) : OpenTicket := if o.ctx = ctx then { o with waiters := [] } else o

/-- A team's queues stop where they stand (R203). -/
def Team.stopQueues (tm : Team) : Team := { tm with queues := tm.queues.map fun (q : Queue) => { q with started := false } }

/-- A launch of a node of the context. -/
def Launch.isNodeOf (ctx : Nat) (l : Launch) : Bool :=
  match l with
  | .node k _ => k == ctx
  | .grid _ => false

/-- What a context's end takes away: its sleeping threads, their reports and waits, every away thread of it, those of its saved state among
them, and that state. -/
def dropParties (s : State) (ctx : Nat) (ids : List ThreadId) (teams : List Nat) : State :=
  { s with sleepers := s.sleepers.filter fun g => !(g.members.any fun t => ids.contains t)
           reports := s.reports.filter fun r => !(r.waiter.isOf s ids teams)
           hazels := s.hazels.filter fun h => !(h.ctx == ctx && h.home.isSome)
           interrupts := s.interrupts ++ [ctx]
           saved := s.saved.filter fun x => x.ctx != ctx
           tickets := s.tickets.map (OpenTicket.ended ctx)
           teams := updWhere (fun tm => tm.ctx == ctx) Team.stopQueues s.teams
           queues := s.queues.map fun (q : Nat × List Launch) => (q.1, q.2.filter fun l => !(l.isNodeOf ctx)) }

/-- Every compute thread of the context ends, and with them what R203 lists; STATE becomes terminated (R346). -/
def terminateContext (s : State) (ctx : Nat) : State :=
  match s.ctx? ctx with
  | none => s
  | some c =>
    let teams := (s.teams.filter fun tm => tm.ctx == ctx).map (·.id)
    let gone := (s.bundles.filter fun b => s.threads.any fun t => teams.contains t.team && b.has t.id).map (·.id)
    let ids := (s.threads.filter fun t => teams.contains t.team).map (·.id)
    let s := (savedCmds s ctx).foldl (fun s x => endSavedCmd s x.1 x.2) s
    let s := { s with threads := updWhere (fun t => teams.contains t.team) Thread.terminate s.threads }
    let s := dropParties (gone.foldl State.dropBundle s) ctx ids teams
    let s := ((s.cmds.filter fun x => teams.contains x.team).map (·.id)).foldl (fun s k => endCmd s k true) s
    let s := (s.grids.filter fun g => g.ctx == ctx).foldl (fun s g => completeGrid s g 3 0) s
    settle ((dropRecords s c).modCtx ctx fun c => { c with st := .terminated })

/-! ### Resolution of a ticket (R203, R232, R345, R346, R402, R410) -/

/-- A bundle whose chain did not issue for want of a granule (R205, R241), not at a `qpop`. -/
def granuleWait (s : State) (t : Thread) (b : Bundle) : Bool :=
  b.starved && (match instrAt s (s.ctxOf t) t.pc with | some (.qpop ..) => false | _ => true)

/-- WAIT of a thread record (R366), for what its bundle waits at and whether its chain waits for a granule. A thread that waits with the
faulting ones of its bundle waits for their tickets. -/
def waitCode (t : Thread) (b : Hold) (granule : Bool) : Nat :=
  let acc := fun (k : AccKind) => match k with | .waitc .. => 3 | .ldf .. => 4 | .stf _ => 5 | _ => 0
  match b with
  | .gsync .. => 1
  | .barSync .. => 2
  | .access k => ((t.pending.find? fun a => a.iid == k).map fun a => acc a.kind).getD 0
  | .txw _ => 6
  | _ => match t.status with | .asleep _ | .waiting => 8 | _ => if granule then 7 else 0

/-- The doublewords of a thread record, bytes 0-535 of the layout of R366. -/
def recordWords (s : State) (t : Thread) : List Word :=
  let tstate : Nat := match t.status with
    | .live | .frozen | .waiting => 1 | .asleep _ => 2 | .away => 3 | .continuation _ => 4 | .ended _ => 5
  let wait := waitCode t (((bundleOf s t.id).map (·.hold)).getD .none) ((bundleOf s t.id).any (granuleWait s t))
  let nrp := Nat.min 4 (t.pending.filter State.isLoad).length
  ((List.finRange 32).map t.regs.gval) ++ ((List.finRange 32).map t.regs.fval)
    ++ [t.pc, t.regs.mode, BitVec.ofNat 64 (t.rserial.toNat + t.regs.predByte.toNat * 2 ^ 32 + tstate * 2 ^ 40 + wait * 2 ^ 48 + nrp * 2 ^ 56)]

/-- The thread at a lane position of a group. -/
def groupThread (s : State) (team group pos : Nat) : Option Thread :=
  s.threads.find? fun t => t.team == team && t.group == group && t.id.pos == pos

/-- A thread takes G, F, MODE and PRED from its record of a snapshot (R402), and goes on where it was frozen. -/
def Thread.fromRecord (t : Thread) (w : Nat → Word) : Thread :=
  { t with status := if t.status = .frozen then .live else t.status
           regs := { t.regs with g := (Vector.ofFn fun (i : Fin 32) => w i.val).set 0 0
                                 f := Vector.ofFn fun (i : Fin 32) => w (32 + i.val)
                                 mode := modeLoaded (w 65)
                                 p := BitVec.ofNat 8 ((w 66).toNat / 2 ^ 32) ||| 1 } }

/-- Threads of a group that have not ended. -/
def groupThreads (s : State) (team group : Nat) : List Thread :=
  s.threads.filter fun t => t.team == team && t.group == group && t.alive

/-- The debug monitor resumes a group: registers from the snapshot, those of threads that sleep, wait or are away too, and every bundle
from where it stands. -/
def resumeDebug (s : State) (c : Context) (team group : Nat) (snap : Word) : State :=
  (groupThreads s team group).foldl (fun s t =>
    let rd := fun (k : Nat) => match ctxPa s c (snap + BitVec.ofNat 64 (1536 * t.id.pos + 8 * k)) with
      | some pa => BitVec.ofNat 64 (s.readM pa 8)
      | none => t.regs.get (.g 0)
    s.modThread t.id fun x => x.fromRecord rd) s

/-- The lines of a snapshot (R402). -/
def snapshotLines (s : State) (c : Context) (base : Word) : List Nat :=
  (List.range 32).flatMap fun i => agentLines s c (base + BitVec.ofNat 64 (1536 * i)) 536

/-- Every thread of a frozen group ends as by KILL, those that sleep, wait or are away among them (R346, R402). -/
def killGroup (s : State) (team group : Nat) : State :=
  let ts := groupThreads s team group
  let kill := fun (s : State) (t : Thread) =>
    ({ s.leaveBundle t.id with hazels := s.hazels.filter fun h => h.home != some t.id } : State).endThread t.id true
  settle (ts.foldl kill s)

/-- What a resolution does to one waiter. A stream that was stalled is frozen at its element by KILL (DESIGN CHOICE, log 85). -/
def resolveWaiter (s : State) (retry : Bool) : Waiter → State
  | .thread t => s.resolveThread t retry
  | .hazel t =>
    if retry then { s with hazels := updWhere (fun h => h.home == some t) (fun h => { h with asleep := false }) s.hazels }
    else settle ({ s with hazels := s.hazels.filter fun h => h.home != some t }.endThread t true)
  | .reg .. | .gone .. | .nobody => s
  | .cmd k =>
    match s.cmd? k with
    | some c => match c.phase with
      | .stalled _ => if retry then retryCmd s k else endCmd s k false
      | .frozen _ => endCmd s k false
      | _ => s
    | none => s
  | .stream tm q =>
    s.modQueue tm q fun x =>
      { x with stalled := false, frozen := if retry then x.frozen else some (nextAhead x) }

/-- A ticket takes no more merges and has no waiters left. -/
def closeTicket (s : State) (o : OpenTicket) : State :=
  { s with tickets := updWhere (fun x => x.ticket == o.ticket) (fun x => { x with done := true, waiters := [] }) s.tickets }

/-- One more party waits for a ticket. -/
def addWaiter (s : State) (o : OpenTicket) (w : Waiter) : State :=
  { s with tickets := updWhere (fun x => x.ticket == o.ticket) (fun x => { x with waiters := x.waiters ++ [w] }) s.tickets }

/-- A new ticket takes the place of an earlier one of its slot. -/
def putTicket (s : State) (o : OpenTicket) : State :=
  { s with tickets := (s.tickets.filter fun x => x.ticket != o.ticket) ++ [o] }

/-- The context's threads are away from their cores: what reaches them waits until it runs again (R165, R205). -/
def Context.absent (c : Context) : Bool :=
  match c.st with
  | .saved | .restoring | .stranded | .lost => true
  | _ => false

/-- Resolves a ticket: waiters learn of it, and groups whose tickets are all resolved go on. -/
def resolveTicket (s : State) (o : OpenTicket) (retry : Bool) : State :=
  if (s.ctx? o.ctx).any Context.absent then s else
  let s := closeTicket s o
  let s := o.waiters.foldl (fun s w => resolveWaiter s retry w) s
  let s := match o.debug, s.ctx? o.ctx with
    | some (tm, g, snap), some c => if retry then resumeDebug s c tm g snap else killGroup s tm g
    | _, _ => s
  settle s.wakeGroups

/-! ### FAULT_QUEUE_ENTRY (R338, R343, R344) -/

/-- An access whose result a later instruction waits for. -/
def owesResult (a : Access) : Bool :=
  match a.kind with
  | .ld _ | .lda .. | .ldf .. | .atom .. | .cas .. => true
  | _ => false

/-- Two not-resident faults raised by one instruction in threads of one bundle: the threads sleep together, or did. -/
def sameBundle (s : State) (r q : Report) : Bool :=
  r.kind == 0 && q.kind == 0 && r.nr && q.nr && (match r.waiter, q.waiter with
    | .thread t, .thread u => s.sleepers.any fun g => g.members.contains t && g.members.contains u
    | .gone _ n, .gone _ m => n == m
    | _, _ => false)

/-- The 64 KiB page of an entry. -/
def Report.page (r : Report) : Nat := r.eaddr.toNat / 2 ^ 16 % 2 ^ 41

/-- Another fault of the same instruction and bundle stands before this one (R380): threads fault in ascending lane order. -/
def faultsBefore (s : State) (r : Report) : Bool := s.reports.any fun q => sameBundle s r q && decide (q.id < r.id)

/-- The faults of later lanes of the same instruction on the page of a fault, which merge into its entry (R380). -/
def followers (s : State) (r : Report) : List Report :=
  s.reports.filter fun q => sameBundle s r q && decide (r.id < q.id) && q.page == r.page

/-- What the entry of a thread waits for has come: the earlier results of the threads that sleep together are written, and the gate of its
region is open, whether the thread waits for the entry or not (R338). -/
def trapSettled (s : State) (r : Report) : Bool :=
  match r.kind, r.waiter with
  | 0, .thread t => ((s.thread? t).all fun x => x.stage.isNone)
      && s.threads.all fun x => !(decide (x.id = t) || s.sleepers.any fun g => g.members.contains t && g.members.contains x.id)
          || (x.results == [] && !x.pending.any owesResult)
  | 0, .gone t _ => (s.thread? t).all fun x => x.gateOpen r.serial
  | _, _ => true

/-- The entry may be written with those that merge into it, and no fault of its bundle goes first (R380). -/
def reportReady (s : State) (r : Report) : Bool := !faultsBefore s r && (r :: followers s r).all (trapSettled s)

/-- The home slice that keeps a context's pending entries: that of its fault queue control block, which writes them (R343, R344). -/
def mergeSlice (s : State) (ctx : Nat) : Option Nat := ((s.ctx? ctx).bind fun c => ctxPa s c c.fqcb).bind homeSlice

/-- The table of the slice takes another pending entry (R344). -/
def mergeRoom (s : State) (ctx : Nat) : Bool :=
  decide ((s.tickets.filter fun o => o.nr && !o.done && mergeSlice s o.ctx == mergeSlice s ctx).length < 64)

/-- A pending entry of the table that a new one merges into (R344). -/
def mergeEntry (s : State) (r : Report) : Option OpenTicket :=
  if r.nr then
    (s.tickets.filter fun o => o.ctx == r.ctx && o.nr && !o.done).find? fun o => o.eaddr.toNat / 2 ^ 16 % 2 ^ 41 == r.page
  else none

/-- The party waits on a ticket: a sleeping thread records it, and `pgreq` receives its address (R147). -/
def waitOn (s : State) (w : Waiter) (va : Word) : State :=
  match w with
  | .thread t => s.modThread t fun x => { x with status := match x.status with | .asleep none => .asleep (some va) | st => st }
  | .reg t d => s.modThread t fun x => x.deliver [(.g d, va)]
  | .hazel t => { s with hazels := updWhere (fun h => h.home == some t) (fun h => { h with asleep := true }) s.hazels }
  | _ => s

/-- HDR (R341). -/
def hdrWord (s : State) (r : Report) : Word :=
  let part := ((s.ctx? r.ctx).map (·.part)).getD 0
  BitVec.ofNat 64 (2 ^ 32 + r.ctx % 2 ^ 12 * 2 ^ 16 + part % 16 * 2 ^ 12 + (if r.nr then 2 ^ 11 else 0) + r.kind % 8 * 2 ^ 8 + r.cause.code)

/-- TICKET at creation (R343); a frozen stream's entry takes 1 (log 32). -/
def ticket0 (r : Report) : Nat :=
  match r.kind with
  | 0 | 1 => 0
  | 2 => if r.cause = .tileStatus then 1 else 0
  | 3 => if r.nr then 0 else 1
  | 4 => 1
  | _ => 2

/-- The eight doublewords of an entry (R340). -/
def entryWords (s : State) (r : Report) : List Word :=
  [hdrWord s r, r.epc, r.eaddr, BitVec.ofNat 64 r.who, r.rentry, BitVec.ofNat 64 (r.serial.toNat + r.info % 2 ^ 32 * 2 ^ 32),
   BitVec.ofNat 64 r.stamp, BitVec.ofNat 64 (ticket0 r)]

/-- Raises COUNT of an entry, which saturates (R341, R344). -/
def raiseCount (s : State) (entry : Nat) : State :=
  let n := s.readM (entry + 4) 2
  writeMaster s (entry + 4) 2 (Nat.min 0xFFFF (n + 1))

/-- A report merges into an entry (R344). -/
def mergeInto (o : OpenTicket) (s : State) (r : Report) : State := waitOn (raiseCount (addWaiter s o r.waiter) o.entry) r.waiter o.va

/-- One entry reaches the ring, merges, or, for a watch record without room, is dropped. The faults of later lanes on its page merge into
it with it (R380). -/
def execFaultQueueEntry (report : Nat) (s : State) : Host.Outcome State Fault Refusal :=
  match s.reports.find? fun r => r.id == report with
  | none => .next s
  | some r =>
    let late := if mergeRoom s r.ctx || (mergeEntry s r).isSome then followers s r else []
    let out := { s with reports := s.reports.filter fun x => x.id != report && !late.any fun q => q.id == x.id }
    match s.ctx? r.ctx with
    | none => .next out
    | some c =>
      if !reportReady s r then .next s
      else match mergeEntry s r with
      | some o =>
        let hold := heldBy s none [lineOf o.entry]
        if hold ≠ [] then .next (s.publishFor hold)
        else .next ((r :: late).foldl (mergeInto o) out)
      | none =>
        match ctxPa s c c.fqcb with
        | none => .next s
        | some q =>
          let cap := s.readM (q + 8) 8
          let tail := s.readM (q + 16) 8
          let used := (tail + 2 ^ 64 - s.readM (q + 24) 8) % 2 ^ 64
          let va : Word := BitVec.ofNat 64 (s.readM q 8 + 64 * (tail % (if cap = 0 then 1 else cap)))
          let hold := heldBy s none (agentLines s c c.fqcb 64 ++ agentLines s c va 64)
          if hold ≠ [] then .next (s.publishFor hold)
          else
            match ctxPa s c va with
            | none => .next s
            | some e =>
              if used < cap ∧ s.readM (e + 56) 8 ≠ 0 then
                let s := writeDwords out e (entryWords s r)
                let s := writeMaster s (q + 16) 8 ((tail + 1) % 2 ^ 64)
                let o : OpenTicket := { ctx := r.ctx, ticket := e + 56, va := va + 56, done := ticket0 r ≠ 0, nr := r.nr && mergeRoom s r.ctx
                                        eaddr := r.eaddr, entry := e, waiters := [r.waiter], debug := none }
                .next (late.foldl (mergeInto o) (waitOn (putTicket s o) r.waiter (va + 56)))
              else if r.kind = 4 then .next (writeMaster out (q + 32) 8 ((s.readM (q + 32) 8 + 1) % 2 ^ 64))
              else .next s

/-! ### `hresume` (R203) -/

inductive Resolution where
  | retry | kill | term
  deriving DecidableEq, Repr

/-- The ticket that a thread's gA names, in the handler's context. -/
def ticketAt (s : State) (t : Thread) (va : Word) : Except Cause (OpenTicket × XEff) :=
  if !canonical va || inAperture va then .error .access
  else match s.xlate .access t.id.core none (s.ctxOf t) (s.hlevel t) va .write (s.stalePick t.id.lane) with
    | .fault _ => .error .access
    | .ok pa x => match s.tickets.find? fun o => o.ticket == pa with
      | some o => .ok (o, x)
      | none => .error .access

/-- One thread's resolution: nothing on a ticket that already holds 1 or 2. -/
def resolveAs (s : State) (o : OpenTicket) (k : Resolution) : State :=
  if s.readM o.ticket 8 % 4 ≠ 0 then s
  else
    let s := writeMaster s o.ticket 8 (if k = .retry then 1 else 2)
    match k with
    | .retry => resolveTicket s o true
    | .kill => resolveTicket s o false
    | .term => terminateContext (closeTicket s o) o.ctx

/-- The lines that a resolution reads and writes (R251): the ticket's, a debug event's snapshot, and those of a context's end. -/
def resolveLines (s : State) (o : OpenTicket) (k : Resolution) : List Nat :=
  lineOf o.ticket :: match k, o.debug, s.ctx? o.ctx with
    | .retry, some (_, _, base), some c => snapshotLines s c base
    | .term, _, _ => termLines s o.ctx
    | _, _, _ => []

/-- `hresume` (R203): a privilege trap at U, an access fault for an address that is no ticket; a commit instruction and a
release at SYSTEM scope. -/
def hresume (k : Resolution) (h : Hdr) (a : Fin 32) (s : State) : State :=
  let ex := s.executing h
  let priv := ex.filter fun t => !s.hlevel t
  if priv ≠ [] then s.trapIn priv .privilege
  else
    let ts := laneOrder (ex.filter fun t => t.kept.isNone)
    let holders := s.walkHolders (ts.map fun t => (t, t.view.gval a))
    let bad := ts.filterMap fun t => match ticketAt s t (t.view.gval a) with
      | .error c => some (⟨t.id, c, t.pc, t.view.gval a, accInfo 8 2, false⟩ : Trap)
      | .ok _ => none
    if holders ≠ [] then s.publishFor holders
    else if bad ≠ [] then s.takeTraps bad
    else if !ts.all (quiet s) then ts.foldl (fun s t => releaseMark s t) s
    else
      let os := ts.filterMap fun t => match ticketAt s t (t.view.gval a) with | .ok x => some x | .error _ => none
      let hold := heldBy s none (os.flatMap fun x => resolveLines s x.1 k)
      if hold ≠ [] then s.publishFor hold
      else if os.any fun x => s.xWaits x.2 then s
      else
        let s := os.foldl (fun s x => s.applyXEff x.2) s
        let s := (ts.foldl (fun s t => s.modThread t.id fun x => x.keepReply x.rserial 0) s).advance 1
        os.foldl (fun s x => resolveAs s x.1 k) s

def execHresumeRetry (h : Hdr) (a : Fin 32) (s : State) : Host.Outcome State Fault Refusal := .next (hresume .retry h a s)
def execHresumeKill (h : Hdr) (a : Fin 32) (s : State) : Host.Outcome State Fault Refusal := .next (hresume .kill h a s)
def execHresumeTerm (h : Hdr) (a : Fin 32) (s : State) : Host.Outcome State Fault Refusal := .next (hresume .term h a s)

/-! ### `brk` (R201, R402) -/

/-- Freezes a group where it stands: its bundles keep what they wait at (R201). -/
def freezeInPlace (s : State) (team group : Nat) : State :=
  let mine := fun (t : Thread) => t.team == team && t.group == group && decide (t.status = .live)
  { s with threads := updWhere mine (fun t => { t with status := .frozen, snap := none }) s.threads, focus := none }

/-- The snapshot of a group: the records of its 32 threads in lane order, registers outside the budget as zero (R366). -/
def writeSnapshot (s : State) (c : Context) (team group : Nat) (base : Word) : State :=
  (List.range 32).foldl (fun s' i => match groupThread s team group i with
    | some t => vaWrites s' c (base + BitVec.ofNat 64 (1536 * i)) (recordWords s { t with regs := t.regs.inBudget (s.teamOf t).kernel })
    | none => s') s

/-- The lines of the snapshot, the event and the debug block. -/
def debugLines (s : State) (c : Context) (base ev : Word) : List Nat :=
  agentLines s c c.dbgBlk 64 ++ agentLines s c ev 64 ++ snapshotLines s c base

/-- `brk`: without an attached monitor it has no effect; with one it waits for room, writes the snapshot and the event and
freezes the group. -/
def execBrk (h : Hdr) (e : Exts) (s : State) : Host.Outcome State Fault Refusal :=
  let n := extsWords e
  match laneOrder (s.executing h) with
  | [] => .next (s.advance n)
  | t :: _ =>
    let c := s.ctxOf t
    if !c.dbg then .next (s.advance n)
    else match ctxPa s c c.dbgBlk with
    | none => .next s
    | some d =>
      let tail := s.readM d 8
      let cap := s.readM (d + 16) 8
      if cap ≤ (tail + 2 ^ 64 - s.readM (d + 8) 8) % 2 ^ 64 then .next s
      else
        let k := tail % (if cap = 0 then 1 else cap)
        let base : Word := BitVec.ofNat 64 (s.readM (d + 24) 8 + k * 0xC000)
        let ev : Word := c.dbgBlk + BitVec.ofNat 64 (64 + 64 * k)
        let hold := heldBy s none (debugLines s c base ev)
        if hold ≠ [] then .next (s.publishFor hold)
        else match ctxPa s c ev with
        | none => .next s
        | some pe =>
          let r : Report :=
            { id := 0, ctx := c.id, kind := 0, cause := .softTrap, nr := false, epc := t.pc, eaddr := trapCode e
              who := whoWord thisModule 0 t.id.posWord, rentry := t.entry, serial := t.rserial, info := 0, stamp := s.tstamp
              waiter := .nobody }
          let s0 := s.restoreGroup t.team t.group
          let s1 := writeDwords (writeSnapshot s0 c t.team t.group base) pe (entryWords s r)
          let s1 := writeMaster s1 d 8 ((tail + 1) % 2 ^ 64)
          let o : OpenTicket := { ctx := c.id, ticket := pe + 56, va := ev + 56, done := false, nr := false, eaddr := trapCode e
                                  entry := pe, waiters := [], debug := some (t.team, t.group, base) }
          .next (freezeInPlace ((putTicket s1 o).advance n) t.team t.group)

end Sys2Proof.Machine
end

