-- ==== Sys2Proof/Machine/Select.lean ====
section
/-! DEFINITION. What an instruction reads and writes (R55, R57, R160, R207, R243), fetch (R50, R51, R303, R400), the chain
at an address (R52, R63), when a bundle is ready (R321), the choice of a lane group (R322), merge windows, yields, walks
(R202, R303, R324), and runahead entry and restore (R330, R331, R334). -/

namespace Sys2Proof
open Sys2Proof.Machine

/-- The MODE fields that rounding reads and the flags it raises (R55). -/
def modeSrc : List RegName := [.mode]

/-- The registers an instruction reads beside its guard (R44, R57, R160, R207, R243). -/
def Instr.operands : Instr → List RegName
  | .add _ _ a b | .sub _ _ a b | .addw _ _ a b | .subw _ _ a b | .mul _ _ a b | .mulw _ _ a b | .mulh _ _ a b
  | .mulhz _ _ a b | .div _ _ a b | .divz _ _ a b | .rem _ _ a b | .remz _ _ a b | .min _ _ a b | .max _ _ a b
  | .minz _ _ a b | .maxz _ _ a b | .and _ _ a b | .or _ _ a b | .xor _ _ a b | .andn _ _ a b | .sll _ _ a b
  | .srl _ _ a b | .sra _ _ a b | .rot _ _ a b | .bfx _ _ a b | .clmul _ _ a b | .clmulh _ _ a b | .icmp _ _ _ a b
  | .sel _ _ a b | .sh1add _ _ a b | .sh2add _ _ a b | .sh3add _ _ a b | .sh4add _ _ a b => .g a :: b.gsrc
  | .bfi _ d a b => .g d :: .g a :: b.gsrc
  | .clz _ _ a | .ctz _ _ a | .popc _ _ a | .brev _ _ a | .pmovGp _ a | .hresumeRetry _ a | .hresumeKill _ a
  | .hresumeTerm _ a | .nextg _ a | .callg _ a | .ret _ a | .sysc _ a | .txf _ a | .scfg _ _ a => [.g a]
  | .plog _ _ _ _ pa _ pb => [.p pa, .p pb]
  | .pmovPg _ _ => allPreds
  | .gets _ _ sr => if sr.val = 15 then [.mode, .fflags] else if sr.val = 24 then [.cause]
      else if sr.val = 25 then [.epc] else if sr.val = 26 then [.eaddr] else []
  | .sets _ _ b | .yield _ b => b.gsrc
  | .faddS _ _ a b | .fsubS _ _ a b | .fmulS _ _ a b | .fdivS _ _ a b | .faddD _ _ a b | .fsubD _ _ a b | .fmulD _ _ a b
  | .fdivD _ _ a b | .paddH _ _ a b | .pmulH _ _ a b => .f a :: b.fsrc ++ modeSrc
  | .ffmaS _ d a b | .ffmaD _ d a b | .pfmaH _ d a b | .pfmaB _ d a b | .fdotH _ d a b | .fdotB _ d a b =>
    .f d :: .f a :: b.fsrc ++ modeSrc
  | .fminS _ _ a b | .fmaxS _ _ a b | .fminD _ _ a b | .fmaxD _ _ a b | .fcmpS _ _ _ a b | .fcmpD _ _ _ a b => .f a :: b.fsrc
  | .fsqrtS _ _ a | .fsqrtD _ _ a => .f a :: modeSrc
  | .fcvt _ _ a code => (if fcvtReadsG code then RegName.g a else .f a) :: (if fcvtExact code then [] else modeSrc)
  | .funaryS _ _ a _ | .funaryD _ _ a _ => [.f a]
  | .fmv _ _ a code => [if code.val = 0 then .g a else .f a]
  | .idotB _ d a b => .g d :: .f a :: b.fsrc
  | .pshuf _ d a b => .f d :: .f a :: b.fsrc
  | .ld _ _ a _ _ | .ldf _ _ a _ _ => [.g (base16 a)]
  | .st _ d a b _ | .stf _ d a b _ =>
    .g (base16 a) :: dataReg (isFClass a) d :: (if b.val % 8 = 4 then [dataReg (isFClass a) (oddOf d)] else [])
  | .lda _ _ a _ _ | .ldnr _ _ a _ _ | .pref _ a _ _ | .pgreq _ _ a _ => [.g a]
  | .stl _ d a b _ => .g a :: .g d :: (if b.val % 8 = 4 then [.g (oddOf d)] else [])
  | .atom _ d a _ _ => [.g a, .g d]
  | .cas _ d a _ _ => [.g a, .g d, .g (oddOf d)]
  | .waitc _ _ _ a b _ => [.g a, .g b]
  | .tlbiPage _ d a => [.g d, .g a]
  | .tlbiCtx _ d | .tlbiPart _ d => [.g d]
  | .region _ e1 e2 => maskRegs e1 e2
  | .gsync _ m | .txw _ m => m.src
  | .vote _ _ _ pa _ => [.p pa]
  | .shfl _ _ a b => [.g a, .g b]
  | .barSync _ _ b | .barArr _ _ b => [.g b]
  | .recd _ d a => .g a :: (List.finRange 32).filterMap fun i => if d.val ≤ i.val ∧ i.val < d.val + 8 then some (.g i) else none
  | .mma _ _ a b | .mmas _ _ a b | .mmat _ _ a b | .accwr _ _ a b => [.g a, .g b]
  | .accrd _ _ _ b | .acccvt _ _ b => [.g b]
  | .qpush _ _ a isF => [dataReg isF a]
  | _ => []

/-- The registers that an instruction reads, guard and selector among them (R55, R57); g0 and p0 are constants (R23). -/
def Instr.reads (i : Instr) : List RegName :=
  ((match i.hdr? with | some h => [RegName.p h.p] | none => []) ++ i.operands).filter fun n => n != .g 0 && n != .p 0

/-- The registers that an instruction writes with a fixed latency, with that latency (R55). -/
def Instr.fixedWrites : Instr → List (RegName × Nat)
  | .add _ d _ _ | .sub _ d _ _ | .addw _ d _ _ | .subw _ d _ _ | .min _ d _ _ | .max _ d _ _ | .minz _ d _ _
  | .maxz _ d _ _ | .and _ d _ _ | .or _ d _ _ | .xor _ d _ _ | .andn _ d _ _ | .sll _ d _ _ | .srl _ d _ _ | .sra _ d _ _
  | .rot _ d _ _ | .bfx _ d _ _ | .bfi _ d _ _ | .clmul _ d _ _ | .clmulh _ d _ _ | .sel _ d _ _ | .sh1add _ d _ _
  | .sh2add _ d _ _ | .sh3add _ d _ _ | .sh4add _ d _ _ | .clz _ d _ | .ctz _ d _ | .popc _ d _ | .brev _ d _
  | .pmovPg _ d | .gets _ d _ => [(.g d, 4)]
  | .mul _ d _ _ | .mulw _ d _ _ | .mulh _ d _ _ | .mulhz _ d _ _ | .idotB _ d _ _ => [(.g d, 6)]
  | .icmp _ _ pd _ _ | .plog _ _ pd _ _ _ _ => [(.p pd, 4)]
  | .pmovGp _ _ => allPreds.map fun p => (p, 4)
  | .sets _ sr _ => if sr.val = 15 then [(.mode, 4), (.fflags, 4)] else if sr.val = 24 then [(.cause, 4)]
      else if sr.val = 25 then [(.epc, 4)] else [(.eaddr, 4)]
  | .faddS _ d _ _ | .fsubS _ d _ _ | .fmulS _ d _ _ | .ffmaS _ d _ _ | .fminS _ d _ _ | .fmaxS _ d _ _ | .faddD _ d _ _
  | .fsubD _ d _ _ | .fmulD _ d _ _ | .ffmaD _ d _ _ | .fminD _ d _ _ | .fmaxD _ d _ _ | .pfmaH _ d _ _ | .pfmaB _ d _ _
  | .fdotH _ d _ _ | .fdotB _ d _ _ | .paddH _ d _ _ | .pmulH _ d _ _ => [(.f d, 6), (.fflags, 6)]
  | .pshuf _ d _ _ => [(.f d, 6)]
  | .fcmpS _ _ pd _ _ | .fcmpD _ _ pd _ _ => [(.p pd, 6), (.fflags, 6)]
  | .fcvt _ d _ code => [(if 6 ≤ code.val ∧ code.val ≤ 13 then .g d else .f d, 6), (.fflags, 6)]
  | .funaryS _ d _ code | .funaryD _ d _ code =>
    if code.val = 2 then [(.g d, 6)] else if code.val < 2 then [(.f d, 6)] else [(.f d, 8), (.fflags, 8)]
  | .fmv _ d _ code => [(if code.val = 1 then .g d else .f d, 6)]
  | _ => []

/-- The registers that an instruction writes by an interlocked result (R55). -/
def Instr.lockedWrites : Instr → List RegName
  | .div _ d _ _ | .divz _ d _ _ | .rem _ d _ _ | .remz _ d _ _ => [.g d]
  | .fdivS _ d _ _ | .fdivD _ d _ _ | .fsqrtS _ d _ | .fsqrtD _ d _ => [.f d, .fflags]
  | .ld _ d a b _ | .ldf _ d a b _ =>
    dataReg (isFClass a) d :: (if b.val % 8 = 4 then [dataReg (isFClass a) (oddOf d)] else [])
  | .lda _ d _ b _ => .g d :: (if b.val % 8 = 4 then [.g (oddOf d)] else [])
  | .ldnr _ d _ b _ => [.g d, .p ⟨4 + b.val / 8 % 4, by omega⟩]
  | .pgreq _ d _ _ | .atom _ d _ _ _ | .vote _ d _ _ _ | .shfl _ d _ _ | .accrd _ d _ _ => [.g d]
  | .cas _ d _ _ _ => [.g d, .g (oddOf d)]
  | .waitc _ _ pd _ _ _ => [.p pd]
  | .call .. | .callg .. => [.g 1]
  | .qpop _ d isF _ pv => [dataReg isF d, .p pv]
  | _ => []

/-- Every register that an instruction writes. -/
def Instr.writes (i : Instr) : List RegName := i.fixedWrites.map (·.1) ++ i.lockedWrites

/-- The destinations that a chain may name once (R52): registers and predicates, not the flags. g0 and p0 count, since an instruction
names them although their writes are discarded, and so does g1, which `call` and `callg` write without naming it in a field (DEDUCED, log 71);
`pmov.gp` names p1-p7, as the rule lists them. -/
def Instr.dests (i : Instr) : List RegName :=
  match i with
  | .call .. | .callg .. => [.g 1]
  | _ => i.writes.filter (· != .fflags)

end Sys2Proof

namespace Sys2Proof.Machine

/-! ### Interlocked results (R55) -/

/-- The registers that a pending access has still to write. -/
def Access.owes (a : Access) : List RegName :=
  match a.kind with
  | .ld x | .lda x _ | .ldf x _ => (x.results 0).map (·.1)
  | .atom _ d _ => [.g d]
  | .cas d .. => [.g d, .g (oddOf d)]
  | .waitc _ pd .. => [.p pd]
  | _ => []

/-- The registers that a result in flight has still to write; the flags of a division or root among them. -/
def PendRes.owes (r : PendRes) : List RegName :=
  match r.dst with
  | .g d => [.g d]
  | .f d => [.f d, .fflags]
  | .rows _ => []

namespace State

/-- The registers that a thread's interlocked results have yet to write: of its accesses, its results, and the tickets
that its requests wait for. -/
def outstanding (s : State) (t : Thread) : List RegName :=
  (t.pending.flatMap Access.owes ++ t.results.flatMap PendRes.owes
    ++ s.reports.filterMap fun r => match r.waiter with | .reg u d => if u = t.id then some (RegName.g d) else none | _ => none)
  |>.filter fun n => n != .g 0 && n != .p 0

/-! ### Fetch (R50, R51, R303) -/

end State

/-- What fetching a word finds: its bytes with the translation used, or the fault of its first failing byte. -/
inductive FetchRes where
  | ok (w : BitVec 32) (eff : XEff) (line : IcLine)
  | fault (ea : Word) (c : Cause)
  deriving DecidableEq, Repr

/-- The line that a core's fetch of an address delivers: the line its instruction cache holds, or the bytes of memory as a
fill brings them. Which of the two is not promised where they differ (R51): `old` takes the held one. -/
def fetchLine (s : State) (core : Nat) (c : Context) (pa va : Nat) (e : TlbEntry) (old : Bool) : Option IcLine :=
  let fill := (fillLine s c pa va).map fun b => (⟨lineOf pa, b, c.id, e.vbase, e.size⟩ : IcLine)
  match (s.core core).icache.find? fun l => l.line == lineOf pa && l.ctx == c.id with
  | some l => if fill.any (fun x => x.bytes == l.bytes) then fill else if old then some l else fill
  | none => fill

/-- Fetches the word at an address for a thread (R38, R50); a word lies in one line. `k` numbers the word among the free
choices of the issue. -/
def fetchWord (s : State) (t : Thread) (a : Word) (k : Nat) : FetchRes :=
  if !canonical a then .fault a .fetch
  else match s.xlate .fetch t.id.core none (s.ctxOf t) (s.hlevel t) a .fetch (Config.freeBit (s.fresh + k)) with
    | .fault c => .fault a c
    | .ok pa e =>
      match fetchLine s t.id.core (s.ctxOf t) pa (a.toNat % 2 ^ 57) e.entry (Config.freeBit (s.fresh + k + 64)) with
      | some l => .ok (BitVec.ofNat 32 (l.bytes / 2 ^ (8 * (pa % 64)))) e l
      | none => .fault a .fetch

/-- The words of an instruction: the first, and as many extension words as its L asks for. -/
inductive WordsRes where
  | ok (ws : List (BitVec 32)) (effs : List (XEff × IcLine))
  | fault (ea : Word) (c : Cause)
  deriving DecidableEq, Repr

/-- Fetches `n` words in address order. -/
def fetchWords (s : State) (t : Thread) : (n : Nat) → Word → Nat → WordsRes
  | 0, _, _ => .ok [] []
  | n + 1, a, k =>
    match fetchWord s t a k with
    | .fault ea c => .fault ea c
    | .ok w e l =>
      match fetchWords s t n (a + 4) (k + 1) with
      | .fault ea c => .fault ea c
      | .ok ws es => .ok (w :: ws) ((e, l) :: es)

/-- Words that L asks for beside the first; a word with L = 3 is taken alone. -/
def extraWords (w : BitVec 32) : Nat := let l := w.toNat / 2 ^ 26 % 4; if l = 3 then 0 else l

/-- A trap found before an instruction of the chain executes (R63, parts 1 and 2): where, its EADDR and whether its page is
not resident. -/
structure FetchTrap where
  cause : Cause
  epc : Word
  ea : Word
  nr : Bool
  deriving DecidableEq, Repr

/-- The chain at an address: its members, the translations and lines it used, and the first trap of R63 before its
privilege checks. -/
structure Chain where
  members : List Member
  effs : List (XEff × IcLine)
  trap : Option FetchTrap
  deriving DecidableEq, Repr

/-- The fetch fault of R50, an access fault at a non-canonical address (R34); the entry is marked not resident where the page
is. -/
def fetchTrap (epc ea : Word) (c : Cause) : FetchTrap := ⟨if canonical ea then .fetch else .access, epc, ea, c == .notResident⟩
def illegalTrap (epc : Word) : FetchTrap := ⟨.illegal, epc, 0, false⟩

/-- A tile number that an instruction names (R24). -/
def tileNumber : Instr → Option Nat
  | .mma _ d _ _ | .mmas _ d _ _ | .mmat _ d _ _ | .accz _ d | .accwr _ d _ _ => some d.val
  | .accrd _ _ a _ | .acccvt _ a _ => some a.val
  | _ => none

/-- The tile lies beyond the team's count: illegal in its own word (R24). -/
def tileIllegal (s : State) (t : Thread) (i : Instr) : Bool :=
  match tileNumber i with
  | some n => (s.teamOf t).kernel.acc ≤ n
  | none => false

/-- The word after a commit instruction is fetched when the commit issues, and is that of `region` (R50, R186). -/
def successorTrap (s : State) (t : Thread) (service : Bool) (pc next : Word) (k : Nat) : Option FetchTrap :=
  match fetchWord s t next k with
  | .fault ea c => some (fetchTrap pc ea c)
  | .ok w _ _ =>
    if !isRegionWord w.toNat then some (illegalTrap pc)
    else if service then
      -- the `region` after a `sysc` names g10-g17 (R198); a fault of its next word is its own
      match fetchWord s t (next + 4) (k + 1) with
      | .ok m _ _ => if m &&& serviceMask = serviceMask then none else some (illegalTrap pc)
      | .fault .. => none
    else none

/-- The chain at an address in its first members (R52): each is fetched and decoded, its own illegality found (R63). Of a chain
that is too long the first four members are looked at, and no word after a segment end (DESIGN CHOICE, log 62). -/
def collect (s : State) (t : Thread) : (fuel : Nat) → Word → Nat → Chain
  | 0, _, _ => ⟨[], [], none⟩
  | n + 1, a, k =>
    match fetchWords s t 1 a k with
    | .fault ea c => ⟨[], [], some (fetchTrap a ea c)⟩
    | .ok ws es =>
      match ws.head? with
      | none => ⟨[], [], none⟩
      | some w =>
        match fetchWords s t (extraWords w) (a + 4) (k + 1) with
        | .fault ea c => ⟨[], es, some (fetchTrap a ea c)⟩
        | .ok xs es2 =>
          match decodeWords (w :: xs) with
          | .error _ => ⟨[], es ++ es2, some (illegalTrap a)⟩
          | .ok (i, len) =>
            let next := a + BitVec.ofNat 64 (4 * len)
            let m : Member := ⟨a, i, len⟩
            if tileIllegal s t i then ⟨[m], es ++ es2, some (illegalTrap a)⟩
            else match (if i.isCommit then successorTrap s t (match i with | .sysc .. => true | _ => false) a next (k + 3) else none) with
              | some x => ⟨[m], es ++ es2, some x⟩
              | none =>
                if (i.hdr?.map (·.c)).getD false && !i.endsSegment then
                  let rest := collect s t n next (k + 5)
                  ⟨m :: rest.members, es ++ es2 ++ rest.effs, rest.trap⟩
                else ⟨[m], es ++ es2, none⟩

/-- Two of a list share an element. -/
def hasDup {α : Type} [DecidableEq α] : List α → Bool
  | [] => false
  | x :: rest => rest.contains x || hasDup rest

/-- The limits of R52: at most three instructions and six words, each on its own pipe, no stall count before the last, no
segment end with C = 1, and no destination named twice. -/
def chainOk (l : List Member) : Bool :=
  decide (l.length ≤ 3) && decide ((l.foldl (fun n m => n + m.words) 0) ≤ 6) && !hasDup (l.map fun m => pipeOf m.instr)
    && (l.dropLast.all fun m => ((m.instr.hdr?.map (·.s)).getD 0) == 0)
    && (l.all fun m => !(m.instr.endsSegment && (m.instr.hdr?.map (·.c)).getD false))
    && !hasDup (l.flatMap fun m => m.instr.dests.eraseDups)

/-- The chain at an address (R52, R63 parts 1 and 2). -/
def chainAt (s : State) (t : Thread) (a : Word) : Chain :=
  let c := collect s t 4 a 0
  match c.trap with
  | some _ => c
  | none => if chainOk c.members then c else { c with trap := some (illegalTrap a) }

/-- The registers that a chain waits for (R55): those it reads and those it writes. A `region` also checkpoints the
predicates and MODE (R352), and an `exit` waits for nothing. -/
def chainRegs (l : List Member) : List RegName :=
  l.flatMap fun m => m.instr.reads ++ m.instr.writes
    ++ (match m.instr with | .region .. => allPreds ++ [.mode, .fflags] | _ => [])

/-- An interlocked result that the chain reads or overwrites is outstanding in some thread (R55, R321). -/
def interlocked (s : State) (ts : List Thread) (l : List Member) : Bool :=
  let regs := chainRegs l
  ts.any fun t => (s.outstanding t).any fun n => regs.contains n

/-! ### Readiness (R321) -/

/-- The chain of a bundle waits at a `qpop` for its row, or at an operand granule of a product (R215, R321). -/
def chainWaits (s : State) (b : Bundle) (l : List Member) : Bool :=
  let s := { s with focus := some b.id }
  l.any fun m => match m.instr with
    | .qpop h _ isF q _ => rowAwaited s h isF q
    | i => unfetched s i != []

namespace State

/-- The threads of a bundle. -/
def bundleThreads (s : State) (b : Bundle) : List Thread := s.threads.filter fun t => b.has t.id

/-- The lane group of a bundle. -/
def laneGroup (s : State) (b : Bundle) : LaneGroup := (((s.core b.core).lgs)[b.lg]?).getD ⟨false, 0, 0, 0⟩

/-- Entries of the log of a lost core, which no thread owns, are still to drain (R310, R355). -/
def logWaits (c : Core) : Bool := c.tb.any fun i => match i with | .entry _ _ _ _ w => w == [] | .marker _ => false

/-- The core may issue in this cycle: it is present and powered, no log of a loss is left to drain, and its clock mask allows it (R394). -/
def coreIssues (s : State) (core : Nat) : Bool :=
  let c := s.core core
  !c.gated && !c.stopping && !c.withdrawn && !logWaits c && c.clockMask.getLsbD (s.tstamp % 32)

/-- A bundle in the middle of a chain finishes it before its core is gated (R53). -/
def coreFinishes (s : State) (b : Bundle) : Bool := b.mid.isSome && !(s.core b.core).gated

/-- The bundle waits at nothing, each of its threads is live in a running context, and its island has the voltage of its mode. -/
def mayIssue (s : State) (b : Bundle) : Bool :=
  let ts := s.bundleThreads b
  ts != [] && b.hold == .none && ts.all (fun t => t.status == .live && (s.ctxOf t).runs)
    && b.eligible ≤ (s.laneGroup b).icycle && (s.coreIssues b.core || s.coreFinishes b) && fed s b.core (s.laneGroup b)

/-- The matrix unit goes on fetching the operands of the product at which a bundle stands, once no interlocked result is awaited. -/
def fetchFor (s : State) (b : Bundle) : State :=
  match s.bundleThreads b with
  | [] => s
  | t :: ts =>
    let c := chainAt s t t.pc
    if b.ra.isSome || b.mid.isSome || !s.mayIssue b || c.trap.isSome || interlocked s (t :: ts) c.members then s
    else c.members.foldl (fun s m => fetchOperands s b m.instr) s

/-- The next chain of a bundle waits at a `qpop` or an operand granule (R321). -/
def bundleWaits (s : State) (b : Bundle) : Bool :=
  b.ra.isNone && b.mid.isNone && s.mayIssue b && match s.bundleThreads b with
    | [] => false
    | t :: _ => let c := chainAt s t t.pc
                c.trap.isNone && chainWaits s b c.members

/-- Ready (R321); in runahead, and in the middle of a chain, no interlocked result is waited for (R332, R53). -/
def ready (s : State) (b : Bundle) : Bool :=
  s.mayIssue b && (b.ra.isSome || b.mid.isSome || match s.bundleThreads b with
    | [] => false
    | t :: ts => let c := chainAt s t t.pc
                 c.trap.isSome || (!interlocked s (t :: ts) c.members && !chainWaits s b c.members))

/-! ### The choice (R322) -/

/-- The keys of R322 for a bundle, smaller first. -/
def issueKey (s : State) (b : Bundle) : List Nat :=
  let prio := (((s.bundleThreads b).head?).map fun t => (s.ctxOf t).prio).getD 0
  [(match b.boost with | some n => n | none => 2 ^ 64), (if b.ra.isSome then 1 else 0), 7 - prio, b.stamp, b.slot, (b.lanes.head?).getD 0]

end State

/-- Lexicographic comparison. -/
def keyLt : List Nat → List Nat → Bool
  | a :: as, b :: bs => decide (a < b) || (decide (a = b) && keyLt as bs)
  | _, _ => false

/-- The element with the least key, the first among equals. -/
def leastBy {α : Type} (key : α → List Nat) : List α → Option α
  | [] => none
  | x :: rest => match leastBy key rest with
    | none => some x
    | some y => if keyLt (key y) (key x) then some y else some x

namespace State

/-- The ready bundles of a lane group. -/
def readyIn (s : State) (core : Nat) (lg : Nat) : List Bundle := s.bundles.filter fun b => b.core == core && b.lg == lg && s.ready b

/-- The bundle that a lane group issues. -/
def pick (s : State) (core : Nat) (lg : Nat) : Option Bundle := leastBy s.issueKey (s.readyIn core lg)

end State

/-- A cycle of a lane group's clock: in near-threshold mode an instruction cycle spans four (R9, R59). -/
def LaneGroup.tick (g : LaneGroup) (waits : Bool) : LaneGroup :=
  let g := { g with waited := if waits then g.waited + 1 else 0 }
  if g.near then (if 3 ≤ g.phase then { g with icycle := g.icycle + 1, phase := 0 } else { g with phase := g.phase + 1 })
  else { g with icycle := g.icycle + 1, phase := 0 }

namespace State

/-- The next chain of a bundle waits for a load: it reads or overwrites a register that a load has still to write, once its stall count is
over, or it loads where a thread has four loads outstanding (R166). -/
def awaitsLoad (s : State) (b : Bundle) : Bool :=
  b.ra.isNone && b.mid.isNone && match s.bundleThreads b with
    | [] => false
    | t :: ts =>
      let c := chainAt s t t.pc
      let loads := fun (x : Thread) => x.pending.filter State.isLoad
      let owed := (t :: ts).any fun x => ((loads x).flatMap Access.owes).any (chainRegs c.members).contains
      let full := (c.members.any fun m => match m.instr with | .ld .. | .lda .. | .ldnr .. | .ldf .. => true | _ => false)
        && (t :: ts).any fun x => decide (4 ≤ (loads x).length)
      let now := (s.laneGroup b).icycle
      c.trap.isNone && ((decide (b.eligible ≤ now) && owed) || (decide (b.eligible ≤ now + 1) && full))

/-- A bundle waits on memory (R393): a load, `waitc`, `ldf`, `stf.wait`, `txw`, `qpop` or an operand granule. -/
def waitsOnMemory (s : State) (b : Bundle) : Bool :=
  (b.ra.isNone || b.hold == .raEnded) && (match b.hold with
    | .access _ | .txw _ | .raEnded => true
    | .none => b.starved || s.awaitsLoad b
    | _ => false)

/-- Every resident bundle of a lane group waits on memory. -/
def allWait (s : State) (core lg : Nat) : Bool :=
  let l := s.bundles.filter fun b => b.core == core && b.lg == lg
  l != [] && l.all s.waitsOnMemory

/-- The clocks and counts of one cycle (R9, R26, R396). -/
def clock (s : State) : State :=
  { s with tstamp := s.tstamp + 1, cores := s.cores.map fun (c : Core) =>
      { c.idleCycle s with lgs := c.lgs.zipIdx.map fun (x : LaneGroup × Nat) => x.1.tick (s.allWait c.id x.2) } }

/-- One cycle passes, and every slice looks whether a launch forms (R407). -/
def tick (s : State) : State := formDue s.clock

/-- The bundles of a lane group when one of them has issued a chain (R322): another that was ready in the state before it counts a cycle
passed over, and is boosted at the 64th. -/
def passOver (s s0 : State) (core lg id : Nat) : State :=
  { s with bundles := s.bundles.map counted }
where
  counted (b : Bundle) : Bundle :=
    if b.core ≠ core ∨ b.lg ≠ lg then b
    else if b.id = id then { b with passed := 0, boost := none }
    else if s0.ready b && b.ra.isNone then
      { b with passed := b.passed + 1, boost := if b.boost.isNone ∧ 64 ≤ b.passed + 1 then some s.tstamp else b.boost }
    else { b with passed := 0 }

/-- The bundles of a lane group at a cycle: operands are fetched, and each bundle waits at a `qpop` or an operand granule or not. -/
def noteWaits (s : State) (core lg : Nat) : State :=
  let s := (s.bundles.filter fun b => b.core == core && b.lg == lg).foldl State.fetchFor s
  { s with bundles := updWhere (fun b => b.core == core && b.lg == lg) (fun (b : Bundle) => { b with starved := s.bundleWaits b }) s.bundles }

end State

/-- ISSUE (R322): the lane group chooses its bundle, and the next step issues that bundle's chain; with none ready the cycle
passes. -/
def execIssue (core : Nat) (lg : Fin 4) (s : State) : Host.Outcome State Fault Refusal :=
  let s := s.noteWaits core lg.val
  match s.pick core lg.val with
  | some b => .next { s with focus := some b.id }
  | none => .next s.tick

/-- MERGE_WINDOW (R324): the window closes at its deadline. -/
def execMergeWindow (bundle : Nat) (s : State) : Host.Outcome State Fault Refusal :=
  match s.bundle? bundle with
  | some b => match b.hold with
    | .merge d => if d ≤ s.tstamp then .next (s.modBundle bundle fun b => { b with hold := .none }) else .next s
    | _ => .next s
  | none => .next s

/-- YIELD_END (R202): the count expires. -/
def execYieldEnd (bundle : Nat) (s : State) : Host.Outcome State Fault Refusal :=
  match s.bundle? bundle with
  | some b => match b.hold with
    | .yield d => if d ≤ s.tstamp then .next (s.modBundle bundle fun b => { b with hold := .none }) else .next s
    | _ => .next s
  | none => .next s

/-- WALK (R303): PTE lines that are narrow-held are published first; a walk that ends in a leaf fills the TLB that asked, the
latch and the walk cache, and sets A and D (R301). A walk that ends otherwise fills nothing. -/
def execWalk (core ctx : Nat) (va : Word) (kind : TlbKind) (lane : Option Nat) (write : Bool) (s : State) :
    Host.Outcome State Fault Refusal :=
  match s.ctx? ctx with
  | none => .next s
  | some c =>
    if !canonical va then .next s
    else
      let holders := heldBy s none (s.walkLines c va)
      if holders ≠ [] then .next (s.publishFor holders)
      else match s.walkFor core c va (Config.freeBit s.fresh) with
        | .leaf e a p nl =>
          let wr := write && e.w
          let bits := 0x40 ||| (if wr then 0x80 else 0)
          let x : XEff := ⟨kind, core, lane, { e with d := e.d || wr }, if p.toNat &&& bits ≠ bits then some (a, bits) else none, nl, false⟩
          if s.xWaits x then .next s else .next (s.bump.applyXEff x)
        | _ => .next s.bump

/-! ### Runahead entry and restore (R330, R331, R334) -/

/-- An outstanding load that a bundle may run ahead of (R330): an `ld`, `lda` or `ldnr` that is predicted long, since it misses its home
slice, reads CXL or peer memory, or needs a walk whose non-leaf entries miss the walk cache. -/
def raLoad (s : State) (t : Thread) (a : Access) : Bool :=
  (match a.kind with | .ld _ | .lda .. => true | _ => false)
    && match a.loc with
      | .dev pa => !s.sliceHolds pa || (blockOf pa).isNone || (s.core t.id.core).slow.contains (a.iid, t.id)
      | .sp .. => false

/-- The load that the chain waits for. -/
def blockingLoad (s : State) (ts : List Thread) (l : List Member) : Option (Thread × Access) :=
  (ts.flatMap fun t => (t.pending.filter fun a => raLoad s t a && a.owes.any fun n => (chainRegs l).contains n).map fun a => (t, a)).head?

/-- A thread's registers go into the slot, and the destinations of its outstanding results are marked invalid (R331); its
fixed-latency results are written (R58). -/
def Thread.enterRa (s : State) (t : Thread) : Thread :=
  let ws := t.writes.map fun (w : WriteRec) => { w with ready := 0 }
  { t with ra := some { saved := t.regs, rserial := t.rserial, pc := t.pc, writes := ws, schk := t.schk, invalid := s.outstanding t }
           writes := ws }

/-- RUNAHEAD_ENTRY (R330): a bundle whose chain waits for a load predicted long, with RAEN in every thread, a free slot of its lane
group, and its context running and not being saved. -/
def execRunaheadEntry (bundle : Nat) (s : State) : Host.Outcome State Fault Refusal :=
  match s.bundle? bundle with
  | none => .next s
  | some b =>
    let ts := s.bundleThreads b
    match ts with
    | [] => .next s
    | t :: _ =>
      let c := chainAt s t t.pc
      let used := (s.bundles.filter fun x => x.core == b.core && x.lg == b.lg && x.ra.isSome).length
      match blockingLoad s ts c.members with
      | none => .next s
      | some (u, a) =>
        if s.mayIssue b && (s.ctxOf t).st == .running && b.ra.isNone && b.mid.isNone && c.trap.isNone && ts.all (fun t => t.regs.mode.getLsbD 9) && used < 4 then
          let s' := { s with threads := updWhere (fun t => b.has t.id) (Thread.enterRa s) s.threads }
          .next (s'.modBundle bundle fun b => { b with ra := some ⟨u.id, a.iid, 0, b.conv, b.elapsed, b.producers⟩ })
        else .next s

/-- RUNAHEAD_RESTORE (R334): once the awaited result has arrived, the bundle goes on at the chain at which it entered. -/
def execRunaheadRestore (bundle : Nat) (s : State) : Host.Outcome State Fault Refusal :=
  match s.bundle? bundle with
  | none => .next s
  | some b =>
    match b.ra with
    | none => .next s
    | some r =>
      let waits := s.threads.any fun t => decide (t.id = r.thread) && t.pending.any fun a => a.iid == r.iid
      if waits then .next s else .next (restoreBundle s b)

end Sys2Proof.Machine
end

