-- ==== Sys2Proof/Machine/Launch.lean ====
section
/-! DEFINITION. From launch to issue slot: widening calls (R181, R316), node launches (R325, R326), placement (R317-R319),
dispatch (R320) and team release (R327, R328). -/

namespace Sys2Proof.Machine

/-! ### Quotas and room (R14, R317, R319) -/

/-- Mesh column and row of a logical core: six columns of eight. -/
def meshX (c : Nat) : Nat := c % 6
def meshY (c : Nat) : Nat := c / 6

/-- The cores of a rectangle in cluster order, X before Y. -/
def rectangle (k : Kernel) (die origin : Nat) : List Nat :=
  (List.range k.cb).flatMap fun y => (List.range k.ca).map fun x => 48 * die + origin + 6 * y + x

/-- Disjoint rectangles of a cluster on the cores of a die that are not withdrawn, taken in the order of R319; `used` are the cores
taken so far. -/
def packDie (s : State) (k : Kernel) (die : Nat) : List Nat → List Nat → Nat
  | [], _ => 0
  | o :: rest, used =>
    let r := rectangle k die o
    if meshX o + k.ca ≤ 6 ∧ meshY o + k.cb ≤ 8 ∧ r.all (fun c => !used.contains c && !(s.core c).withdrawn) then
      packDie s k die rest (r ++ used) + 1
    else packDie s k die rest used

/-- How many clusters of a kernel the quotas of a partition can hold on the module at once (R317): disjoint rectangles of
the mesh, each core holding as many teams as its slots, rows and tiles allow. Withdrawn cores hold none (R360); around them the
rectangles are counted as the search of R319 places them (DESIGN CHOICE, log 70). -/
def capacity (s : State) (p : PartDesc) (k : Kernel) : Nat :=
  let per := fun (have_ need : Nat) => if need = 0 then 32 else have_ / need
  if k.ca = 0 ∨ k.cb = 0 ∨ k.groups = 0 then 0
  else
    ((List.range Config.dies).map fun d => packDie s k d (List.range Config.coresPerDie) []).sum * Nat.min (per (4 * p.slotN) k.groups) (Nat.min (per p.rowN k.srows) (per p.tileN k.acc))

/-- A team holds a group slot of a core, or a thread stands in it. -/
def slotTaken (s : State) (core lg slot : Nat) : Bool :=
  (s.teams.any fun tm => tm.core == core && tm.groups.contains (lg, slot))
    || s.threads.any fun t => t.id.core == core && t.id.laneGroup == lg && t.id.slot == slot

/-- Group slots for a team (R319): lane groups in rotation from 0, the lowest free slot of each. Fuel is the number of lane
groups visited. -/
def takeSlots (s : State) (core : Nat) (p : PartDesc) : (fuel need lg : Nat) → List (Nat × Nat) → Option (List (Nat × Nat))
  | _, 0, _, acc => some acc
  | 0, _ + 1, _, _ => none
  | f + 1, need + 1, lg, acc =>
    match ((List.range p.slotN).map (p.slotLo + ·)).find? fun sl => !slotTaken s core lg sl && !acc.contains (lg, sl) with
    | some sl => takeSlots s core p f need ((lg + 1) % 4) (acc ++ [(lg, sl)])
    | none => takeSlots s core p f (need + 1) ((lg + 1) % 4) acc

/-- The lowest run of `need` free units of a range, clear of the ranges in use. -/
def firstFit (used : List (Nat × Nat)) (lo n need : Nat) : Option Nat :=
  if need = 0 then some lo
  else if n < need then none
  else ((List.range (n + 1 - need)).map (lo + ·)).find? fun a => used.all fun u => a + need ≤ u.1 || u.1 + u.2 ≤ a

/-- Where `need` of the `n` units of a range go that has `used` of its own, or none where so many are not free (R317): the lowest run that
is clear of all the ranges in use, and, where the free units do not lie together, a run of names at or above `total`, past the units that a
core has, which stands for them (log 29). A program reaches rows and tiles by its team's own numbers alone. -/
def placeUnits (all : List (Nat × Nat)) (used lo n total need : Nat) : Option Nat :=
  if need = 0 then some lo
  else if n < used + need then none
  else some ((firstFit all lo n need).getD (all.foldl (fun m u => Nat.max m (u.1 + u.2)) total))

/-- What one core gives a team: group slots, first row, first tile. -/
structure Room where
  core : Nat
  groups : List (Nat × Nat)
  rowLo : Nat
  tileLo : Nat
  deriving DecidableEq, Repr

/-- A team is of a context of a partition. -/
def partOf (s : State) (tm : Team) (p : PartDesc) : Bool := (s.ctx? tm.ctx).any fun c => c.part == p.part

/-- The room of a core for a team of a kernel within a partition's quotas. Barriers and queues are each team's own. -/
def roomOn (s : State) (p : PartDesc) (k : Kernel) (core : Nat) : Option Room :=
  let here := s.teams.filter fun tm => tm.core == core
  let own := here.filter (partOf s · p)
  let c := s.core core
  if c.withdrawn || c.gated then none
  else match takeSlots s core p (4 * k.groups + 128) k.groups 0 [],
      placeUnits (here.map fun tm => (tm.rowLo, tm.kernel.srows)) (own.map (·.kernel.srows)).sum p.rowLo p.rowN Config.scratchRows k.srows,
      placeUnits (here.map fun tm => (tm.tileLo, tm.kernel.acc)) (own.map (·.kernel.acc)).sum p.tileLo p.tileN Config.accTiles k.acc with
    | some g, some r, some t => some ⟨core, g, r, t⟩
    | _, _, _ => none

/-- Room for a cluster at a rectangle's origin, on every core of it. -/
def roomAt (s : State) (p : PartDesc) (k : Kernel) (die origin : Nat) : Option (List Room) :=
  if meshX origin + k.ca ≤ 6 ∧ meshY origin + k.cb ≤ 8 then (rectangle k die origin).mapM (roomOn s p k) else none

/-- The first room for a cluster (R319), and its die. -/
def findRoom (s : State) (p : PartDesc) (k : Kernel) : Option (Nat × List Room) :=
  let first := ((s.lastDie.find? fun d => d.1 == p.part).map fun d => d.2 + 1).getD 0
  ((List.range Config.dies).flatMap fun i => (List.range Config.coresPerDie).map fun o => ((first + i) % Config.dies, o)).findSome?
    fun (d, o) => (roomAt s p k d o).map fun r => (d, r)

/-! ### Dispatch of a team (R29, R269, R320, R326) -/

/-- The registers of a thread at kernel entry (R29, R270, R409): the stack region, the global pointer, and the arguments that
lie within the register budget. -/
def entryRegs (k : Kernel) (id : ThreadId) (args : List Word) : Regs :=
  let tp : Word := if k.stack = 0 then 0 else k.stackBase + BitVec.ofNat 64 (k.stack * id.posWord)
  let sp : Word := if k.stack = 0 then 0 else tp + BitVec.ofNat 64 k.stack
  let r := (Regs.launch.set (.g 2) sp).set (.g 3) k.gp |>.set (.g 4) tp
  (List.finRange 8).foldl (fun r i =>
    if 10 + i.val < k.gregs then r.set (.g ⟨10 + i.val, by omega⟩) ((args[i.val]?).getD 0) else r) r

/-- The clearing of a team's rows and tiles (R29, R320). -/
def Core.allocate (c : Core) (r : Room) (k : Kernel) : Core :=
  let inRows := fun (o : Nat) => decide (r.rowLo * 1024 ≤ o ∧ o < (r.rowLo + k.srows) * 1024)
  let inGran := fun (g : Nat) => inRows (16 * g)
  let inTile := fun (n : Nat) => decide (r.tileLo * 32 ≤ n ∧ n < (r.tileLo + k.acc) * 32)
  { c with sp := c.sp.filter fun x => !inRows x.1
           spShadow := c.spShadow.filter fun x => !inRows x.1
           gran := c.gran.filter fun x => !inGran x.1
           granShadow := c.granShadow.filter fun x => !inGran x.1
           held := c.held.filter fun x => !inRows x.1
           acc := c.acc.filter fun x => !inTile x.1
           rowEntry := c.rowEntry.filter fun x => !inTile x.1 }

/-- The lines of PFLINE enter the instruction cache (R269, R320); a line whose page is not mapped is dropped. -/
def pushLines (s : State) (core : Nat) (c : Context) (k : Kernel) : State :=
  k.pf.foldl (fun s o =>
    let va : Word := BitVec.ofInt 64 ((k.entry.toNat / 64 : Nat) * 64 + 64 * o)
    match canonical va, s.walkTables c va with
    | true, .leaf e _ _ _ =>
      let pa := e.pbase + (va.toNat % 2 ^ 57 - e.vbase)
      match fillLine s c pa (va.toNat % 2 ^ 57) with
      | some b => (s.touchSlice (core / 48) c.id va pa false).modCore core fun x =>
          { x with icache := (x.icache.filter fun l => !(l.line == lineOf pa && l.ctx == c.id)) ++ [⟨lineOf pa, b, c.id, e.vbase, e.size⟩] }
      | none => s
    | _, _ => s) s

/-- The threads of a team at kernel entry (R29); `args` gives each thread number its arguments, or none to a thread that is
never live (R326). -/
def teamThreads (tm : Team) (args : Nat → Option (List Word)) : List Thread :=
  (List.range tm.groups.length).flatMap fun g => (List.range 32).map fun i =>
    let (lg, slot) := (tm.groups[g]?).getD (0, 0)
    let id : ThreadId := ⟨tm.core, 32 * lg + i, slot⟩
    let t := Thread.launch id tm.id g tm.kernel.entry (entryRegs tm.kernel id ((args (32 * g + i)).getD []))
    if (args (32 * g + i)).isSome then t else { t with status := .ended false }

/-- A team is placed (steps 1 and 2 of R320). -/
def placeTeam (s : State) (tm : Team) (r : Room) (args : Nat → Option (List Word)) : State :=
  let s := s.modCore tm.core fun c => c.allocate r tm.kernel
  let s := match s.ctx? tm.ctx with
    | some c => pushLines s tm.core c tm.kernel
    | none => s
  { s with teams := s.teams ++ [tm], threads := s.threads ++ teamThreads tm args }

/-- Teams start (step 3 of R320): their windows open and their first bundles are ready. -/
def startTeams (s : State) (p : Team → Bool) : State :=
  let ids := (s.teams.filter p).map (·.id)
  let s := { s with teams := updWhere p (fun tm => { tm with started := true }) s.teams }
  s.enter ((s.threads.filter fun t => ids.contains t.team && t.status == .live).map fun t => (t.id, t.entry))

/-- A team of a cluster, in the room it received. -/
def teamIn (id ctx cluster : Nat) (k : Kernel) (r : Room) (pos : Nat) (grid gdim : Nat × Nat × Nat) (owner : Option Nat)
    (origins : List (Option Nat)) : Team :=
  { id := id, ctx := ctx, core := r.core, groups := r.groups, cluster := cluster, cx := pos % k.ca, cy := pos / k.ca, grid := grid
    gdim := gdim, kernel := k, rowLo := r.rowLo, tileLo := r.tileLo, ecount := 0, bars := List.replicate 16 Bar.fresh
    queues := List.replicate 8 Queue.idle, owner := owner, origins := origins, started := false }

/-- The die of a placement is the one after which the next search begins (R319). -/
def setLastDie (s : State) (part die : Nat) : State :=
  { s with lastDie := (part, die) :: s.lastDie.filter fun d => d.1 != part }

/-- Places the teams of one cluster; the rails of their quads rise for them (R395). -/
def placeCluster (s : State) (ctx : Nat) (k : Kernel) (rooms : List Room) (grid gdim : Nat × Nat × Nat) (owner : Option Nat)
    (origins : List (Option Nat)) (args : Nat → Option (List Word)) : State :=
  let (cl, s) := s.newId
  let s := (List.range rooms.length).foldl (fun s i => match rooms[i]? with
    | some r =>
      let (k', s) := s.newId
      placeTeam s (teamIn k' ctx cl k r i grid gdim owner origins) r args
    | none => s) s
  noteRises s (rooms.map (·.core))

/-! ### Widening calls (R181, R316) -/

/-- The bytes of the hazel instruction at an address, by its low two bits as a fetch delivers them. -/
def hazelLength (s : State) (h : Hazel) (a : Word) : Nat :=
  match (s.ctx? h.ctx).bind fun c => codeAt s c a with
  | some w => if w % 4 = 3 then 4 else 2
  | none => 4

/-- GDIM's fields (R28). -/
def gdimOf (w : Word) : Nat × Nat × Nat := (w.toNat % 2 ^ 16, w.toNat / 2 ^ 16 % 2 ^ 16, w.toNat / 2 ^ 32 % 2 ^ 16)

/-- The kernel that a widening call starts, unless it is refused (R181). -/
def widens (s : State) (c : Context) (target x10 : Word) : Option Kernel :=
  match c.kernels.find? fun k => k.entry == target with
  | none => none
  | some k =>
    let (x, y, z) := gdimOf x10
    let cap := ((s.part? c.part).map fun p => capacity s p k).getD 0
    if !k.widen || k.node || (k.hlevel && !c.handler) || x == 0 || y == 0 || z == 0 || x10.toNat / 2 ^ 48 != 0 || cap == 0 then none
    else some k

/-- The hazel thread takes an exception at its core. -/
def hazelTrap (s : State) (h : Hazel) (cause : Nat) (tval : Word) : State := s.modHazel h.id fun x => { x with exc := some (cause, tval) }

/-- A hazel-native thread acts again after an exception: the device OS has handled it (log 41). -/
def State.handled (s : State) (h : Hazel) : State := if h.exc.isSome then s.modHazel h.id fun x => { x with exc := none } else s

/-- The call goes on at the caller's next instruction with a0 and a1. -/
def hazelAnswer (h : Hazel) (ret : Word) (link : Fin 32) (a0 a1 : Word) : Hazel :=
  { h with pc := ret, img := { h.img with x := ((h.img.x.set link.val ret).set 10 a0).set 11 a1 } }

/-- WIDENING_CALL (R181, R33, R316): a hazel-native thread's jump with link register `link` to a page of tag 10. The thread
takes an instruction page fault (cause 12) or access fault (cause 1) where R32 and R33 give one; a refused call answers 1.
A jump to a page of tag 01 is no widening call. -/
def execWideningCall (hazel : Nat) (target : Word) (link : Fin 32) (s : State) : Host.Outcome State Fault Refusal :=
  match s.hazel? hazel with
  | none => .next s
  | some h =>
    match s.ctx? h.ctx with
    | none => .next s
    | some c =>
      if h.home.isSome || h.asleep || h.grid.isSome || c.st != .running then .next s
      else
        let s := s.handled h
        let hold := heldBy s none (s.walkLines c target)
        if hold ≠ [] then .next (s.publishFor hold)
        else if !canonical target then .next (hazelTrap s h 1 target)
        else match s.walkTables c target with
        | .notResident => .next (hazelTrap s h 12 target)
        | .format => .next (hazelTrap s h 12 target)
        | .access _ => .next (hazelTrap s h 1 target)
        | .leaf e _ _ _ =>
          if e.tag = 1 then .next s
          else if !e.x ∨ e.tag ≠ 2 ∨ (link ≠ 1 ∧ link ≠ 5) then .next (hazelTrap s h 12 target)
          else if !(match instrAt s c target with | some (.entryw _) => true | _ => false) then .next (hazelTrap s h 1 target)
          else
            let ret := h.pc + BitVec.ofNat 64 (hazelLength s h h.pc)
            match widens s c target h.img.x[10] with
            | none => .next (s.modHazel h.id fun x => hazelAnswer x ret link 1 0)
            | some k =>
              if Config.maxGrids ≤ (s.grids.filter fun g => g.ctx == c.id).length then .next s
              else
                let (g, s) := s.newId
                let args := (List.range 8).map fun i => (h.img.x[10 + i]?).getD 0
                let grid : Grid :=
                  { id := g, ctx := c.id, kernel := k, gdim := gdimOf h.img.x[10], args := args, nextCluster := 0, out := 0
                    killed := 0, terminated := false, caller := h.id }
                let s := { s with grids := s.grids ++ [grid] }
                let s := s.modHazel h.id fun x =>
                  { x with grid := some g, ret := ret, img := { x.img with x := x.img.x.set link.val ret } }
                .next (joinQueue s c.part (.grid g))

/-! ### Node launches (R325) -/

/-- LAUNCH_FORM (R325): the home slice of a queue control block forms a launch; one of an H-level kernel outside a handler context is
refused (R270). -/
def execLaunchForm (ctx : Nat) (qcb : Word) (s : State) : Host.Outcome State Fault Refusal :=
  match s.ctx? ctx with
  | none => .next s
  | some c =>
    match c.nodes.find? fun n => n.qcb == qcb with
    | some n =>
      let hold := heldBy s none (agentLines s c qcb 64)
      if n.formed then .next s else if hold ≠ [] then .next (s.publishFor hold) else .next (formNode s c n)
    | none => .next s

/-! ### DISPATCH (R318-R320, R325, R326) -/

/-- The context of a launch. -/
def Launch.ctxId (s : State) : Launch → Option Nat
  | .grid g => (s.grid? g).map (·.ctx)
  | .node c _ => some c

/-- The launch at the head of a queue: those whose contexts are not running are passed over (R318). -/
def headLaunch (s : State) (part : Nat) : Option Launch :=
  ((s.queues.find? fun q => q.1 == part).map (·.2)).bind fun l =>
    l.find? fun x => ((x.ctxId s).bind s.ctx?).any fun c => c.st == .running

/-- A launch leaves its queue. -/
def leaveQueue (s : State) (part : Nat) (l : Launch) : State :=
  { s with queues := s.queues.map fun (q : Nat × List Launch) => if q.1 == part then (q.1, q.2.erase l) else q }

/-- The place of a cluster number in the grid (R317). -/
def clusterPlace (gdim : Nat × Nat × Nat) (n : Nat) : Nat × Nat × Nat :=
  (n % gdim.1, n / gdim.1 % gdim.2.1, n / (gdim.1 * gdim.2.1))

/-- The next cluster of a widened grid is placed; a grid of at most C clusters starts as a whole (R317). -/
def dispatchGrid (s : State) (p : PartDesc) (g : Grid) : State :=
  match findRoom s p g.kernel with
  | none => s
  | some (die, rooms) =>
    let total := g.gdim.1 * g.gdim.2.1 * g.gdim.2.2
    let n := g.nextCluster
    let s := placeCluster (setLastDie s p.part die) g.ctx g.kernel rooms (clusterPlace g.gdim n) g.gdim (some g.id) [] fun _ => some g.args
    let s := s.modGrid g.id fun x => { x with nextCluster := n + 1, out := x.out + rooms.length }
    let s := if n + 1 = total then leaveQueue s p.part (.grid g.id) else s
    if n + 1 = total ∨ capacity s p g.kernel < total then startTeams s fun tm => tm.owner == some g.id && !tm.started else s

/-- The lines of a queue control block and of its ring's slots that a launch of `n` records reads. -/
def launchLines (s : State) (c : Context) (pa n : Nat) : List (Nat × Nat) :=
  (pa, 64) :: ((List.range n).filterMap fun i => (ctxPa s c (slotVa i)).map fun a => (a, 64))
where
  /-- The `i`-th record from HEAD (R326). -/
  slotVa (i : Nat) : Word :=
    let cap := s.readM (pa + 8) 8
    BitVec.ofNat 64 (s.readM pa 8 + 64 * ((s.readM (pa + 24) 8 + i) % (if cap = 0 then 1 else cap)))

/-- A node launch is dispatched: it takes its records and HEAD moves in the same step (R325, R326). -/
def dispatchNode (s : State) (p : PartDesc) (c : Context) (n : Node) (pa : Nat) (l : Launch) : State :=
  let take := Nat.min (pendingAt s pa) n.thresh
  let unform := fun (s : State) => modNode (leaveQueue s p.part l) c.id n.qcb fun n => { n with formed := false }
  let hold := agentHolders s (launchLines s c pa take)
  if hold ≠ [] then s.publishFor hold
  else if take = 0 then unform s
  else match findRoom s p n.kernel with
  | none => s
  | some (die, rooms) =>
    let record := fun (i : Nat) => match ctxPa s c (launchLines.slotVa s pa i) with
      | some a => (List.range 8).map fun k => Memory.dword s.mem a k
      | none => []
    let args := fun (i : Nat) => if i < take then some (record i) else none
    let s' := placeCluster (setLastDie s p.part die) c.id n.kernel (rooms.take 1) (0, 0, 0) (1, 1, 1) none
      (((n.pendingRecs.take take).map (·.1))) args
    let s' := writeMaster s' (pa + 24) 8 ((s.readM (pa + 24) 8 + take) % 2 ^ 64)
    let s' := modNode (unform s') c.id n.qcb fun n => { n with pendingRecs := n.pendingRecs.drop take }
    startTeams s' fun tm => tm.ctx == c.id && tm.owner == none && !tm.started

/-- DISPATCH: one cluster of the launch at the head of a partition's queue is placed where there is room for it. -/
def execDispatch (part : Nat) (s : State) : Host.Outcome State Fault Refusal :=
  match s.part? part, headLaunch s part with
  | some p, some (.grid g) =>
    if !p.active then .next s else
    match s.grid? g with
    | some x => .next (dispatchGrid s p x)
    | none => .next s
  | some p, some (.node ctx qcb) =>
    if !p.active then .next s else
    match s.ctx? ctx with
    | some c => match c.nodes.find? fun n => n.qcb == qcb, ctxPa s c qcb with
      | some n, some pa => .next (dispatchNode s p c n pa (.node ctx qcb))
      | _, _ => .next s
    | none => .next s
  | _, _ => .next s

/-! ### TEAM_RELEASE (R327, R328) -/

/-- A store of the team is still in its core's buffer or on its way there. -/
def storesLeft (s : State) (tm : Team) : Bool :=
  let mine := fun (t : ThreadId) => s.threads.any fun x => x.team == tm.id && decide (x.id = t)
  ((s.core tm.core).tb.any fun i => match i with | .entry _ _ _ _ c => c.any fun w => mine w.1 | .marker _ => false)
    || s.threads.any fun t => t.team == tm.id && t.pending != []

/-- An access of another team through a window onto this one, of an issue that has begun to perform, completes before the release (R36,
R139). -/
def windowBusy (s : State) (tm : Team) : Bool :=
  s.threads.any fun t => t.team != tm.id && t.pending.any fun a => a.begun && inAperture a.va
    && (s.memberAt (s.teamOf t) (a.va.toNat / 2 ^ 20 % 16)).any fun m => m.id == tm.id

/-- The conditions of R327; a thread whose end is not durable yet may still restart (R182). -/
def releasable (s : State) (tm : Team) : Bool :=
  s.teamExited tm && tm.ecount == 0 && !storesLeft s tm && !windowBusy s tm
    && s.threads.all fun t => t.team != tm.id || t.stage.isNone

/-- The grids whose outstanding count a team's release lowers, once for each count (R328). -/
def releaseCounts (tm : Team) : List Nat :=
  match tm.owner with
  | some g => [g]
  | none => tm.origins.filterMap id

/-- The team's slots, rows and tiles are free, its partition's vote may leave (R395), and the counts fall. -/
def releaseTeam (s : State) (tm : Team) : State :=
  let s := { s with teams := s.teams.filter fun x => x.id != tm.id
                    threads := s.threads.filter fun t => t.team != tm.id
                    cmds := s.cmds.filter fun x => x.team != tm.id }
  let s := (releaseCounts tm).foldl (fun s g => s.modGrid g fun x => { x with out := x.out - 1 }) (noteVote s (quadIndex tm.core))
  (releaseCounts tm).foldl gridDone s

/-- TEAM_RELEASE (R327, R328). -/
def execTeamRelease (team : Nat) (s : State) : Host.Outcome State Fault Refusal :=
  match s.team? team with
  | none => .next s
  | some tm => if releasable s tm then .next (releaseTeam s tm) else .next s

end Sys2Proof.Machine
end

