-- ==== Sys2Proof/Machine/Portable.lean ====
section
/-! DEFINITION. Portable segments (R280-R290): records and their operands, the conditions under which the loader refuses a kernel, and the
translation of a kernel: register assignment, spills, expansions, targets, live-in masks and stall counts (log 61). -/

namespace Sys2Proof.Machine

/-! ### Records (R280-R283) -/

/-- A record of `.pps` (R280). -/
structure PRec where
  op : Nat
  flg : Nat
  d : Nat
  a : Nat
  b : Nat
  imm : Word
  deriving DecidableEq, Repr

/-- A record from its two doublewords. -/
def PRec.ofWords (w0 imm : Nat) : PRec :=
  { op := w0 % 256, flg := w0 / 2 ^ 8 % 256, d := w0 / 2 ^ 16 % 2 ^ 16, a := w0 / 2 ^ 32 % 2 ^ 16, b := w0 / 2 ^ 48 % 2 ^ 16
    imm := BitVec.ofNat 64 imm }

/-- What an operand names (R281): a field value, a physical register of a class, a virtual one, or nothing legal. -/
inductive POp where
  | field (v : Fin 32)
  | phys (isF : Bool) (r : Fin 32)
  | virt (isF : Bool) (n : Nat)
  | reserved
  deriving DecidableEq, Repr

def POp.of (x : Nat) : POp :=
  let n := x % 2 ^ 14
  match x / 2 ^ 14 with
  | 0 => if h : n < 32 then .field ⟨n, h⟩ else .reserved
  | 1 => if h : n < 32 then .phys false ⟨n, h⟩ else .virt false n
  | 2 => if h : n < 32 then .phys true ⟨n, h⟩ else .virt true n
  | _ => .reserved

namespace PRec

def immUsed (r : PRec) : Bool := r.flg / 128 == 1
def guardN (r : PRec) : Bool := r.flg / 8 % 2 == 1
def guardP (r : PRec) : Fin 8 := ⟨r.flg % 8, by omega⟩
def opd (r : PRec) : POp := POp.of r.d
def opa (r : PRec) : POp := POp.of r.a
def opb (r : PRec) : POp := POp.of r.b

/-- The record's virtual operation (R282). -/
def isMov (r : PRec) : Bool := r.op == 0x80
def isLi (r : PRec) : Bool := r.op == 0x81
def isHsum (r : PRec) : Bool := r.op == 0x82 || r.op == 0x83 || r.op == 0x84
def native (r : PRec) : Bool := r.op < 0x80

end PRec

/-- IMM read as a signed value fits a signed 32-bit one (R289). -/
def fits32 (v : Word) : Bool := -(2 ^ 31) ≤ v.toInt && v.toInt < 2 ^ 31

/-- The classes of the operands of a virtual operation are those of its form. An `li` without its IMM, a `mov` or sum with one, and an unused
operand that is not zero are refused (DESIGN CHOICE, log 61). -/
def PRec.virtualOk (r : PRec) : Bool :=
  let cls := fun (o : POp) => match o with | .phys f _ | .virt f _ => some f | _ => none
  match r.op with
  | 0x80 => (cls r.opd).isSome && cls r.opd == cls r.opa && r.b == 0 && !r.immUsed
  | 0x81 => (cls r.opd).isSome && r.a == 0 && r.b == 0 && r.immUsed
  | 0x82 | 0x83 => cls r.opd == some true && cls r.opa == some true && r.b == 0 && !r.immUsed
  | 0x84 => cls r.opd == some false && cls r.opa == some false && r.b == 0 && !r.immUsed
  | _ => false

namespace PRec

/-- A record with a guard: some threads may not execute it. P and N of `sel` and `nextp` are a selector, and every thread executes those
(R46). -/
def guarded (r : PRec) : Bool := r.op != 0x21 && r.op != 0x61 && (r.guardN || r.guardP != 0)

/-- The record ends a segment (R18). -/
def ends (r : PRec) : Bool := 0x60 ≤ r.op && r.op ≤ 0x67

/-- The record transfers control: `next`, `nextp`, `nextg`, `call`, `callg` or `ret`. -/
def transfers (r : PRec) : Bool := 0x60 ≤ r.op && r.op ≤ 0x65

/-- The byte distances of the targets that IMM names (R283). -/
def distances (r : PRec) : List Int :=
  if r.op == 0x60 || r.op == 0x63 then [r.imm.toInt]
  else if r.op == 0x61 then [((r.imm.setWidth 32 : Ext)).toInt, (BitVec.ofNat 32 (r.imm.toNat / 2 ^ 32)).toInt] else []

/-! ### The native instruction of a record (R283, R286, R289) -/

/-- L and the extension words that IMM fills; none where FLG or IMM breaks R283 or R286. A target's word is filled when the code is laid
out. -/
def ext (r : PRec) : Option (Fin 4 × Ext × Ext) :=
  let lo : Ext := r.imm.setWidth 32
  let hi : Ext := BitVec.ofNat 32 (r.imm.toNat / 2 ^ 32)
  if r.op < 0x50 then (if !r.immUsed then some (0, 0, 0) else if fits32 r.imm then some (1, lo, 0) else some (2, lo, hi))
  else if r.distances != [] then
    (if r.immUsed && r.distances.all fun d => d % 16 == 0 then some (if r.op == 0x61 then 2 else 1, 0, 0) else none)
  else if !r.immUsed then (if [0x68, 0x6E, 0x6F, 0x78].contains r.op && r.imm != 0 then none else some (0, 0, 0))
  else if [0x68, 0x6E, 0x6F, 0x78].contains r.op then (if hi == 0 then some (1, lo, 0) else none)
  else if r.op < 0x60 then (if fits32 r.imm then some (1, lo, 0) else if r.op == 0x5D then some (2, lo, hi) else none)
  else none

/-- `ld`, `st`, `ldf` and `stf`, whose A names a base register of g0-g15 (R134). -/
def based (r : PRec) : Bool := [0x50, 0x51, 0x55, 0x56].contains r.op

/-- The fields of a record once its operands are physical numbers; A of `ld`, `st`, `ldf` and `stf` carries the class of D. -/
def raw (r : PRec) (isF : Bool) (d a b : Fin 32) : Option Raw :=
  if h : r.op < 128 then
    if r.based && 16 ≤ a.val then none
    else
      let a := if r.based && isF then ⟨16 + a.val % 16, by omega⟩ else a
      (r.ext).map fun e => ⟨false, 0, e.1, ⟨r.op, h⟩, d, a, b, r.guardN, r.guardP, e.2.1, e.2.2⟩
  else none

end PRec

/-- The number that an operand has in a field when virtual registers take the given ones. -/
def POp.number (o : POp) (v : Bool → Nat → Fin 32) : Fin 32 :=
  match o with
  | .field n => n
  | .phys _ n => n
  | .virt f n => v f n
  | .reserved => 0

def POp.isF (o : POp) : Bool := match o with | .phys f _ | .virt f _ => f | _ => false
def POp.isReg (o : POp) : Bool := match o with | .phys .. | .virt .. => true | _ => false
def POp.field? (o : POp) : Option (Fin 32) := match o with | .field n => some n | _ => none

/-- A virtual register: class and number. -/
abbrev VReg := Bool × Nat

def POp.vreg (o : POp) : Option VReg := match o with | .virt f n => some (f, n) | _ => none

def regName (isF : Bool) (n : Fin 32) : RegName := if isF then .f n else .g n

/-- Even numbers, none of them a field value of the record, that may stand for its register operands in a probe. -/
def PRec.probeList (r : PRec) : List (Fin 32) :=
  let used := [r.opd, r.opa, r.opb].filterMap POp.field?
  ([8, 12, 14, 10, 6, 4, 2] : List (Fin 32)).filter fun n => !used.contains n

/-- Three distinct ones for D, A and B, and three others. -/
def PRec.probeNums (r : PRec) : Fin 32 × Fin 32 × Fin 32 :=
  let l := r.probeList
  ((l[0]?).getD 8, (l[1]?).getD 12, (l[2]?).getD 14)
def PRec.otherNums (r : PRec) : Fin 32 × Fin 32 × Fin 32 :=
  let l := r.probeList
  ((l[3]?).getD 10, (l[4]?).getD 6, (l[0]?).getD 8)

/-- The instruction of a native record with its register operands at given numbers, which shows what its fields read and write. -/
def PRec.probeAt (r : PRec) (n : Fin 32 × Fin 32 × Fin 32) : Option Instr :=
  let num := fun (o : POp) (k : Fin 32) => (o.field?).getD k
  (r.raw r.opd.isF (num r.opd n.1) (num r.opa n.2.1) (num r.opb n.2.2)).bind fun w => (decodeRaw w).toOption
def PRec.probe (r : PRec) : Option Instr := r.probeAt r.probeNums

/-- What a record does to virtual registers: those it reads by A, B, or a D that it only reads; the one it writes; and whether the old value
of that one matters, because the instruction reads it or because a guard may hold back the write. -/
structure PUse where
  srcs : List VReg
  dst : Option VReg
  old : Bool
  deriving DecidableEq, Repr

def PUse.none : PUse := ⟨[], .none, false⟩

/-- The values that a record needs. -/
def PUse.reads (u : PUse) : List VReg := u.srcs ++ if u.old then u.dst.toList else []

/-- What a record does. Its spilled sources are reloaded in the order D, where it only reads that, A, B (DESIGN CHOICE, log 92). -/
def PRec.uses (r : PRec) : PUse :=
  if r.isLi then ⟨[], r.opd.vreg, r.guarded⟩
  else if !r.native then ⟨r.opa.vreg.toList, r.opd.vreg, r.guarded⟩
  else match r.probe with
    | none => .none
    | some i =>
      let n := r.probeNums
      let has := fun (l : List RegName) (o : POp) (k : Fin 32) => l.contains (regName o.isF k)
      let src := fun (o : POp) (k : Fin 32) => if has i.reads o k then o.vreg.toList else []
      let writes := has i.writes r.opd n.1
      let reads := has i.reads r.opd n.1
      ⟨((if writes then [] else src r.opd n.1) ++ src r.opa n.2.1 ++ src r.opb n.2.2).eraseDups,
        if writes then r.opd.vreg else .none, writes && (reads || r.guarded)⟩

/-- The other g or f registers that an instruction takes beside those that its fields name: the second of a pair (R135, R154), the
following ones of a record (R195). -/
def PRec.extra (r : PRec) : List (Bool × Fin 32) :=
  let num := fun (o : POp) (k : Fin 32) => match o with | .field n => n | .phys _ n => n | _ => k
  let zero := fun (o : POp) => (o.field?).getD 0
  let d := num r.opd 8
  match (r.raw r.opd.isF d (zero r.opa) (zero r.opb)).bind Instr.ofRaw with
  | some i => (i.reads ++ i.writes).eraseDups.filterMap fun n => match n with
      | .g k => if k != 0 && k != d && d.val < k.val then some (false, k) else none
      | .f k => if k != 0 && k != d && d.val < k.val then some (true, k) else none
      | _ => none
  | none => []

/-- The operands of a native record stand where its instruction takes them: a register operand in a register field of its class, a field value
in no register field but as 0 for g0 (DESIGN CHOICE, log 61), and no virtual register for a field that names several registers. A register that
two probes with different numbers both show is one that a field value names. -/
def PRec.operandsOk (r : PRec) : Bool :=
  match r.probe with
  | none => false
  | some i =>
    let n := r.probeNums
    let regs := i.reads ++ i.writes
    let fixed := match r.probeAt r.otherNums with
      | some j => regs.filter (j.reads ++ j.writes).contains
      | none => regs
    let one := fun (o : POp) (k : Fin 32) =>
      if o.isReg then regs.contains (regName o.isF k)
      else match o.field? with
        | some v => !fixed.contains (.f v) && (v == 0 || !fixed.contains (.g v))
        | none => false
    one r.opd n.1 && one r.opa n.2.1 && one r.opb n.2.2 && (r.opd.vreg.isNone || r.extra == [])

/-- The physical registers of a class that the records name. -/
def namedRegs (isF : Bool) (l : List PRec) : List Nat :=
  l.flatMap fun r => (([r.opd, r.opa, r.opb]).filterMap fun o => match o with
      | .phys f n => if f == isF then some n.val else none
      | _ => none)
    ++ r.extra.filterMap fun e => if e.1 == isF then some e.2.val else none

/-! ### The budget (R287) -/

/-- How the translator divides the budget. `outs`: in a kernel with transfers, the values that control may need after each record. -/
structure Budget where
  gPool : List Nat
  fPool : List Nat
  gE : List Nat
  fE : Option Nat
  outs : List (List VReg)
  deriving DecidableEq, Repr

def gCandidates (k : Kernel) (l : List PRec) : List Nat :=
  (List.range k.gregs).filter fun n => 5 ≤ n && !(10 ≤ n && n ≤ 17) && !(namedRegs false l).contains n
def fCandidates (k : Kernel) (l : List PRec) : List Nat := (List.range k.fregs).filter fun n => !(namedRegs true l).contains n

def budgetOf (k : Kernel) (l : List PRec) : Budget :=
  let g := gCandidates k l
  let f := fCandidates k l
  { gPool := g.take (g.length - 3), fPool := f.take (f.length - 1), gE := g.drop (g.length - 3), fE := f.getLast?, outs := [] }

/-- A native record that must be directly followed by `region` (R186). -/
def PRec.isCommit (r : PRec) : Bool := r.native && !r.ends && (r.probe.any Instr.isCommit)

/-- The record by itself meets R281-R283 and R286. -/
def PRec.ok (k : Kernel) (r : PRec) : Bool :=
  let opOk := fun (o : POp) => match o with
    | .reserved => false
    | .phys f n => if f then n.val < k.fregs else n.val < k.gregs
    | _ => true
  r.flg / 16 % 8 == 0 && opOk r.opd && opOk r.opa && opOk r.opb && r.extra.all (fun e => e.2.val < if e.1 then k.fregs else k.gregs)
    && if r.op == 0x67 then r.flg == 0 && r.d == 0 && r.a == 0 && r.b == 0 else if r.native then r.operandsOk else r.virtualOk

/-- The records and the budget admit a translation (R281-R287); otherwise the object is rejected with status 6. -/
def recordsOk (k : Kernel) (l : List PRec) : Bool :=
  let usesF := l.any fun r => [r.opd, r.opa, r.opb].any fun o => match o with | .virt true _ => true | _ => false
  let fc := (fCandidates k l).length
  l.all (PRec.ok k)
    && (List.zip l (l.drop 1 ++ [PRec.ofWords 0 0])).all (fun p => !p.1.isCommit || p.2.op == 0x67)
    && 3 ≤ (gCandidates k l).length && (!usesF || 2 ≤ fc) && (!(l.any fun r => r.op == 0x82 || r.op == 0x83) || 2 ≤ fc)
    && (!(l.any fun r => r.op == 0x84) || (budgetOf k l).gPool != [])

/-! ### Register assignment (R288, R289) -/

/-- A target of the native code: the code of a record of the kernel, or a run-time address. -/
inductive Dest where
  | record (n : Nat)
  | addr (a : Int)
  deriving DecidableEq, Repr

/-- A native instruction with the targets that fill its extension words. -/
structure Native where
  raw : Raw
  dests : List Dest
  deriving DecidableEq, Repr

/-- Where the values stand while the translator visits the records. -/
structure Trans where
  /-- values in pool registers -/
  held : List (VReg × Nat)
  /-- values with a slot, and its number -/
  slots : List (VReg × Nat)
  /-- values written since they were last stored -/
  dirty : List VReg
  /-- results of a commit instruction in an expansion register, to be stored after the `region` that must follow it directly -/
  defer : List (VReg × Nat)
  nextSlot : Nat
  /-- native instructions, the latest first -/
  out : List Native
  /-- records, each with the number of native instructions before its own, the latest first -/
  marks : List (Nat × Nat)
  /-- starts of segments that a transfer may name, in the same form -/
  labels : List (Nat × Nat)
  /-- every record so far found the registers it needs -/
  ok : Bool
  deriving DecidableEq, Repr

/-- An instruction without guard, chain or stall. -/
def plainRaw (op : Fin 128) (d a b : Nat) : Raw :=
  ⟨false, 0, 0, op, ⟨d % 32, by omega⟩, ⟨a % 32, by omega⟩, ⟨b % 32, by omega⟩, false, 0, 0, 0⟩

/-- An instruction with an immediate second source (R289). -/
def immRaw (op : Fin 128) (d a : Nat) (v : Word) : Raw :=
  let lo : Ext := v.setWidth 32
  if fits32 v then { plainRaw op d a 0 with l := 1, e1 := lo }
  else { plainRaw op d a 0 with l := 2, e1 := lo, e2 := BitVec.ofNat 32 (v.toNat / 2 ^ 32) }

/-- `st.d` and `ld.d` of a register and a slot [g4 + 8k]. -/
def slotRaw (op : Fin 128) (isF : Bool) (r k : Nat) : Raw :=
  let w := plainRaw op r (4 + if isF then 16 else 0) 3
  if k = 0 then w else { w with l := 1, e1 := BitVec.ofNat 32 (8 * k) }

/-- A register becomes 0. -/
def zeroRaw (isF : Bool) (r : Nat) : Raw := if isF then plainRaw 0x45 r 0 0 else plainRaw 0x00 r 0 0

/-- An instruction under a record's guard, and under the opposite guard. -/
def PRec.guardRaw (r : PRec) (w : Raw) : Raw := { w with n := r.guardN, p := r.guardP }
def PRec.unguardRaw (r : PRec) (w : Raw) : Raw := { w with n := !r.guardN, p := r.guardP }

namespace Trans

def start : Trans := ⟨[], [], [], [], 0, [], [], [], true⟩
def emit (t : Trans) (w : Raw) : Trans := { t with out := ⟨w, []⟩ :: t.out }
def jump (t : Trans) (w : Raw) (ds : List Dest) : Trans := { t with out := ⟨w, ds⟩ :: t.out }
def fail (t : Trans) : Trans := { t with ok := false }
def hold (t : Trans) (v : VReg) (r : Nat) : Trans := { t with held := (v, r) :: t.held.filter fun h => h.1 != v }
def at? (t : Trans) (v : VReg) : Option Nat := (t.held.find? fun h => h.1 == v).map (·.2)
def slot? (t : Trans) (v : VReg) : Option Nat := (t.slots.find? fun h => h.1 == v).map (·.2)

/-- The lowest free register of a pool. -/
def free? (t : Trans) (isF : Bool) (pool : List Nat) : Option Nat :=
  pool.find? fun n => !(t.held.any fun h => h.1.1 == isF && h.2 == n)

/-- A value is stored from a register in the next unused slot. -/
def storeNow (t : Trans) (v : VReg) (r : Nat) : Trans :=
  { (t.emit (slotRaw 0x51 v.1 r t.nextSlot)) with
    slots := (v, t.nextSlot) :: t.slots.filter fun h => h.1 != v, dirty := t.dirty.filter (· != v), nextSlot := t.nextSlot + 1 }

/-- A value leaves its register: stored first if it was written since it was last stored. -/
def evict (t : Trans) (v : VReg) (r : Nat) : Trans :=
  let t' := { t with held := t.held.filter fun h => h.1 != v }
  if t.dirty.contains v then t'.storeNow v r else t'

/-- A register of a class takes the value of a virtual register that no register holds: from its slot, or 0 of one never written. -/
def fill (t : Trans) (v : VReg) (r : Nat) (guard : Raw → Raw) : Trans :=
  match t.slot? v with
  | some k => t.emit (guard (slotRaw 0x50 v.1 r k))
  | none => t.emit (guard (zeroRaw v.1 r))

/-- A value takes its new content. -/
def wrote (t : Trans) (v : VReg) : Trans := { t with dirty := v :: t.dirty.filter (· != v) }

end Trans

/-- The number of the next record after `i` that reads a value; the end of the records where none does, and the value then keeps its register
until it is evicted. The reads of a virtual register after a later write of it count as reads of its value (DESIGN CHOICE, log 98). -/
def nextRead (l : List PRec) (i : Nat) (v : VReg) : Nat :=
  ((List.range l.length).find? fun j => i < j && ((l[j]?).any fun r => r.uses.reads.contains v)).getD l.length

/-- The value whose next read lies furthest ahead, among those in these registers and not read by the current record; ties to the lower
number. -/
def victim (l : List PRec) (i : Nat) (t : Trans) (isF : Bool) (pool : List Nat) (keep : List VReg) : Option (VReg × Nat) :=
  let cs := t.held.filter fun h => h.1.1 == isF && pool.contains h.2 && !keep.contains h.1
  cs.foldl (fun best h => match best with
    | none => some h
    | some b =>
      let x := nextRead l i h.1
      let y := nextRead l i b.1
      if y < x || (x == y && h.1.2 < b.1.2) then some h else best) none

/-- A register of these that holds nothing, evicting where it must; none when every one holds a value the record reads. -/
def takeFrom (l : List PRec) (i : Nat) (t : Trans) (isF : Bool) (pool : List Nat) (keep : List VReg) : Trans × Option Nat :=
  match t.free? isF pool with
  | some n => (t, some n)
  | none => match victim l i t isF pool keep with
    | some (v, n) => (t.evict v n, some n)
    | none => (t, none)

/-- A value is read after a record. -/
def Budget.needed (bud : Budget) (l : List PRec) (i : Nat) (v : VReg) : Bool :=
  nextRead l i v != l.length || ((bud.outs[i]?).getD []).contains v

def Budget.pool (bud : Budget) (isF : Bool) : List Nat := if isF then bud.fPool else bud.gPool

/-- A register of a class's pool. -/
def takeReg (bud : Budget) (l : List PRec) (i : Nat) (t : Trans) (isF : Bool) (keep : List VReg) : Trans × Option Nat :=
  takeFrom l i t isF (bud.pool isF) keep

/-- The expansion registers of a class that reloads may take, and the one that a result may. -/
def Budget.reloads (bud : Budget) (isF : Bool) : List Nat := if isF then bud.fE.toList else bud.gE.take 2
def Budget.result (bud : Budget) (isF : Bool) : Option Nat := if isF then bud.fE else bud.gE[2]?
/-- The `k`-th expansion register of g. -/
def Budget.exp (bud : Budget) (k : Nat) : Nat := (bud.gE[k]?).getD 0

/-- The registers of a record's operands, found one after another, and the expansion registers its reloads have taken. -/
structure Alloc where
  t : Trans
  taken : List (Bool × Nat)
  at_ : List (VReg × Nat)
  deriving DecidableEq, Repr

def Alloc.reg? (x : Alloc) (v : VReg) : Option Nat := (x.at_.find? fun e => e.1 == v).map (·.2)

/-- A source gets a register: where it stands, g0 for a g value never written, `fmv.fg` of g0 for an f value never written, and else a
reload from its slot: into a free pool register, an expansion register (fE for an f value), or, where a record reads more than those, a pool
register whose value makes room (DESIGN CHOICE, log 98). -/
def fetchSrc (bud : Budget) (l : List PRec) (i : Nat) (keep : List VReg) (x : Alloc) (v : VReg) : Alloc :=
  let done := fun (x : Alloc) (r : Nat) => { x with at_ := (v, r) :: x.at_ }
  match x.t.at? v, x.t.slot? v with
  | some r, _ => done x r
  | none, none =>
    if !v.1 then done x 0
    else match takeReg bud l i x.t true keep with
      | (t, some r) => done { x with t := ((t.fill v r id).hold v r).wrote v } r
      | (t, none) => match (bud.reloads true).find? fun r => !x.taken.contains (true, r) with
        | some r => done { x with t := t.fill v r id, taken := (true, r) :: x.taken } r
        | none => done { x with t := t.fail } 0
  | none, some _ => match x.t.free? v.1 (bud.pool v.1) with
    | some r => done { x with t := (x.t.fill v r id).hold v r } r
    | none => match (bud.reloads v.1).find? fun r => !x.taken.contains (v.1, r) with
      | some r => done { x with t := x.t.fill v r id, taken := (v.1, r) :: x.taken } r
      | none => match takeReg bud l i x.t v.1 keep with
        | (t, some r) => done { x with t := (t.fill v r id).hold v r } r
        | (t, none) => done { x with t := t.fail } 0

/-- A base register is one of g0-g15 (R134): a value that stands higher moves to a low pool register, where one can be freed (DESIGN CHOICE, log 61). -/
def lowBase (bud : Budget) (l : List PRec) (i : Nat) (keep : List VReg) (x : Alloc) (v : VReg) : Alloc :=
  match x.reg? v with
  | some r =>
    if r < 16 then x
    else match takeFrom l i x.t false (bud.gPool.filter (· < 16)) keep with
      | (t, some n) => { x with t := (t.emit (plainRaw 0x00 n r 0)).hold v n, at_ := (v, n) :: x.at_.filter fun e => e.1 != v }
      | (_, none) => x
  | none => x

/-- Where no low pool register can be freed, a low register that the record does not use lends its place: its content is stored in the next
unused slot, it takes the base, and after the access it is loaded again (DESIGN CHOICE, log 61). -/
def lendBase (r : PRec) (a : Nat) (used : List Nat) (t : Trans) (go : Fin 32 → Trans → Trans) : Trans :=
  if !r.based || a < 16 then go ⟨a % 32, by omega⟩ t
  else match ([5, 6, 7, 8, 9] : List (Fin 32)).find? fun n => !used.contains n.val with
    | none => t.fail
    | some n =>
      let k := t.nextSlot
      (go n (({ t with nextSlot := k + 1 }.emit (slotRaw 0x51 false n.val k)).emit (plainRaw 0x00 n.val a 0))).emit (slotRaw 0x50 false n.val k)

/-- The destination of a native record, `mov` or `li`: its own register, a free one, or the last expansion register with a store at once.
Where the old value matters, the register holds it first. -/
def placeDst (bud : Budget) (l : List PRec) (i : Nat) (keep : List VReg) (old : Bool) (x : Alloc) (v : VReg) : Alloc × Nat × Bool :=
  let start := fun (t : Trans) (r : Nat) => if old then t.fill v r id else t
  match x.t.at? v with
  | some r => (x, r, false)
  | none => match takeReg bud l i x.t v.1 keep with
    | (t, some r) => ({ x with t := (start t r).hold v r }, r, false)
    | (t, none) => match bud.result v.1 with
      | some r => if old && x.taken.contains (v.1, r) then ({ x with t := t.fail }, 0, false) else ({ x with t := start t r }, r, true)
      | none => ({ x with t := t.fail }, 0, false)

/-- The steps of the group sums (R289), from `acc` into `d`. -/
def hsumRaws (bud : Budget) (op : Nat) (acc d : Nat) : List Raw :=
  let e1 := bud.exp 0
  let e2 := bud.exp 1
  let e3 := bud.exp 2
  let fE := bud.fE.getD 0
  plainRaw 0x28 e1 0 0 :: ([0, 1, 2, 3, 4] : List Nat).flatMap fun k =>
    let acc := if k = 0 then acc else d
    let x : Raw := immRaw 0x12 e3 e1 (BitVec.ofNat 64 (2 ^ k))
    if op = 0x84 then [x, plainRaw 0x6A e2 acc e3, plainRaw 0x00 d acc e2]
    else [plainRaw 0x45 e2 acc 1, x, plainRaw 0x6A e2 e2 e3, plainRaw 0x45 fE e2 0, plainRaw (if op = 0x82 then 0x30 else 0x38) d acc fE]

/-- The destination register of a group sum, and whether it is new to the value: its own, a free or evicted one of its pool, or the
source's, whose value is then stored where a later record reads it. -/
def hsumDst (bud : Budget) (l : List PRec) (i : Nat) (t : Trans) (d : POp) (src : Option VReg) : Trans × Nat × Bool :=
  match d with
  | .phys _ n => (t, n.val, false)
  | .virt f n => match t.at? (f, n) with
    | some r => (t, r, false)
    | none => match takeReg bud l i t f src.toList with
      | (t, some r) => (t.hold (f, n) r, r, true)
      | (t, none) => match src, src.bind t.at? with
        | some v, some r =>
          let t := if bud.needed l i v then t.evict v r else { t with held := t.held.filter fun h => h.1 != v }
          (t.hold (f, n) r, r, true)
        | _, _ => (t.fail, 0, false)
  | _ => (t, 0, false)

/-- A group sum (R289), every step under the record's guard. A source in a slot is reloaded into the destination; the threads that do not
execute the sum get the destination's old value there. -/
def transHsum (bud : Budget) (l : List PRec) (i : Nat) (t : Trans) (r : PRec) : Trans :=
  let src := r.opa.vreg
  let before := src.bind t.at?
  let (t, d, fresh) := hsumDst bud l i t r.opd src
  let (t, acc) := match r.opa, src with
    | .phys _ n, _ => (t, n.val)
    | _, some v => match before with
      | some x => (t, x)
      | none => if !v.1 && (t.slot? v).isNone then (t, 0) else (t.fill v d r.guardRaw, d)
    | _, none => (t, 0)
  let t := match fresh && r.guarded, r.opd.vreg with
    | true, some v => t.fill v d r.unguardRaw
    | _, _ => t
  let t := ((hsumRaws bud r.op acc d).map r.guardRaw).foldl Trans.emit t
  match r.opd.vreg with | some v => t.wrote v | none => t

/-- What a record becomes once its operands have registers. -/
def recordRaws (bud : Budget) (r : PRec) (d a b : Fin 32) : Option (List Raw) :=
  if r.isMov then some [r.guardRaw (if r.opd.isF then plainRaw 0x45 d.val a.val 2 else plainRaw 0x00 d.val a.val 0)]
  else if r.isLi then
    if r.opd.isF then some [immRaw 0x00 (bud.exp 0) 0 r.imm, r.guardRaw (plainRaw 0x45 d.val (bud.exp 0) 0)]
    else some [r.guardRaw (immRaw 0x00 d.val 0 r.imm)]
  else (r.raw r.opd.isF d a b).map fun w => [w]

/-- Numbers as a field. -/
def toField (k : Nat) : Fin 32 := ⟨k % 32, by omega⟩

/-- A record whose operands are registers: its sources, its destination, its instruction, and the store of a result without a register. -/
def transPlain (bud : Budget) (l : List PRec) (i : Nat) (t : Trans) (r : PRec) : Trans :=
  let u := r.uses
  let keep := u.reads
  let x := (u.srcs.filter fun v => !(u.old && u.dst == some v)).foldl (fetchSrc bud l i keep) ⟨t, [], []⟩
  let x := match r.opa.vreg with
    | some v => if r.based then lowBase bud l i keep x v else x
    | none => x
  let (x, d) := match u.dst with
    | some v =>
      let (x, n, now) := placeDst bud l i keep u.old x v
      ((if u.old then { x with at_ := (v, n) :: x.at_ } else x), some (v, n, now))
    | none => (x, none)
  let num := fun (f : Bool) (n : Nat) => toField ((x.reg? (f, n)).getD 0)
  let dn := match d, r.opd with
    | some (_, n, _), .virt .. => toField n
    | _, o => o.number num
  let used := [dn.val, (r.opa.number num).val, (r.opb.number num).val] ++ x.at_.map (·.2)
  let t := lendBase r (r.opa.number num).val used x.t fun a t =>
    match recordRaws bud r dn a (r.opb.number num) with
    | none => t.fail
    | some ws => ws.foldl Trans.emit t
  match d with
  | some (v, n, true) => if r.isCommit then { t with defer := (v, n) :: t.defer } else t.storeNow v n
  | some (v, _, false) => t.wrote v
  | none => t

/-- A `region`, and the results that waited for it. -/
def Trans.region (t : Trans) : Trans :=
  t.defer.foldl (fun t d => t.storeNow d.1 d.2) { t.emit (plainRaw 0x67 0 0 0) with defer := [] }

/-- One record of the translation. -/
def transRecord (bud : Budget) (l : List PRec) (t : Trans) (i : Nat) (r : PRec) : Trans :=
  let t := { t with marks := (i, t.out.length) :: t.marks }
  let u := r.uses
  let t := if r.isHsum then transHsum bud l i t r else if r.op = 0x67 then t.region else transPlain bud l i t r
  -- the registers of values read for the last time are released
  { t with held := t.held.filter fun h => !(u.reads.contains h.1 && !bud.needed l i h.1 && u.dst != some h.1) }

def transAll (bud : Budget) (l : List PRec) : (i : Nat) → List PRec → Trans → Trans
  | _, [], t => t
  | i, r :: rest, t => transAll bud l (i + 1) rest (transRecord bud l t i r)

/-! ### Kernels with transfers

Control may reach a segment from several places, so between segments every value stands in a slot of its own, its home. A segment reads homes
and writes fresh slots; after a further `region` at its end the new values go home, and then the transfer is made. No region so formed writes
a slot that it has read (R284). -/

/-- Every dirty value is stored and every register is free. -/
def Trans.flush (t : Trans) : Trans := { t.held.foldl (fun t h => t.evict h.1 h.2) t with held := [] }

/-- The virtual registers that records name. -/
def virtualRegs (l : List PRec) : List VReg := (l.flatMap fun r => ([r.opd, r.opa, r.opb]).filterMap POp.vreg).eraseDups

/-- The values that left their homes go home. -/
def Trans.goHome (bud : Budget) (homes : List (VReg × Nat)) (t : Trans) : Trans :=
  homes.foldl (fun t h => match t.at? h.1, t.slot? h.1 with
    | some r, k => if t.dirty.contains h.1 then t.emit (slotRaw 0x51 h.1.1 r h.2)
        else if k == some h.2 then t else t.emit (slotRaw 0x51 h.1.1 r h.2)
    | none, some k => if k == h.2 then t else (t.emit (slotRaw 0x50 false (bud.exp 0) k)).emit (slotRaw 0x51 false (bud.exp 0) h.2)
    | none, none => t) t

/-- The targets of a record at `i`, whose run-time address is that of the first record and 16 bytes a record (R283). -/
def PRec.targets (r : PRec) (n i : Nat) (recAddr : Int) : List Dest :=
  r.distances.map fun d =>
    let x := 16 * (i : Int) + d
    if 0 ≤ x && x < 16 * (n : Int) then .record (x / 16).toNat else .addr (recAddr + x)

/-- Where the segments of a kernel begin: at its first record, after each one's end, and at every target (R18). -/
def segmentStarts (l : List PRec) (recAddr : Int) : List Nat :=
  let n := l.length
  (List.range n).filter fun s => s == 0 || (l[s - 1]?).any PRec.ends
    || l.zipIdx.any fun r => (r.1.targets n r.2 recAddr).contains (.record s)

/-- The end of a segment: `e` is the number of the record that ends it; `afterCommit` says that a commit instruction stands directly before it. -/
def transEnd (bud : Budget) (n : Nat) (recAddr : Int) (homes : List (VReg × Nat)) (afterCommit : Bool) (t : Trans) (e : Nat) (r : PRec) : Trans :=
  let t := { t with marks := (e, t.out.length) :: t.marks }
  let on := fun (t : Trans) => if e + 1 < n then t.jump { plainRaw 0x60 0 0 0 with l := 1 } [.record (e + 1)] else t
  match r.op with
  | 0x66 => t.emit (plainRaw 0x66 0 0 0)
  | 0x67 => on ((if afterCommit then t else t.flush).region.goHome bud homes)
  | _ =>
    let t := t.flush.region
    let (t, a) := match r.opa with
      | .virt f v => (t.fill (f, v) (bud.exp 1) id, toField (bud.exp 1))
      | o => (t, o.number fun _ _ => 0)
    let t := t.goHome bud homes
    match r.raw false ((r.opd.field?).getD 0) a ((r.opb.field?).getD 0) with
    | none => t.fail
    | some w =>
      let t := t.jump w (r.targets n e recAddr)
      if r.op == 0x63 || r.op == 0x64 then on (if e + 1 < n then t.region else t) else t

/-- The segment that begins at a record: a `region`, then its records under R288 with every value at home, then its end. -/
def transSegment (bud : Budget) (l : List PRec) (recAddr : Int) (homes : List (VReg × Nat)) (t : Trans) (s : Nat) : Trans :=
  let e := ((List.range l.length).find? fun j => s ≤ j && (l[j]?).any PRec.ends).getD l.length
  let upTo := l.take (e + 1)
  let t := { t with held := [], dirty := [], slots := homes, labels := (s, t.out.length) :: t.labels }
  let t := (((l.take e).zipIdx).drop s).foldl (fun t r => transRecord bud upTo (if r.1.isCommit then t.flush else t) r.2 r.1) t.region
  match l[e]? with
  | some r => transEnd bud l.length recAddr homes (s < e && (l[e - 1]?).any PRec.isCommit) t e r
  | none => t

/-- A kernel with transfers: the homes are zeroed at its entry (R281), then its first segment follows. -/
def transSegments (bud : Budget) (l : List PRec) (recAddr : Int) (widen : Bool) : Trans :=
  let homes := (virtualRegs l).zipIdx
  let t := if widen then Trans.start.emit (plainRaw 0x2A 0 0 0) else Trans.start
  let t := homes.foldl (fun t h => t.emit (slotRaw 0x51 false 0 h.2)) { t with nextSlot := homes.length }
  let t := t.jump { plainRaw 0x60 0 0 0 with l := 1 } [.record 0]
  (segmentStarts l recAddr).foldl (transSegment { bud with outs := l.map fun _ => virtualRegs l } l recAddr homes) t

/-! ### Where R288's own assignment holds

R288 visits the records in order, whatever control does. Its native code has the effect of the records (R284) where, at every transfer, the
values that the target needs stand where the visit of the target expects them. -/

/-- The records of the kernel that control may reach after one. -/
def PRec.nexts (r : PRec) (n i : Nat) (recAddr : Int) : List Nat :=
  match r.op with
  | 0x60 | 0x61 => (r.targets n i recAddr).filterMap fun d => match d with | .record k => some k | .addr _ => none
  | 0x62 | 0x65 | 0x66 => []
  | _ => [i + 1]

/-- The values that control needs before each record: passes until they stand. -/
def neededBefore (l : List PRec) (recAddr : Int) : (passes : Nat) → List (List VReg)
  | 0 => l.map fun _ => []
  | k + 1 =>
    let env := neededBefore l recAddr k
    l.zipIdx.map fun (r, i) =>
      let u := r.uses
      let out := (r.nexts l.length i recAddr).flatMap fun j => (env[j]?).getD []
      (u.reads ++ out.filter fun v => u.dst != some v).eraseDups

/-- The state of the visit before each record, and after the last. -/
def transStates (bud : Budget) (l : List PRec) (recAddr : Int) : (i : Nat) → List PRec → Trans → List Trans
  | _, [], t => [t]
  | i, r :: rest, t =>
    let t' := transRecord bud l t i r
    let ds := r.targets l.length i recAddr
    t :: transStates bud l recAddr (i + 1) rest { t' with out := match t'.out with
      | w :: out => (if ds = [] then w else { w with dests := ds }) :: out
      | [] => [] }

/-- A register that a call leaves as it is (R31). -/
def calleeSaved (n : Nat) : Bool := n == 8 || n == 9 || (18 ≤ n && n ≤ 27)

/-- A value stands at the target of a transfer where the visit expects it: `e` after the transfer, `s` before the target; a value that stands
nowhere has not been written by the records up to both. -/
def standsSame (written : VReg → Bool) (e s : Trans) (v : VReg) : Bool :=
  e.at? v == s.at? v
    && (match s.at? v, s.slot? v with
      | none, none => !written v && e.slot? v == none
      | some _, k => s.dirty.contains v || e.slot? v == k && !e.dirty.contains v
      | none, k => e.slot? v == k)

/-- R288's own assignment gives every record what it needs: no `nextg`, whose target may be in the kernel, and no call of the kernel's own
records; each target begins a segment (R18); at every transfer each value that is needed stands in its place, and over a call in no register
that the call may change; and no slot is written where control may come back to it in one region (R284). -/
def straightOk (l : List PRec) (recAddr : Int) (st : List Trans) : Bool :=
  let needs := fun (j : Nat) => ((neededBefore l recAddr (l.length + 1))[j]?).getD []
  let wrote := fun (j : Nat) (v : VReg) => (l.take j).any fun r => r.uses.dst == some v
  let back := l.zipIdx.any fun (r, i) => r.transfers && (r.nexts l.length i recAddr).any fun j => j ≤ i
  let slotted := (st.getLast?).any fun t => t.nextSlot != 0
  !(back && slotted)
    && l.zipIdx.all fun (r, i) =>
      let e := (st[i + 1]?).getD Trans.start
      let call := r.op == 0x63 || r.op == 0x64
      r.op != 0x62 && (!call || (r.targets l.length i recAddr).all fun d => match d with | .record _ => false | .addr _ => true)
        && (r.nexts l.length i recAddr).all fun j =>
          let s := (st[j]?).getD Trans.start
          (j == i + 1 || (if j = 0 then s.out == [] else (l[j - 1]?).any PRec.ends))
            && (needs j).all fun v => standsSame (wrote (Nat.max (i + 1) j)) e s v
              && (!call || (s.at? v).all calleeSaved)

/-- A kernel with transfers as R288 has it, where that holds. -/
def transStraight (bud : Budget) (l : List PRec) (recAddr : Int) (widen : Bool) : Option Trans :=
  let needs := neededBefore l recAddr (l.length + 1)
  let outs := l.zipIdx.map fun (r, i) => ((r.nexts l.length i recAddr).flatMap fun j => (needs[j]?).getD []).eraseDups
  let bud := { bud with outs := outs }
  let st := transStates bud l recAddr 0 l (if widen then Trans.start.emit (plainRaw 0x2A 0 0 0) else Trans.start)
  match st.getLast? with
  | some t => if straightOk l recAddr st && t.ok then some { t with labels := t.marks.filter fun m => m.1 == 0 || (l[m.1 - 1]?).any PRec.ends } else none
  | none => none

/-! ### Live-in masks and stall counts (R284, R290) -/

/-- The registers that the instructions after each one read before they write them, for a list in reverse order. -/
def liveBefore (live : List RegName) (w : Raw) : List RegName :=
  match Instr.ofRaw w with
  | some i => (i.reads ++ live.filter fun n => !i.writes.contains n || mayKeep i).eraseDups
  | none => live
where mayKeep (i : Instr) : Bool := match i with | .sel .. => false | _ => w.n || w.p != 0

/-- The masks of a set of registers (R183). -/
def liveMask (f : Bool) (live : List RegName) : Ext :=
  live.foldl (fun m n => match n with
    | .g k => if !f && k.val != 0 then m ||| (1 <<< k.val) else m
    | .f k => if f then m ||| (1 <<< k.val) else m
    | _ => m) 0

/-- The registers live where control goes after an instruction: at its targets within the kernel; all those of `outer` where it leaves
the kernel or calls; those of the next instruction otherwise. -/
def liveAfter (outer : List RegName) (env : List (Nat × List RegName)) (live : List RegName) (w : Native) : List RegName :=
  if w.raw.op = 0x66 then []
  else if w.raw.op = 0x62 || w.raw.op = 0x63 || w.raw.op = 0x64 || w.raw.op = 0x65 then outer
  else if w.dests = [] then live
  else (w.dests.flatMap fun d => match d with
    | .record n => ((env.find? fun e => e.1 == n).map (·.2)).getD []
    | .addr _ => outer).eraseDups

/-- One pass over instructions that come latest first, each with its number: what is live at each label, and the instructions in order with
the masks of each `region`. -/
def liveness (outer : List RegName) (labels : List (Nat × Nat)) (env : List (Nat × List RegName)) :
    List RegName → List (Native × Nat) → List (Nat × List RegName) → List Native → List (Nat × List RegName) × List Native
  | _, [], e, out => (e, out)
  | live, (w, k) :: rest, e, out =>
    let after := liveAfter outer env live w
    -- the `region` after a `sysc` names g10-g17 (R198)
    let service := (rest.head?).any fun x => x.1.raw.op == 0x6D
    let raw := if w.raw.op = 0x67 then
        { w.raw with l := 2, e1 := liveMask false after ||| (if service then serviceMask else 0), e2 := liveMask true after } else w.raw
    let before := if w.raw.op = 0x67 then after else liveBefore after w.raw
    let e := ((labels.filter fun x => x.2 == k).map fun x => (x.1, before)) ++ e
    liveness outer labels env before rest e ({ w with raw := raw } :: out)

/-- The instructions in order, their `region`s with masks: passes until what is live at the labels stands. -/
def withMasks (outer : List RegName) (labels : List (Nat × Nat)) (out : List Native) : List Native :=
  let ws := (out.reverse.zipIdx).reverse
  let env := (List.range (labels.length + 1)).foldl (fun env _ => (liveness outer labels env [] ws [] []).1) []
  (liveness outer labels env [] ws [] []).2

/-- The registers that masks name. -/
def maskedRegs (w : Raw) : List (Bool × Nat) :=
  ((List.range 32).filter fun k => w.e1.getLsbD k).map (false, ·) ++ ((List.range 32).filter fun k => w.e2.getLsbD k).map (true, ·)

def namedMask (f : Bool) (l : List (Bool × Nat)) : Ext := l.foldl (fun m r => if r.1 == f then m ||| (1 <<< r.2) else m) 0

/-- The registers that a `region` keeps when it may name 16 (R183): g4, which the slots lie at, those that the commit before it writes, and
g10-g17, which the translator never writes (R287), and the lowest of the others; and the registers beyond them. -/
def keptRegs (first : List (Bool × Nat)) (w : Raw) : List (Bool × Nat) × List (Bool × Nat) :=
  let l := maskedRegs w
  if l.length ≤ 16 then (l, [])
  else
    let front := ((false, 4) :: first.filter l.contains ++ l.filter fun r => !r.1 && 10 ≤ r.2 && r.2 ≤ 17).eraseDups
    let l := front ++ l.filter fun r => !front.contains r
    (l.take 16, l.drop 16)

/-- The registers that a commit instruction writes; those of a `sysc` are the eight that its answer fills (R200). -/
def commitRegs (w : Raw) : List (Bool × Nat) :=
  if w.op = 0x6D then (List.range 8).map fun k => (false, 10 + k)
  else match Instr.ofRaw w with
    | some i => i.writes.filterMap fun n => match n with | .g k => some (false, k.val) | .f k => some (true, k.val) | _ => none
    | none => []

/-- Stores or loads of registers and slots, the first slot and the distance between two. -/
def slotMoves (op : Fin 128) (l : List (Bool × Nat)) (k : Nat) : List Native := l.zipIdx.map fun r => ⟨slotRaw op r.1.1 r.1.2 (k + 2 * r.2), []⟩

/-- A `region` with more than 16 live-in registers becomes two (R284): the registers beyond 16 are stored before the first, go from slot
to slot between the two, and are loaded after the second, so that no region writes a slot that it has read. -/
def splitRegion (first : List (Bool × Nat)) (stored : Bool) (k : Nat) (w : Native) : List Native :=
  let (keep, spare) := keptRegs first w.raw
  let again : Native := { w with raw := { w.raw with e1 := namedMask false keep, e2 := namedMask true keep } }
  if spare = [] then [w]
  else (if stored then [] else slotMoves 0x51 spare k) ++ [again] ++ ((slotMoves 0x50 spare k).zip (slotMoves 0x51 spare (k + 1))).flatMap (fun p => [p.1, p.2])
    ++ [again] ++ slotMoves 0x50 spare (k + 1)

/-- The instructions that each instruction becomes, with what its `region` stores before a commit instruction that stands directly before
it, and the number of the next unused slot. `first`: the registers written by the commit instruction just before. -/
def splitRegions : (k : Nat) → (first : Option (List (Bool × Nat))) → List Native → List (List Native) × Nat
  | k, _, [] => ([], k)
  | k, first, w :: rest =>
    if w.raw.op = 0x67 then
      let x := splitRegions (k + 2 * (keptRegs (first.getD []) w.raw).2.length) none rest
      (splitRegion (first.getD []) first.isSome k w :: x.1, x.2)
    else match (Instr.ofRaw w.raw).any Instr.isCommit, rest.head? with
      | true, some r =>
        let regs := commitRegs w.raw
        let x := splitRegions k (some regs) rest
        ((slotMoves 0x51 (keptRegs regs r.raw).2 k ++ [w]) :: x.1, x.2)
      | _, _ =>
        let x := splitRegions k none rest
        ([w] :: x.1, x.2)

/-- Where the instructions of each list begin, and the end of the last. -/
def startsOf : (n : Nat) → List (List Native) → List Nat
  | n, [] => [n]
  | n, l :: rest => n :: startsOf (n + l.length) rest

/-- The slots of a split need g4 wherever a register is kept. -/
def keepBase (l : List Native) : List Native :=
  if l.all fun w => w.raw.op != 0x67 || decide ((maskedRegs w.raw).length ≤ 16) then l
  else l.map fun w => if w.raw.op = 0x67 then { w with raw := { w.raw with e1 := w.raw.e1 ||| 0x10 } } else w

/-- The smallest stall count that lets an instruction read every fixed-latency source in time; `done` holds each producer's register,
latency and distance mark, `now` the distance of the next chain without a stall. -/
def stallFor (done : List (RegName × Nat × Nat)) (now : Nat) (next : Instr) : Nat :=
  ((done.filter fun p => next.reads.contains p.1).map fun p => p.2.2 + p.2.1 - now).foldl Nat.max 0

/-- A write leaves an earlier producer of the same register one: under a guard, which may hold it back, and of FFLAGS bits, which are ORed
(R101) but that `sets` of MODE replaces. -/
def stallLeaves (i : Instr) (w : Raw) (n : RegName) : Bool :=
  liveBefore.mayKeep w i || !i.writes.contains n || (n == .fflags && !i.writes.contains .mode)

/-- Stall counts in order (R290): the distances start anew after a segment end. -/
def setStalls : (now : Nat) → List (RegName × Nat × Nat) → List Native → List Native
  | _, _, [] => []
  | now, done, w :: rest =>
    match Instr.ofRaw w.raw with
    | none => w :: setStalls now done rest
    | some i =>
      if i.endsSegment then w :: setStalls 0 [] rest
      else
        let done := (i.fixedWrites.map fun x => (x.1, x.2, now)) ++ done.filter fun p => stallLeaves i w.raw p.1
        let s := match rest.head?.bind fun n => Instr.ofRaw n.raw with | some n => stallFor done (now + 1) n | none => 0
        { w with raw := { w.raw with s := ⟨s % 8, by omega⟩ } } :: setStalls (now + 1 + s) done rest

/-! ### Layout (R275, R285) -/

/-- `nop`. -/
def nopRaw : Raw := plainRaw 0x2F 0 0 0

/-- `nop` words from a number of words up to the next packet. -/
def padding (n : Nat) : List (BitVec 32) := (List.replicate ((3 - n % 3) % 3) nopRaw).flatMap Raw.words

/-- The number of words up to the instruction's end and, where it ends a segment, up to the next packet. -/
def wordsAfter (n : Nat) (w : Raw) : Nat :=
  let m := n + 1 + w.l.val
  if (Instr.ofRaw w).any Instr.endsSegment then m + (3 - m % 3) % 3 else m

/-- The word at which each instruction begins, and the one after the last. -/
def positions : (n : Nat) → List Native → List Nat
  | n, [] => [n]
  | n, w :: rest => n :: positions (wordsAfter n w.raw) rest

/-- The words of the kernel: after each segment end, and at the end, `nop` up to the next packet; `n` counts the words so far. -/
def layOut : (n : Nat) → List Raw → List (BitVec 32)
  | n, [] => padding n
  | n, w :: rest =>
    let m := n + 1 + w.l.val
    w.words ++ (if (Instr.ofRaw w).any Instr.endsSegment then padding m else []) ++ layOut (wordsAfter n w) rest

/-- The distance that a target field takes (R168, R277): from the packet of its instruction; none of one that SAH_TGT rejects. -/
def targetField (v : Int) : Option Ext :=
  if v % 12 == 0 && -(2 ^ 31) ≤ v && v < 2 ^ 31 then some (BitVec.ofInt 32 v) else none

/-- An instruction at a word with its targets filled in; `word` finds the word of a record's code. -/
def Native.resolve (code : Nat) (word : Nat → Option Nat) (w : Native) (pos : Nat) : Option Raw :=
  let field := fun (d : Dest) => match d with
    | .record n => (word n).bind fun p => targetField (12 * (p / 3 : Nat) - 12 * (pos / 3 : Nat))
    | .addr a => targetField (a - (code + 12 * (pos / 3) : Nat))
  match w.dests with
  | [] => some w.raw
  | [x] => (field x).map fun e => { w.raw with e1 := e }
  | x :: y :: _ => match field x, field y with
    | some e, some f => some { w.raw with e1 := e, e2 := f }
    | _, _ => none

/-- A translated kernel: its words, the bytes of its spill area, and for each record the byte at which its code begins. -/
structure Translated where
  words : List (BitVec 32)
  spill : Nat
  starts : List (Nat × Nat)
  deriving DecidableEq, Repr

/-- The words of a translation, once masks, stalls and targets are set; none where they cannot be. -/
def Trans.finish (t : Trans) (outer : List RegName) (code : Nat) : Option Translated :=
  let parts := splitRegions t.nextSlot none (keepBase (withMasks outer t.labels t.out))
  let starts := startsOf 0 parts.1
  if !t.ok then none
  else
    let ws := setStalls 0 [] parts.1.flatten
    let pos := positions 0 ws
    let at_ := fun (k : Nat) => (starts[k]?).bind fun n => pos[n]?
    let word := fun (n : Nat) => (t.labels.find? fun x => x.1 == n).bind fun x => at_ x.2
    let raws := (ws.zip pos).map fun w => w.1.resolve code word w.2
    if raws.all fun w => w.any fun w => (decodeRaw w).toOption.isSome then
      some ⟨layOut 0 (raws.filterMap id), 8 * parts.2, t.marks.reverse.map fun m => (m.1, 4 * (at_ m.2).getD 0)⟩
    else none

/-- The translation of a kernel's records: `code` is where its words go, `recAddr` the run-time address of its first record. None for records
that cannot be translated (status 6). Records are taken in order as R288 has them wherever the code so formed has their effect (R284);
where a record sends control elsewhere and it has not, they are taken segment by segment (DESIGN CHOICE, log 61). -/
def translate (k : Kernel) (l : List PRec) (code : Nat) (recAddr : Int) : Option Translated :=
  if !recordsOk k l then none
  else
    let bud := budgetOf k l
    let named := fun (f : Bool) => (namedRegs f l).map fun n => regName f (toField n)
    let outer := (([1, 2, 3, 4] : List (Fin 32)).map RegName.g ++ named false ++ named true).eraseDups
    if l.any fun r => r.transfers && r.op != 0x65 then
      ((transStraight bud l recAddr k.widen).getD (transSegments bud l recAddr k.widen)).finish outer code
    else (transAll bud l 0 l (if k.widen then Trans.start.emit (plainRaw 0x2A 0 0 0) else Trans.start)).finish outer code

end Sys2Proof.Machine
end

