-- ==== Sys2Proof/Machine/Loader.lean ====
section
/-! DEFINITION. Sahloth code objects as the loader of the device OS takes them (R264-R273, R276-R279): the checks of its steps in
order, relocations, kernel and node descriptors, on-chip declarations, and what a load writes and registers. The loader is software on a
hazel core: these functions say what it does to a context; no instruction runs them (log 60). -/

namespace Sys2Proof.Machine

/-! ### The ELF file (R264, R265, R267) -/

/-- The header fields that the loader checks (R264). -/
structure ElfHeader where
  eiClass : Nat
  eiData : Nat
  osabi : Nat
  type : Nat
  machine : Nat
  version : Nat
  flags : Nat
  deriving DecidableEq, Repr

/-- A PT_LOAD program header (R265). -/
structure Segment where
  offset : Nat
  vaddr : Nat
  memsz : Nat
  align : Nat
  flags : Nat
  deriving DecidableEq, Repr

/-- A section with its contents; `.bss` has none (R267). -/
structure Sect where
  name : String
  type : Nat
  alloc : Bool
  writable : Bool
  addr : Nat
  size : Nat
  entsize : Nat
  data : List Byte
  deriving DecidableEq, Repr

/-- A symbol: the section it is defined in, none for an undefined one (R268). -/
structure Sym where
  name : String
  home : Option String
  value : Nat
  isFunc : Bool
  isGlobal : Bool
  deriving DecidableEq, Repr

/-- A relocation record with the section whose fields it writes, as its `.rela` section holds it (R276). -/
structure Rela where
  home : String
  offset : Nat
  sym : Nat
  type : Nat
  addend : Int
  deriving DecidableEq, Repr

/-- A code object. -/
structure CodeObject where
  header : ElfHeader
  segments : List Segment
  sections : List Sect
  syms : List Sym
  deriving DecidableEq, Repr

/-- A little-endian field of a section's contents. -/
def fieldAt (data : List Byte) (off n : Nat) : Nat := ((data.drop off).take n).foldr (fun b v => b.toNat + 256 * v) 0

/-- Chunks of a section of fixed-size records. -/
def chunks (n : Nat) (b : List Byte) : List (List Byte) := (List.range (b.length / n)).map fun k => (b.drop (n * k)).take n

/-- A section's contents; those of `.bss` are zeros. -/
def Sect.bytes (s : Sect) : List Byte := if s.type == 8 then List.replicate s.size 0 else s.data

/-- The name of the section that a `.rela` section relocates. -/
def Sect.relocates? (s : Sect) : Option String :=
  if ".rela.".toList.isPrefixOf s.name.toList then some (String.ofList (s.name.toList.drop 5)) else none

/-- Reads an Elf64_Rela record: r_offset, r_info with the symbol in bits 63:32 and the type in bits 31:0, and the signed r_addend. -/
def Rela.read (home : String) (b : List Byte) : Rela :=
  let f := fieldAt b
  ⟨home, f 0 8, f 8 8 / 2 ^ 32, f 8 8 % 2 ^ 32, if f 16 8 < 2 ^ 63 then f 16 8 else (f 16 8 : Int) - 2 ^ 64⟩

namespace CodeObject

/-- The relocations, in section order and then record order (R278). -/
def relas (o : CodeObject) : List Rela :=
  o.sections.flatMap fun s => match s.relocates? with
    | some home => (chunks 24 s.data).map (Rela.read home)
    | none => []

/-- A section by its name. -/
def sectionOf? (o : CodeObject) (n : String) : Option Sect := o.sections.find? fun s => s.name == n

/-- The header holds the values of R264, and e_flags says whether there is a `.pps`. -/
def headerOk (o : CodeObject) : Bool :=
  let h := o.header
  h.eiClass == 2 && h.eiData == 1 && h.osabi == 0 && h.type == 3 && h.machine == 0x5E3A && h.version == 1
    && h.flags == 1 + (if (o.sectionOf? ".pps").isSome then 16 else 0)

end CodeObject

/-- The ISA tag of a segment: p_flags bits 29:28. -/
def Segment.tag (g : Segment) : Nat := g.flags / 2 ^ 28 % 4

/-- What R267 asks of a section of a name: type, entry size and, when it is allocated, tag and whether it is writable. -/
structure SectionRow where
  type : Nat
  entsize : Nat
  tag : Option Nat
  writable : Bool
  deriving DecidableEq, Repr

/-- The table of R267; none for a name outside it. -/
def sectionRow (n : String) : Option SectionRow :=
  match n with
  | ".text.vni" => some ⟨1, 0, some 2, false⟩
  | ".text.gen" => some ⟨1, 0, some 1, false⟩
  | ".pps" => some ⟨0x70000002, 16, none, false⟩
  | ".kdesc" => some ⟨1, 128, some 0, false⟩
  | ".onchip" => some ⟨0x70000001, 0, none, false⟩
  | ".nodes" => some ⟨1, 64, some 0, false⟩
  | ".const" => some ⟨1, 0, some 0, false⟩
  | ".data" => some ⟨1, 0, some 0, true⟩
  | ".got" => some ⟨1, 8, some 0, true⟩
  | ".bss" => some ⟨8, 0, some 0, true⟩
  | ".symtab" => some ⟨2, 24, none, false⟩
  | ".strtab" => some ⟨3, 0, none, false⟩
  | _ => if ".rela.".toList.isPrefixOf n.toList then some ⟨4, 24, none, false⟩ else none

/-- A section lies inside a segment. -/
def Sect.inside (s : Sect) (g : Segment) : Bool := g.vaddr ≤ s.addr && s.addr + s.size ≤ g.vaddr + g.memsz

/-- The alignment of a section's address (R267, R285). -/
def Sect.aligned (s : Sect) : Bool :=
  match s.name with
  | ".text.vni" => s.addr % 12 == 0
  | ".text.gen" => s.addr % 2 == 0
  | ".pps" => s.addr == 0
  | _ => true

/-- A segment is writable: PF_W. -/
def Segment.writable (g : Segment) : Bool := g.flags / 2 % 2 == 1

/-- A section meets its row of R267. Data sections of tag 00 are writable or read-only as the row says, and so is their segment. -/
def Sect.ok (segs : List Segment) (s : Sect) : Bool :=
  match sectionRow s.name with
  | none => !s.alloc
  | some r => s.type == r.type && s.entsize == r.entsize && s.aligned && s.alloc == r.tag.isSome
      && (match r.tag with
        | some k => (k != 0 || s.writable == r.writable)
            && segs.any fun g => s.inside g && g.tag == k && (k != 0 || g.writable == r.writable)
        | none => true)

/-- The ISA tag that a segment's sections ask for (R265). -/
def Segment.wanted (secs : List Sect) (g : Segment) : Nat :=
  if secs.any fun s => s.alloc && s.inside g && s.name == ".text.vni" then 2
  else if secs.any fun s => s.alloc && s.inside g && s.name == ".text.gen" then 1 else 0

/-- A segment's own rules (R265): alignment, tag, execution, and sections of one tag. -/
def Segment.ok (secs : List Sect) (g : Segment) : Bool :=
  (g.align == 0x10000 || g.align == 0x200000) && g.vaddr % g.align == g.offset % g.align && g.tag == g.wanted secs
    && (g.flags % 2 == 1) == (g.tag == 1 || g.tag == 2)
    && (secs.filter fun s => s.alloc && s.inside g).all fun s => ((sectionRow s.name).bind (·.tag)) == some g.tag

/-- Two segments share no 64 KiB page. -/
def Segment.apart (a b : Segment) : Bool :=
  (a.vaddr + a.memsz + 0xFFFF) / 0x10000 ≤ b.vaddr / 0x10000 || (b.vaddr + b.memsz + 0xFFFF) / 0x10000 ≤ a.vaddr / 0x10000

/-- What a rejected file offends with: its header, a program header or a section. -/
inductive FileError where
  | header
  | segment (index : Nat)
  | section_ (name : String)
  deriving DecidableEq, Repr

/-- Step 1 of R278: the first offender. -/
def CodeObject.fileError? (o : CodeObject) : Option FileError :=
  if !o.headerOk then some .header
  else match o.segments.zipIdx.find? fun g => !(g.1.ok o.sections) || (o.segments.take g.2).any fun x => !g.1.apart x with
    | some g => some (.segment g.2)
    | none => (o.sections.find? fun x => !x.ok o.segments).map fun x => .section_ x.name

/-! ### Placement and symbols (R266, R268) -/

/-- Preferred base: the lowest p_vaddr. -/
def CodeObject.base (o : CodeObject) : Nat := (o.segments.map (·.vaddr)).foldl Nat.min ((o.segments.map (·.vaddr)).headD 0)

/-- A distance that keeps packets and segments aligned (R266). -/
def CodeObject.deltaOk (o : CodeObject) (d : Int) : Bool :=
  d % 0x30000 == 0 && (!(o.segments.any fun g => g.align == 0x200000) || d % 0x600000 == 0)

/-- A run-time address. -/
def moved (d : Int) (a : Nat) : Nat := (((a : Int) + d) % 2 ^ 64).toNat

/-- The pages of the object at a distance are free in the context: none of them is mapped. -/
def CodeObject.rangeFree (s : State) (c : Context) (o : CodeObject) (d : Int) : Bool :=
  o.segments.all fun g => (List.range ((g.memsz + g.vaddr % 0x10000 + 0xFFFF) / 0x10000)).all fun k =>
    (ctxPa s c (BitVec.ofNat 64 (moved d (g.vaddr / 0x10000 * 0x10000) + 0x10000 * k))).isNone

/-- A function's value is aligned for its side. -/
def Sym.aligned (y : Sym) : Bool :=
  !y.isFunc || (match y.home with
    | some ".text.vni" => y.value % 12 == 0
    | some ".text.gen" => y.value % 2 == 0
    | _ => true)

/-- The symbols of a context: exported names with their addresses. -/
abbrev Exports := List (String × Nat)

/-- The name is exported by the object; `__gp` never is. -/
def Sym.exported (y : Sym) : Bool := y.isGlobal && y.home.isSome && y.name != "__gp"

/-- S of a symbol (R276): none when it cannot be resolved. -/
def symValue (ex : Exports) (d : Int) (y : Sym) : Option Nat :=
  match y.home with
  | some _ => some (moved d y.value)
  | none => (ex.find? fun e => e.1 == y.name).map (·.2)

/-- The first symbol, but for the first of the table, that is not aligned, cannot be resolved, or exports a name again (R268). -/
def CodeObject.symError? (o : CodeObject) (ex : Exports) (d : Int) : Option String :=
  ((o.syms.zipIdx.drop 1).find? fun y => !y.1.aligned || (symValue ex d y.1).isNone
    || (y.1.exported && (ex.any (fun e => e.1 == y.1.name) || (o.syms.take y.2).any fun x => x.exported && x.name == y.1.name))).map (·.1.name)

/-- g3 of the object's kernels (R268). -/
def CodeObject.gp (o : CodeObject) (d : Int) : Nat :=
  match o.syms.find? fun y => y.name == "__gp" && y.home.isSome with
  | some y => moved d y.value
  | none => ((o.sectionOf? ".got").map fun s => moved d s.addr).getD 0

/-! ### Relocations (R276, R277) -/

/-- The OP and L of an instruction word (R41). -/
def wordOp (w : Nat) : Nat := w / 2 ^ 19 % 128
def wordL (w : Nat) : Nat := w / 2 ^ 26 % 4

/-- A relocation's value (R277) and, where it is accepted, the number of bytes it writes at P; `sum` is S + A, and `word` the
instruction word at a distance below the field, none where the section has none. -/
def relValue (type : Nat) (sum delta addend : Int) (sym p : Nat) (word : Nat → Option Nat) : Int × Option Nat :=
  let keep := fun (v : Int) (ok : Bool) (n : Nat) => (v, if ok then some n else none)
  let target := fun (back : Nat) (ok : Bool) =>
    let v := sum - ((p - back) / 12 * 12 : Nat)
    keep v (v % 12 == 0 && -(2 ^ 31) ≤ v && v < 2 ^ 31 && ok) 4
  match type with
  | 0 => (0, some 0)
  | 1 => (sum, some 8)
  | 2 => keep sum (0 ≤ sum && sum < 2 ^ 32) 4
  | 3 => keep (sum - p) (-(2 ^ 31) ≤ sum - p && sum - p < 2 ^ 31) 4
  | 4 => keep (addend + delta) (sym == 0) 8
  | 5 => target 4 ((word 4).any fun w => ((wordOp w == 0x60 || wordOp w == 0x63) && wordL w == 1) || (wordOp w == 0x61 && wordL w == 2))
  | 6 => target 8 ((word 8).any fun w => wordOp w == 0x61 && wordL w == 2)
  | 7 => keep sum ((word 4).any fun w => wordL w == 2 && wordOp w < 0x50) 8
  | _ => (sum, none)

/-- A relocation as computed: its P, its value, and the bytes it writes at P; none when it is rejected. -/
structure Applied where
  p : Nat
  value : Int
  bytes : Option Nat
  deriving DecidableEq, Repr

/-- Computes one relocation: P lies inside the section it names and is a multiple of 4, and its symbol exists. -/
def applyRela (o : CodeObject) (ex : Exports) (d : Int) (r : Rela) : Applied :=
  let p := moved d r.offset
  let s := if r.sym = 0 then some 0 else (o.syms[r.sym]?).bind (symValue ex d)
  match o.sectionOf? r.home, s with
  | some x, some s =>
    let word := fun (back : Nat) =>
      if x.addr + back ≤ r.offset && r.offset - back + 4 ≤ x.addr + x.size then some (fieldAt x.bytes (r.offset - back - x.addr) 4) else none
    let v := relValue r.type (s + r.addend) d r.addend r.sym p word
    if x.addr ≤ r.offset && r.offset < x.addr + x.size && p % 4 == 0 then ⟨p, v.1, v.2⟩ else ⟨p, v.1, none⟩
  | _, _ => ⟨p, 0, none⟩

/-- The rejected relocations, each with its index in its `.rela` section, its section, its P and its value (R278). -/
def rejected (o : CodeObject) (ex : Exports) (d : Int) : List (Nat × String × Nat × Int) :=
  ((o.relas.map (·.home)).eraseDups).flatMap fun h =>
    ((o.relas.filter fun r => r.home == h).zipIdx).filterMap fun r =>
      let a := applyRela o ex d r.1
      if a.bytes.isNone then some (r.2, h, a.p, a.value) else none

/-- The bytes that an accepted relocation writes. -/
def Applied.field (a : Applied) : List Byte := match a.bytes with
  | some n => (List.range n).map fun k => BitVec.ofInt 8 (a.value / 2 ^ (8 * k))
  | none => []

/-- Bytes written over contents from a distance on; those outside fall away. -/
def patch (data : List Byte) (off : Int) (l : List Byte) : List Byte :=
  l.zipIdx.foldl (fun data b => if 0 ≤ off + b.2 then data.set (off + b.2).toNat b.1 else data) data

/-- A section's contents with the relocated fields that fall on it: its own, and for a section in memory those that run on from another. -/
def relocated (o : CodeObject) (ex : Exports) (d : Int) (x : Sect) : List Byte :=
  let on := fun (r : Rela) => r.home == x.name || (x.alloc && (o.sectionOf? r.home).any (·.alloc))
  (o.relas.filter on).foldl (fun data r => patch data ((r.offset : Int) - x.addr) (applyRela o ex d r).field) x.bytes

/-! ### Descriptors (R269-R273) -/

/-- A signed 16-bit number. -/
def signed16 (v : Nat) : Int := if v < 0x8000 then v else (v : Int) - 0x10000

/-- A kernel descriptor: the fields of R269 and R270 as a kernel, with its prefetch count and the offsets of its record and name. -/
structure KDesc where
  kernel : Kernel
  pfCount : Nat
  onchip : Nat
  name : Nat
  deriving DecidableEq, Repr

/-- Reads a descriptor of 128 bytes; `gp` and the stack base come from the object and from system software. -/
def KDesc.read (b : List Byte) (gp stackBase : Word) : KDesc :=
  let f := fieldAt b
  let sh := f 8 8
  let bits := fun (lo n : Nat) => sh / 2 ^ lo % 2 ^ n
  { kernel :=
      { entry := BitVec.ofNat 64 (f 0 8), kdesc := 0, merge := bits 52 4, ca := bits 44 4, cb := bits 48 4, groups := bits 38 6, acc := bits 32 6
        srows := bits 22 10, fregs := bits 16 6, gregs := bits 10 6, hlevel := bits 3 1 == 1, widen := bits 2 1 == 1
        node := bits 1 1 == 1, stack := f 16 4, bars := BitVec.ofNat 16 (f 20 2), qmask := BitVec.ofNat 8 (f 22 1)
        pf := (List.range (f 23 1)).map fun k => signed16 (f (24 + 2 * k) 2), gp := gp, stackBase := stackBase }
    pfCount := f 23 1, onchip := f 40 4, name := f 44 4 }

/-- A descriptor at an address. -/
def KDesc.at (k : KDesc) (a : Nat) : KDesc := { k with kernel := { k.kernel with kdesc := BitVec.ofNat 64 a } }

/-- The fields that R269 and R270 ask to be zero are. -/
def reservedZero (b : List Byte) : Bool :=
  let sh := fieldAt b 8 8
  sh / 2 ^ 56 == 0 && sh / 2 ^ 4 % 2 ^ 6 == 0 && sh % 2 == 0 && (List.range 10).all (fun k => fieldAt b (48 + 8 * k) 8 == 0)
    && (List.range 8).all fun k => k < fieldAt b 23 1 || fieldAt b (24 + 2 * k) 2 == 0

/-- A kernel's numbers lie within the ranges of R269 and R270, and a node's kernel has clusters of one team (R326). -/
def Kernel.ok (k : Kernel) (pfCount : Nat) : Bool :=
  k.stack % 16 == 0 && k.stack ≤ 0x100000 && pfCount ≤ 8 && 1 ≤ k.cb && k.cb ≤ 8 && 1 ≤ k.ca && k.ca ≤ 6 && k.ca * k.cb ≤ 12
    && 1 ≤ k.groups && k.groups ≤ 32 && k.acc ≤ 32 && k.srows ≤ 768 && k.fregs ≤ 32 && 5 ≤ k.gregs && k.gregs ≤ 32
    && (!k.node || k.ca * k.cb == 1)

/-- Where a kernel's code is: in `.text.vni` at a packet, or in `.pps` at a record; none elsewhere. No relocation applies to the ENTRY of a
portable kernel (R285), so `related` says that one does and the kernel is native. -/
def entryHome (o : CodeObject) (d : Int) (related : Bool) (entry : Nat) : Option Bool :=
  let inText := (o.sectionOf? ".text.vni").any fun x => moved d x.addr ≤ entry && entry < moved d x.addr + x.size && entry % 12 == 0
  let inPps := !related && (o.sectionOf? ".pps").any fun x => entry < x.size && entry % 16 == 0
  if inText then some false else if inPps then some true else none

/-- A relocation names the ENTRY of the descriptor of this number. -/
def CodeObject.entryRelated (o : CodeObject) (i : Nat) : Bool :=
  (o.sectionOf? ".kdesc").any fun x => o.relas.any fun r => r.home == ".kdesc" && r.offset == x.addr + 128 * i

/-- An on-chip entry (R271). -/
structure OnChip where
  kind : Nat
  offset : Nat
  size : Nat
  deriving DecidableEq, Repr

/-- Reads a kernel's record; none where a reserved field is not zero or it is not the record of that kernel. -/
def readOnChip (b : List Byte) (off kidx : Nat) : Option (List OnChip) :=
  let f := fun (o n : Nat) => fieldAt b (off + o) n
  let n := f 4 4
  let es := (List.range (Nat.min n 4096)).map fun k => (⟨f (16 + 16 * k) 2, f (20 + 16 * k) 4, f (24 + 16 * k) 4⟩ : OnChip)
  if off + 16 + 16 * n ≤ b.length && f 0 4 == kidx && n ≤ 4096 && f 8 8 == 0
      && (List.range n).all (fun k => f (18 + 16 * k) 2 == 0 && f (28 + 16 * k) 4 == 0) then some es else none

/-- An entry by itself (R271, R272). -/
def OnChip.ok (k : Kernel) (e : OnChip) : Bool :=
  let within := fun (p : Nat → Bool) => (List.range e.size).all fun i => p (e.offset + i)
  let sram := e.offset + e.size ≤ k.srows * 1024
  match e.kind with
  | 1 => e.offset % 1024 == 0 && e.size == 9216 && sram
  | 2 => e.offset % 64 == 0 && e.size == 64 && sram
  | 3 => sram
  | 4 => e.offset + e.size ≤ k.acc
  | 5 => e.offset + e.size ≤ 16 && within fun n => k.bars.getLsbD n
  | 6 => e.offset + e.size ≤ 8 && within fun n => k.qmask.getLsbD n
  | _ => false

/-- Scratchpad entries do not overlap. -/
def onChipApart : List OnChip → Bool
  | [] => true
  | e :: rest => (rest.all fun x => 3 < x.kind || 3 < e.kind || e.offset + e.size ≤ x.offset || x.offset + x.size ≤ e.offset) && onChipApart rest

/-- A kernel's declaration is accepted under a partition's quotas (R272). A cluster takes one team of each of its cores, so it fits within
a die when a team fits a core. -/
def declarationOk (p : PartDesc) (k : Kernel) (es : List OnChip) : Bool :=
  es.all (OnChip.ok k) && onChipApart es && k.srows ≤ p.rowN && k.acc ≤ p.tileN && k.groups ≤ 4 * p.slotN

/-- A node descriptor (R273). -/
structure NodeDesc where
  kdesc : Nat
  thresh : Nat
  maxwait : Nat
  cap : Nat
  qcb : Nat
  ring : Nat
  fabric : Bool
  deriving DecidableEq, Repr

def NodeDesc.read (b : List Byte) : NodeDesc :=
  let f := fieldAt b
  ⟨f 0 8, f 8 4, f 12 4, f 16 8, f 24 8, f 32 8, f 40 4 % 2 == 1⟩

/-- Bytes at a run-time address lie in `.data` or in `.bss`. -/
def CodeObject.inData (o : CodeObject) (d : Int) (a n : Nat) : Bool :=
  [".data", ".bss"].any fun x => (o.sectionOf? x).any fun x => moved d x.addr ≤ a && a + n ≤ moved d x.addr + x.size

/-- A node's numbers lie within R273, and its queue control block and its ring in `.data` or `.bss`. -/
def NodeDesc.ok (o : CodeObject) (d : Int) (b : List Byte) (n : NodeDesc) : Bool :=
  o.inData d n.qcb 64 && o.inData d n.ring (64 * n.cap) && 1 ≤ n.thresh && n.thresh ≤ 32 && (List.range 16).any (fun k => n.cap == 2 ^ (5 + k)) && n.qcb % 64 == 0 && n.ring % 64 == 0
    && fieldAt b 40 4 / 2 == 0 && (List.range 5).all fun k => fieldAt b (44 + 4 * k) 4 == 0

/-! ### A load (R278, R279, R285) -/

/-- What a rejected placement offends with: a symbol, the distance or its range, or pages that system software did not map as it must. -/
inductive PlaceError where
  | symbol (name : String)
  | range
  | pages
  deriving DecidableEq, Repr

/-- Why an object is rejected. -/
inductive LoadReport where
  /-- status 1: the header, a segment or a section -/
  | file (e : FileError)
  /-- status 2: no place, or a symbol -/
  | placement (e : PlaceError)
  /-- status 3: every rejected relocation -/
  | relocations (l : List (Nat × String × Nat × Int))
  /-- status 4: a kernel or node descriptor -/
  | descriptor (index : Nat)
  /-- status 5: an on-chip record -/
  | onChip (index : Nat)
  /-- status 6: a portable kernel -/
  | translation (index : Nat)
  deriving DecidableEq, Repr

def LoadReport.status : LoadReport → Nat
  | .file _ => 1 | .placement _ => 2 | .relocations _ => 3 | .descriptor _ => 4 | .onChip _ => 5 | .translation _ => 6

/-- What system software chooses for a load: the distance when the preferred range is taken, the PTEs it writes (physical address and
value), where translated code goes, and where the stack regions of each kernel lie. -/
structure LoadChoice where
  delta : Int
  ptes : List (Nat × Word)
  code : Nat
  stackBases : List Word
  deriving DecidableEq, Repr

/-- The distance of a load (R266): 0 when the preferred range is free. -/
def loadDelta (s : State) (c : Context) (o : CodeObject) (ch : LoadChoice) : Int := if o.rangeFree s c 0 then 0 else ch.delta

/-- The 64 KiB pages of a range of addresses. -/
def pagesOf (va n : Nat) : List Nat :=
  if n = 0 then [] else (List.range ((n + va % 0x10000 + 0xFFFF) / 0x10000)).map fun k => va / 0x10000 * 0x10000 + 0x10000 * k

/-- The leaf of a 64 KiB page: the one at which the walks of all its sixteen level-0 entries end (R300). -/
def leafOf (s : State) (c : Context) (va : Nat) : Option TlbEntry :=
  let leaf := fun (k : Nat) => match s.walkTables c (BitVec.ofNat 64 (va + 0x1000 * k)) with
    | .leaf e _ _ _ => some e
    | _ => none
  if (List.range 16).all fun k => leaf k == leaf 0 then leaf 0 else none

/-- A page is mapped with a tag, X for code, U but in a handler context (R265), and W as asked where it holds data. -/
def pageOk (s : State) (c : Context) (tag : Nat) (w : Bool) (va : Nat) : Bool :=
  (leafOf s c va).any fun e => e.tag == tag && e.x == (tag != 0) && e.u == !c.handler && (tag != 0 || e.w == w)

/-- No two of some lists share an element. -/
def disjointAll : List (List Nat) → Bool
  | [] => true
  | l :: rest => (rest.all fun m => l.all fun x => !m.contains x) && disjointAll rest

/-- The PTEs map every page of the object as R265 asks, and those of the translated code with tag 10 (R284); no two segments share a
page of the size it is mapped with, and the code shares none with them. -/
def mapsOk (s : State) (c : Context) (o : CodeObject) (d : Int) (code len : Nat) : Bool :=
  let pages := o.segments.map fun g => pagesOf (moved d g.vaddr) g.memsz
  let leaves := fun (l : List Nat) => (l.filterMap fun va => (leafOf s c va).map (·.vbase)).eraseDups
  ((o.segments.zip pages).all fun g => g.2.all (pageOk s c g.1.tag g.1.writable))
    && (pagesOf code len).all (pageOk s c 2 false) && disjointAll ((pages ++ [pagesOf code len]).map leaves)

/-- The number of the record after the last of a portable kernel: the next kernel's first, or the end of `.pps`. -/
def recordsAt (pps : List Byte) (entry : Nat) (others : List Nat) : List PRec :=
  let stop := (others.filter fun x => entry < x).foldl Nat.min pps.length
  (List.range ((stop - entry) / 16)).map fun k => PRec.ofWords (fieldAt pps (entry + 16 * k) 8) (fieldAt pps (entry + 16 * k + 8) 8)

/-- The prefetch lines of a translated kernel (R284): the line of each lies where the code of its first record is, in lines from the one that
holds the new ENTRY (log 61). -/
def translatedLines (k : Kernel) (x : Translated) (code : Nat) : List Int :=
  k.pf.map fun (o : Int) =>
    let rec_ : Int := (((k.entry.toNat / 64 : Nat) + o : Int) * 64 - (k.entry.toNat : Nat)) / 16
    let byte := ((x.starts.find? fun y => rec_ ≤ (y.1 : Int)).map (·.2)).getD (4 * x.words.length)
    (((code + byte) / 64 : Nat) : Int) - ((code / 64 : Nat) : Int)

/-- A kernel as registered, and the address and words of its code when it was translated. -/
abbrev Placed := Kernel × Option (Nat × List (BitVec 32))

/-- Translated code of the portable kernels, one after another on the pages chosen for it: each kernel with its code's address and words.
`d` is the object's distance, by which `.pps`, at address 0, moves as every section does. -/
def translateAll (pps : List Byte) (d : Int) (entries : List Nat) : Nat → List (KDesc × Bool) → Except Nat (List Placed)
  | _, [] => .ok []
  | code, (k, false) :: rest => (translateAll pps d entries code rest).map ((k.kernel, none) :: ·)
  | code, (k, true) :: rest =>
    match translate k.kernel (recordsAt pps k.kernel.entry.toNat entries) code (d + k.kernel.entry.toNat) with
    | none => .error rest.length
    | some x =>
      let kernel := { k.kernel with entry := BitVec.ofNat 64 code, stack := k.kernel.stack + (x.spill + 15) / 16 * 16
                                    pf := translatedLines k.kernel x code }
      (translateAll pps d entries (code + 4 * x.words.length) rest).map ((kernel, some (code, x.words)) :: ·)

/-- Bytes at an address of a context whose pages are mapped; of a field that runs on past the object's pages, what lies on them. -/
def loadBytes (s : State) (c : Context) (va : Nat) (l : List Byte) : State :=
  l.zipIdx.foldl (fun s b => match ctxPa s c (BitVec.ofNat 64 (va + b.2)) with
    | some pa => writeMaster s pa 1 b.1.toNat
    | none => s) s

/-- Translated code as the pages hold it: its bytes from an address on, and for an encrypted context whole lines enciphered under the key
(R400). -/
def sealCode (s : State) (c : Context) (va : Nat) (l : List Byte) : Nat × List Byte :=
  match c.enc, s.keySlots.find? fun k => k.1 == c.keyId with
  | true, some key =>
    let first := va / 64
    let all := List.replicate (va % 64) 0 ++ l
    (64 * first, (List.range ((all.length + 63) / 64)).flatMap fun k =>
      bytesLE 64 (xtsSeal key.2 ((first + k) % 2 ^ 51) (fieldAt all (64 * k) 64)))
  | _, _ => (va, l)

/-- A queue control block as the loader builds it (R273, R195). -/
def buildQcb (s : State) (c : Context) (at_ : Nat) (n : NodeDesc) : State :=
  vaWrites s c (BitVec.ofNat 64 n.qcb) ((([n.ring, n.cap, 0, 0, at_, 0, 0, 0] : List Nat)).map (BitVec.ofNat 64))

/-- The sweep that ends a change of code (R51): the instruction lines and translations of the pages leave every core. -/
def sweepPages (s : State) (c : Context) (pages : List Nat) : State :=
  sweep s (fun e => e.ctx == c.id && pages.any fun p => e.vbase ≤ p && p < e.vbase + e.size)
    (fun l => l.ctx == c.id && pages.any fun p => l.page ≤ p && p < l.page + l.size) [c.id]

/-- A kernel's descriptor as rewritten after its translation: ENTRY, STACK and the PFLINE offsets. -/
def rewriteDesc (s : State) (c : Context) (at_ : Nat) (k : Kernel) : State :=
  loadBytes (loadBytes (loadBytes s c at_ (bytesLE 8 k.entry.toNat)) c (at_ + 16) (bytesLE 4 k.stack)) c (at_ + 24)
    (k.pf.flatMap fun o => bytesLE 2 (o % 2 ^ 16).toNat)

/-- Step 4 for the kernel descriptors: what a descriptor holds, with its number. -/
def descOk (o : CodeObject) (d : Int) (b : (List Byte × KDesc) × Nat) : Bool :=
  reservedZero b.1.1 && b.1.2.kernel.ok b.1.2.pfCount
    && (o.sectionOf? ".onchip").any (fun x => b.1.2.onchip < x.data.length)
    && (o.sectionOf? ".strtab").any (fun x => b.1.2.name < x.data.length)
    && (entryHome o d (o.entryRelated b.2) b.1.2.kernel.entry.toNat).isSome

/-- Steps 7 and 8 on memory: the PTEs, the sections' contents, the fields that run past a section, the translated code, the rewritten
descriptors, the queue control blocks, and the sweep. -/
def writeObject (s : State) (c : Context) (o : CodeObject) (ex : Exports) (d : Int) (ch : LoadChoice) (kaddr naddr : Nat)
    (nodes : List (NodeDesc × Nat)) (done : List Placed) : State :=
  let s := ch.ptes.foldl (fun s e => writeMaster s e.1 8 e.2.toNat) s
  let inMem := fun (n : String) => (o.sectionOf? n).any (·.alloc)
  let s := (o.sections.filter (·.alloc)).foldl (fun s x => loadBytes s c (moved d x.addr) (relocated o ex d x)) s
  let s := (o.relas.filter fun r => inMem r.home).foldl (fun s r => loadBytes s c (applyRela o ex d r).p (applyRela o ex d r).field) s
  let code := sealCode s c ch.code ((done.filterMap (·.2)).flatMap fun w => w.2.flatMap bytesOfWord)
  let s := loadBytes s c code.1 code.2
  let s := done.zipIdx.foldl (fun s k => if k.1.2.isNone then s else rewriteDesc s c (kaddr + 128 * k.2) k.1.1) s
  let s := nodes.foldl (fun s n => buildQcb s c (naddr + 64 * n.2) n.1) s
  sweepPages s c ((o.segments.flatMap fun g => pagesOf (moved d g.vaddr) g.memsz) ++ pagesOf code.1 code.2.length)

/-- The kernel of a node (R273): the one whose descriptor KDESC names, of this object or of one that the context has loaded before
(DEDUCED, log 86). -/
def nodeKernel (own loaded : List Kernel) (n : NodeDesc) : Option Kernel :=
  (own ++ loaded).find? fun k => k.kdesc == BitVec.ofNat 64 n.kdesc

/-- Loads an object into a context (R278): the steps in order, each with its status; a rejected object changes nothing. The result is the
state and the symbols now exported. -/
def loadObject (s : State) (c : Context) (p : PartDesc) (ex : Exports) (o : CodeObject) (ch : LoadChoice) :
    Except LoadReport (State × Exports) := do
  let d := loadDelta s c o ch
  if let some e := o.fileError? then throw (.file e)
  if !(o.deltaOk d && o.rangeFree s c d) then throw (.placement .range)
  if let some y := o.symError? ex d then throw (.placement (.symbol y))
  let bad := rejected o ex d
  if bad != [] then throw (.relocations bad)
  let body := fun (n : String) => ((o.sectionOf? n).map (relocated o ex d)).getD []
  let pps := body ".pps"
  let raws := chunks 128 (body ".kdesc")
  let kaddr := ((o.sectionOf? ".kdesc").map fun x => moved d x.addr).getD 0
  let descs := raws.zipIdx.map fun b => (KDesc.read b.1 (BitVec.ofNat 64 (o.gp d)) ((ch.stackBases[b.2]?).getD 0)).at (kaddr + 128 * b.2)
  if let some i := (raws.zip descs).zipIdx.findIdx? (fun b => !descOk o d b) then throw (.descriptor i)
  let naddr := ((o.sectionOf? ".nodes").map fun x => moved d x.addr).getD 0
  let nodeRaws := chunks 64 (body ".nodes")
  if let some i := nodeRaws.findIdx? (fun b => !((NodeDesc.read b).ok o d b
      && (nodeKernel (descs.map (·.kernel)) c.kernels (NodeDesc.read b)).any (·.node))) then
    throw (.descriptor (raws.length + i))
  if let some i := descs.zipIdx.findIdx? (fun k => !((readOnChip (body ".onchip") k.1.onchip k.2).any (declarationOk p k.1.kernel))) then
    throw (.onChip i)
  let portable := descs.zipIdx.map fun k => (k.1, (entryHome o d (o.entryRelated k.2) k.1.kernel.entry.toNat) == some true)
  let entries := (portable.filter (·.2)).map fun k => k.1.kernel.entry.toNat
  match translateAll pps d entries ch.code portable with
  | .error left => throw (.translation (descs.length - 1 - left))
  | .ok done =>
    let len := ((done.filterMap (·.2)).map fun w => 4 * w.2.length).foldl (· + ·) 0
    let nodes := nodeRaws.map NodeDesc.read
    let mapped := ch.ptes.foldl (fun s e => writeMaster s e.1 8 e.2.toNat) s
    let free := (pagesOf ch.code len).all fun va => (ctxPa s c (BitVec.ofNat 64 va)).isNone
    if !(ch.code % 12 == 0 && free && mapsOk mapped c o d ch.code len) then throw (.placement .pages)
    let s := writeObject s c o ex d ch kaddr naddr nodes.zipIdx done
    let kernels := done.map (·.1)
    let table := nodes.filterMap fun n => (nodeKernel kernels c.kernels n).map fun k =>
      ({ qcb := BitVec.ofNat 64 n.qcb, kernel := k, thresh := n.thresh, maxwait := n.maxwait, fabric := n.fabric, pendingRecs := []
         formed := false } : Node)
    pure (s.modCtx c.id fun x => { x with kernels := x.kernels ++ kernels, nodes := x.nodes ++ table },
      ex ++ (o.syms.filter Sym.exported).map fun y => (y.name, moved d y.value))

end Sys2Proof.Machine
end

