-- ==== Sys2Proof/Machine/Hazel.lean ====
section
/-! DEFINITION. The hazel side: returns, nested crossings and arrivals (R178, R179, R383), exceptions of away threads (R410),
service replies (R200, R391), and accesses by hazel cores with the on-chip windows (R263, R291, R293, R349, R350). -/

namespace Sys2Proof.Machine

/-! ### Crossings from the hazel side -/

/-- The hazel thread that runs a compute thread, free to execute. -/
def awayThread (s : State) (t : ThreadId) : Option Hazel :=
  s.hazels.find? fun h => h.home == some t && !h.asleep && h.leaving.isNone
    && ((s.thread? t).any fun x => x.status == .away && (s.teamOf x).ctx == h.ctx) && ((s.ctx? h.ctx).any fun c => c.st == .running)

/-- System software writes a fault-queue entry for an away thread, and it sleeps on the ticket (R178, R410); it goes on at
`resume`, and after a watchpoint passes its hit there. `exc` is the exception that the hazel core reported. -/
def awayFault (s : State) (h : Hazel) (t : ThreadId) (cause : Cause) (nr : Bool) (pc tval resume : Word) (info : Nat)
    (exc : Option Nat := none) : State :=
  let s := s.modHazel h.id fun x => { x with asleep := true, pc := resume, pass := if cause = .watchpoint then some tval else none }
  let s := match exc with
    | some e => { s with hazelTraps := s.hazelTraps ++ [(h.id, e)] }
    | none => s
  s.report fun k =>
    { id := k, ctx := h.ctx, kind := 0, cause := cause, nr := nr, epc := pc, eaddr := tval, who := whoWord thisModule 3 t.posWord
      rentry := pc, serial := ((s.thread? t).map (·.rserial)).getD 0, info := info, stamp := s.tstamp, waiter := .hazel t }

/-- How the hazel side sees the target of a return or call: an ordinary transfer between hazel functions, an instruction page fault
(with NR), an instruction access fault, or a page that the thread may enter. -/
inductive Landing where
  | ordinary
  | pageFault (nr : Bool)
  | accessFault
  | enter (pa : Nat)
  deriving DecidableEq, Repr

/-- The checks on the target's page for a thread's privilege (R178, R179, R383): a page fault stands before any other failure. -/
def landing (s : State) (c : Context) (hlevel : Bool) (target : Word) : Landing :=
  if !canonical target then .accessFault
  else match s.walkTables c target with
  | .notResident => .pageFault true
  | .format => .pageFault false
  | .access _ => .accessFault
  | .leaf e _ _ _ =>
    if e.tag = 1 then .ordinary
    else if e.tag ≠ 2 then .pageFault false
    else if !e.x ∨ e.u = hlevel ∨ target.toNat % 12 ≠ 0 then .accessFault
    else .enter (e.pbase + (target.toNat % 2 ^ 57 - e.vbase))

/-- A fault in transit on the hazel side (R178): the transit entry of an instruction page fault (cause 12) or access fault (cause 1). -/
def transitFault (s : State) (h : Hazel) (t : ThreadId) (page nr : Bool) (jalr target : Word) : State :=
  awayFault s h t .transit nr jalr target jalr 0 (some (if page then 12 else 1))

/-- HAZEL_RETURN (R178, R383): the `jalr` at an address with the image the thread then holds. -/
def execHazelReturn (t : ThreadId) (jalr target : Word) (img : Image) (s : State) : Host.Outcome State Fault Refusal :=
  match awayThread s t with
  | none => .next s
  | some h =>
    match s.thread? t, s.ctx? h.ctx with
    | some x, some c =>
      if x.cross.head? ≠ some true then .next s
      else
        let hold := heldBy s none (agentLines s c target 4)
        if hold ≠ [] then .next (s.publishFor hold)
        else
          let s := s.modHazel h.id fun y => { y with img := img, pc := jalr }
          match landing s c (s.hlevel x) target with
          | .ordinary => .next (s.modHazel h.id fun y => { y with pc := target })
          | .pageFault nr => .next (transitFault s h t true nr jalr target)
          | .accessFault => .next (transitFault s h t false false jalr target)
          | .enter pa =>
            if (codeWord s c pa (target.toNat % 2 ^ 57)).any isRegionWord then
              .next (s.modHazel h.id fun y => { y with pc := target, leaving := some false })
            else .next (transitFault s h t false false jalr target)
    | _, _ => .next s

/-- NESTED_CROSSING (R179): the `jal` or `jalr` at an address, with its link register and the image before it. A jump to a page of
tag 01 is the hazel core's own; one with another link register is no call, and to any other page faults at its target as a fetch there
does (R32, R33, R410). -/
def execNestedCrossing (t : ThreadId) (jal target : Word) (link : Fin 32) (img : Image) (s : State) : Host.Outcome State Fault Refusal :=
  match awayThread s t with
  | none => .next s
  | some h =>
    match s.thread? t, s.ctx? h.ctx with
    | some x, some c =>
      let hold := heldBy s none (s.walkLines c target)
      if hold ≠ [] then .next (s.publishFor hold)
      else
        let ret := jal + BitVec.ofNat 64 (hazelLength s h jal)
        let linked : Image := if link.val = 0 then img else { img with x := img.x.set link.val ret }
        let s := s.modHazel h.id fun y => { y with img := img, pc := jal }
        let go := fun (leave : Option Bool) => s.modHazel h.id fun y => { y with img := linked, pc := target, leaving := leave }
        match landing s c (s.hlevel x) target with
        | .ordinary => .next (go none)
        | .pageFault nr =>
          if link ≠ 1 ∧ link ≠ 5 then
            .next (awayFault (go none) h t (if nr then .notResident else .access) nr target target target (accInfo 4 4))
          else .next (transitFault s h t true nr jal target)
        | .accessFault =>
          if link ≠ 1 ∧ link ≠ 5 then .next (awayFault (go none) h t .access false target target target (accInfo 4 4))
          else .next (transitFault s h t false false jal target)
        | .enter _ =>
          if link ≠ 1 ∧ link ≠ 5 then .next (awayFault (go none) h t .access false target target target (accInfo 4 4))
          else if Config.maxCrossings ≤ x.cross.length then .next (transitFault s h t false false jal target)
          else .next (go (some true))
    | _, _ => .next s

/-- The registers of a thread that arrives (R30, R178). -/
def arrivalRegs (r : Regs) (i : Image) : Regs :=
  { r with g := i.x.set 0 0, f := i.f, p := 1
           mode := modeLoaded ((r.mode &&& ~~~(0xFF : Word)) ||| i.fcsr.setWidth 64) }

/-- ARRIVAL (R178, R179): the shipped image reaches the thread's own lane. A return pops its crossing; a nested crossing
pushes one and starts an implicit region. -/
def execArrival (t : ThreadId) (s : State) : Host.Outcome State Fault Refusal :=
  match s.hazels.find? fun h => h.home == some t && h.leaving.isSome, s.thread? t with
  | some h, some x =>
    if x.status ≠ .away ∨ x.stage.isSome ∨ !(s.ctxOf x).st == .running ∨ (s.core t.core).gated then .next s
    else
      let nested := h.leaving == some true
      let s := { s with hazels := s.hazels.filter fun y => y.id != h.id }
      let s := s.modThread t fun x =>
        let x := { x with regs := arrivalRegs x.regs h.img, snap := none, cross := if nested then false :: x.cross else x.cross.drop 1 }
        let x := { x with back := x.back.map fun b => { b with serial := x.rserial, regs := x.regs, pc := h.pc, nested := nested } }
        if nested then x.startRegion h.pc true 0xFFFFFFFE 0xFFFFFFFF else x
      .next (settle (s.enter [(t, h.pc)]))
  | _, _ => .next s

/-! ### Exceptions (R410) -/

/-- CAUSE and NR of an exception. -/
def hazelCause : HazelExc → Cause × Bool
  | .pageNotResident => (.notResident, true)
  | .otherFault => (.access, false)
  | .misaligned => (.alignment, false)
  | .illegal => (.illegal, false)
  | .watchpoint => (.watchpoint, false)
  | .ebreak => (.softTrap, false)

/-- HAZEL_EXCEPTION (R410): RETRY executes the instruction again; after `ebreak` it goes on at the next. -/
def execHazelException (t : ThreadId) (exc : HazelExc) (pc tval : Word) (size acc : Nat) (img : Image) (s : State) :
    Host.Outcome State Fault Refusal :=
  match awayThread s t with
  | none => .next s
  | some h =>
    let s := s.modHazel h.id fun y => { y with img := img, pc := pc }
    let resume := if exc = .ebreak then pc + BitVec.ofNat 64 (hazelLength s h pc) else pc
    .next (awayFault s h t (hazelCause exc).1 (hazelCause exc).2 pc tval resume (accInfo size acc))

/-! ### SERVICE_REPLY (R200, R391) -/

/-- The registers of a thread that a reply starts (R200): the launch values, the live-in registers from SAVED, and the
eight values of the reply. -/
def replyRegs (k : Kernel) (t : ThreadId) (w : Nat → Word) : Regs :=
  let gm : Ext := (w 4).setWidth 32
  let fm : Ext := ((w 4) >>> 32).setWidth 32
  let r := { entryRegs k t [] with mode := modeLoaded (w 5), p := 1 }
  let saved := (maskRegs (gm &&& ~~~serviceMask) fm).zip ((List.range 8).map fun i => w (16 + i))
  let r := saved.foldl (fun (r : Regs) (n, v) => r.set n v) r
  (List.finRange 8).foldl (fun (r : Regs) i => r.set (.g ⟨10 + i.val, by omega⟩) (w (8 + i.val))) r

/-- The home slice of a service queue sees ATAIL ahead of AHEAD: the thread of the next answered continuation starts, and
AHEAD advances in the same step. -/
def execServiceReply (ctx : Nat) (s : State) : Host.Outcome State Fault Refusal :=
  match s.ctx? ctx with
  | none => .next s
  | some c =>
    match ctxPa s c c.svcq with
    | none => .next s
    | some q =>
      let acap := s.readM (q + 40) 8
      let ahead := s.readM (q + 56) 8
      let slot : Word := BitVec.ofNat 64 (s.readM (q + 32) 8 + 8 * (ahead % (if acap = 0 then 1 else acap)))
      if c.st ≠ .running ∨ ahead = s.readM (q + 48) 8 then .next s
      else match ctxPa s c slot with
      | none => .next s
      | some a =>
        let va : Word := BitVec.ofNat 64 (s.readM a 8)
        let hold := heldBy s none (agentLines s c c.svcq 64 ++ agentLines s c slot 8 ++ continuationLines s c va)
        if hold ≠ [] then .next (s.publishFor hold)
        else
          let s := writeMaster s (q + 56) 8 ((ahead + 1) % 2 ^ 64)
          match continuationMapped s c va, s.threads.find? fun t => t.status == .continuation va && (s.teamOf t).ctx == ctx with
          | true, some t =>
            let w := fun (k : Nat) => BitVec.ofNat 64 (((ctxPa s c (va + BitVec.ofNat 64 (8 * k))).map fun pa => s.readM pa 8).getD 0)
            let s := s.modThread t.id fun x =>
              let r := replyRegs (s.teamOf t).kernel t.id w
              { x with regs := r, rserial := (w 3).setWidth 32, back := some ⟨(w 3).setWidth 32, x.pc, 0, r, w 0, false⟩ }
            .next (s.enter [(t.id, w 0)])
          | _, _ => .next s

/-! ### On-chip windows (R293, R350) -/


/-- Byte `i` of a little-endian value. -/
def natByte (v i : Nat) : Nat := v / 2 ^ (8 * i) % 256

/-- A core runs a team: it is powered and a team is resident. -/
def Core.runs (s : State) (c : Core) : Bool := !c.gated && s.teams.any fun tm => tm.core == c.id

/-- Byte `o` of a thread's 512 bytes of the register file. -/
def regByte (t : Thread) (o : Nat) : Nat :=
  if h : o / 8 < 32 then natByte (t.regs.gval ⟨o / 8, h⟩).toNat (o % 8)
  else if h : o / 8 - 32 < 32 then natByte (t.regs.fval ⟨o / 8 - 32, h⟩).toNat (o % 8)
  else 0

/-- The thread at (lane, slot) of a core. -/
def threadAt (s : State) (core n : Nat) : Option Thread := s.thread? ⟨core, n / 8, n % 8⟩

def granCode : Gran → Nat
  | .empty => 0 | .full => 1 | .failed => 2

/-- CROSS of a thread (R350): bit n is the direction of crossing n, 1 for a call that left for the hazel side. -/
def crossWord (t : Thread) : Nat := (t.cross.reverse.zipIdx).foldl (fun n (b, i) => if b then n + 2 ^ i else n) 0

/-- The status record of a thread (R350) as 32 bytes. -/
def statusRecord (t : Thread) : Nat :=
  let st : Nat := match t.status with
    | .live | .frozen | .waiting => 1 | .asleep _ => 2 | .away => 3 | .continuation _ => 4 | .ended _ => 5
  let at_ : Nat := match t.status with | .asleep (some a) => a.toNat | .continuation a => a.toNat | _ => 0
  st + t.cross.length * 2 ^ 8 + crossWord t * 2 ^ 64 + at_ * 2 ^ 128

/-- The commit reply of a thread (R350): SERIAL and value. -/
def replyRecord (t : Thread) : Nat := match (t.replies.find? fun r => r.1 == t.rserial).or t.replies.head? with | some (k, v) => k.toNat + (v % 2 ^ 64) * 2 ^ 64 | none => 0

/-- The lowest (lane group × 8 + slot) among a team's groups (R350). -/
def Team.place (tm : Team) : Nat := (tm.groups.map fun g => g.1 * 8 + g.2).foldl Nat.min 31

/-- A word of `n`-bit fields, the lowest first. -/
def fieldsWord (n : Nat) (l : List Nat) : Word := BitVec.ofNat 64 (l.foldr (fun v a => v % 2 ^ n + 2 ^ n * a) 0)

/-- A barrier: phase, count and target (0 for none). -/
def Bar.word (b : Bar) : Word := fieldsWord 16 [b.phase, b.count, b.target.getD 0, if b.target.isSome then 1 else 0]

/-- A queue's state with the element that it is frozen at, its position, and its position at its region's entry. -/
def Queue.words (q : Queue) : List Word :=
  [BitVec.ofNat 64 ((fieldsWord 1 [if q.started then 1 else 0, if q.desc.isSome then 1 else 0, if q.stalled then 1 else 0, if q.frozen.isSome then 1 else 0]).toNat
     + 16 * q.frozen.getD 0),
   BitVec.ofNat 64 q.pos, BitVec.ofNat 64 ((q.entries.head?.map (·.2.2)).getD q.pos)]

/-- Team state (R350): ECOUNT, the barriers and the queues, in the order of the reference, one doubleword a barrier and three a queue
(DESIGN CHOICE, log 50). -/
def Team.stateWords (tm : Team) : List Word :=
  BitVec.ofNat 64 tm.ecount :: tm.bars.map Bar.word ++ tm.queues.flatMap Queue.words

/-- A pending command (R366): its descriptor copy and its progress, whose layout the reference does not give. -/
def cmdWords (k : TileCmd) : List (Option Word) := ((k.desc ++ List.replicate 8 0).take 8).map some ++ [none, none]

/-- A tile row as the accumulator image holds it (R350): what a region wrote reaches it when its gate opens. -/
def imageRow (s : State) (c : Core) (r : Nat) : BitVec 2048 :=
  match c.rowEntry.find? fun e => e.1 == r && !s.gate (e.2.1, e.2.2.1) with
  | some e => e.2.2.2
  | none => assocD 0 r c.acc

/-- A byte of the pewter shadow of a core (R350). Parts whose layout or contents the reference does not promise hold free
values, and the reserved part reads as 0 (R12). -/
def shadowByte (s : State) (c : Core) (o : Nat) : Nat :=
  let free := Config.freeNat (s.fresh + o) % 256
  let teamAt := fun (p : Nat) => s.teams.find? fun tm => tm.core == c.id && tm.place == p
  let wordByte := fun (w : Option Word) (o : Nat) => (w.map fun w => natByte w.toNat (o % 8)).getD free
  if o < 0x80000 then (if c.gated then ((threadAt s c.id (o / 512)).map fun t => regByte t (o % 512)).getD (Memory.read c.rf o).toNat else free)
  else if o < 0x140000 then (Memory.read c.spShadow (o - 0x80000)).toNat
  else if o < 0x14C000 then granCode (assocD .empty (o - 0x140000) c.granShadow)
  else if o < 0x150000 then
    wordByte ((teamAt ((o - 0x14C000) / 512)).bind fun tm => tm.stateWords[(o - 0x14C000) % 512 / 8]?) o
  else if o < 0x190000 then natByte (imageRow s c ((o - 0x150000) / 256)).toNat (o % 256)
  else if o < 0x1D0000 then
    match c.rowEntry.find? fun e => e.1 == (o - 0x190000) / 256 with
    | some e => natByte e.2.2.2.toNat (o % 256)
    | none => free
  else if o < 0x310000 then
    let k := (o - 0x1D0000) / 640
    match threadAt s c.id (k / 2) with
    | some t => (((if k % 2 = 0 then t.slot0 else t.slot1).bytes[(o - 0x1D0000) % 640]?).getD 0).toNat
    | none => free
  else if o < 0x318000 then ((threadAt s c.id ((o - 0x310000) / 32)).map fun t => natByte (statusRecord t) (o % 32)).getD 0
  else if o < 0x320000 then ((threadAt s c.id ((o - 0x318000) / 32)).map fun t => natByte (replyRecord t) (o % 32)).getD free
  else if o < 0x328000 then free
  else if o < 0x32C000 then
    let p := (o - 0x328000) / 512
    wordByte (((teamAt p).bind fun tm => (tm.queues[o % 512 / 64]?).bind (·.desc)).map fun d => (d[o % 64 / 8]?).getD 0) o
  else if o < 0x3CC000 then
    let p := (o - 0x32C000) / 0x5000
    let k := (o - 0x32C000) % 0x5000
    wordByte ((((teamAt p).bind fun tm => (s.cmds.filter fun x => x.team == tm.id)[k / 80]?).bind fun x => (cmdWords x)[k % 80 / 8]?).bind id) o
  else 0

/-- A byte of a core's window (R293). -/
def windowByte (s : State) (n o : Nat) : Nat :=
  let c := s.core n
  if c.runs s then 0
  else if o < 0x80000 then ((threadAt s n (o / 512)).map fun t => regByte t (o % 512)).getD (Memory.read c.rf o).toNat
  else if o < 0x140000 then (Memory.read c.sp (o - 0x80000)).toNat
  else if o < 0x180000 then natByte (assocD 0 ((o - 0x140000) / 256) c.acc).toNat (o % 256)
  else if o < 0x18C000 then granCode (c.granule (o - 0x180000))
  else if 0x400000 ≤ o ∧ o < 0x800000 then shadowByte s c (o - 0x400000)
  else 0

/-- Replaces a byte of a value. -/
def setByte (v i b : Nat) : Nat := v - natByte v i * 2 ^ (8 * i) + b % 256 * 2 ^ (8 * i)

/-- A thread's register file byte is written. -/
def Thread.putByte (t : Thread) (o b : Nat) : Thread :=
  let new := fun (w : Word) => BitVec.ofNat 64 (setByte w.toNat (o % 8) b)
  if h : o / 8 < 32 then { t with regs := t.regs.set (.g ⟨o / 8, h⟩) (new (t.regs.gval ⟨o / 8, h⟩)) }
  else if h : o / 8 - 32 < 32 then { t with regs := t.regs.set (.f ⟨o / 8 - 32, h⟩) (new (t.regs.fval ⟨o / 8 - 32, h⟩)) }
  else t

/-- A byte of a core's window is written (R293); nothing where the window discards it. -/
def windowPut (s : State) (n o b : Nat) : State :=
  let c := s.core n
  if c.runs s then s
  else if o < 0x80000 then
    match threadAt s n (o / 512) with
    | some t => s.modThread t.id fun x => x.putByte (o % 512) b
    | none => s.setCore { c with rf := Memory.write c.rf o (BitVec.ofNat 8 b) }
  else if o < 0x140000 then s.setCore { c with sp := Memory.write c.sp (o - 0x80000) (BitVec.ofNat 8 b) }
  else if o < 0x180000 then
    let r := (o - 0x140000) / 256
    s.setCore { c with acc := assocSet 0 r (BitVec.ofNat 2048 (setByte (assocD 0 r c.acc).toNat (o % 256) b)) c.acc }
  else if o < 0x18C000 then
    match b with
    | 0 => s.setCore (c.setGranule (o - 0x180000) .empty)
    | 1 => s.setCore (c.setGranule (o - 0x180000) .full)
    | 2 => s.setCore (c.setGranule (o - 0x180000) .failed)
    | _ => s
  else s

def windowRead (s : State) (n o : Nat) : Nat → Nat
  | 0 => 0
  | k + 1 => windowByte s n o + 256 * windowRead s n (o + 1) k
def windowWrite (s : State) (n o : Nat) : Nat → Nat → State
  | 0, _ => s
  | k + 1, v => windowWrite (windowPut s n o (v % 256)) n (o + 1) k (v / 256)

/-! ### HAZEL_ACCESS (R263) -/

/-- The lines of a physical range. -/
def physLines (pa n : Nat) : List Nat := if n = 0 then [] else (List.range ((pa + n - 1) / 64 - pa / 64 + 1)).map fun k => pa / 64 + k

/-- A read or write of M by a master outside the compute cores, as one step: narrow holders publish first, and what a read
returns is kept. `own`, `mod`, `src` and `pos` name the master for watch records (R349). -/
def outerStep (s : State) (own : Option Nat) (mod src pos : Nat) (x : OuterAccess) : State :=
  let hold := heldBy s none (physLines x.addr x.size)
  if !s.powered then s
  else if hold ≠ [] then s.publishFor hold
  else if x.write.isSome && writeWaits s x.addr x.size then s
  else match x.write with
    | some v => (writeMaster s x.addr x.size v).noteWatch own mod src pos x.addr x.size .write 2
    | none => ((physLines x.addr x.size).foldl (State.demote · Config.cores ·) { s with answer := s.readM x.addr x.size }).noteWatch
        own mod src pos x.addr x.size .read 1

/-- The home slices note the hazel domain of an I/O die for the lines that they hold of a range (R295). -/
def hazelHolds (s : State) (pa n iod : Nat) (write : Bool) : State :=
  (physLines pa n).foldl (fun s l => s.modDir l fun d => { d with hzl := if write then 1 <<< iod else d.hzl ||| (1 <<< iod) }) s

/-- The RISC-V cause of a hazel thread's access that faults: page fault, access fault. -/
def hazelCode (write page : Bool) : Nat := if page then (if write then 15 else 13) else (if write then 7 else 5)

/-- A hazel thread's access at a virtual address: the physical address with the bits to set in its PTE, or the fault. -/
inductive HazelXlate where
  | ok (pa pte bits : Nat)
  | fault (page : Bool) (nr : Bool)
  deriving DecidableEq, Repr

/-- The translation (R299-R301, R371, R382): R, W and U decide; Svadu sets A and D. -/
def hazelXlate (s : State) (h : Hazel) (c : Context) (va : Word) (write : Bool) : HazelXlate :=
  if !canonical va then .fault false false
  else match s.walkTables c va with
  | .notResident => .fault true true
  | .format => .fault true false
  | .access _ => .fault false false
  | .leaf e a p _ =>
    if !(if write then e.w else e.r) || (h.user && !e.u) then .fault true false
    else .ok (e.pbase + (va.toNat % 2 ^ 57 - e.vbase)) a (p.toNat ||| 0x40 ||| (if write then 0x80 else 0))

/-- The I/O die of a hazel thread's core: an away thread's serves its home die (R381), and a hazel-native one may run on either. -/
def hazelDie (s : State) (h : Hazel) : Nat :=
  match h.home with
  | some t => t.core / 192
  | none => s.choose 2

/-- An access of a hazel thread at a virtual address of its context. -/
def hazelThreadAccess (s : State) (h : Hazel) (c : Context) (pc : Word) (x : OuterAccess) : State :=
  let va : Word := BitVec.ofNat 64 x.addr
  let write := x.write.isSome
  let hold := heldBy s none (agentLines s c va x.size)
  let raise := fun (s : State) (cause : Cause) (nr : Bool) (code : Nat) => match h.home with
    | some t => awayFault s h t cause nr pc va pc (accInfo x.size (if write then 2 else 1))
    | none => hazelTrap s h code va
  if hold ≠ [] then s.publishFor hold
  else match hazelXlate s h c va write with
  | .fault page nr => raise s (if nr then .notResident else .access) nr (hazelCode write page)
  | .ok pa pte bits =>
    if State.watched c pa x.size (if write then .write else .read) && h.pass != some va then raise s .watchpoint false 3
    else
      if s.readM pte 8 ≠ bits ∧ writeWaits s pte 8 then s
      else
        let s := if s.readM pte 8 = bits then s else writeMaster s pte 8 bits
        let s := if h.pass = some va then s.modHazel h.id fun y => { y with pass := none } else s
        if write && writeWaits s pa x.size then s
        else (outerStep s (some c.id) thisModule 3 0 { x with addr := pa }).bump.hazelTouch c.id va pa (hazelDie s h) write

/-- HAZEL_ACCESS: an access of the hazel thread of that number at a virtual address of its context; with no such thread, of
firmware at machine level on a hazel core at a physical address, which alone reaches the on-chip windows (R293), and which takes the
access fault of its type at an unmapped address (DEDUCED from R291, log 38). -/
def hazelMem (hazelCore : Nat) (pc : Word) (x : OuterAccess) (s : State) : Host.Outcome State Fault Refusal :=
  match s.hazel? hazelCore with
  | some h =>
    match s.ctx? h.ctx with
    | some c =>
      if h.asleep || h.leaving.isSome || h.grid.isSome || c.st != .running then .next s
      else .next (hazelThreadAccess (s.handled h) h c pc x)
    | none => .next s
  | none =>
    match physKind x.addr with
    | .unmapped => .next { s with hazelTraps := s.hazelTraps ++ [(hazelCore, hazelCode x.write.isSome false)] }
    | .window =>
      let n := (x.addr - 0x8000000000) / 0x1000000
      let o := (x.addr - 0x8000000000) % 0x1000000
      match x.write with
      | some v => .next (windowWrite s n o x.size v)
      | none => .next { s with answer := windowRead s n o x.size }
    | _ =>
      let t := outerStep s none thisModule 3 0 x
      .next (if heldBy s none (physLines x.addr x.size) = [] then hazelHolds t x.addr x.size (hazelCore / 32) x.write.isSome else t)

/-! ### Tables of module firmware (R362, R390, R399) -/

/-- A context whose descriptor is all zero but for its number (R362, R363): saved, of generation 0. -/
def Context.blank (id : Nat) : Context := { Context.reset with id := id, st := .saved }

/-- The field ST (R363). -/
def CtxSt.code : CtxSt → Nat
  | .saved => 0
  | .running => 1
  | .saving => 2
  | .restoring => 3
  | .terminated => 4
  | .stranded => 5
  | .lost => 6

/-- A doubleword of a context's descriptor (R362, R363). -/
def Context.word (c : Context) (off : Nat) : Word :=
  match off / 8 with
  | 0 => BitVec.ofNat 64 (c.id % 2 ^ 12 + c.part % 16 * 2 ^ 12 + c.prio % 8 * 2 ^ 16 + (if c.handler then 2 ^ 19 else 0) + c.tenant * 2 ^ 32)
  | 1 => BitVec.ofNat 64 c.root
  | 2 => c.fqcb
  | 3 => c.saveArea
  | 4 => c.svcq
  | 5 => BitVec.ofNat 64 (c.gen * 2 ^ 16 + c.st.code)
  | 6 => BitVec.ofNat 64 c.cmd
  | 7 => c.done
  | n =>
    let w := (c.watchRaw[(n - 8) / 2]?).getD (0, 0)
    if n < 24 then (if n % 2 = 0 then w.1 else w.2) else 0

/-- Firmware writes a doubleword of a descriptor (R362); STATE is the device's (R363), and WATCH counts from REARM on (R348). -/
def Context.putWord (c : Context) (off : Nat) (v : Word) : Context :=
  match off / 8 with
  | 0 => { c with part := v.toNat / 2 ^ 12 % 16, prio := v.toNat / 2 ^ 16 % 8, handler := v.getLsbD 19, tenant := v.toNat / 2 ^ 32 }
  | 1 => { c with root := v.toNat % 2 ^ 44 }
  | 2 => { c with fqcb := v }
  | 3 => { c with saveArea := v }
  | 4 => { c with svcq := v }
  | 5 => c
  | 6 => { c with cmd := v.toNat }
  | 7 => { c with done := v }
  | n =>
    if n < 24 then { c with watchRaw := c.watchRaw.modify ((n - 8) / 2) fun w => if n % 2 = 0 then (v, w.2) else (w.1, v) } else c

/-- A doubleword of a context's security entry (R399). -/
def Context.secWord (c : Context) (off : Nat) : Word :=
  match off / 8 with
  | 0 => BitVec.ofNat 64 ((if c.enc then 1 else 0) + if c.dbg then 2 else 0)
  | 1 => BitVec.ofNat 64 c.keyId
  | 2 => c.dbgBlk
  | _ => 0

/-- Firmware writes a doubleword of a security entry (R399, R401). -/
def Context.putSecWord (c : Context) (off : Nat) (v : Word) : Context :=
  match off / 8 with
  | 0 => { c with enc := v.getLsbD 0, dbg := v.getLsbD 1 }
  | 1 => { c with keyId := v.toNat }
  | 2 => { c with dbgBlk := v }
  | _ => c

/-- An entry of the admission table that nothing has written. -/
def Admission.blank : Admission := ⟨0, 0, false, 0, 0, 0, 0, 0, 0, 0⟩

/-- A doubleword of an entry of the admission table (R390). -/
def Admission.word (a : Admission) (off : Nat) : Word :=
  match off / 8 with
  | 0 => BitVec.ofNat 64 (a.tenant + a.ctx * 2 ^ 32 + if a.valid then 2 ^ 48 else 0)
  | 1 => a.node
  | 2 => BitVec.ofNat 64 (a.srcLo + a.srcHi * 2 ^ 16 + a.budget * 2 ^ 32)
  | 3 => BitVec.ofNat 64 a.used
  | 4 => BitVec.ofNat 64 a.appended
  | 5 => BitVec.ofNat 64 a.excess
  | _ => 0

/-- System software writes a doubleword of an entry (R390). -/
def Admission.putWord (a : Admission) (off : Nat) (v : Word) : Admission :=
  match off / 8 with
  | 0 => { a with tenant := v.toNat % 2 ^ 32, ctx := v.toNat / 2 ^ 32 % 2 ^ 16, valid := v.getLsbD 48 }
  | 1 => { a with node := v }
  | 2 => { a with srcLo := v.toNat % 2 ^ 16, srcHi := v.toNat / 2 ^ 16 % 2 ^ 16, budget := v.toNat / 2 ^ 32 }
  | 3 => { a with used := v.toNat % 2 ^ 32 }
  | 4 => { a with appended := v.toNat }
  | 5 => { a with excess := v.toNat }
  | _ => a

/-- A doubleword of an entry of a firmware table. -/
def tableWord (s : State) (t : FwTable) (entry off : Nat) : Word :=
  let c := (s.ctx? entry).getD (Context.blank entry)
  match t with
  | .context => c.word off
  | .security => c.secWord off
  | .admission => ((s.admissions[entry]?).getD Admission.blank).word off

/-- A doubleword of an entry of a firmware table is written; a context comes to be with its first write. -/
def tablePut (s : State) (t : FwTable) (entry off : Nat) (v : Word) : State :=
  let s1 := if (s.ctx? entry).isSome then s else { s with ctxs := s.ctxs ++ [Context.blank entry] }
  match t with
  | .context => s1.modCtx entry fun c => c.putWord off v
  | .security => s1.modCtx entry fun c => c.putSecWord off v
  | .admission =>
    { s with admissions := (s.admissions ++ List.replicate (entry + 1 - s.admissions.length) Admission.blank).modify entry fun a => a.putWord off v }

/-- The entries of a firmware table, and the bytes of one (R10, R362, R390, R399). -/
def tableEntries : FwTable → Nat
  | .context | .security => 4096
  | .admission => 1024
def tableBytes : FwTable → Nat
  | .context => 256
  | .security => 32
  | .admission => 64

/-- HAZEL_ACCESS: an access of M or of a window; firmware's read or write of a doubleword of one of its tables, by entry and offset, since
the reference gives them no addresses (DESIGN CHOICE, log 83); or system software starts a thread at a core that has none, or takes it away
(R377). -/
def execHazelAccess (hazelCore : Nat) (x : HazelOp) (s : State) : Host.Outcome State Fault Refusal :=
  match x with
  | .mem pc x => hazelMem hazelCore pc x s
  | .table t entry off write =>
    if tableEntries t ≤ entry ∨ tableBytes t ≤ off ∨ off % 8 ≠ 0 then .next s
    else match write with
    | none => .next { s with answer := (tableWord s t entry off).toNat }
    | some v => .next (tablePut s t entry off v)
  | .place h =>
    if (s.hazel? hazelCore).isSome then .next s
    else .next { s with nextId := Nat.max s.nextId (hazelCore + 1)
                        hazels := s.hazels ++ [{ id := hazelCore, ctx := h.ctx, home := h.home, img := h.img, pc := h.pc, grid := h.grid, ret := h.ret
                                                 asleep := h.asleep, exc := none, user := h.user, leaving := none, pass := none }] }
  | .remove => .next { s with hazels := s.hazels.filter fun y => y.id != hazelCore }

end Sys2Proof.Machine
end

