-- ==== Sys2Proof/Machine/Links.lean ====
section
/-! DEFINITION. Host links, queue windows and their binding tables (R385-R387), launch packets and admission (R389, R390),
peer modules (R291), and the end of an accounting period (R9, R297, R306, R307, R370, R390). -/

namespace Sys2Proof.Machine

/-! ### Queue windows (R386, R387) -/

/-- A window's binding (R387): the queue control block, the host source number, the context; none when unbound. -/
structure Binding where
  qcb : Word
  source : Nat
  ctx : Nat
  deriving DecidableEq, Repr

/-- The physical address of a window's entry. -/
def bindingPa (s : State) (link : Fin 2) (window : Nat) : Nat :=
  s.vkqwin.toNat / 2 ^ 16 % 2 ^ 40 * 2 ^ 16 + link.val * 0x8000 + 32 * window

def bindingOf (s : State) (link : Fin 2) (window : Nat) : Option Binding :=
  let a := bindingPa s link window
  let ctl := s.readM (a + 8) 8
  if ctl / 2 ^ 63 = 1 ∧ ctl % 2 ^ 63 / 2 ^ 44 = 0 ∧ ctl / 2 ^ 12 % 2 ^ 20 = 0 ∧ s.readM (a + 16) 16 = 0 ∧ s.readM a 8 % 64 = 0 then
    some ⟨BitVec.ofNat 64 (s.readM a 8), ctl / 2 ^ 32 % 2 ^ 12, ctl % 2 ^ 12⟩
  else none

/-- The counters of a window. -/
def countOf (s : State) (link : Fin 2) (window : Nat) : WindowCount :=
  (s.windows.find? fun w => w.link == link.val && w.window == window).getD ⟨link.val, window, 0, 0, 0⟩

def setCount (s : State) (c : WindowCount) : State :=
  { s with windows := c :: s.windows.filter fun w => !(w.link == c.link && w.window == c.window) }

/-- A dropped record counts against its source (R315): host source numbers, and from 0x10000 on source modules. -/
def countDrop (s : State) (source : Nat) : State := { s with drops := assocSet 0 source (assocD 0 source s.drops + 1) s.drops }

/-- The outcome of appending a record that arrives from outside (R315). It waits for the narrow holders of the entries that translate its
addresses, of the block and of the slot (R251), and for a page move that has frozen them (R310). -/
inductive Append where
  | wait (cores : List Nat)
  | full
  | noQueue
  | done (s : State)
  deriving DecidableEq, Repr

/-- Appends a record to a node's queue as one `rec` of one thread would be, without an origin grid (R196, R315). Its home slices may
sample the accesses, from a source module or from a link's I/O die (R306). -/
def appendOutside (s : State) (src : Bool × Nat) (ctx : Nat) (qcb : Word) (record : List Word) : Append :=
  match s.ctx? ctx with
  | none => .noQueue
  | some c =>
    let hold := heldBy s none (agentLines s c qcb 64)
    if hold ≠ [] then .wait hold
    else match ctxPa s c qcb with
    | none => .noQueue
    | some pa =>
      let slot := recordSlot s pa 0
      let hold := heldBy s none (agentLines s c slot 64)
      if hold ≠ [] then .wait hold
      else match ctxPa s c slot with
      | none => .noQueue
      | some a =>
        if s.readM (pa + 8) 8 ≤ pendingAt s pa then .full
        else if writeWaits s pa 64 || writeWaits s a 64 then .wait []
        else
          let (m, die) := src
          let t := ((appendRecord s ctx qcb pa a record none).sliceTouch ctx a true true .normal).sliceTouch ctx pa true true .normal
          .done (formAt ((t.sample ctx slot a m die).sample ctx qcb pa m die) ctx qcb)

/-- A read of `size` bytes of a window's registers; the reserved part reads as 0 (R12), and RECORD, which is write-only, gives none. -/
def windowRegister (s : State) (link : Fin 2) (window off size : Nat) : Option Nat :=
  let c := countOf s link window
  let regs := [c.accept, c.full, c.bad, if (bindingOf s link window).isSome then 1 else 0]
  if 0x40 ≤ off ∧ off + size ≤ 0x1000 then
    some ((regs.foldr (fun v n => v % 2 ^ 64 + 2 ^ 64 * n) 0) / 2 ^ (8 * (off - 0x40)) % 2 ^ (8 * size))
  else none

/-- HOST_RECORD (R386): a host's access to a queue window. With no data it is a read, of a free value where it
touches RECORD (log 14); otherwise a write of `size` bytes at `off`, which appends a record when it is the aligned 64 bytes of RECORD. -/
def execHostRecord (link : Fin 2) (window off size : Nat) (record : List Word) (s : State) : Host.Outcome State Fault Refusal :=
  if 1024 ≤ window || !s.powered then .next s
  else
    let hold := heldBy s none (physLines (bindingPa s link window) 32)
    let c := countOf s link window
    let bad := setCount s { c with bad := c.bad + 1 }
    if hold ≠ [] then .next (s.publishFor hold)
    else if record = [] then .next (match windowRegister s link window off size with
      | some v => { s with answer := v }
      | none => { s.bump with answer := Config.freeNat s.fresh })
    else match bindingOf s link window with
    | none => .next bad
    | some b =>
      if 0x40 ≤ off then .next s
      else if off ≠ 0 ∨ size ≠ 64 then .next bad
      else match appendOutside s (false, 4 * link.val) b.ctx b.qcb record with
        | .wait cores => .next (s.publishFor cores)
        | .full => .next (countDrop (setCount s { c with full := c.full + 1 }) b.source)
        | .noQueue => .next (countDrop bad b.source)
        | .done s' => .next (setCount s' { c with accept := c.accept + 1 })

/-! ### Launch packets (R389, R390) -/

/-- The entry of the admission table that a packet matches. -/
def Admission.matches (p : LaunchPacket) (a : Admission) : Bool :=
  a.valid && a.tenant == p.tenant && a.node == p.node && a.srcLo ≤ p.srcMod && p.srcMod ≤ a.srcHi

/-- The node admits fabric launches (FLAGS bit 0). -/
def admitsFabric (s : State) (a : Admission) : Bool :=
  (s.ctx? a.ctx).any fun c => c.nodes.any fun n => n.qcb == a.node && n.fabric

/-- Changes one entry of the admission table. -/
def modAdmission (s : State) (a : Admission) (f : Admission → Admission) : State :=
  { s with admissions := updWhere (fun x => decide (x = a)) f s.admissions }

/-- A refused packet is counted; the sixteenth of a period freezes its source (R347, R390). -/
def refusePacket (s : State) (src : Nat) : State :=
  let n := assocD 0 src s.refusedCounts + 1
  { s with refusedCounts := assocSet 0 src n s.refusedCounts
           frozenSources := if 16 ≤ n then insertNat src s.frozenSources else s.frozenSources }

/-- The entry that admits a packet, or else one whose budget alone it exceeds. -/
def admission (s : State) (p : LaunchPacket) : Option Admission :=
  let l := s.admissions.filter fun a => a.matches p && admitsFabric s a
  (l.find? fun a => a.used < a.budget).or l.head?

/-- LAUNCH_PACKET (R390): an admitted packet raises USED and is appended; one that only exceeds the budget is counted in OVER;
any other is refused. -/
def execLaunchPacket (p : LaunchPacket) (s : State) : Host.Outcome State Fault Refusal :=
  if !s.powered then .next s
  else if s.frozenSources.contains p.srcMod then .next (refusePacket s p.srcMod)
  else match admission s p with
  | none => .next (refusePacket s p.srcMod)
  | some a =>
    if a.budget ≤ a.used then .next (modAdmission s a fun x => { x with excess := x.excess + 1 })
    else match appendOutside s (true, p.srcMod) a.ctx p.node p.record with
      | .wait cores => .next (s.publishFor cores)
      | .full | .noQueue => .next (countDrop (modAdmission s a fun x => { x with used := x.used + 1 }) (0x10000 + p.srcMod))
      | .done s' => .next (modAdmission s' a fun x => { x with used := x.used + 1, appended := x.appended + 1 })

/-- FROZEN_SOURCE_CLEAR (R390): module firmware lets a source's packets through again. -/
def execFrozenSourceClear (module : Nat) (s : State) : Host.Outcome State Fault Refusal :=
  .next { s with frozenSources := s.frozenSources.filter fun m => m != module
                 refusedCounts := assocSet 0 module 0 s.refusedCounts }

/-! ### HOST_ACCESS and PEER_MODULE_ACCESS (R263, R291, R385) -/

/-- An access of a host or a peer module (R291): a step on M in the ranges that every master reaches. It reaches nothing elsewhere: a
write changes nothing and a read answers a free value (DESIGN CHOICE, log 38). -/
def outsideAccess (s : State) (mod src : Nat) (x : OuterAccess) : State :=
  match physKind x.addr with
  | .near | .far | .host _ | .peer _ => outerStep s none mod src 0 x
  | .window | .unmapped => if x.write.isSome then s else { s.bump with answer := Config.freeNat s.fresh }

/-- An access of a CXL host, as a step on M. -/
def execHostAccess (_link : Fin 2) (x : OuterAccess) (s : State) : Host.Outcome State Fault Refusal :=
  .next (outsideAccess s thisModule 4 x)

/-- A home slice may sample a peer module's access (R306): by the context and page that the module translated it with, a free choice
among those that map to its address. -/
def peerSample (s : State) (module : Nat) (x : OuterAccess) : State :=
  let va : Word := BitVec.ofNat 64 (Config.freeNat (s.fresh + 1))
  match s.ctxs[s.choose s.ctxs.length]? with
  | some c => if ctxPa s c va = some x.addr then s.bump.bump.sample c.id va x.addr true module else s.bump.bump
  | none => s

/-- An access of a peer module over the fabric. -/
def execPeerModuleAccess (module : Nat) (x : OuterAccess) (s : State) : Host.Outcome State Fault Refusal :=
  .next (peerSample (outsideAccess s module 5 x) module x)

/-! ### ACCOUNTING_PERIOD (R9) -/

/-- The base of the page of a virtual address, as the tables map it: the key of its moves (R312). -/
def pageBase (s : State) (c : Context) (va : Word) : Word :=
  match s.walkTables c va with
  | .leaf e _ _ _ => va - BitVec.ofNat 64 (va.toNat % 2 ^ 57 - e.vbase)
  | _ => va

/-- A page is pinned (R313). -/
def pinned (s : State) (ctx : Nat) (vpage : Word) : Bool :=
  s.history.any fun h => h.ctx == ctx && h.vpage == vpage && (h.pinned.any fun d => s.tstamp < d)

/-- The leader of a page's samples (R306): of the requesters other than the page's home the one with the most, at least six; of several
the one sampled first (DESIGN CHOICE, log 68). -/
def leaderOf (l : List Sample) (home : Nat) : Option (Bool × Nat × Nat) :=
  let counts := (l.map fun x => (x.isModule, x.who)).eraseDups.map fun (m, w) => (m, w, (l.filter fun x => x.isModule == m && x.who == w).length)
  let c := counts.filter fun (m, w, n) => 6 ≤ n && (m || w != home)
  c.find? fun x => c.all fun y => y.2.2 ≤ x.2.2

/-- A power of two between two bounds. -/
def pow2In (n lo hi : Nat) : Bool := lo ≤ n && n ≤ hi && 2 ^ Nat.log2 n == n

/-- Writes one nomination to a hint ring (R307), or counts it in DROP. -/
def nominate (s : State) (hints : Nat) (rec : List Word) : State :=
  let cap := s.readM (hints + 8) 8
  let tail := s.readM (hints + 16) 8
  if !pow2In cap 64 65536 || s.readM (hints + 40) 24 != 0 || cap ≤ (tail + 2 ^ 64 - s.readM (hints + 24) 8) % 2 ^ 64 then
    writeMaster s (hints + 32) 8 ((s.readM (hints + 32) 8 + 1) % 2 ^ 64)
  else writeMaster (writeDwords s (s.readM hints 8 + 32 * (tail % cap)) rec) (hints + 16) 8 ((tail + 1) % 2 ^ 64)

/-- The nomination of one page of a context by a home slice, from its own samples, with the page's partition's ring (R306, R307). -/
def nomination (s : State) (slice ctx : Nat) (vpage : Word) : Option (Nat × List Word) :=
  match s.ctx? ctx with
  | none => none
  | some c =>
    let l := s.samples.filter fun x => x.slice == slice && x.ctx == ctx && x.vpage == vpage
    match s.part? c.part, (ctxPa s c vpage).bind blockOf with
    | some p, some b =>
      if p.hints = 0 ∨ l.length < 8 ∨ pinned s ctx (pageBase s c vpage) then none
      else (leaderOf l (blockDie b)).map fun (m, w, n) =>
        (p.hints, [BitVec.ofNat 64 (ctx % 2 ^ 12 + c.part % 16 * 2 ^ 12 + Nat.min n 255 * 2 ^ 16 + Nat.min l.length 255 * 2 ^ 24), vpage,
                   BitVec.ofNat 64 b, BitVec.ofNat 64 (w % 2 ^ 16 + if m then 2 ^ 16 else 0)])
    | _, _ => none

/-- The nominations of a period. -/
def nominations (s : State) : List (Nat × List Word) :=
  ((s.samples.map fun x => (x.slice, x.ctx, x.vpage)).eraseDups).filterMap fun (n, c, v) => nomination s n c v

/-- The lines that a period's nominations write. -/
def nominationLines (s : State) (l : List (Nat × List Word)) : List Nat :=
  l.flatMap fun (h, _) => physLines h 64 ++ physLines (s.readM h 8) (32 * Nat.min (s.readM (h + 8) 8) 65536)

/-- A partition's new way mask and budget take effect (R370). -/
def PartDesc.newQuota (q : List (Nat × BitVec 24 × Nat)) (p : PartDesc) : PartDesc :=
  match q.find? fun x => x.1 == p.part with
  | some x => { p with ways := x.2.1, budget := x.2.2 }
  | none => p

/-- ACCOUNTING_PERIOD: budgets, launches admitted and refusals count from zero, nominations are written, and the predictor's
lines age; possible once 2,048 cycles have passed. -/
def execAccountingPeriod (s : State) : Host.Outcome State Fault Refusal :=
  if s.tstamp < s.periodStart + Config.accountingCycles then .next s
  else
    let noms := nominations s
    let hold := heldBy s none (nominationLines s noms)
    if hold ≠ [] then .next (s.publishFor hold)
    else
      let s := noms.foldl (fun s n => nominate s n.1 n.2) s
      .next { s with spent := [], samples := [], refusedCounts := []
                     admissions := s.admissions.map fun (a : Admission) => { a with used := 0 }
                     contention := (s.contention.map Contention.period).filter (·.contended)
                     parts := s.parts.map (PartDesc.newQuota s.nextQuota), nextQuota := []
                     periodStart := s.periodStart + Config.accountingCycles }

end Sys2Proof.Machine
end

