-- ==== Sys2Proof/Machine/Moves.lean ====
section
/-! DEFINITION. The page copy units (R308-R313). -/

namespace Sys2Proof.Machine

/-! ### Rings that firmware names (R309, R374) -/

/-- The value of a CSR and the control block in use: a new address is taken when the old block is empty, and 0 stops the unit
(R309). -/
def ringBlock (s : State) (csr cur : Word) : Word :=
  if csr = 0 then 0
  else if cur = 0 then csr
  else if s.readM (cur.toNat + 16) 8 = s.readM (cur.toNat + 24) 8 then csr
  else cur

/-- The narrow holders of the control blocks that a unit reads: the one in use, and the one it takes (R251). -/
def ringHolders (s : State) (csr cur : Word) : List Nat :=
  if csr = 0 then []
  else heldBy s none ((if cur = 0 then [] else physLines cur.toNat 64) ++ physLines (ringBlock s csr cur).toNat 64)

/-- The physical address of the request at HEAD of a ring with requests of `n` bytes; none when the ring is empty. -/
def ringRequest (s : State) (blk n : Nat) : Option Nat :=
  let cap := s.readM (blk + 8) 8
  let head := s.readM (blk + 24) 8
  if blk = 0 ∨ s.readM (blk + 16) 8 = head then none else some (s.readM blk 8 + n * (head % (if cap = 0 then 1 else cap)))

/-- HEAD advances. -/
def ringTake (s : State) (blk : Nat) : State := writeMaster s (blk + 24) 8 ((s.readM (blk + 24) 8 + 1) % 2 ^ 64)

/-- A completion word: bit 63 and the status (R311, R363, R374). -/
def statusWord (status : Nat) : Nat := 2 ^ 63 + status % 256

/-! ### The history table (R312, R313) -/

/-- The record of a page. -/
def historyOf (s : State) (ctx : Nat) (vpage : Word) : Option MoveHist := s.history.find? fun h => h.ctx == ctx && h.vpage == vpage

/-- A record may be dropped: its latest move is old, the page is not pinned, and no move of it is in progress, which the record is
kept for. -/
def MoveHist.droppable (s : State) (h : MoveHist) : Bool :=
  h.stamps.all (fun x => x + Config.moveWindow < s.tstamp) && !(h.pinned.any fun d => s.tstamp < d)
    && !(s.moves.any fun m => m.ctx == h.ctx && m.vpage == h.vpage)

/-- The table has a record for a page, or can take one. -/
def historyRoom (s : State) (ctx : Nat) (vpage : Word) : Bool :=
  (historyOf s ctx vpage).isSome || s.history.length < Config.moveHistory || s.history.any (MoveHist.droppable s)

/-- The record of a page, taken for a move that begins (R312). -/
def reserveRecord (s : State) (ctx : Nat) (vpage : Word) : State :=
  if (historyOf s ctx vpage).isSome then s
  else
    let kept := if s.history.length < Config.moveHistory then s.history
                else match s.history.find? (MoveHist.droppable s) with
                  | some d => s.history.erase d
                  | none => s.history
    { s with history := kept ++ [⟨ctx, vpage, [], none⟩] }

/-- A pin whose deadline has come ends, and the moves completed before it do not count any more. -/
def MoveHist.expire (now : Nat) (h : MoveHist) : MoveHist :=
  match h.pinned with
  | some d => if d ≤ now then { h with stamps := h.stamps.filter fun x => d ≤ x, pinned := none } else h
  | none => h

/-- A completed move in its page's record: the last four, and a pin when they span at most 1,600,000 cycles. -/
def MoveHist.record (now : Nat) (h : MoveHist) : MoveHist :=
  let h := h.expire now
  let l := h.stamps ++ [now]
  let l := l.drop (l.length - 4)
  let pin := h.pinned = none ∧ l.length = 4 ∧ now - (l.head?.getD now) ≤ Config.moveWindow
  { h with stamps := l, pinned := if pin then some (now + Config.pinCycles) else h.pinned }

def recordMove (s : State) (ctx : Nat) (vpage : Word) : State :=
  let s := reserveRecord s ctx vpage
  { s with history := updWhere (fun h => h.ctx == ctx && h.vpage == vpage) (MoveHist.record s.tstamp) s.history }

/-- PIN_END (R313): at its deadline a pin ends and the record's stamps are cleared. -/
def execPinEnd (ctx : Nat) (vpage : Word) (s : State) : Host.Outcome State Fault Refusal :=
  .next { s with history := updWhere (fun h => h.ctx == ctx && h.vpage == vpage) (MoveHist.expire s.tstamp) s.history }

/-! ### MOVE_REQUEST (R308-R311) -/

/-- A move request's eight doublewords. -/
structure MoveReq where
  ctl : Nat
  vpage : Word
  target : Nat
  peers : Nat
  npeer : Nat
  zero : Bool
  done : Nat
  deriving DecidableEq, Repr

def moveReq (s : State) (a : Nat) : MoveReq :=
  { ctl := s.readM a 8, vpage := Memory.dword s.mem a 1, target := s.readM (a + 16) 8, peers := s.readM (a + 24) 8
    npeer := s.readM (a + 32) 4, zero := s.readM (a + 36) 4 == 0 && s.readM (a + 48) 16 == 0, done := s.readM (a + 40) 8 }

def MoveReq.ctx (r : MoveReq) : Nat := r.ctl % 2 ^ 12
def MoveReq.size (r : MoveReq) : Nat := if r.ctl / 2 ^ 12 % 4 = 0 then 0x10000 else 0x200000

/-- The base of a peer module's addresses (R291). -/
def peerBase (m : Nat) : Nat := 0x8000000000000 + m * 0x8000000000

/-- The PTEs of a request's peers as this module addresses them. -/
def peerPtes (s : State) (r : MoveReq) : List Nat :=
  (List.range r.npeer).map fun i => peerBase (s.readM (r.peers + 16 * i) 2) + s.readM (r.peers + 16 * i + 8) 8

/-- The leaf PTEs of a page of a size, one of which is given: a 64 KiB page has 16, at the level-0 entries of its range (R300; DEDUCED,
log 69). -/
def pagePtes (size a : Nat) : List Nat := if size = 0x10000 then (List.range 16).map fun i => a / 128 * 128 + 8 * i else [a]

/-- The fields of a request that make status 2 (R308, R311). -/
def MoveReq.malformed (s : State) (c : Context) (r : MoveReq) : Bool :=
  r.ctl / 2 ^ 14 != 0 || 2 ≤ r.ctl / 2 ^ 12 % 4 || !r.zero || r.vpage.toNat % r.size != 0 || r.target % r.size != 0 || r.done % 8 != 0
    || 15 < r.npeer || (List.range r.npeer).any (fun i => s.readM (r.peers + 16 * i + 2) 6 != 0 || s.readM (r.peers + 16 * i + 8) 8 % 8 != 0) || !((blockOf r.target).any (s.ownedBlocks c).contains)

/-- What step 1 finds: the status that ends the request, or the move. -/
def moveStart (s : State) (iod : Nat) (r : MoveReq) : Except Nat Move :=
  match s.ctx? r.ctx with
  | none => .error 2
  | some c =>
    if pinned s r.ctx r.vpage then .error 1
    else if r.malformed s c then .error 2
    else match s.walkTables c r.vpage with
    | .leaf e a _ _ =>
      let ptes := (pagePtes r.size a) ++ (peerPtes s r).flatMap (pagePtes r.size)
      if e.size ≠ r.size then .error 3
      else if r.target < e.pbase + e.size ∧ e.pbase < r.target + r.size then .error 2
      else if ptes.any fun q => s.readM q 8 % 2 = 0 then .error 3
      else if !historyRoom s r.ctx r.vpage then .error 6
      else .ok { id := 0, iod := iod, ctx := r.ctx, vpage := r.vpage, size := r.size, source := e.pbase, target := r.target
                 done := BitVec.ofNat 64 r.done, ptes := ptes.map fun q => (q, BitVec.ofNat 64 (s.readM q 8))
                 began := s.tstamp, frozen := false }
    | _ => .error 3

/-- The lines of the PTEs that step 1 reads: those of the local walk and the leaf PTEs here and of the peers (R251). -/
def moveLines (s : State) (r : MoveReq) : List Nat :=
  match s.ctx? r.ctx with
  | none => []
  | some c =>
    let ours := match s.walkTables c r.vpage with | .leaf _ a _ _ => pagePtes r.size a | _ => []
    s.walkLines c r.vpage ++ (ours ++ (if r.npeer ≤ 15 then (peerPtes s r).flatMap (pagePtes r.size) else [])).map lineOf

/-- The lines of a move's page. -/
def Move.lines (m : Move) : List Nat := physLines m.source m.size

/-- The narrow holders that a move waits for (R251): those whose Publish no page move holds back, since that one would wait for the end of
a move in its turn (DEDUCED, log 97). -/
def moveHolders (s : State) (lines : List Nat) : List Nat :=
  (heldBy s none lines).filter fun c =>
    !((s.core c).tb.any fun i => match i with | .entry k sec .. => (publishSet (s.core c)).contains k && writeWaits s (32 * sec) 32 | .marker _ => false)

/-- A move ends with a status. -/
def endMove (s : State) (m : Move) (status : Nat) : State :=
  writeMaster { s with moves := s.moves.filter fun x => x.id != m.id } m.done.toNat 8 (statusWord status)

/-- A move waits at its freeze while another move has locked one of its PTEs. -/
def Move.blocked (s : State) (m : Move) : Bool := m.ptes.any fun q => writeWaits s q.1 8

/-- Step 2: the freeze, once every narrow-held line of the page is published; M and O copies are written back and L1 copies go. -/
def freezePage (s : State) (m : Move) : State :=
  let hold := moveHolders s (m.lines ++ m.ptes.map (fun q => lineOf q.1) ++ [lineOf m.done.toNat])
  if hold ≠ [] then s.publishFor hold
  else if m.ptes.any fun q => s.readM q.1 8 != q.2.toNat then endMove s m 4
  else { s with moves := updWhere (fun x => x.id == m.id) (fun x => { x with frozen := true }) s.moves }.writeBack m.source m.size

/-- A unit takes its next request (step 1). -/
def takeMove (s : State) (iod : Nat) : State :=
  let csr := assocD 0 iod s.vkpcu
  let cur := assocD 0 iod s.pcuBlock
  let blk := ringBlock s csr cur
  if ringHolders s csr cur ≠ [] then s.publishFor (ringHolders s csr cur) else
  let s := { s with pcuBlock := assocSet 0 iod blk s.pcuBlock }
  match ringRequest s blk.toNat 64 with
  | none => s
  | some a =>
    let r := moveReq s a
    let hold := heldBy s none (physLines a 64 ++ physLines r.peers (16 * Nat.min r.npeer 15) ++ [lineOf r.done]
      ++ moveLines s r)
    if hold ≠ [] then s.publishFor hold
    else
      let s' := ringTake s blk.toNat
      match moveStart s iod r with
      | .error st => writeMaster s' r.done 8 (statusWord st)
      | .ok m =>
        let (k, s') := s'.newId
        reserveRecord { s' with moves := s'.moves ++ [{ m with id := k }] } m.ctx m.vpage

/-- MOVE_REQUEST: the unit of an I/O die freezes the page of the move it has read (step 2), or takes the next request of its
ring (step 1), with at most 8 moves at once (R309). -/
def execMoveRequest (iod : Fin 2) (s : State) : Host.Outcome State Fault Refusal :=
  match s.moves.find? fun m => m.iod == iod.val && !m.frozen && !m.blocked s with
  | some m => .next (freezePage s m)
  | none => if 8 ≤ (s.moves.filter fun m => m.iod == iod.val).length then .next s else .next (takeMove s iod.val)

/-! ### MOVE_RELEASE and PEER_TIMEOUT (R310, R311, R349) -/

/-- A physical address after a move. -/
def Move.shift (m : Move) (pa : Nat) : Nat := if m.source ≤ pa ∧ pa < m.source + m.size then pa - m.source + m.target else pa

/-- The bytes of the source in place of those of the target. -/
def copyPage (mem : List Host.Cell) (m : Move) : List Host.Cell :=
  let clear := mem.filter fun x => !(m.target ≤ x.1 && x.1 < m.target + m.size)
  (mem.filter fun x => m.source ≤ x.1 && x.1 < m.source + m.size).foldl (fun a x => Memory.write a (m.shift x.1) x.2) clear

/-- Step 4: a PTE's PPN becomes the target as its module sees it; every other field is kept. -/
def movedPte (s : State) (m : Move) (q : Nat) : Word :=
  let p : Word := BitVec.ofNat 64 (s.readM q 8)
  let seen := if q < 0x8000000000000 then m.target else peerBase s.moduleNo + m.target
  let ppn := seen / 0x1000 + (if m.size = 0x10000 then 8 else 0)
  BitVec.ofNat 64 (p.toNat - ptePpn p * 2 ^ 10 + ppn % 2 ^ 44 * 2 ^ 10)

/-- Accesses that waited translate again and perform at the target: those of the move's context in flight, and the entries that its threads
have stored, whose lines stay narrow-held. -/
def retarget (s : State) (m : Move) : State :=
  let mine := fun (t : Thread) => (s.teamOf t).ctx == m.ctx
  let acc := fun (a : Access) => match a.loc with | .dev pa => { a with loc := .dev (m.shift pa) } | .sp .. => a
  let item := fun (i : TbItem) => match i with
    | .entry k sec mask d c => if c.all fun x => (s.thread? x.1).any mine then TbItem.entry k (m.shift (32 * sec) / 32) mask d c else i
    | .marker k => .marker k
  let lines := fun (l : List Nat) => l.map fun n => m.shift (64 * n) / 64
  let hold := fun (c : Core) => let c := { c with tb := c.tb.map item, nh := sortNat (c.nh ++ lines c.nh) }
                                { c with nh := nhAfter c }
  let s := { s with cores := s.cores.map hold }.track (lines (s.cores.flatMap fun (c : Core) => c.nh))
  { s with threads := updWhere mine (fun (t : Thread) => { t with pending := t.pending.map acc }) s.threads
           tickets := updWhere (fun o => o.ctx == m.ctx) (fun (o : OpenTicket) => { o with ticket := m.shift o.ticket, entry := m.shift o.entry })
             s.tickets }

/-- The watch records of a copy (R349): the page copy unit reads the source and writes the target. -/
def copyWatch (s : State) (m : Move) : State :=
  (s.noteWatch none thisModule 6 0 m.source m.size .read 1).noteWatch none thisModule 6 0 m.target m.size .write 2

/-- MOVE_RELEASE: steps 3 to 5 of a frozen move, taken at its release: the copy, the PTEs, the sweep, the release, the
completion word and the record. -/
def execMoveRelease (move : Nat) (s : State) : Host.Outcome State Fault Refusal :=
  match s.moves.find? fun m => m.id == move && m.frozen with
  | none => .next s
  | some m =>
    let hold := moveHolders s (physLines m.target m.size ++ m.ptes.map (fun q => lineOf q.1) ++ [lineOf m.done.toNat])
    if hold ≠ [] then .next (s.publishFor hold)
    else if writeWaits { s with moves := s.moves.filter fun x => x.id != m.id } m.target m.size then .next s
    else
      let s := copyWatch (dropCopies { s with mem := copyPage s.mem m } m.target m.size) m
      let s := m.ptes.foldl (fun s q => writeMaster s q.1 8 (movedPte s m q.1).toNat) s
      let v := m.vpage.toNat % 2 ^ 57
      let s := sweep s (fun e => e.ctx == m.ctx && e.vbase ≤ v && v < e.vbase + e.size)
        (fun l => l.ctx == m.ctx && l.page ≤ v && v < l.page + l.size) [m.ctx]
      .next (recordMove (retarget (endMove s m 0) m) m.ctx m.vpage)

/-- PEER_TIMEOUT: a peer module of a move did not answer within 50 µs, 80,000 cycles; the page is unchanged (status 5). -/
def execPeerTimeout (move : Nat) (s : State) : Host.Outcome State Fault Refusal :=
  match s.moves.find? fun m => m.id == move with
  | none => .next s
  | some m =>
    let hold := moveHolders s [lineOf m.done.toNat]
    if m.ptes.length = (pagePtes m.size 0).length ∨ s.tstamp < m.began + Config.peerCycles then .next s
    else if hold ≠ [] then .next (s.publishFor hold)
    else .next (endMove s m 5)

end Sys2Proof.Machine
end

