-- ==== Sys2Proof/Machine/SaveArea.lean ====
section
/-! DEFINITION. The save area of a context in M (R27, R365-R367): the parts in their order, the records of the threads, and what
a restore loads from them. -/

namespace Sys2Proof.Machine

/-- The kernel of a thread of these teams. -/
def kernelIn (teams : List Team) (t : Thread) : Kernel := ((teams.find? fun tm => tm.id == t.team).map (·.kernel)).getD Kernel.reset

/-! ### Thread records (R365, R366)

A doubleword that the layout gives no value is `none`: it is written with a free value. -/

/-- The doublewords of a list of bytes, the least significant first. -/
def wordsOf : (n : Nat) → List Byte → List Word
  | 0, _ => []
  | n + 1, l => BitVec.ofNat 64 ((l.take 8).foldr (fun b v => b.toNat + 256 * v) 0) :: wordsOf n (l.drop 8)

/-- The two-bit code of a scope (R137). -/
def Scope.code2 : Scope → Nat
  | .thread | .group | .team => 0
  | .clu => 1
  | .dev => 2
  | .sys => 3

/-- The two-bit code of a cache hint (R136). -/
def Hint.code : Hint → Nat
  | .normal => 0
  | .stream => 1
  | .keep => 2
  | .nol1 => 3

/-- The second doubleword of a replay packet (R365): register, class, size code, instruction, and hint or scope. -/
def packetWord (dst : LoadDst) (instr scope : Nat) : Word :=
  BitVec.ofNat 64 (dst.d.val + (if dst.isF then 2 ^ 6 else 0) + dst.size % 8 * 2 ^ 8 + instr * 2 ^ 11 + scope * 2 ^ 14)

/-- The replay packet of a load in flight; no other access has one. -/
def replayPacket (a : Access) : List Word :=
  match a.kind with
  | .ld dst => [a.va, packetWord dst (if dst.pr.isSome then 2 else 0) a.hint.code]
  | .lda dst sc => [a.va, packetWord dst 1 sc.code2]
  | .ldf dst clr => [a.va, packetWord dst (if clr then 4 else 3) 0]
  | _ => []

/-- REPLAY: up to four packets, the rest zero. -/
def replayWords (t : Thread) : List Word :=
  ((t.pending.flatMap replayPacket) ++ List.replicate 8 0).take 8

/-- The access that a bundle waits for. -/
def waitAccess (t : Thread) (b : Hold) : Option Access :=
  match b with
  | .access k => t.pending.find? fun a => a.iid == k
  | _ => none

/-- The granule that a product at a thread's PC waits for first: its address in the aperture (R366). -/
def waitGranule (s : State) (t : Thread) : Option Word :=
  match (instrAt s (s.ctxOf t) t.pc).bind productOf with
  | some (p, _, a, b) =>
    let c := s.core t.id.core
    ((operandGranules s p a b t).find? fun g => c.granule g == .empty || c.heldByOther t.id (16 * g) 16).map fun g =>
      apertureAddr (16 * g - (s.teamOf t).rowLo * 1024)
  | none => none

/-- WADDR, WVAL and DEADLINE of a thread (R366); `granule` is where it waits for an operand granule. -/
def waitWords (t : Thread) (b : Hold) (granule : Option Word) : List (Option Word) :=
  match t.status, b, waitAccess t b with
  | .asleep (some k), _, _ => [some k, none, some 0]
  | _, .gsync a _, _ => [some a, none, some 0]
  | _, .txw n, _ => [none, some (BitVec.ofNat 64 n), some 0]
  | _, _, some a =>
    [some a.va, (match a.kind with | .waitc _ _ v _ _ => some v | _ => none),
     some (match a.kind with | .waitc _ _ _ (some d) _ => BitVec.ofNat 64 d | _ => 0)]
  | _, _, none => [granule, none, some 0]

/-- The 192 doublewords of a thread's record (R366). -/
def threadRecord (s : State) (k : Kernel) (t : Thread) : List (Option Word) :=
  let hold := ((bundleOf s t.id).map (·.hold)).getD .none
  ((recordWords s { t with regs := t.regs.inBudget k } ++ [BitVec.ofNat 64 (crossWord t)]).map some) ++ waitWords t hold (waitGranule s t)
    ++ ((replayWords t ++ wordsOf 80 t.curSlot.bytes ++ wordsOf 4 (bytesLE 32 (replyRecord t))
      ++ BitVec.ofNat 64 t.cross.length :: List.replicate 28 0).map some)

/-! ### The area (R366) -/

/-- The doublewords of a tile row, and of a row that has no copy. -/
def rowWords (v : Option (BitVec 2048)) : List (Option Word) :=
  (List.range 32).map fun i => v.map fun v => BitVec.ofNat 64 (v.toNat / 2 ^ (64 * i))

/-- The scratchpad rows of a team, and then their granule states, one byte each in the codes of R293. -/
def sramWords (s : State) (tm : Team) : List (Option Word) :=
  let c := s.core tm.core
  let n := tm.kernel.srows
  ((List.range (128 * n)).map fun i => some (BitVec.ofNat 64 (Memory.readLE c.sp (1024 * tm.rowLo + 8 * i) 8)))
    ++ (wordsOf (8 * n) ((List.range (64 * n)).map fun i => BitVec.ofNat 8 (granCode (assocD .empty (64 * tm.rowLo + i) c.gran)))).map some

/-- The tiles of a team, and then their rows at the entry of the regions: the copies, or the rows as they stand where none was needed. -/
def tileWords (s : State) (tm : Team) : List (Option Word) :=
  let c := s.core tm.core
  let rows := (List.range (32 * tm.kernel.acc)).map fun i => 32 * tm.tileLo + i
  (rows.flatMap fun r => rowWords (some (assocD 0 r c.acc)))
    ++ rows.flatMap fun r => rowWords (some (((c.rowEntry.find? fun e => e.1 == r).map (·.2.2.2)).getD (assocD 0 r c.acc)))

/-- A page of the area: some doublewords, and free values after them. -/
def pageWords (l : List (Option Word)) : List (Option Word) := (l ++ List.replicate 512 none).take 512

/-- A queue in the team's page: its descriptor copy, position, region-entry position and state. -/
def Queue.saveWords (q : Queue) : List Word := ((q.desc.getD [] ++ List.replicate 8 0).take 8) ++ q.words

/-- The grids of a context, in the order of its grid table. -/
def gridsOf (s : State) (ctx : Nat) : List Grid := s.grids.filter fun g => g.ctx == ctx

/-- A grid's place in the grid table of its context, counted from 1; 0 for none. -/
def gridPlace (s : State) (ctx : Nat) (g : Option Nat) : Nat :=
  match g with
  | some g => (((gridsOf s ctx).map (·.id)).idxOf g + 1) % 2 ^ 16
  | none => 0

/-- The positions of a group's threads that stand converged (R189). -/
def convWord (s : State) (tm : Team) (g : Nat × Nat) : Word :=
  ((s.bundles.filter fun b => b.core == tm.core && b.lg == g.1 && b.slot == g.2).foldl (fun m b => m ||| b.conv.getD 0) (0 : BitVec 32)).setWidth 64

/-- The records' origin grids of a team, four to a doubleword. -/
def originWords (l : List Nat) : (n : Nat) → List Word
  | 0 => []
  | n + 1 => fieldsWord 16 (l.take 4) :: originWords (l.drop 4) n

/-- The page of a team (R366): placement, kernel descriptor address, ECOUNT, barriers and queues, in the order in which the reference lists
them, a doubleword each, and after them what else its placement is: rows, tiles, the number of commands, its cluster and grid, the converged
threads of each group and the origins of its records (DESIGN CHOICE, log 50). -/
def teamPage (s : State) (tm : Team) : List (Option Word) :=
  pageWords (([fieldsWord 16 [tm.core / 48, tm.core % 48, tm.groups.length]] ++ tm.groups.map (fun g => fieldsWord 16 [g.1, g.2])
    ++ [tm.kernel.kdesc, BitVec.ofNat 64 tm.ecount] ++ tm.bars.map Bar.word ++ tm.queues.flatMap Queue.saveWords
    ++ [fieldsWord 16 [tm.rowLo, tm.tileLo, (s.cmds.filter fun k => k.team == tm.id).length, if tm.started then 1 else 0],
        fieldsWord 32 [tm.grid.1, tm.grid.2.1], fieldsWord 32 [tm.grid.2.2, tm.gdim.1], fieldsWord 32 [tm.gdim.2.1, tm.gdim.2.2],
        fieldsWord 32 [tm.cx, tm.cy], BitVec.ofNat 64 tm.cluster, fieldsWord 16 [gridPlace s tm.ctx tm.owner, tm.origins.length]]
    ++ tm.groups.map (convWord s tm) ++ originWords (tm.origins.map (gridPlace s tm.ctx)) ((tm.origins.length + 3) / 4)).map some)

/-- A grid in the header: its number, GDIM, the next cluster, OUT, the members killed, kernel, whether it is terminated, caller and arguments. -/
def Grid.words (g : Grid) : List Word :=
  [BitVec.ofNat 64 g.id, fieldsWord 16 [g.gdim.1, g.gdim.2.1, g.gdim.2.2], BitVec.ofNat 64 g.nextCluster, BitVec.ofNat 64 g.out, BitVec.ofNat 64 g.killed,
   g.kernel.kdesc, fieldsWord 32 [if g.terminated then 1 else 0, g.caller]] ++ (g.args ++ List.replicate 8 0).take 8

/-- A crossing or continuation in the header: the thread's position, and its crossings or the continuation's address. -/
def partyWords (t : Thread) : List Word :=
  match t.status with
  | .away => [BitVec.ofNat 64 t.id.posWord, BitVec.ofNat 64 (crossWord t)]
  | .continuation a => [BitVec.ofNat 64 t.id.posWord, a]
  | _ => []

/-- The header (R366): STATE, TSTAMP, team count, grid table with outstanding counts, and the crossing and continuation records, in the order
in which the reference lists them (DESIGN CHOICE, log 50). -/
def headerWords (s : State) (c : Context) : List (Option Word) :=
  let teams := s.teams.filter fun tm => tm.ctx == c.id
  let grids := gridsOf s c.id
  pageWords (([c.word 40, BitVec.ofNat 64 s.tstamp, BitVec.ofNat 64 teams.length, BitVec.ofNat 64 grids.length] ++ grids.flatMap Grid.words
    ++ (s.threads.filter fun t => teams.any fun tm => tm.id == t.team).flatMap partyWords).map some)

/-- What stands in a team's part before its thread records: its page, its commands, rows and tiles. -/
def teamWords (s : State) (tm : Team) : List (Option Word) :=
  teamPage s tm ++ ((s.cmds.filter fun k => k.team == tm.id).flatMap cmdWords) ++ sramWords s tm ++ tileWords s tm

/-- A team's threads, by group and lane. -/
def placedThreads (ts : List Thread) (tm : Team) : List Thread :=
  (List.range tm.groups.length).flatMap fun g => (List.range 32).flatMap fun l =>
    ts.filter fun t => t.team == tm.id && t.group == g && t.id.pos == l

/-- Size of a team's part before its thread records, in doublewords. -/
def teamSize (cmds : List TileCmd) (tm : Team) : Nat :=
  512 + 10 * (cmds.filter fun k => k.team == tm.id).length + 136 * tm.kernel.srows + 2048 * tm.kernel.acc

/-- Where each thread's record stands, in doublewords from the start of the area. -/
def recordPlaces (ts : List Thread) (cmds : List TileCmd) : Nat → List Team → List (ThreadId × Nat)
  | _, [] => []
  | o, tm :: rest =>
    let mine := placedThreads ts tm
    let o1 := o + teamSize cmds tm
    (mine.zipIdx.map fun p => (p.1.id, o1 + 192 * p.2)) ++ recordPlaces ts cmds (o1 + 192 * mine.length) rest

/-- The save area of a context in order (R366): the header, and the teams in placement order. -/
def areaWords (s : State) (c : Context) : List (Option Word) :=
  headerWords s c ++ (s.teams.filter fun tm => tm.ctx == c.id).flatMap fun tm =>
    teamWords s tm ++ (placedThreads s.threads tm).flatMap (threadRecord s tm.kernel)

/-- Address of a doubleword of the area. -/
def areaAddr (c : Context) (o : Nat) : Word := c.saveArea + BitVec.ofNat 64 (8 * o)

/-- The writes of a save: physical address and value of each doubleword that the context's tables map. -/
def areaWrites (s : State) (c : Context) : List (Nat × Word) :=
  (areaWords s c).zipIdx.filterMap fun p =>
    (ctxPa s c (areaAddr c p.2)).map fun pa => (pa, p.1.getD (BitVec.ofNat 64 (Config.freeNat (s.fresh + p.2))))

/-- The save area is written. -/
def writeArea (s : State) (c : Context) : State :=
  let s' := (areaWrites s c).foldl (fun s w => writeMaster s w.1 8 w.2.toNat) s
  { s' with fresh := s.fresh + (areaWords s c).length }

/-- The lines of the first `n` doublewords of the area. -/
def areaLines (s : State) (c : Context) (n : Nat) : List Nat :=
  (List.range ((8 * n + 4095) / 4096)).flatMap fun i => agentLines s c (areaAddr c (512 * i)) 4096

/-! ### Restore (R27, R367) -/

/-- A doubleword of the area, where the context's tables map one. -/
def areaWord (s : State) (c : Context) (o : Nat) : Option Word := (ctxPa s c (areaAddr c o)).map fun pa => BitVec.ofNat 64 (s.readM pa 8)

/-- Some doublewords of the area, where all of them are mapped. -/
def mappedWords (w : Nat → Option Word) (o n : Nat) : Option (List Word) := (List.range n).mapM fun k => w (o + k)

/-- A checkpoint slot from its 80 doublewords (R351). -/
def CkSlot.ofWords (l : List Word) : CkSlot :=
  let w := fun (k : Nat) => ((l[k]?).getD 0).toNat
  let gm := BitVec.ofNat 32 (w 2)
  let fm := BitVec.ofNat 32 (w 2 / 2 ^ 32)
  { seqh := BitVec.ofNat 32 (w 0), flags := BitVec.ofNat 32 (w 0 / 2 ^ 32), pc := BitVec.ofNat 64 (w 1), gmask := gm, fmask := fm
    mode := BitVec.ofNat 64 (w 3), pred := BitVec.ofNat 8 (w 4)
    live := (l.drop 5).take (if w 0 / 2 ^ 32 = 1 then 64 else (maskRegs gm fm).length)
    crc := BitVec.ofNat 32 (w 79), seqt := BitVec.ofNat 32 (w 79 / 2 ^ 32) }

/-- The load of a replay packet (R365): address, register, class, size and instruction, with hint or scope. -/
def Access.fromPacket (a : Access) (va p : Word) : Access :=
  let n := p.toNat
  let dst : LoadDst := { isF := n / 2 ^ 6 % 2 == 1, d := BitVec.toFin (BitVec.ofNat 5 n), size := n / 2 ^ 8 % 8, pr := none }
  let kind : AccKind := match n / 2 ^ 11 % 8, a.kind with
    | 1, _ => .lda dst (scope2 (n / 2 ^ 14))
    | 2, .ld old => .ld { dst with pr := old.pr }
    | 3, _ => .ldf dst false
    | 4, _ => .ldf dst true
    | _, _ => .ld dst
  { a with va := va, kind := kind, size := sizeBytes dst.size, hint := if kind = .ld dst then Hint.of (n / 2 ^ 14 * 8) else a.hint }

/-- The loads in flight as the replay packets of a record have them. -/
def replayed (w : Nat → Option Word) : Nat → List Access → List Access
  | _, [] => []
  | k, a :: rest =>
    if replayPacket a = [] ∨ 4 ≤ k then a :: replayed w k rest
    else match w (71 + 2 * k), w (72 + 2 * k) with
      | some va, some p => a.fromPacket va p :: replayed w (k + 1) rest
      | _, _ => a :: replayed w (k + 1) rest

/-- A `waitc` as its record has it: address, comparand and deadline (R366). -/
def Access.fromWait (w : Nat → Option Word) (a : Access) : Access :=
  match a.kind, w 68, w 69, w 70 with
  | .waitc c p _ _ m, some va, some v, some d => { a with va := va, kind := .waitc c p v (if d = 0 then none else some d.toNat) m }
  | _, _, _, _ => a

/-- What a record says of a thread beside its registers: TSTATE with its address, crossings, loads and waits in flight, checkpoint slot and
commit reply (R350, R366). -/
def Thread.reinstated (t : Thread) (w : Nat → Option Word) : Thread :=
  let status := match w 66, w 68 with
    | some v, some a => match v.toNat / 2 ^ 40 % 2 ^ 8, t.status with
      | 2, .asleep (some _) => .asleep (some a)
      | 4, _ => .continuation a
      | _, st => st
    | _, _ => t.status
  let cross := match w 67, w 163 with
    | some c, some d => ((List.range (d.toNat % 2 ^ 8)).map fun n => c.toNat / 2 ^ n % 2 == 1).reverse
    | _, _ => t.cross
  let t := { t with status := status, cross := cross, pending := (replayed w 0 t.pending).map (Access.fromWait w) }
  let t := match mappedWords w 79 80 with
    | some l => t.setSlot ((CkSlot.ofWords l).seqh.toNat % 2) (CkSlot.ofWords l)
    | none => t
  match w 159, w 160 with
  | some k, some v =>
    let k := k.setWidth 32
    let kept := t.replies.any fun e => e.1 == k && BitVec.ofNat 64 e.2 == v
    if kept || (k == 0 && v == 0) then t else { t with replies := (k, v.toNat) :: t.replies.filter fun e => e.1 != k }
  | _, _ => t

/-- A thread takes its record: G, F, PC, MODE, RSERIAL and PRED, MODE's reserved bits as R27 says, and the rest. -/
def Thread.reloaded (t : Thread) (w : Nat → Option Word) : Thread :=
  { t.reinstated w with
           pc := (w 64).getD t.pc
           rserial := ((w 66).map (BitVec.setWidth 32)).getD t.rserial
           regs := { t.regs with g := (Vector.ofFn fun (i : Fin 32) => (w i.val).getD (t.regs.gval i)).set 0 0
                                 f := Vector.ofFn fun (i : Fin 32) => (w (32 + i.val)).getD (t.regs.fval i)
                                 mode := ((w 65).map modeLoaded).getD t.regs.mode
                                 p := (((w 66).map fun v => BitVec.ofNat 8 (v.toNat / 2 ^ 32)).getD t.regs.p) ||| 1 } }

/-- A doubleword of the record of a thread in the save area. -/
def recordWord (s : State) (c : Context) (x : Saved) (t : ThreadId) (k : Nat) : Option Word :=
  ((recordPlaces x.threads x.cmds 512 x.teams).find? fun p => decide (p.1 = t)).bind fun p => areaWord s c (p.2 + k)

/-- The threads of a save area as their records in M have them. -/
def reloadThreads (s : State) (c : Context) (x : Saved) : List Thread := x.threads.map fun t => t.reloaded (recordWord s c x t.id)

/-- Where each team's part begins, in doublewords from the start of the area. -/
def teamPlaces (x : Saved) : Nat → List Team → List (Team × Nat)
  | _, [] => []
  | o, tm :: rest => (tm, o) :: teamPlaces x (o + teamSize x.cmds tm + 192 * (placedThreads x.threads tm).length) rest

/-- Nothing is left of what stood in a team's rows and tiles. -/
def Core.clearTeam (c : Core) (tm : Team) : Core :=
  let lo := tm.rowLo * 1024
  let hi := (tm.rowLo + tm.kernel.srows) * 1024
  let row := fun (o : Nat) => lo ≤ o && o < hi
  let tile := fun (r : Nat) => tm.tileLo * 32 ≤ r && r < (tm.tileLo + tm.kernel.acc) * 32
  { c with sp := c.sp.filter fun p => !row p.1, spShadow := c.spShadow.filter fun p => !row p.1
           gran := c.gran.filter fun p => !row (16 * p.1), granShadow := c.granShadow.filter fun p => !row (16 * p.1)
           held := c.held.filter fun p => !row p.1, acc := c.acc.filter fun p => !tile p.1, rowEntry := c.rowEntry.filter fun e => !tile e.1 }

/-- A tile row in the area, where it is mapped. -/
def areaRow (w : Nat → Option Word) (o : Nat) : Option (BitVec 2048) :=
  (mappedWords w o 32).map fun l => BitVec.ofNat 2048 (l.foldr (fun v a => v.toNat + 2 ^ 64 * a) 0)

/-- A granule state by its code in the layout of R293. -/
def granOfCode (b : Nat) : Gran := if b = 1 then .full else if b = 2 then .failed else .empty

/-- A core takes the rows, granule states, tiles and row copies of a team as the area has them from a place on (R366). -/
def Core.loadTeam (c : Core) (w : Nat → Option Word) (tm : Team) (o : Nat) (cmds : List TileCmd) : Core :=
  let n := tm.kernel.srows
  let o1 := o + 512 + 10 * (cmds.filter fun k => k.team == tm.id).length
  let c := (List.range (128 * n)).foldl (fun (c : Core) i => match w (o1 + i) with
    | some v => c.spWrite (1024 * tm.rowLo + 8 * i) 8 v.toNat none
    | none => c) c
  let c := (List.range (8 * n)).foldl (fun (c : Core) i => match w (o1 + 128 * n + i) with
    | some v => (List.range 8).foldl (fun c j => c.granWrite (64 * tm.rowLo + 8 * i + j) (granOfCode (v.toNat / 2 ^ (8 * j) % 256))) c
    | none => c) c
  let o2 := o1 + 136 * n
  let c := (List.range (32 * tm.kernel.acc)).foldl (fun (c : Core) r => match areaRow w (o2 + 32 * r) with
    | some v => { c with acc := assocSet 0 (32 * tm.tileLo + r) v c.acc }
    | none => c) c
  let copy := fun (e : Nat × ThreadId × BitVec 32 × BitVec 2048) =>
    if 32 * tm.tileLo ≤ e.1 ∧ e.1 < 32 * (tm.tileLo + tm.kernel.acc) then
      (e.1, e.2.1, e.2.2.1, (areaRow w (o2 + 1024 * tm.kernel.acc + 32 * (e.1 - 32 * tm.tileLo))).getD e.2.2.2)
    else e
  { c with rowEntry := c.rowEntry.map copy }

/-- The size of a save area in doublewords. -/
def areaSize (x : Saved) : Nat := x.teams.foldl (fun n tm => n + teamSize x.cmds tm + 192 * (placedThreads x.threads tm).length) 512

end Sys2Proof.Machine
end

