-- ==== Sys2Proof/Machine/AreaRead.lean ====
section
/-! DEFINITION. What the save area of a context says (R366) where another module has written it (R14, R377, R378): teams, threads and what
they wait at, commands, grids, and the open tickets of the fault queue. The layout of the header and of the team pages is the model's, and
what the area does not say is as below (DESIGN CHOICE, log 50). -/

/-- The progress of a pending command, whose layout the reference does not give (R366): a free function of its ten doublewords. Its targets
name teams by their place in the area (DESIGN CHOICE, log 50). -/
opaque Sys2Proof.Config.cmdProgress : List Sys2Proof.Word → Option Sys2Proof.Machine.TileCmd

namespace Sys2Proof.Machine

/-- The numbers that an area copied in takes for its teams, bundles, commands, grids and issues. -/
def areaIds : Nat := 2 ^ 28

/-! ### The parts of a page -/

/-- A doubleword of the area; 0 where none is mapped. -/
def areaAt (s : State) (c : Context) (o : Nat) : Word := (areaWord s c o).getD 0

/-- Field `i` of a word of `n`-bit fields. -/
def wordField (n : Nat) (w : Word) (i : Nat) : Nat := w.toNat / 2 ^ (n * i) % 2 ^ n

/-- The kernel of a descriptor's address: one that the context has loaded, or as the descriptor in memory says. -/
def kernelAt (s : State) (c : Context) (a : Word) : Kernel :=
  (c.kernels.find? fun k => k.kdesc == a).getD
    { (KDesc.read ((List.range 128).map fun i => ((ctxPa s c (a + BitVec.ofNat 64 i)).map (Memory.read s.mem)).getD 0) 0 0).kernel with kdesc := a }

/-- A barrier from its word. -/
def Bar.ofWord (w : Word) : Bar := ⟨wordField 16 w 0, wordField 16 w 1, if wordField 16 w 3 = 1 then some (wordField 16 w 2) else none⟩

/-- A queue from its eleven doublewords. The position at the region's entry is that of every thread of its team. -/
def Queue.ofWords (ts : List (ThreadId × BitVec 32)) (w : Nat → Word) : Queue :=
  let flag := fun (i : Nat) => wordField 1 (w 8) i == 1
  let entry := (w 10).toNat
  { desc := if flag 1 then some ((List.range 8).map w) else none, started := flag 0, pos := (w 9).toNat
    entries := if w 10 = w 9 then [] else ts.map fun t => (t.1, t.2, entry)
    ahead := [], frozen := if flag 3 then some ((w 8).toNat / 16) else none, stalled := flag 2 }

/-- Grid `i` of the header's table. -/
def areaGrid (s : State) (c : Context) (i : Nat) : Grid :=
  let w := fun (k : Nat) => areaAt s c (4 + 15 * i + k)
  { id := s.nextId + i, ctx := c.id, kernel := kernelAt s c (w 5), gdim := (wordField 16 (w 1) 0, wordField 16 (w 1) 1, wordField 16 (w 1) 2)
    args := (List.range 8).map fun k => w (7 + k), nextCluster := (w 2).toNat, out := (w 3).toNat, killed := (w 4).toNat
    terminated := wordField 32 (w 6) 0 == 1, caller := wordField 32 (w 6) 1 }

/-- The grids of the header, as many as its page has room for. -/
def areaGrids (s : State) (c : Context) : List Grid := (List.range (Nat.min (areaAt s c 3).toNat 33)).map (areaGrid s c)

/-- A grid by its place in the table. -/
def gridNamed (s : State) (n : Nat) : Option Nat := if n = 0 then none else some (s.nextId + (n - 1))

/-! ### Threads (R366) -/

/-- The instruction that a thread waits at, which stands before its PC: one of a shape, with its address. -/
def waitInstr (s : State) (c : Context) (pc : Word) (p : Instr → Bool) : Option (Instr × Word) :=
  ([1, 2, 3] : List Nat).findSome? fun n =>
    let a := pc - BitVec.ofNat 64 (4 * n)
    (instrAt s c a).bind fun i => if i.words = n && p i then some (i, a) else none

/-- The access at which a thread waits, by WAIT with WADDR, WVAL and DEADLINE. What the record does not say comes from its instruction, and
where that is not to be found it is a free value. -/
def areaWait (s : State) (c : Context) (regs : Regs) (pc : Word) (serial : BitVec 32) (iid : Nat) (w : Nat → Word) : Option Access :=
  let acc := fun (kind : AccKind) (at_ : Word) (size data : Nat) =>
    some ({ iid := iid, iaddr := at_, va := w 68, kind := kind, loc := .dev 0, size := size, data := data, serial := serial, hint := .normal
            begun := false, replay := true } : Access)
  let free := fun (k : Nat) => Config.freeNat (s.fresh + 4 * (iid - s.nextId) + k)
  match wordField 8 (w 66) 6 with
  | 3 =>
    let dl := if w 70 = 0 then none else some (w 70).toNat
    match waitInstr s c pc fun i => match i with | .waitc .. => true | _ => false with
    | some (.waitc _ cond pd _ _ _, a) => acc (.waitc cond pd (w 69) dl .check) a 8 0
    | _ => acc (.waitc (BitVec.toFin (BitVec.ofNat 2 (free 0))) (BitVec.toFin (BitVec.ofNat 3 (free 1))) (w 69) dl .check) pc 8 0
  | 5 =>
    match waitInstr s c pc fun i => match i with | .stf .. => true | _ => false with
    | some (.stf _ d a b _, at_) => acc (.stf true) at_ (sizeBytes (b.val % 8)) (storeData regs (isFClass a) d (b.val % 8))
    | _ => acc (.stf true) pc 8 (free 0 % 2 ^ 64)
  | _ => none

/-- A load in flight, to be read from replay packet `k`; the predicate of an `ldnr`, which no packet names, is a free value. -/
def areaLoad (s : State) (iid k : Nat) (pc : Word) (serial : BitVec 32) (w : Nat → Word) : Access :=
  let pr : Fin 8 := BitVec.toFin (BitVec.ofNat 3 (Config.freeNat (s.fresh + iid)))
  ({ iid := iid, iaddr := pc, va := 0, kind := .ld ⟨false, 0, 3, some pr⟩, loc := .dev 0, size := 8, data := 0, serial := serial, hint := .normal
     begun := false, replay := true } : Access).fromPacket (w (71 + 2 * k)) (w (72 + 2 * k))

/-- TSTATE (R350): a thread that sleeps on no entry of the fault queue faulted before its entry was written, and restarts. -/
def areaStatus (tickets : List OpenTicket) (w : Nat → Word) : TStatus :=
  match wordField 8 (w 66) 5 with
  | 1 => if wordField 8 (w 66) 6 = 8 then .waiting else .live
  | 2 => if tickets.any fun o => o.va == w 68 then .asleep (some (w 68)) else .live
  | 3 => .away
  | 4 => .continuation (w 68)
  | _ => .ended false

/-- A thread from its record: thread number `n` of its team in the area. -/
def areaThread (s : State) (c : Context) (tickets : List OpenTicket) (team group n : Nat) (k : Kernel) (id : ThreadId) (w : Nat → Word) : Thread :=
  let base := Thread.launch id team group k.entry (entryRegs k id [])
  let torn : CkSlot := { CkSlot.zero with seqt := 1 }
  let t := ({ base with slot0 := torn, slot1 := torn } : Thread).reloaded fun i => some (w i)
  let slot := CkSlot.ofWords ((List.range 80).map fun i => w (79 + i))
  let t := { t with entry := slot.pc, gmask := slot.gmask, fmask := slot.fmask, implicit := slot.flags == 1, status := areaStatus tickets w }
  -- a `gsync` is come to again; an `ldf` waits as its packet says
  if wordField 8 (w 66) 5 = 2 && t.status == .live then { t with pc := slot.pc, rserial := slot.seqh, regs := slot.load t.regs }
  else
    let t := if wordField 8 (w 66) 6 = 1 then { t with pc := w 68 } else t
    let loads := (List.range (Nat.min (wordField 8 (w 66) 7) 4)).map fun j => areaLoad s (s.nextId + 8 * n + j) j t.pc t.rserial w
    { t with pending := loads ++ (areaWait s c t.regs t.pc t.rserial (s.nextId + 8 * n + 4) w).toList }

/-! ### Open tickets of the fault queue (R343, R378) -/

/-- The slots of the context's fault queue that entries have been written to, with their addresses. -/
def queueSlots (s : State) (c : Context) : List (Word × Nat) :=
  match ctxPa s c c.fqcb with
  | none => []
  | some q =>
    let cap := s.readM (q + 8) 8
    (List.range (Nat.min cap (s.readM (q + 16) 8))).filterMap fun i =>
      let va : Word := BitVec.ofNat 64 (s.readM q 8 + 64 * i)
      (ctxPa s c va).map fun pa => (va, pa)

/-- The tickets that an area copied in brings: of entries that wait for a resolution, and of those that a saved thread sleeps on. -/
def areaTickets (s : State) (c : Context) (sleeps : Word → Bool) : List OpenTicket :=
  (queueSlots s c).filterMap fun (va, e) =>
    if s.readM (e + 56) 8 % 4 ≠ 0 && !sleeps (va + 56) then none
    else some { ctx := c.id, ticket := e + 56, va := va + 56, done := false, nr := s.readM e 8 / 2 ^ 11 % 2 == 1, eaddr := BitVec.ofNat 64 (s.readM (e + 16) 8)
                entry := e, waiters := [], debug := none }

/-- The lines of the fault queue that a RUN reads (R251). -/
def ticketLines (s : State) (c : Context) : List Nat :=
  agentLines s c c.fqcb 64 ++ (match ctxPa s c c.fqcb with
    | some q => (List.range (s.readM (q + 8) 8)).flatMap fun i => agentLines s c (BitVec.ofNat 64 (s.readM q 8 + 64 * i)) 64
    | none => [])

/-- POS of an entry's WHO, as a thread's position (R342). -/
def entryPos (s : State) (o : OpenTicket) : Nat := s.readM (o.entry + 24) 8 % 2 ^ 19

/-- Who waits for an open ticket: the threads that sleep on it, the thread on the hazel side that its request names, the stopped
commands of the core, and the stopped queues of the team, that its entry names. -/
def areaWaiters (s : State) (ts : List Thread) (teams : List Team) (cmds : List TileCmd) (o : OpenTicket) : List Waiter :=
  let kind := s.readM o.entry 8 / 2 ^ 8 % 8
  let asleep := (ts.filter fun t => t.status == .asleep (some o.va)).map fun t => Waiter.thread t.id
  let away := (ts.filter fun t => t.status == .away && t.id.posWord == entryPos s o).map fun t => Waiter.hazel t.id
  let stopped := fun (k : TileCmd) => match k.phase with | .stalled _ | .frozen _ => true | _ => false
  let mine := (cmds.filter fun k => stopped k && k.thread.posWord == entryPos s o).map fun k => Waiter.cmd k.id
  let queues := (teams.filter fun m => m.groups.head?.any fun g => ThreadId.posWord ⟨m.core, 32 * g.1, g.2⟩ == entryPos s o).flatMap fun m =>
    (m.queues.zipIdx.filter fun x => x.1.stalled).map fun x => Waiter.stream m.id x.2
  match kind with
  | 0 => asleep ++ away
  | 2 => mine
  | 3 => queues
  | _ => []

/-! ### Bundles and sleepers -/

/-- What a bundle of threads that wait alike waits at. -/
def areaHold (s : State) (c : Context) (tm : Team) (t : Thread) (w : Nat → Word) : Hold :=
  match wordField 8 (w 66) 6 with
  | 2 =>
    let bar := match waitInstr s c t.pc fun i => match i with | .barSync .. => true | _ => false with
      | some (.barSync _ a _, _) => a.val
      | _ => Config.freeNat s.fresh % 16
    .barSync bar (((tm.bars[bar]?).map (·.phase)).getD 0)
  | 3 | 4 | 5 => match t.pending.find? fun a => match a.kind with | .waitc .. | .ldf .. | .stf true => true | _ => false with
    | some a => .access a.iid
    | none => .none
  | 6 => .txw (w 69).toNat
  | _ => .none

/-- Threads of one group that stand at one address and wait alike, as one bundle (R16): their common wait has the issue of the first. -/
def areaBundle (s : State) (c : Context) (tm : Team) (conv : BitVec 32) (id : Nat) (l : List (Thread × (Nat → Word))) : Option Bundle :=
  l.head?.map fun (t, w) =>
    let lanes := sortNat (l.map fun x => x.1.id.lane)
    let here := conv &&& BitVec.ofNat 32 ((l.map fun x => 2 ^ x.1.id.pos).foldl (· + ·) 0)
    { id := id, core := tm.core, lg := t.id.laneGroup, slot := t.id.slot, lanes := lanes, stamp := s.tstamp, eligible := 0, passed := 0, boost := none
      conv := if here = 0 then none else some here, hold := areaHold s c tm t w, elapsed := 0, producers := [], starved := false, latch := []
      mid := none, ra := none }

/-- The accesses at which the threads of a bundle wait become one issue. -/
def Thread.waitsAs (k : Nat) (t : Thread) : Thread :=
  { t with pending := t.pending.map fun a => match a.kind with
      | .waitc .. | .ldf .. | .stf true => { a with iid := k }
      | _ => a }

/-- Threads by what they stand at: address and WAIT. -/
def standGroups : (n : Nat) → List (Thread × (Nat → Word)) → List (List (Thread × (Nat → Word)))
  | 0, _ => []
  | _, [] => []
  | n + 1, x :: rest =>
    let same := fun (y : Thread × (Nat → Word)) => y.1.pc == x.1.pc && wordField 8 (y.2 66) 6 == wordField 8 (x.2 66) 6
    (x :: rest.filter same) :: standGroups n (rest.filter fun y => !same y)

/-- Threads of a group that sleep or wait at one address sleep together (R139); after a `trap` they go on behind it (R201). -/
def areaSleepers (s : State) (c : Context) (conv : BitVec 32) (l : List (Thread × (Nat → Word))) : Option SleepGroup :=
  l.head?.map fun (t, _) =>
    let asleep := l.filter fun x => match x.1.status with | .asleep _ => true | _ => false
    let here := conv &&& BitVec.ofNat 32 ((l.map fun x => 2 ^ x.1.id.pos).foldl (· + ·) 0)
    { members := l.map (·.1.id), waits := asleep.map fun x => (x.1.id, none)
      resumeAt := match instrAt s c t.pc with | some (.trap _ e) => some (t.pc + BitVec.ofNat 64 (4 * extsWords e)) | _ => none
      conv := if here = 0 then none else some here, elapsed := 0, producers := [], stall := 0 }

/-! ### A team's part -/

/-- What a team's part of the area holds, and the doublewords it takes. -/
structure TeamPart where
  team : Team
  threads : List Thread
  bundles : List Bundle
  sleepers : List SleepGroup
  cmds : List TileCmd
  rows : CoreSave
  size : Nat
  deriving DecidableEq, Repr

/-- A command from its ten doublewords: the descriptor copy, and the progress. -/
def areaCmd (s : State) (tm : Team) (first : Option ThreadId) (id : Nat) (l : List Word) : TileCmd :=
  let t := first.getD ⟨tm.core, 0, 0⟩
  let fresh : TileCmd := { id := id, team := tm.id, thread := t, serial := 0, descAddr := 0, desc := [], phase := .reading, marker := none, targets := []
                           got := [], sectors := [], status := 0, fmask := 0, quiet := false }
  let k := (Config.cmdProgress l).getD fresh
  { k with id := id, team := tm.id, thread := if k.thread.core = tm.core then k.thread else t, desc := l.take 8, marker := none, quiet := false
           phase := if k.phase = .issued then .reading else k.phase
           targets := k.targets.map fun (x : CmdTarget) => { x with team := s.nextId + x.team } }

/-- The part of team number `i`, which begins at doubleword `o`. -/
def areaTeam (s : State) (c : Context) (i o : Nat) : TeamPart :=
  let w := fun (k : Nat) => areaAt s c (o + k)
  let ng := Nat.min (wordField 16 (w 0) 2) 32
  let core := wordField 16 (w 0) 0 * 48 + wordField 16 (w 0) 1
  let groups := (List.range ng).map fun g => (wordField 16 (w (1 + g)) 0, wordField 16 (w (1 + g)) 1)
  let k := kernelAt s c (w (ng + 1))
  let q := ng + 19
  let p := q + 88
  let ncmds := Nat.min (wordField 16 (w p) 2) 256
  let o1 := o + 512 + 10 * ncmds
  let o2 := o1 + 136 * k.srows
  let o3 := o2 + 2048 * k.acc
  let rec_ := fun (n : Nat) (j : Nat) => areaAt s c (o3 + 192 * n + j)
  let sleeps := fun (va : Word) => (List.range (32 * ng)).any fun n => wordField 8 (rec_ n 66) 5 == 2 && rec_ n 68 == va
  let tickets := areaTickets s c sleeps
  let ids := fun (n : Nat) => let g := (groups[n / 32]?).getD (0, 0); (⟨core, 32 * g.1 + n % 32, g.2⟩ : ThreadId)
  let serials := (List.range (32 * ng)).map fun n => (ids n, (rec_ n 66).setWidth 32)
  let tm : Team :=
    { id := s.nextId + i, ctx := c.id, core := core, groups := groups, cluster := s.nextId + (w (p + 5)).toNat, cx := wordField 32 (w (p + 4)) 0
      cy := wordField 32 (w (p + 4)) 1, grid := (wordField 32 (w (p + 1)) 0, wordField 32 (w (p + 1)) 1, wordField 32 (w (p + 2)) 0)
      gdim := (wordField 32 (w (p + 2)) 1, wordField 32 (w (p + 3)) 0, wordField 32 (w (p + 3)) 1), kernel := k, rowLo := wordField 16 (w p) 0
      tileLo := wordField 16 (w p) 1, ecount := (w (ng + 2)).toNat, bars := (List.range 16).map fun b => Bar.ofWord (w (ng + 3 + b))
      queues := (List.range 8).map fun n => Queue.ofWords serials fun j => w (q + 11 * n + j)
      owner := gridNamed s (wordField 16 (w (p + 6)) 0)
      origins := (List.range (Nat.min (wordField 16 (w (p + 6)) 1) 1024)).map fun n => gridNamed s (wordField 16 (w (p + 7 + ng + n / 4)) (n % 4))
      started := wordField 16 (w p) 3 == 1 }
  let ts := (List.range (32 * ng)).map fun n =>
    (areaThread s c tickets tm.id (n / 32) (1024 * i + n) k (ids n) (rec_ n), rec_ n)
  let live := fun (t : Thread) => t.status == .live
  let rests := fun (t : Thread) => match t.status with | .asleep _ | .waiting => true | _ => false
  let conv := fun (g : Nat) => (w (p + 7 + g)).setWidth 32
  let stand := fun (f : Thread → Bool) => (List.range ng).flatMap fun g =>
    (standGroups 32 (ts.filter fun x => x.1.group == g && f x.1)).map fun l => (g, l)
  let formed := (stand live).zipIdx.map fun x => (s.nextId + 2 ^ 27 + 1024 * i + x.2, x.1.1, x.1.2)
  let threads := ts.map fun x =>
    match formed.find? fun b => b.2.2.any fun y => decide (y.1.id = x.1.id) with
    | some b => x.1.waitsAs b.1
    | none => x.1
  let bundles := formed.filterMap fun (id, g, l) => areaBundle s c tm (conv g) id (l.map fun x => (x.1.waitsAs id, x.2))
  let row := fun (r : Nat) => areaRow (fun j => some (areaAt s c j)) r
  let copies := (List.range (32 * k.acc)).flatMap fun r => match row (o2 + 32 * r), row (o2 + 1024 * k.acc + 32 * r) with
    | some now, some was => if now = was then [] else serials.map fun t => (32 * tm.tileLo + r, t.1, t.2, was)
    | _, _ => []
  { team := tm, threads := threads, bundles := bundles, sleepers := (stand rests).filterMap fun (g, l) => areaSleepers s c (conv g) l
    cmds := (List.range ncmds).map fun n => areaCmd s tm (threads.head?.map (·.id)) (s.nextId + 256 * i + n) ((List.range 10).map fun j => w (512 + 10 * n + j))
    rows := ⟨core, [], [], [], copies⟩, size := 512 + 10 * ncmds + 136 * k.srows + 2048 * k.acc + 192 * (32 * ng) }

/-- The parts of the teams from number `i` on. -/
def areaTeams (s : State) (c : Context) : (n : Nat) → (i o : Nat) → List TeamPart
  | 0, _, _ => []
  | n + 1, i, o => let p := areaTeam s c i o; p :: areaTeams s c n (i + 1) (o + p.size)

/-- The open tickets of the debug events of a context, each with the group that its `brk` froze (R402). -/
def areaDebug (s : State) (c : Context) (ts : List Thread) : List OpenTicket :=
  match if c.dbg then ctxPa s c c.dbgBlk else none with
  | none => []
  | some d =>
    (List.range (Nat.min (s.readM (d + 16) 8) (s.readM d 8))).filterMap fun k =>
      let ev : Word := c.dbgBlk + BitVec.ofNat 64 (64 + 64 * k)
      (ctxPa s c ev).bind fun e =>
        if s.readM (e + 56) 8 % 4 ≠ 0 then none
        else (ts.find? fun t => t.id.posWord == s.readM (e + 24) 8 % 2 ^ 19).map fun t =>
          { ctx := c.id, ticket := e + 56, va := ev + 56, done := false, nr := false, eaddr := BitVec.ofNat 64 (s.readM (e + 16) 8), entry := e, waiters := []
            debug := some (t.team, t.group, BitVec.ofNat 64 (s.readM (d + 24) 8 + k * 0xC000)) }

/-- A live thread of a group that a debug event has frozen is frozen. -/
def Thread.frozenBy (l : List OpenTicket) (t : Thread) : Thread :=
  if t.status == .live && l.any fun o => (o.debug).any fun x => x.1 == t.team && x.2.1 == t.group then { t with status := .frozen } else t

/-- What the area in M says. -/
def areaSaved (s : State) (c : Context) : Saved :=
  let parts := areaTeams s c (Nat.min (areaAt s c 2).toNat 12288) 0 512
  let threads := parts.flatMap (·.threads)
  let cmds := parts.flatMap (·.cmds)
  let teams := parts.map (·.team)
  let sleeps := fun (va : Word) => threads.any fun t => t.status == .asleep (some va)
  let debug := areaDebug s c threads
  { ctx := c.id, stamp := (areaAt s c 1).toNat, threads := threads.map (Thread.frozenBy debug), bundles := parts.flatMap (·.bundles), teams := teams, cmds := cmds
    sleepers := parts.flatMap (·.sleepers), reports := [], stores := parts.map (·.rows), grids := areaGrids s c
    tickets := ((areaTickets s c sleeps).map fun o => { o with waiters := areaWaiters s threads teams cmds o }) ++ debug }

/-! ### What a RUN finds -/

/-- What this module has saved of a context, where the area still holds it: its header has the TSTAMP of that save. -/
def ownArea (s : State) (ctx : Nat) : Option Saved :=
  (s.saved.find? fun x => x.ctx == ctx).filter fun x =>
    ((s.ctx? ctx).bind fun c => areaWord s c 1).all fun w => w == BitVec.ofNat 64 x.stamp

/-- What the save area of a context holds: what this module saved, else what M says, which another module has saved (R377) or system
software has built (R368). -/
def savedOf (s : State) (ctx : Nat) : Saved :=
  match ownArea s ctx, s.ctx? ctx with
  | some x, _ => x
  | none, some c => areaSaved s c
  | none, none => Saved.none ctx

/-- The commands of a save area with their descriptor copies as M has them (R366). -/
def reloadCmds (s : State) (c : Context) (x : Saved) : List TileCmd :=
  let at_ := (teamPlaces x 512 x.teams).flatMap fun (tm, o) =>
    ((x.cmds.filter fun k => k.team == tm.id).zipIdx).map fun (k, n) => (k.id, o + 512 + 10 * n)
  x.cmds.map fun k =>
    match (at_.find? fun p => p.1 == k.id).bind fun p => mappedWords (areaWord s c) p.2 8 with
    | some l => { k with desc := if k.desc.length = 8 then l else k.desc }
    | none => k

end Sys2Proof.Machine
end

