-- ==== Sys2Proof/Machine/Contexts.lean ====
section
/-! DEFINITION. The context controller: RUN, SAVE, TERMINATE and REARM (R348, R362-R368, R378), and the restart of a frozen
H-level group (R40). -/

namespace Sys2Proof.Machine

/-! ### Completion words (R363) -/

/-- The lines of a context's completion word. -/
def doneLines (s : State) (c : Context) : List Nat := agentLines s c c.done 8

/-- Writes the completion word of a command. -/
def ctxDone (s : State) (c : Context) (status : Nat) : State := vaWrite s c c.done (BitVec.ofNat 64 (statusWord status))

/-- A command of a context, once narrow holders of its completion word and of what it touches have published; CMD becomes 0 on acceptance, and a CMD with a
reserved value is refused (R363). -/
def command (s : State) (ctx : Nat) (f : State → Context → State) (more : List Nat := []) : State :=
  if !s.powered then s else
  match s.ctx? ctx with
  | none => s
  | some c =>
    let hold := heldBy s none (doneLines s c ++ more)
    if hold ≠ [] then s.publishFor hold
    else
      let s := s.modCtx ctx fun x => { x with cmd := 0 }
      if 4 < c.cmd then ctxDone s c 1 else f s c

/-! ### RUN (R367, R378) -/

/-- A run of rows or tiles of a team lies within a partition's range, or among the names that stand for units of it which do not lie together. -/
def unitsWithin (lo n total a need : Nat) : Bool := need == 0 || (lo ≤ a && a + need ≤ lo + n) || (total ≤ a && need ≤ n)

/-- A team's positions exist, and lie within a partition's ranges. -/
def Team.within (p : PartDesc) (tm : Team) : Bool :=
  decide (tm.core < Config.cores) && (tm.groups.all fun g => g.1 < 4 && g.2 < 8 && p.slotLo ≤ g.2 && g.2 < p.slotLo + p.slotN)
    && unitsWithin p.rowLo p.rowN Config.scratchRows tm.rowLo tm.kernel.srows && unitsWithin p.tileLo p.tileN Config.accTiles tm.tileLo tm.kernel.acc

/-- A team's positions lie within a partition's ranges, on a core that has not been withdrawn from it (R360). -/
def holdsTeam (s : State) (p : PartDesc) (tm : Team) : Bool := tm.within p && !(s.core tm.core).withdrawn

/-- What stands in the save area of a context from its RUN on: what this module saved, or, of an area copied in, what it says now, with its
grids and tickets, which this module then knows (R377, R378). -/
def takeArea (s : State) (c : Context) : State :=
  let x := savedOf s c.id
  let others := s.saved.filter fun y => y.ctx != c.id
  if ownArea s c.id = some x then { s with saved := others ++ [x] }
  else
    { s with saved := others ++ [{ x with grids := [], tickets := [] }]
             grids := (s.grids.filter fun g => g.ctx != c.id) ++ x.grids
             tickets := (s.tickets.filter fun o => o.ctx != c.id && !x.tickets.any fun y => y.ticket == o.ticket) ++ x.tickets, nextId := s.nextId + areaIds }

/-- A partition's rows and tiles of one core are enough for some teams. -/
def unitsLeft (p : PartDesc) (l : List Team) : Bool :=
  decide ((l.map (·.kernel.srows)).sum ≤ p.rowN ∧ (l.map (·.kernel.acc)).sum ≤ p.tileN)

/-- A partition holds every position of a save area, and none twice (R360, R377). -/
def holdsArea (s : State) (c : Context) (x : Saved) : Bool :=
  decide (x.threads.map (·.id)).Nodup && (s.part? c.part).any fun p =>
    x.teams.all fun tm => holdsTeam s p tm && unitsLeft p (x.teams.filter fun y => y.core == tm.core)

/-- RUN is accepted from saved, or from terminated or lost once rebuilt (R368, R376); a start whose saved TSTAMP lies ahead is held (R378). -/
def acceptRun (s : State) (c : Context) : State :=
  let x := savedOf s c.id
  if c.st ≠ .saved ∧ c.st ≠ .terminated ∧ c.st ≠ .lost then ctxDone s c 1
  else if !holdsArea s c x then ctxDone s c 2
  else (takeArea s c).modCtx c.id fun y =>
    { y with st := .restoring, owes := true, saveDeadline := if s.tstamp < x.stamp then x.stamp + 32 else 0 }

/-- The lines of the area, and of the fault queue, that a RUN reads (R251). -/
def runLines (s : State) (ctx : Nat) : List Nat :=
  match s.ctx? ctx with
  | some c => areaLines s c (areaSize (savedOf s ctx)) ++ ticketLines s c
  | none => []

def execRun (ctx : Nat) (s : State) : Host.Outcome State Fault Refusal := .next (command s ctx acceptRun (runLines s ctx))

/-- What a context that is being restored has in its save area. -/
def takenArea (s : State) (ctx : Nat) : Saved := (s.saved.find? fun x => x.ctx == ctx).getD (Saved.none ctx)

/-- Two ranges share a unit. -/
def overlap (a n b m : Nat) : Bool := a < b + m && b < a + n && n != 0 && m != 0

/-- A saved team's slots, rows and tiles are free, beside those of the teams that come with it, and its core is present. -/
def placeFree (s : State) (with_ : List Team) (tm : Team) : Bool :=
  let part := (s.ctx? tm.ctx).bind fun c => s.part? c.part
  !(s.core tm.core).withdrawn
    && (part.all fun p => unitsLeft p ((s.teams.filter fun x => x.core == tm.core && partOf s x p) ++ with_.filter fun x => x.core == tm.core))
    && s.teams.all fun x => x.core != tm.core || !((x.groups.any tm.groups.contains) || overlap x.rowLo x.kernel.srows tm.rowLo tm.kernel.srows
      || overlap x.tileLo x.kernel.acc tm.tileLo tm.kernel.acc)

/-- No thread stands at a position of the saved threads. -/
def positionsFree (s : State) (x : Saved) : Bool := x.threads.all fun t => !s.threads.any fun u => decide (u.id = t.id)

/-- An access at a restore (R165, R365): loads, and the waits of `ldf` and `stf.wait`, are issued anew, and a `waitc` reads the word at its
address again. -/
def Access.restored (a : Access) : Access :=
  match a.kind with
  | .waitc c p v d _ => { a with kind := .waitc c p v d .check, replay := true }
  | .ld _ | .lda .. | .ldf .. | .stf true => { a with replay := true, begun := false }
  | _ => a

/-- A thread at its restore (R165, R367): its accesses are made anew, and fixed-latency results stand. -/
def Thread.restored (k : Kernel) (t : Thread) : Thread :=
  { t with regs := t.regs.inBudget k, snap := none, ic := 0, writes := t.writes.map fun (w : WriteRec) => { w with ready := 0 }
           pending := t.pending.map Access.restored }

/-- A bundle that is saved: how much of its last chain's stall count is left (R54). -/
def Bundle.parked (s : State) (b : Bundle) : Bundle := { b with eligible := b.eligible - s.cycleOf b.core b.lg }

/-- A bundle at its restore: its next chain is eligible after the rest of the stall count (R54), and it fetches its operands again. -/
def Bundle.restored (s : State) (b : Bundle) : Bundle :=
  { b with eligible := s.cycleOf b.core b.lg + b.eligible, starved := false, latch := [] }

/-- The rows that a team's streams have read ahead are discarded (R241). -/
def Team.dropAhead (tm : Team) : Team := { tm with queues := tm.queues.map Queue.dropAhead }

/-- A core takes back what a save area holds of it. -/
def Core.restore (c : Core) (x : CoreSave) : Core :=
  { c with sp := x.sp.foldl (fun m p => Memory.write m p.1 p.2) c.sp
           spShadow := x.sp.foldl (fun m p => Memory.write m p.1 p.2) c.spShadow
           gran := x.gran.foldl (fun m p => assocSet .empty p.1 p.2 m) c.gran
           granShadow := x.gran.foldl (fun m p => assocSet .empty p.1 p.2 m) c.granShadow
           acc := x.acc.foldl (fun m p => assocSet 0 p.1 p.2 m) c.acc
           rowEntry := c.rowEntry ++ x.rowEntry, gated := false }

/-- The open tickets of a context. -/
def openTickets (s : State) (ctx : Nat) : List OpenTicket := s.tickets.filter fun o => o.ctx == ctx && !o.done

/-- The tickets of a context that were resolved while it was saved take their effect. -/
def resolveLate (s : State) (ctx : Nat) : State :=
  ((openTickets s ctx).filter fun o => s.readM o.ticket 8 % 4 != 0).foldl (fun s o => resolveTicket s o (s.readM o.ticket 8 % 4 == 1)) s

/-- A context comes back to its positions, with what its save area holds (R27, R366, R367). -/
def restoreContext (s : State) (c : Context) : State :=
  let x := takenArea s c.id
  let s := { s with threads := s.threads ++ (reloadThreads s c x).map (fun (t : Thread) => t.restored (kernelIn x.teams t))
                    bundles := s.bundles ++ x.bundles.map (Bundle.restored s)
                    teams := s.teams ++ x.teams, cmds := s.cmds ++ reloadCmds s c x, sleepers := s.sleepers ++ x.sleepers
                    reports := s.reports ++ x.reports, saved := s.saved.filter fun (y : Saved) => y.ctx != c.id }
  let s := x.teams.foldl (fun s tm => s.modCore tm.core fun k => k.clearTeam tm) s
  let s := x.stores.foldl (fun s y => s.modCore y.core fun k => k.restore y) s
  let s := (teamPlaces x 512 x.teams).foldl (fun s p => s.modCore p.1.core fun k => k.loadTeam (areaWord s c) p.1 p.2 x.cmds) s
  let s := (noteRises s (x.teams.map (·.core))).modCtx c.id fun y => { y with st := .running, owes := false }
  ctxDone (settle (resolveLate s c.id).wakeGroups) c 0

/-- RUN_START: once every position, row and tile is free, the whole context starts. -/
def execRunStart (ctx : Nat) (s : State) : Host.Outcome State Fault Refusal :=
  match s.ctx? ctx with
  | none => .next s
  | some c =>
    if !s.powered ∨ c.st ≠ .restoring ∨ (c.saveDeadline ≠ 0 ∧ s.tstamp < c.saveDeadline) ∨ !(takenArea s ctx).teams.all (placeFree s (takenArea s ctx).teams)
        ∨ !positionsFree s (takenArea s ctx) then .next s
    else
      let hold := heldBy s none (doneLines s c ++ areaLines s c (areaSize (takenArea s ctx))
        ++ (openTickets s ctx).flatMap fun o => resolveLines s o .retry)
      if hold ≠ [] then .next (s.publishFor hold) else .next (restoreContext s c)

/-! ### SAVE (R364-R366) -/

/-- SAVE is accepted from running: the context is saving, with up to 80,000 cycles for its barriers. -/
def acceptSave (s : State) (c : Context) : State :=
  if c.st ≠ .running then ctxDone s c 1
  else s.modCtx c.id fun x => { x with st := .saving, stopped := false, owes := true, saveDeadline := s.tstamp + Config.saveDeferral }

def execSave (ctx : Nat) (s : State) : Host.Outcome State Fault Refusal := .next (command s ctx acceptSave)

/-- The teams and threads of a context. -/
def teamsOf (s : State) (ctx : Nat) : List Team := s.teams.filter fun tm => tm.ctx == ctx
def threadsOf (s : State) (ctx : Nat) : List Thread := s.threads.filter fun t => (s.teamOf t).ctx == ctx

/-- A team barrier of the context is partly arrived. -/
def partlyArrived (s : State) (ctx : Nat) : Bool := (teamsOf s ctx).any fun tm => tm.bars.any fun b => b.count != 0

/-- What may remain in P(t) at a save: loads, and waits (R165). -/
def savable (a : Access) : Bool :=
  match a.kind with
  | .ld _ | .lda .. | .ldf .. | .stf true | .waitc .. => true
  | _ => false

/-- A thread stands so that it can be saved: its checkpoint durable, its results written, and only replays and waits left. -/
def Thread.still (t : Thread) : Bool := t.stage.isNone && t.results == [] && t.pending.all savable && t.ra.isNone

/-- Bundles of some threads in runahead are restored first (R335). -/
def endRunahead (s : State) (mine : Thread → Bool) : State :=
  (s.bundles.filter fun b => b.ra.isSome && s.threads.any fun t => mine t && b.has t.id).foldl restoreBundle s

/-- A core's buffer holds a store of the context. -/
def buffered (s : State) (ids : List ThreadId) (core : Nat) : Bool :=
  (s.core core).tb.any fun i => match i with | .entry _ _ _ _ c => c.any fun w => ids.contains w.1 | .marker _ => false

/-- What the save area takes of a core for a context's teams there. -/
def coreSave (s : State) (teams : List Team) (ids : List ThreadId) (core : Nat) : CoreSave :=
  let c := s.core core
  let here := teams.filter fun tm => tm.core == core
  let row := fun (o : Nat) => here.any fun tm => tm.rowLo * 1024 ≤ o && o < (tm.rowLo + tm.kernel.srows) * 1024
  { core := core, sp := c.sp.filter fun p => row p.1, gran := c.gran.filter fun p => row (16 * p.1)
    acc := c.acc.filter fun p => here.any fun tm => tm.tileLo * 32 ≤ p.1 && p.1 < (tm.tileLo + tm.kernel.acc) * 32
    rowEntry := c.rowEntry.filter fun e => ids.contains e.2.1 }

/-- Takes a context off its cores into its save area, at the places its tables give before the save writes; a context with a position on a withdrawn core is stranded (R360). -/
def saveContext (s : State) (c : Context) : State :=
  let teams := teamsOf s c.id
  let ts := threadsOf s c.id
  let ids := ts.map (·.id)
  let tids := teams.map (·.id)
  let mineB := fun (b : Bundle) => ids.any b.has
  let ofCtx := fun (r : Report) => r.ctx == c.id
  let cores := (teams.map (·.core)).eraseDups
  let x : Saved :=
    { ctx := c.id, stamp := s.tstamp, threads := ts, bundles := (s.bundles.filter mineB).map (Bundle.parked s), teams := teams.map Team.dropAhead
      cmds := s.cmds.filter fun k => tids.contains k.team, sleepers := s.sleepers.filter fun g => g.members.any ids.contains
      reports := s.reports.filter ofCtx, stores := cores.map (coreSave s teams ids), grids := [], tickets := [] }
  let stranded := cores.any fun k => (s.core k).withdrawn
  let done := ctxPa s c c.done
  let s := writeArea s c
  let s := { s with threads := s.threads.filter fun t => !tids.contains t.team
                    bundles := s.bundles.filter fun b => !mineB b
                    teams := s.teams.filter fun tm => tm.ctx != c.id
                    cmds := s.cmds.filter fun k => !tids.contains k.team
                    sleepers := s.sleepers.filter fun g => !(g.members.any ids.contains)
                    reports := s.reports.filter fun r => !ofCtx r
                    saved := (s.saved.filter fun (y : Saved) => y.ctx != c.id) ++ [x]
                    cores := s.cores.map fun (k : Core) => { k with rowEntry := k.rowEntry.filter fun e => !ids.contains e.2.1 } }
  let s := (noteVotes s cores).modCtx c.id fun y =>
    { y with st := if stranded then .stranded else .saved, gen := (y.gen + 1) % 2 ^ 16, savedAt := s.tstamp, stopped := false
             owes := false }
  match done with
  | some pa => if c.owes then writeMaster s pa 8 (statusWord 0) else s
  | none => s

/-- A core that was gated comes back from its image, within the register budget (R270), at the exact chain (R361). -/
def wakeCore (s : State) (core : Nat) : State :=
  let s := s.modCore core fun c => { c with gated := false, stopping := false, vacant := 0, resting := 0 }
  let s := noteRise s (quadIndex core)
  { s with threads := updWhere (fun t => t.id.core == core) (fun (t : Thread) => t.restored (s.teamOf t).kernel) s.threads
           bundles := updWhere (fun b => b.core == core) (fun (b : Bundle) => { b with starved := false, latch := [] }) s.bundles }

/-- A chain of one of these threads stands half issued (R53). -/
def midChain (s : State) (mine : Thread → Bool) : Bool :=
  s.bundles.any fun b => b.mid.isSome && s.threads.any fun t => mine t && b.has t.id

/-- SAVE_STOP: a gated core of the context wakes (R361). Once no chain stands half issued, and no barrier is partly arrived or the
deadline has come, the context stops and its runahead bundles are restored; once its work in flight has come to rest and its stores have drained and been published, its state goes to the save area. -/
def execSaveStop (ctx : Nat) (s : State) : Host.Outcome State Fault Refusal :=
  match s.ctx? ctx with
  | none => .next s
  | some c =>
    let ts := threadsOf s ctx
    let cores := ((teamsOf s ctx).map (·.core)).eraseDups
    let mine := fun (t : Thread) => ts.any fun x => decide (x.id = t.id)
    if !s.powered ∨ c.st ≠ .saving then .next s
    else if let some k := cores.find? fun k => (s.core k).gated then .next (wakeCore s k)
    else if !c.stopped then
      if midChain s mine || (partlyArrived s ctx && s.tstamp < c.saveDeadline) then .next s
      else .next ((endRunahead s mine).modCtx ctx fun x => { x with stopped := true })
    else if !(ts.all Thread.still) || cores.any (buffered s (ts.map (·.id))) then .next s
    else
      let narrow := cores.filter fun k => (s.core k).nh != []
      let hold := heldBy s none (doneLines s c ++ areaLines s c (areaWords s c).length)
      if narrow ≠ [] ∨ hold ≠ [] then .next (s.publishFor (narrow ++ hold))
      else .next (saveContext s c)

/-! ### TERMINATE and REARM (R348, R368) -/

/-- TERMINATE acts as `hresume.term`, and releases the teams whose stores have drained; the others follow as they drain. -/
def acceptTerminate (s : State) (c : Context) : State :=
  if c.st = .terminated then ctxDone s c 1
  else
    let s := terminateContext s c.id
    let s := (teamsOf s c.id).foldl (fun s tm => if releasable s tm then releaseTeam s tm else s) s
    ctxDone (s.modCtx c.id fun x => { x with stopped := false, owes := false }) c 0

def execTerminate (ctx : Nat) (s : State) : Host.Outcome State Fault Refusal := .next (command s ctx acceptTerminate (termLines s ctx))

/-- A watchpoint's two words (R348): an enabled one must have LEN 3-12, an aligned PADDR and no must-be-0 bit set. -/
def watchOk (w : Word × Word) : Bool :=
  let len := w.2.toNat % 16
  !w.2.getLsbD 7 || (3 ≤ len && len ≤ 12 && w.1.toNat % 2 ^ len == 0 && w.1.toNat / 2 ^ 56 == 0 && w.2.toNat / 2 ^ 8 == 0)

def watchOf (w : Word × Word) : Option Watch :=
  if w.2.getLsbD 7 then some ⟨w.1.toNat, 2 ^ (w.2.toNat % 16), w.2.getLsbD 6, w.2.getLsbD 5, w.2.getLsbD 4⟩ else none

/-- REARM: the eight watchpoints take effect, or none of them does. -/
def acceptRearm (s : State) (c : Context) : State :=
  let dead := match c.st with | .terminated | .stranded | .lost => true | _ => false
  if dead || !c.watchRaw.all watchOk then ctxDone s c 1
  else ctxDone (s.modCtx c.id fun x => { x with watch := c.watchRaw.filterMap watchOf }) c 0

def execRearm (ctx : Nat) (s : State) : Host.Outcome State Fault Refusal := .next (command s ctx acceptRearm)

/-! ### FROZEN_GROUP_RESTART (R40) -/

/-- A wait, which a restart makes again. -/
def Access.waits (a : Access) : Bool :=
  match a.kind with
  | .ldf .. | .stf true | .waitc .. => true
  | _ => false

/-- A load or read-modify-write, whose result is written before a restart (R338). -/
def Access.owesBefore (a : Access) : Bool :=
  match a.kind with
  | .ld _ | .lda .. | .atom .. | .cas .. => true
  | _ => false

/-- The first `n` interlocked results of a thread are written. -/
def State.writeResults (s : State) (t : ThreadId) : Nat → State
  | 0 => s
  | n + 1 => match execInterlockedResultWrite t 0 s with
    | .next s' => s'.writeResults t n
    | _ => s

/-- One thread of a frozen group restarts, with the interlocked results of what it did before the trap written (R338): at its current region's entry as after a RETRY, at another region entry with every
register, predicate, MODE and RSERIAL as at the trap. -/
def restartFrozen (s : State) (t : ThreadId) (at_ : Word) : State :=
  match s.thread? t with
  | none => s
  | some x =>
    let s := (s.writeResults t x.results.length).modThread t fun y => { y with pending := y.pending.filter fun a => !a.waits }
    if x.entry = at_ then s.restartRegion t
    else s.modThread t fun y => { y with pc := at_, status := .live, snap := none, passWatch := none, marker := none }

/-- The packet after a `region`, at whichever word of its packet that begins, is a region entry, and a kernel's entry is one (R19, R184). -/
def regionEntry (s : State) (t : Thread) (a : Word) : Bool :=
  a == t.entry || (s.ctxOf t).kernels.any (·.entry == a) || a == (s.teamOf t).kernel.entry ||
    (a.toNat % 12 == 0 && ([12, 16, 20] : List Word).any fun o => match instrAt s (s.ctxOf t) (a - o) with | some (.region ..) => true | _ => false)

/-- FROZEN_GROUP_RESTART: system software restarts the threads of the group of `t` at region entries of its choosing; threads
it names no address for stay frozen. It waits for the loads and read-modify-writes of the others, whose results come first (R338). -/
def execFrozenGroupRestart (t : ThreadId) (pcs : List (ThreadId × Option Word)) (s : State) : Host.Outcome State Fault Refusal :=
  match s.thread? t with
  | none => .next s
  | some x =>
    let go := pcs.filterMap fun (id, a) => match a, s.thread? id with
      | some a, some y =>
        if y.team == x.team && y.group == x.group && y.status == .frozen && s.hlevel y && regionEntry s y a then some (id, a) else none
      | _, _ => none
    let go := go.eraseDups
    if go.any fun p => (s.thread? p.1).any fun y => y.pending.any Access.owesBefore then .next s else
    let s := go.foldl (fun s p => restartFrozen s p.1 p.2) s
    .next (settle (s.enter (go.filterMap fun p => (s.thread? p.1).map fun y => (p.1, y.pc)).eraseDups))

end Sys2Proof.Machine
end

