-- ==== Sys2Proof/Machine/Loss.lean ====
section
/-! DEFINITION. Losing a core: torn checkpoints, the step Loss, resume, spares and stranded contexts, injected rail events,
errors of the pewter layer (R20, R217, R242, R260, R353-R360, R405, R406). -/

namespace Sys2Proof.Machine

/-! ### Checkpoint writes that are cut (R352, R406) -/

/-- A slot whose write of `new` over `old` reached a stage: 0 nothing, 1 SEQH, 2 the body, 3 CRC, 4 SEQT. -/
def CkSlot.cut (old new : CkSlot) (stage : Nat) : CkSlot :=
  match stage with
  | 0 => old
  | 1 => { old with seqh := new.seqh }
  | 2 => { new with crc := old.crc, seqt := old.seqt }
  | 3 => { new with seqt := old.seqt }
  | _ => new

/-- The thread's checkpoint write in progress is cut at a stage. -/
def Thread.cutAt (t : Thread) (stage : Nat) : Thread :=
  match t.stage with
  | none => t
  | some new =>
    let old := if new.seqh.toNat % 2 = 0 then t.slot0 else t.slot1
    { t.setSlot new.seqh.toNat (old.cut new stage) with stage := none }

/-! ### Resuming a thread (R20, R353, R355) -/

/-- A thread restarts after a loss unless its sleep, departure, continuation or end is recorded (R177, R182, R355). -/
def Thread.restarts (t : Thread) : Bool :=
  match t.status with
  | .live | .waiting | .asleep none | .frozen => true
  | .ended false => t.stage.isSome || t.pending != []
  | _ => false

/-- What a register outside the checkpoint holds after a resume (R20): zero, or a value it held since the region's entry.
Which is not promised. -/
def heldValue (t : Thread) (serial : BitVec 32) (n : RegName) (k : Nat) : Word :=
  let l := 0 :: t.regs.get n :: (t.writes.filter fun w => w.reg == n && sinceSerial serial w.serial).map (·.old)
  (l[Config.freeNat k % l.length]?).getD 0

/-- The registers before the checkpoint is loaded: free values. -/
def lostRegs (t : Thread) (serial : BitVec 32) (k : Nat) : Regs :=
  { t.regs with g := Vector.ofFn fun (i : Fin 32) => if i.val = 0 then 0 else heldValue t serial (.g i) (k + i.val)
                f := Vector.ofFn fun (i : Fin 32) => heldValue t serial (.f i) (k + 32 + i.val) }

/-- A thread resumes from a slot. -/
def Thread.resumeFrom (t : Thread) (c : CkSlot) (k : Nat) : Thread :=
  { t with regs := c.load (lostRegs t c.seqh k), rserial := c.seqh, entry := c.pc, gmask := c.gmask, fmask := c.fmask
           implicit := c.flags == 1, pc := c.pc, stage := none, snap := none, pending := [], results := []
           ra := none, marker := none, passWatch := none, reached := t.reached.filter fun e => !sinceSerial c.seqh e.1
           writes := (t.writes.filter fun w => sinceSerial c.seqh w.serial).map fun (w : WriteRec) => { w with ready := 0 }
           status := if t.status = .frozen then .frozen else .live }

/-- A thread after the loss of its core: resumed from its slot, standing as it is recorded, or lost (none). -/
def Thread.afterLoss (t : Thread) (stage k : Nat) : Option Thread :=
  if !t.restarts then some { t with pending := [], snap := none, ra := none }
  else
    let t := t.cutAt stage
    (chooseSlot t.slot0 t.slot1).map fun c => t.resumeFrom c k

/-! ### Lost state (R357) -/

/-- An entry of KIND 5. -/
def lostReport (s : State) (ctx who : Nat) (t : Option Thread) (eaddr : Word) : State :=
  s.report fun k =>
    { id := k, ctx := ctx, kind := 5, cause := .stateLost, nr := false, epc := 0, eaddr := eaddr, who := who
      rentry := (t.map (·.entry)).getD 0, serial := (t.map (·.rserial)).getD 0, info := 0, stamp := s.tstamp, waiter := .nobody }

/-- What a thread's region wrote behind a closed gate is gone (R358): its buffer entries, which are its alone (R249), and its held bytes. -/
def Core.forget (c : Core) (t : ThreadId) (k : BitVec 32) : Core :=
  let mine := c.held.filter fun e => decide (e.2.1 = t ∧ e.2.2 = k)
  { c with tb := dropMarkers (c.tb.filter fun i => match i with | .entry _ _ _ _ w => w != [(t, k)] | .marker _ => true)
           held := c.held.filter fun e => !decide (e.2.1 = t ∧ e.2.2 = k)
           sp := mine.foldl (fun m e => Memory.write m e.1 (Memory.read c.spShadow e.1)) c.sp
           gran := mine.foldl (fun g e => assocSet .empty (e.1 / 16) (assocD .empty (e.1 / 16) c.granShadow) g) c.gran }

/-- The tile commands that a thread's region has issued, not yet enqueued, leave their team's count with them. -/
def forgetCmds (s : State) (t : ThreadId) (k : BitVec 32) : State :=
  let mine := fun (c : TileCmd) => decide (c.thread = t) && c.phase == .issued && c.serial == k
  { s with cmds := s.cmds.filter fun c => !mine c
           teams := s.teams.map fun (tm : Team) => { tm with ecount := tm.ecount - (s.cmds.filter fun c => mine c && c.team == tm.id).length } }

/-- A thread whose state is lost ends as by KILL, with an entry. -/
def loseThread (s : State) (t : ThreadId) : State :=
  match s.thread? t with
  | none => s
  | some x =>
    let s := if x.stage.isSome then forgetCmds (s.modCore t.core fun c => c.forget t x.rserial) t x.rserial else s
    let s := { s.leaveBundle t with hazels := s.hazels.filter fun h => h.home != some t }.endThread t true
    lostReport (s.modThread t fun y => { y with stage := none, pending := [], results := [], ra := none })
      (s.teamOf x).ctx (whoWord thisModule 0 t.posWord) (some x) 0

/-! ### Loss (R260, R355) -/

/-- The escaped-write log of a core, with its markers. Its entries belong to no thread any more. -/
def escapedLog (s : State) (core : Nat) : List TbItem :=
  ((s.core core).tb.filter fun i => match i with | .entry .. => i.escaped s | .marker _ => true).map fun i => match i with
    | .entry k sec m d _ => .entry k sec m d []
    | .marker k => .marker k

/-- An entry of the log reaches its home slice, past the core's L1 (R296, R355). -/
def logDrain (s : State) (core k : Nat) : State :=
  match (s.core core).tb.find? (·.isEntry k), s.noteOf core k with
  | some (.entry _ sec mask _ _), n =>
    let s' := dropCopies (drainEntry s core k) (32 * sec) 32
    (match n with | some n => s'.sliceTouch n.ctx (32 * sec) (mask != byteMask 0 32) true n.hint | none => s').dropNote core k
  | _, _ => s

/-- A page move makes an entry wait (R310). -/
def TbItem.waits (s : State) (i : TbItem) : Bool := match i with | .entry _ sec .. => writeWaits s (32 * sec) 32 | .marker _ => false

/-- The log drains to M in batch order, up to its first entry that a page move makes wait. -/
def drainEscaped (s : State) (core : Nat) : State :=
  ((escapedLog s core).takeWhile fun i => !i.waits s).foldl (fun s i => match i with | .entry k .. => logDrain s core k | .marker _ => s) s

/-- Escaped entries drain to M in batch order, and the others are discarded with the core's caches and translations, whose written
lines the shadow keeps until they reach their home slices (R163); held bytes return to the shadow. What a page move makes wait stays in the
log, the rest of it behind, and drains when the move is over, before the core issues again (R310, R355; DEDUCED, log 97). -/
def loseCore (s : State) (core : Nat) : State :=
  let log := (escapedLog s core).dropWhile fun i => !i.waits s
  let s := drainEscaped s core
  let s := s.modCore core fun c =>
    let c := { c with tb := log }
    { c with tbNotes := if log = [] then [] else c.tbNotes, slow := [], nh := if log = [] then [] else nhAfter c, ltr := if log = [] then none else c.ltr, icache := [], tlb := ⟨[], [], [], [], [], []⟩, held := []
             sp := c.spShadow, gran := c.granShadow }
  (s.core core).l1.foldl (fun s x => (s.dropL1 core x.line).modDir x.line (State.written x core)) s

/-- A command that had not completed starts again from its first sector (R242), a stalled or frozen one once it may go on; one that
was ended, or whose Count alone is to come, stands. -/
def TileCmd.again (c : TileCmd) : TileCmd :=
  let anew := fun (p : CmdPhase) => { c with phase := p, targets := [], got := [], sectors := [], status := 0, fmask := 0 }
  if c.status = 3 then c
  else match c.phase with
    | .issued | .counting => c
    | .reading | .writing => anew .reading
    | .stalled _ => anew (.stalled true)
    | .frozen _ => anew (.frozen true)

/-- The engines of the core's teams: a `txf` that was not enqueued has not performed, and ECOUNT counts the others (R257); the enqueued
commands begin again, and read-ahead rows are discarded. -/
def loseEngines (s : State) (core : Nat) : State :=
  let teams := (s.teams.filter fun tm => tm.core == core).map (·.id)
  let cmds := s.cmds.filter fun c => !(teams.contains c.team && c.phase == .issued)
  { s with cmds := updWhere (fun c => teams.contains c.team) TileCmd.again cmds
           teams := updWhere (fun tm => tm.core == core)
             (fun (tm : Team) => { tm with ecount := (cmds.filter fun c => c.team == tm.id).length
                                           queues := tm.queues.map Queue.dropAhead }) s.teams }

/-- The stage that a thread's checkpoint write has reached, which is before the STAGE of an armed injection that matches it: there it
would have fired (R406). -/
def stageOf (s : State) (stages : List (ThreadId × Nat)) (t : ThreadId) : Nat :=
  (s.vkinj.filter fun v => v.fires s && decide (v.target = t)).foldl (fun n v => Nat.min n v.stage)
    (((stages.find? fun x => decide (x.1 = t)).map (·.2)).getD 0)

/-- The serial of the region in which a thread stands after the loss. -/
def serialAfter (t : Thread) (stage : Nat) : BitVec 32 := ((t.afterLoss stage 0).map (·.rserial)).getD t.rserial

/-- Sleep that was not recorded is no sleep: threads that waited with a sleeper restart. The entry of a page that is not resident is
written all the same, once the gate of its region is open, and the thread's next one merges into it (R338, R344, R355); one of a region
whose checkpoint the loss has torn, and an entry in flight of another cause, is dropped (DEDUCED, log 44). -/
def loseSleep (s : State) (core : Nat) (stages : List (ThreadId × Nat)) : State :=
  let asleep := fun (t : ThreadId) => (s.thread? t).any fun x => match x.status with | .asleep (some _) => true | _ => false
  let kept := fun (g : SleepGroup) =>
    if g.members.any fun t => t.core == core then
      { g with members := g.members.filter asleep, waits := g.waits.filter fun w => asleep w.1 }
    else g
  -- the region of the entry stands
  let stands := fun (t : ThreadId) (r : Report) =>
    (s.thread? t).all fun x => !sinceSerial (serialAfter x (stageOf s stages t) + 1) r.serial
  -- the entries of one instruction have the number of the first of them
  let first := fun (r : Report) => (((s.reports.filter fun q => sameBundle s r q).map (·.id)).min?).getD r.id
  let after := fun (r : Report) =>
    match r.waiter with
    | .thread t | .reg t _ =>
      if t.core == core && r.kind ≤ 1 then (if r.nr && stands t r then some { r with waiter := .gone t (first r) } else none) else some r
    | .gone t _ => if t.core == core && !stands t r then none else some r
    | _ => some r
  { s with sleepers := (s.sleepers.map kept).filter fun g => g.members != [], reports := s.reports.filterMap after }

/-- Tile rows of every thread with a copy, and queue positions, return to its region's entry (R242, R355). -/
def rowsOf (s : State) (t : Thread) (stage : Nat) : State := s.restoreRows t.id (serialAfter t stage)

/-- A loss during a save abandons it, and it starts again (R356): the context runs until its barriers are settled once more. A context that
will be stranded stays as it is (R360). -/
def restartSaves (s : State) (core : Nat) : State :=
  let mine := fun (c : Context) (tm : Team) => tm.ctx == c.id
  let hit := fun (c : Context) => c.st == .saving && (s.teams.any fun tm => mine c tm && tm.core == core)
    && !s.teams.any fun tm => mine c tm && (s.core tm.core).withdrawn
  { s with ctxs := updWhere hit (fun (c : Context) => { c with stopped := false }) s.ctxs }

/-- Loss (core) as one step: what has escaped reaches M, each thread is treated according to its record, and those that resume enter at
their region. -/
def lossStep (s : State) (core : Nat) (stages : List (ThreadId × Nat)) : State :=
  let ts := (s.threads.filter fun t => t.id.core == core).map Thread.leaveRa
  let gone := (s.bundles.filter fun b => b.core == core).map (·.id)
  let s1 := restartSaves (loseEngines (loseSleep (loseCore s core) core stages) core) core
  let s1 := { s1 with threads := updWhere (fun t => t.id.core == core) Thread.leaveRa s1.threads }
  let reached := stageOf s stages
  let s1 := ts.foldl (fun s t => rowsOf s t (reached t.id)) s1
  let num := fun (t : ThreadId) => s.fresh + 64 * ((ts.map (·.id)).idxOf t)
  let s1 := { s1 with threads := s1.threads.map fun t =>
                        if t.id.core = core then ((t.afterLoss (reached t.id) (num t.id)).getD t) else t
                      fresh := s.fresh + 64 * ts.length }
  let s1 := gone.foldl State.dropBundle s1
  let lost := ts.filter fun t => (t.afterLoss (reached t.id) 0).isNone
  let s1 := lost.foldl (fun s t => loseThread s t.id) s1
  let back := ts.filter fun t => t.restarts && t.status != .frozen && !lost.any fun x => x.id = t.id
  settle (s1.enter (back.filterMap fun t => (s1.thread? t.id).map fun x => (t.id, x.entry)))

/-- Cycles within which three losses make a hard failure: 10 ms (R354). -/
def lossWindow : Nat := 16000000

/-- With no spare left the core is withdrawn, and every context with a team on it stops as a whole, where no chain stands half issued (R53),
and is saved; it will be stranded (R360). -/
def strand (s : State) (core : Nat) : State :=
  let hit := fun (c : Context) => (c.st == .running || c.st == .saving) && s.teams.any fun tm => tm.core == core && tm.ctx == c.id
  let s := s.modCore core fun c => { c with withdrawn := true }
  { s with ctxs := updWhere hit (fun (c : Context) => { c with st := .saving, stopped := false, saveDeadline := s.tstamp }) s.ctxs }

/-- A hard failure: a spare of the die takes the core's place, or the core is withdrawn (R359, R360). -/
def replaceCore (s : State) (core : Nat) : State :=
  let die := core / 48
  let used := assocD 0 die s.spares
  if used < 2 then { s with spares := assocSet 0 die (used + 1) s.spares }.modCore core fun c => { c with losses := [] }
  else endRunahead (strand s core) fun t => s.teams.any fun tm => tm.core == core && tm.ctx == (s.teamOf t).ctx

/-- A core whose translations and instruction lines are gone (R305). -/
def Core.untranslated (c : Core) : Core := { c with icache := [], tlb := ⟨[], [], [], [], [], []⟩ }

/-- UNPLANNED_LOSS (R354, R355): `hard` when the core fails its check on re-power; `stages` is how far each thread's checkpoint
write had come, which is not promised. A gated core loses nothing but its translations (R305, R361). -/
def execUnplannedLoss (core : Nat) (hard : Bool) (stages : List (ThreadId × Nat)) (s : State) : Host.Outcome State Fault Refusal :=
  let recent := s.tstamp :: (s.core core).losses.filter fun x => s.tstamp ≤ x + lossWindow
  let s1 := (if (s.core core).gated then s.modCore core Core.untranslated else lossStep s core stages).modCore core fun c => { c with losses := recent }
  if hard || 3 ≤ recent.length then .next (replaceCore s1 core) else .next s1

/-- CORRECTABLE_ERROR (R354): corrected in place and counted. -/
def execCorrectableError (core : Nat) (s : State) : Host.Outcome State Fault Refusal :=
  .next (s.modCore core fun c => { c with correctable := c.correctable + 1 })

/-! ### Injected rail events (R405, R406) -/

/-- INJECTED_RAIL_EVENT: an armed injection whose checkpoint write has reached its stage cuts the core; the other threads' writes
stand where `stages` says. Of several that match the write, all fire, at the first of their stages. It counts toward nothing. -/
def execInjectedRailEvent (hazelCore : Nat) (stages : List (ThreadId × Nat)) (s : State) : Host.Outcome State Fault Refusal :=
  match s.vkinj.find? fun v => v.core == hazelCore && v.fires s with
  | none => .next s
  | some v =>
    let same := fun (x : Vkinj) => x.fires s && decide (x.target = v.target)
    let first := ((s.vkinj.filter same).map (·.stage)).foldl Nat.min v.stage
    let s1 := { s with vkinj := updWhere same Vkinj.fired s.vkinj }
    .next (lossStep s1 v.target.core ((v.target, first + 1) :: stages))

/-! ### Errors of the pewter layer (R357) -/

/-- A slot that is torn. -/
def CkSlot.tear (c : CkSlot) : CkSlot := { c with seqt := c.seqh + 1 }

/-- The team that a scratchpad row, or a tile, of a core is allocated to. -/
def rowOwner (s : State) (core row : Nat) : Option Team :=
  s.teams.find? fun tm => tm.core == core && tm.rowLo ≤ row && row < tm.rowLo + tm.kernel.srows
def tileOwner (s : State) (core tile : Nat) : Option Team :=
  s.teams.find? fun tm => tm.core == core && tm.tileLo ≤ tile && tile < tm.tileLo + tm.kernel.acc

/-- WHO of a team's core. -/
def coreWho (core : Nat) : Nat := whoWord thisModule 0 (ThreadId.posWord ⟨core, 0, 0⟩)

/-- A row whose every element is 0x7FC0_0000. -/
def nanRow : BitVec 2048 := rowOf 32 (List.replicate 64 0x7FC00000)

/-- An entry for the team that owns what was lost; none where nobody does. -/
def lostOf (s : State) (core : Nat) (tm : Option Team) (eaddr : Word) : State :=
  match tm with
  | some tm => lostReport s tm.ctx (coreWho core) none eaddr
  | none => s

/-- The first of some granules, or of some rows, that a team owns, with the team. -/
def firstOwned (owner : Nat → Option Team) (l : List Nat) : Option (Nat × Team) := l.findSome? fun k => (owner k).map fun tm => (k, tm)
def granuleOwner (s : State) (core g : Nat) : Option Team := rowOwner s core (g / 64)
def tileRowOwner (s : State) (core r : Nat) : Option Team := tileOwner s core (r / 32)

/-- PEWTER_ERROR (R357): a slot is torn, and its thread lost when no slot is complete; granules become FAILED, rows read as NaNs, with one
entry that names the first lost; a log, reply or status record ends its context. -/
def execPewterError (w : PewterWhere) (s : State) : Host.Outcome State Fault Refusal :=
  match w with
  | .checkpointSlot t k =>
    let s := s.modThread t fun x => x.setSlot k.val ((if k.val = 0 then x.slot0 else x.slot1).tear)
    match s.thread? t with
    | some x =>
      if (chooseSlot x.slot0 x.slot1).isNone && (match x.status with | .ended _ => false | _ => true)
      then .next (settle (loseThread s t)) else .next s
    | none => .next s
  | .granule core g n =>
    let gs := (List.range n).map (g + ·)
    let own := firstOwned (granuleOwner s core) gs
    let ap := (own.map fun x => apertureAddr (16 * x.1 - x.2.rowLo * 1024)).getD 0
    .next (lostOf (s.modCore core fun c => gs.foldl (fun c q => c.granWrite q .failed) c) core (own.map (·.2)) ap)
  | .tileRow core tile row n =>
    let rs := (List.range n).map (tile * 32 + row + ·)
    let s1 := s.modCore core fun c =>
      { c with acc := rs.foldl (fun a r => assocSet 0 r nanRow a) c.acc
               rowEntry := c.rowEntry.map fun e => if rs.contains e.1 then (e.1, e.2.1, e.2.2.1, nanRow) else e }
    .next (lostOf s1 core ((firstOwned (tileRowOwner s core) rs).map (·.2)) 0)
  | .log core ctx =>
    let hold := heldBy s none (termLines s ctx)
    if !s.teams.any fun tm => tm.core == core && tm.ctx == ctx then .next s
    else if hold ≠ [] then .next (s.publishFor hold)
    else .next (lostReport (terminateContext s ctx) ctx (coreWho core) none 0)

end Sys2Proof.Machine
end

