-- ==== Sys2Proof/Machine/Csr.lean ====
section
/-! DEFINITION. Reads and writes of the CSRs of the hazel cores: `vkpcu` (R309), `vkblk` (R374), `vkqwin` (R387), `vkinj` (R405) and
`vkhome` (R382). -/

namespace Sys2Proof.Machine

/-- The RISC-V causes: an illegal instruction, and a supervisor external interrupt. -/
def illegalInstruction : Nat := 2
def supervisorExternal : Nat := 2 ^ 63 + 9

/-- A hazel core takes an exception or an interrupt. -/
def raiseHazel (s : State) (core cause : Nat) : State := { s with hazelTraps := s.hazelTraps ++ [(core, cause)] }

/-- An access of a CSR of machine level that holds `value` (R309): below that level an illegal-instruction exception. A read returns the
value; a write that is not `ok` raises the exception too and leaves the CSR unchanged. -/
def csrAccess (s : State) (core : Nat) (machine : Bool) (v : Option Word) (value : Word) (ok : Word → Bool) (f : Word → State) : State :=
  if !machine then raiseHazel s core illegalInstruction
  else match v with
  | none => { s with answer := value.toNat }
  | some v => if ok v then f v else raiseHazel s core illegalInstruction

/-- No bit outside a mask is set. -/
def fits (mask v : Word) : Bool := v &&& ~~~mask == 0

/-- Bits 55:6, and 55:16. -/
def blockBits : Word := 0x00FFFFFFFFFFFFC0
def tableBits : Word := 0x00FFFFFFFFFF0000

/-- VKPCU: the control block of the page copy unit of the hazel core's I/O die; cores 0-31 are those of die 0. -/
def execVkpcu (hazelCore : Nat) (machine : Bool) (v : Option Word) (s : State) : Host.Outcome State Fault Refusal :=
  .next (csrAccess s hazelCore machine v (assocD 0 (hazelCore / 32) s.vkpcu) (fits blockBits) fun v =>
    { s with vkpcu := assocSet 0 (hazelCore / 32) v s.vkpcu })

/-- VKBLK: the control block of the block controller. -/
def execVkblk (hazelCore : Nat) (machine : Bool) (v : Option Word) (s : State) : Host.Outcome State Fault Refusal :=
  .next (csrAccess s hazelCore machine v s.vkblk (fits blockBits) fun v => { s with vkblk := v })

/-- VKQWIN: the window binding tables. -/
def execVkqwin (hazelCore : Nat) (machine : Bool) (v : Option Word) (s : State) : Host.Outcome State Fault Refusal :=
  .next (csrAccess s hazelCore machine v s.vkqwin (fits tableBits) fun v => { s with vkqwin := v })

/-- A value that `vkinj` accepts: reserved bits 0, STAGE not 0b11, FCORE at most 383. -/
def vkinjOk (v : Word) : Bool :=
  v.toNat / 2 ^ 52 % 2 ^ 8 == 0 && v.toNat / 2 ^ 32 % 2 == 0 && v.toNat / 2 ^ 61 % 4 != 3 && v.toNat / 2 ^ 43 % 2 ^ 9 ≤ 383

/-- What a hazel core's `vkinj` holds: 0 until it is written (R405). -/
def vkinjOf (s : State) (core : Nat) : Word := ((s.vkinj.find? fun x => x.core == core).map (·.value)).getD 0

/-- VKINJ: the hazel core's own; any write clears FIRED. -/
def execVkinj (hazelCore : Nat) (machine : Bool) (v : Option Word) (s : State) : Host.Outcome State Fault Refusal :=
  .next (csrAccess s hazelCore machine v (vkinjOf s hazelCore) vkinjOk fun v =>
    { s with vkinj := (s.vkinj.filter fun x => x.core != hazelCore) ++ [⟨hazelCore, v &&& ~~~((1 : Word) <<< 60)⟩] })

/-- What a read of `vkhome` returns (R382): AWAY with the thread's position, or 0 for a hazel-native thread and at reset. -/
def vkhomeOf (h : Option Hazel) : Word :=
  match h.bind (·.home) with
  | some t => BitVec.ofNat 64 (2 ^ 63 + t.posWord)
  | none => 0

/-- VKHOME: readable at every level; a write raises an illegal-instruction exception. -/
def execVkhome (hazelCore : Nat) (v : Option Word) (s : State) : Host.Outcome State Fault Refusal :=
  match v with
  | none => .next { s with answer := (vkhomeOf (s.hazel? hazelCore)).toNat }
  | some _ => .next (raiseHazel s hazelCore illegalInstruction)

end Sys2Proof.Machine
end

