-- ==== Sys2Proof/Machine/Partitions.lean ====
section
/-! DEFINITION. The partition table and the block controller (R369-R374). -/

namespace Sys2Proof.Machine

/-! ### PARTITION_TABLE_UPDATE (R369, R370) -/

/-- The ranges of a descriptor lie in those of a core. -/
def partInRange (p : PartDesc) : Bool :=
  p.part < 16 && p.slotLo + p.slotN ≤ 8 && p.rowLo + p.rowN ≤ 768 && p.tileLo + p.tileN ≤ 32

/-- Two partitions share nothing. -/
def partsDisjoint (p q : PartDesc) : Bool :=
  !overlap p.slotLo p.slotN q.slotLo q.slotN && !overlap p.rowLo p.rowN q.rowLo q.rowN && !overlap p.tileLo p.tileN q.tileLo q.tileN
    && p.ways &&& q.ways == 0 && !p.blocks.any q.blocks.contains

/-- The ranges are those of another descriptor. -/
def sameRanges (p q : PartDesc) : Bool :=
  p.slotLo == q.slotLo && p.slotN == q.slotN && p.rowLo == q.rowLo && p.rowN == q.rowN && p.tileLo == q.tileLo && p.tileN == q.tileN
    && p.active == q.active

/-- The way mask of a partition as it will be. -/
def waysToCome (s : State) (p : PartDesc) : BitVec 24 := ((s.nextQuota.find? fun q => q.1 == p.part).map (·.2.1)).getD p.ways

/-- A table update is refused when a range lies outside a core, when active partitions would share anything, or when it
changes the ranges of a partition with a running context. -/
def updateOk (s : State) (p : PartDesc) : Bool :=
  let old := s.part? p.part
  let blocks := (old.map (·.blocks)).getD []
  partInRange p && (!p.active || (s.parts.filter fun q => q.active && q.part != p.part).all fun q =>
      partsDisjoint { p with blocks := blocks } q && p.ways &&& waysToCome s q == 0)
    && ((old.any (sameRanges p)) || !s.ctxs.any fun c => c.part == p.part && c.st == .running)

/-- PARTITION_TABLE_UPDATE: status 1 to the firmware for a refused update. BLOCKS keeps its value, and WAYS and BUDGET of a
partition that was active take effect at the next accounting period. A partition that becomes active places its first
cluster from die 0 (R319). -/
def execPartitionTableUpdate (p : PartDesc) (s : State) : Host.Outcome State Fault Refusal :=
  if !updateOk s p then .next { s with answer := 1 }
  else
    let s := { s with answer := 0 }
    match s.part? p.part with
    | some q =>
      let new : PartDesc := if q.active then { p with blocks := q.blocks, ways := q.ways, budget := q.budget } else { p with blocks := q.blocks }
      .next { s with parts := updWhere (fun x => x.part == p.part) (fun _ => new) s.parts
                     nextQuota := (s.nextQuota.filter fun x => x.1 != p.part) ++ [(p.part, p.ways, p.budget)]
                     lastDie := if q.active then s.lastDie else s.lastDie.filter fun d => d.1 != p.part }
    | none => .next { s with parts := s.parts ++ [{ p with blocks := [] }] }

/-! ### Notices (R372, R373) -/

/-- Writes one notice of a block move and advances TAIL; none when the ring has no room, or while a narrow holder of its lines
has not published. -/
def putNotice (s : State) (part block kind : Nat) : Option State :=
  match s.part? part with
  | none => some s
  | some p =>
    let n := p.notice
    let cap := s.readM (n + 8) 8
    let tail := s.readM (n + 16) 8
    let at_ := s.readM n 8 + 32 * (tail % (if cap = 0 then 1 else cap))
    if cap ≤ (tail + 2 ^ 64 - s.readM (n + 24) 8) % 2 ^ 64 || heldBy s none (physLines n 64 ++ physLines at_ 32) != [] then none
    else
      let s := writeDwords s at_ [BitVec.ofNat 64 block, BitVec.ofNat 64 (blockBase block), BitVec.ofNat 64 kind,
                                  BitVec.ofNat 64 (Config.ackWord block)]
      let s := writeMaster s (n + 16) 8 ((tail + 1) % 2 ^ 64)
      let irq := s.readM (n + 32) 8
      some (if irq / 2 ^ 63 = 1 then raiseHazel s (irq % 64) supervisorExternal else s)

def modMove (s : State) (block : Nat) (f : BlockMove → BlockMove) : State :=
  { s with blockMoves := updWhere (fun m => m.block == block) f s.blockMoves }

def blockMove? (s : State) (block : Nat) : Option BlockMove := s.blockMoves.find? fun m => m.block == block

/-- The partition that the notice of a move's state is for, and its kind. -/
def BlockMove.noticeTo (m : BlockMove) : Option (Nat × Nat) :=
  match m.st with
  | .removing => m.src.map fun p => (p, 1)
  | .scrubbing => none
  | .adding => m.dst.map fun p => (p, 2)

/-- Writes the notice of a move if it is owed and there is room. -/
def notify (s : State) (block : Nat) : State :=
  match blockMove? s block with
  | some m =>
    if m.noticed then s
    else match m.noticeTo with
      | some (p, k) => match putNotice s p block k with
        | some s' => modMove s' block fun m => { m with noticed := true }
        | none => s
      | none => s
  | none => s

/-- A move ends with a completion word. -/
def endBlockMove (s : State) (m : BlockMove) (status : Nat) : State :=
  writeMaster { s with blockMoves := s.blockMoves.filter fun x => x.block != m.block } m.done 8 (statusWord status)

/-! ### BLOCK_MOVE_REQUEST (R372, R374) -/

/-- The partition of FROM or TO; none for 0xFF. -/
def partField (n : Nat) : Option Nat := if n = 0xFF then none else some n

/-- A partition exists. -/
def activePart (s : State) (p : Nat) : Bool := (s.part? p).any (·.active)

/-- The partition that owns a block. -/
def ownerOf (s : State) (block : Nat) : Option Nat := (s.parts.find? fun p => p.blocks.contains block).map (·.part)

/-- A request is refused (status 2). -/
def blockRequestBad (s : State) (block src dst rest : Nat) : Bool :=
  143 < block || rest != 0 || src == dst || ownerOf s block != partField src
    || !((partField src).all (activePart s)) || !((partField dst).all (activePart s))

/-- A request for a block that is not moving is refused, or its move begins: at Removing with a notice owed to P, or at Scrubbing, which
takes the block from everyone. -/
def startBlockMove (s : State) (r : BlockReq) : State :=
  if blockRequestBad s r.block r.src r.dst r.rest then writeMaster s r.done 8 (statusWord 2)
  else
    let m : BlockMove :=
      { block := r.block, src := partField r.src, dst := partField r.dst, st := if r.src = 0xFF then .scrubbing else .removing
        deadline := r.deadline, done := r.done, noticed := false }
    notify { s with blockMoves := s.blockMoves ++ [m] } r.block

/-- The first waiting request whose block is not moving. -/
def blockNext (s : State) : Option BlockReq := s.blockQueue.find? fun r => (blockMove? s r.block).isNone

/-- The block controller performs a waiting request whose block is free, or takes the next request of its ring: it performs the requests
for one block in ring order and moves different blocks at once. -/
def takeBlockMove (s : State) : State :=
  if let some r := blockNext s then
    let hold := heldBy s none (physLines r.done 8)
    if hold ≠ [] then s.publishFor hold else startBlockMove { s with blockQueue := s.blockQueue.erase r } r
  else
  let blk := ringBlock s s.vkblk s.blkBlock
  if ringHolders s s.vkblk s.blkBlock ≠ [] then s.publishFor (ringHolders s s.vkblk s.blkBlock) else
  let s := { s with blkBlock := blk }
  match ringRequest s blk.toNat 32 with
  | none => s
  | some a =>
    let r : BlockReq := ⟨s.readM a 1, s.readM (a + 1) 1, s.readM (a + 2) 1, s.readM (a + 3) 5 + s.readM (a + 24) 8, s.readM (a + 8) 8, s.readM (a + 16) 8⟩
    let hold := heldBy s none (physLines a 32 ++ physLines r.done 8)
    if hold ≠ [] then s.publishFor hold
    else
      let s := ringTake s blk.toNat
      if (blockMove? s r.block).isSome || s.blockQueue.any (·.block == r.block) then { s with blockQueue := s.blockQueue ++ [r] }
      else startBlockMove s r

/-- BLOCK_MOVE_REQUEST: notices that wait are written when there is room; otherwise the next request is taken. -/
def execBlockMoveRequest (s : State) : Host.Outcome State Fault Refusal :=
  let s' := s.blockMoves.foldl (fun s m => notify s m.block) s
  if s' ≠ s then .next s' else .next (takeBlockMove s)

/-! ### Scrubbing (R372) -/

/-- A physical address lies in a block. -/
def inBlock (block pa : Nat) : Bool := blockOf pa == some block

/-- What the scrub waits for: page moves of the block, the rest of an issue that had begun to perform there, stores still buffered. -/
def blockBusy (s : State) (block : Nat) : Bool :=
  (s.moves.any fun m => inBlock block m.source || inBlock block m.target)
    || (s.threads.any fun t => t.pending.any fun a => a.begun && match a.loc with | .dev pa => inBlock block pa | .sp .. => false)
    || s.cores.any fun c => c.tb.any fun i => match i with | .entry _ sec .. => inBlock block (32 * sec) | .marker _ => false

/-- Scrubbing begins: the block leaves BLOCKS and P's translations are swept, so that no access of P reaches it (R371); an access in
flight to it is an access fault where it would perform. -/
def beginScrub (s : State) (m : BlockMove) : State :=
  let ctxs := match m.src with | some p => ctxsOfPart s p | none => []
  let s := { s with parts := s.parts.map fun (p : PartDesc) => { p with blocks := p.blocks.filter (· != m.block) } }
  let s := sweep s (fun e => ctxs.contains e.ctx) (fun l => ctxs.contains l.ctx) ctxs
  modMove s m.block fun x => { x with st := .scrubbing, noticed := false }

/-- The cores that hold a line of a block narrow. -/
def blockHolders (s : State) (block : Nat) : List Nat := (s.cores.filter fun c => c.nh.any fun l => inBlock block (64 * l)).map (·.id)

/-- Every cached line of a block is written back and invalid, and every byte of it zero. -/
def zeroBlock (s : State) (block : Nat) : State :=
  { s with cores := s.cores.map fun (c : Core) => { c with l1 := c.l1.filter fun y => !inBlock block (64 * y.line) }
           dir := s.dir.filter fun d => !inBlock block (64 * d.line), mem := s.mem.filter fun x => !inBlock block x.1 }

/-- REMOVE_ACKNOWLEDGMENT: P's guest has written 1 to the acknowledgment word of a notice. -/
def execRemoveAcknowledgment (block : Nat) (s : State) : Host.Outcome State Fault Refusal :=
  match blockMove? s block with
  | some m => if m.st = .removing ∧ m.noticed then .next (beginScrub s m) else .next s
  | none => .next s

/-- REMOVE_DEADLINE: it counts whether or not the notice has been written. -/
def execRemoveDeadline (block : Nat) (s : State) : Host.Outcome State Fault Refusal :=
  match blockMove? s block with
  | some m => if m.st = .removing ∧ m.deadline ≤ s.tstamp then .next (beginScrub s m) else .next s
  | none => .next s

/-- SCRUB_COMPLETE: once what the scrub waits for is over, no cached line is left and every byte is zero; with an error the block is owned by no partition (status 1), without TO the move ends,
and otherwise the block is Q's and an add notice is written. -/
def execScrubComplete (block : Nat) (error : Bool) (s : State) : Host.Outcome State Fault Refusal :=
  match blockMove? s block with
  | none => .next s
  | some m =>
    let hold := heldBy s none [lineOf m.done] ++ blockHolders s block
    if m.st ≠ .scrubbing then .next s
    else if hold ≠ [] then .next (s.publishFor hold)
    else if blockBusy s block then .next s
    else
      let s := zeroBlock s block
      if error then .next (endBlockMove s m 1)
      else match m.dst with
      | none => .next (endBlockMove s m 0)
      | some q =>
        let s := { s with parts := updWhere (fun p => p.part == q) (fun (p : PartDesc) => { p with blocks := insertNat block p.blocks }) s.parts }
        .next (notify (modMove s block fun x => { x with st := .adding, noticed := false }) block)

/-- ADD_ACKNOWLEDGMENT: Q's guest has acknowledged, and the move is done. -/
def execAddAcknowledgment (block : Nat) (s : State) : Host.Outcome State Fault Refusal :=
  match blockMove? s block with
  | none => .next s
  | some m =>
    let hold := heldBy s none [lineOf m.done]
    if m.st ≠ .adding ∨ !m.noticed then .next s
    else if hold ≠ [] then .next (s.publishFor hold)
    else .next (endBlockMove s m 0)

end Sys2Proof.Machine
end

