-- ==== Sys2Proof/Machine/Power.lean ====
section
/-! DEFINITION. The events of planned gating (R361, R396), near-threshold mode, clock masks and rails (R393-R395), and the correction
of TSTAMP (R388). -/

namespace Sys2Proof.Machine

/-! ### Rails (R395) -/

/-- RAIL_HOLD_EXPIRY: the rail falls at 10 mV/µs to the highest vote. Where the highest voter has left by the end of its teams, the hold
begins. -/
def execRailHoldExpiry (quad : Nat) (s : State) : Host.Outcome State Fault Refusal :=
  let r := railOf s quad
  match r.holdUntil with
  | some d =>
    if s.tstamp < d then .next s
    else
      let low := demand s quad
      if low < r.target then .next (setRail s (r.toward s.tstamp low))
      else .next (setRail s { r with holdUntil := none })
  | none => .next (noteVote s quad)

/-- RAIL_SETTLED: the rail has arrived. -/
def execRailSettled (quad : Nat) (s : State) : Host.Outcome State Fault Refusal :=
  let r := railOf s quad
  if r.mv ≠ r.target ∧ r.due ≤ s.tstamp then .next (setRail s { r with mv := r.target }) else .next s

/-! ### Lane groups (R59, R393) -/

/-- Changes one lane group. -/
def modLg (s : State) (core : Nat) (lg : Fin 4) (f : LaneGroup → LaneGroup) : State :=
  s.modCore core fun c => { c with lgs := c.lgs.modify lg.val f }

/-- NTHINT of the resident threads of a lane group. -/
def hints (s : State) (core : Nat) (lg : Fin 4) : List Nat :=
  (s.threads.filter fun t => t.id.core == core && t.id.laneGroup == lg.val && t.alive).map fun t => t.regs.mode.toNat / 2 ^ 10 % 4

/-- The cycles of waiting after which a lane group enters near-threshold; none when a thread forbids it. -/
def nearAfter (l : List Nat) : Option Nat :=
  if l.contains 2 then none else if l != [] && l.all (· == 1) then some 128 else some 512

/-- NEAR_THRESHOLD_ENTRY. -/
def execNearThresholdEntry (core : Nat) (lg : Fin 4) (s : State) : Host.Outcome State Fault Refusal :=
  match ((s.core core).lgs[lg.val]?), nearAfter (hints s core lg) with
  | some g, some n =>
    if g.near || g.waited < n then .next s
    else .next (noteVote (modLg s core lg fun g => { g with near := true, phase := 0 }) (quadIndex core))
  | _, _ => .next s

/-- NOMINAL_RETURN: for a ready bundle; the rail must have risen first. -/
def execNominalReturn (core : Nat) (lg : Fin 4) (s : State) : Host.Outcome State Fault Refusal :=
  let q := quadIndex core
  let r := railOf s q
  if !(((s.core core).lgs[lg.val]?).any (·.near)) || !(s.bundles.any fun b => b.core == core && b.lg == lg.val && s.ready b) then .next s
  else if r.mv = 700 ∧ r.target = 700 then
    .next (setRail (modLg s core lg fun g => { g with near := false, phase := 0, waited := 0 }) { r with holdUntil := none })
  else if r.target = 700 then .next s
  else .next (setRail s (r.toward s.tstamp 700))

/-- CLOCK_MASK (R394): a mask of 0 is refused. -/
def execClockMask (core : Nat) (mask : BitVec 32) (s : State) : Host.Outcome State Fault Refusal :=
  if mask = 0 then .next s else .next (s.modCore core fun c => { c with clockMask := mask })

/-! ### Planned gating (R361, R396) -/

/-- PLANNED_GATING, by the core's own counts or for a power cap: the core stops at a chain boundary with its runahead bundles restored; once its checkpoints are durable
and its stores have drained it powers down, with its written lines in their slices and its translations kept (R305). Its engines stand
until it wakes, and read their rows again (R241). -/
def execPlannedGating (core : Nat) (s : State) : Host.Outcome State Fault Refusal :=
  let c := s.core core
  let mine := fun (t : Thread) => t.id.core == core
  if c.gated || c.withdrawn then .next s
  else if !c.stopping then if midChain s mine then .next s else .next ((endRunahead s mine).modCore core fun c => { c with stopping := true })
  else if !((s.threads.filter mine).all Thread.still) || c.tb != [] then .next s
  else
    let s := (s.core core).l1.foldl (fun s x => (s.dropL1 core x.line).modDir x.line (State.written x core)) s
    let s := { s with teams := updWhere (fun tm => tm.core == core) Team.dropAhead s.teams }
    .next (noteVote (s.modCore core fun c => { c with gated := true, nh := [], ltr := none, icache := [] }) (quadIndex core))

/-- GATED_CORE_WAKE: the state comes back from the image, within the register budget (R270), at the exact chain. -/
def execGatedCoreWake (core : Nat) (s : State) : Host.Outcome State Fault Refusal :=
  let c := s.core core
  if !c.gated && !c.stopping then .next s
  else if !c.gated then .next (s.modCore core fun c => { c with stopping := false })
  else .next (wakeCore s core)

/-! ### PTP_SYNC (R388) -/

/-- TSTAMP slews by at most one cycle in 1,024: one more when the grandmaster is ahead, or one cycle in which it stands, and with it the age
of every record (R325). -/
def execPtpSync (ahead : Bool) (s : State) : Host.Outcome State Fault Refusal :=
  if s.tstamp < s.lastSlew + 1024 then .next s
  else if ahead then .next { s with tstamp := s.tstamp + 1, lastSlew := s.tstamp }
  else .next (formDue { s.clock with tstamp := s.tstamp, lastSlew := s.tstamp })

end Sys2Proof.Machine
end

