-- ==== Sys2Proof/Machine/Module.lean ====
section
/-! DEFINITION. Epochs, loss of module power and its restoration (R262, R375, R376), boot and SPDM (R398, R399). -/

namespace Sys2Proof.Machine

/-! ### The keep store (R375, R376) -/

/-- EPOCH: one at a time; in the ordering machine it is the single step at which it began. -/
def execEpoch (s : State) : Host.Outcome State Fault Refusal :=
  if s.epochOpen.isSome || !s.powered then .next s
  else .next { s with epochCount := s.epochCount + 1, epochOpen := some (s.epochCount + 1, s.mem) }

/-- EPOCH_COMPLETE: the whole of M is captured. -/
def execEpochComplete (s : State) : Host.Outcome State Fault Refusal :=
  match s.epochOpen with
  | some e => .next { s with keystore := s.keystore ++ [e], epochOpen := none }
  | none => .next s

/-- MODULE_POWER_LOSS: the cores stop without draining, an epoch in progress is abandoned, and a final one is taken. -/
def execModulePowerLoss (s : State) : Host.Outcome State Fault Refusal :=
  if !s.powered then .next s
  else .next { s with powered := false, epochOpen := none, epochCount := s.epochCount + 1
                      keystore := s.keystore ++ [(s.epochCount + 1, s.mem)], threads := [], bundles := [], sleepers := [], teams := []
                      cmds := [], reports := [], hazels := [], grids := [], queues := [], moves := [], dir := [], contention := [], tagOnly := []
                      focus := none }

/-- The state of a context after a restoration (R376). -/
def CtxSt.afterPower : CtxSt → CtxSt
  | .running | .saving | .restoring => .lost
  | st => st

/-- A core after a restoration: its pewter layer cleared, its own settings kept. -/
def Core.afterPower (c : Core) : Core :=
  { Core.fresh c.id with clockMask := c.clockMask, withdrawn := c.withdrawn, losses := c.losses, correctable := c.correctable }

/-- The memory that a restoration loads: the image of the last complete epoch. -/
def lastEpoch (s : State) : List Host.Cell := (s.keystore.getLast?.map (·.2)).getD []

/-- POWER_RESTORE: every core begins anew, also one that no team has used, whose cycles without a team count from here (R396). -/
def execPowerRestore (s : State) : Host.Outcome State Fault Refusal :=
  if s.powered then .next s
  else .next { s with powered := true, mem := lastEpoch s, cores := (List.range Config.cores).map fun k => (s.core k).afterPower
                      ctxs := s.ctxs.map fun (c : Context) => { c with st := c.st.afterPower, stopped := false, owes := false }
                      saved := s.saved.filter fun x => (s.ctx? x.ctx).any fun c => c.st == .saved
                      vkinj := [], hazelTraps := [] }

/-! ### SPDM and boot (R398, R399) -/

/-- SPDM_REQUEST: the module answers on the link with its identity, certificate chain and measurements; a tenant's TDISP session puts its
key in a slot, and the security entry of the context that it binds names the slot (DESIGN CHOICE for the order of the two, log 83). -/
def execSpdmRequest (m : SpdmMsg) (s : State) : Host.Outcome State Fault Refusal :=
  match m with
  | .measure link => .next { s with spdm := s.spdm ++ [(link.val, Config.spdmIdentity)] }
  | .bind ctx slot key => .next ({ s with keySlots := (slot, key) :: s.keySlots.filter fun k => k.1 != slot }.modCtx ctx fun c => { c with keyId := slot })

/-- BOOT_STAGE: a stage starts its successor when the signature is good; otherwise the module stays in recovery. -/
def execBootStage (signatureGood : Bool) (s : State) : Host.Outcome State Fault Refusal :=
  if s.recovery then .next s
  else if signatureGood then .next { s with bootStage := s.bootStage + 1 }
  else .next { s with recovery := true }

end Sys2Proof.Machine
end

