-- ==== Sys2Proof/Machine/Dispatch.lean ====
section
/-! DEFINITION. One arm per instruction and device event: the meaning of each. -/

namespace Sys2Proof.Machine

def exec (i : Instr) (s : State) : Host.Outcome State Fault Refusal :=
  match i with
  | .add h d a b => Sys2Proof.Machine.execAdd h d a b s
  | .sub h d a b => Sys2Proof.Machine.execSub h d a b s
  | .addw h d a b => Sys2Proof.Machine.execAddw h d a b s
  | .subw h d a b => Sys2Proof.Machine.execSubw h d a b s
  | .mul h d a b => Sys2Proof.Machine.execMul h d a b s
  | .mulw h d a b => Sys2Proof.Machine.execMulw h d a b s
  | .mulh h d a b => Sys2Proof.Machine.execMulh h d a b s
  | .mulhz h d a b => Sys2Proof.Machine.execMulhz h d a b s
  | .div h d a b => Sys2Proof.Machine.execDiv h d a b s
  | .divz h d a b => Sys2Proof.Machine.execDivz h d a b s
  | .rem h d a b => Sys2Proof.Machine.execRem h d a b s
  | .remz h d a b => Sys2Proof.Machine.execRemz h d a b s
  | .min h d a b => Sys2Proof.Machine.execMin h d a b s
  | .max h d a b => Sys2Proof.Machine.execMax h d a b s
  | .minz h d a b => Sys2Proof.Machine.execMinz h d a b s
  | .maxz h d a b => Sys2Proof.Machine.execMaxz h d a b s
  | .and h d a b => Sys2Proof.Machine.execAnd h d a b s
  | .or h d a b => Sys2Proof.Machine.execOr h d a b s
  | .xor h d a b => Sys2Proof.Machine.execXor h d a b s
  | .andn h d a b => Sys2Proof.Machine.execAndn h d a b s
  | .sll h d a b => Sys2Proof.Machine.execSll h d a b s
  | .srl h d a b => Sys2Proof.Machine.execSrl h d a b s
  | .sra h d a b => Sys2Proof.Machine.execSra h d a b s
  | .rot h d a b => Sys2Proof.Machine.execRot h d a b s
  | .clz h d a => Sys2Proof.Machine.execClz h d a s
  | .ctz h d a => Sys2Proof.Machine.execCtz h d a s
  | .popc h d a => Sys2Proof.Machine.execPopc h d a s
  | .brev h d a => Sys2Proof.Machine.execBrev h d a s
  | .bfx h d a b => Sys2Proof.Machine.execBfx h d a b s
  | .bfi h d a b => Sys2Proof.Machine.execBfi h d a b s
  | .clmul h d a b => Sys2Proof.Machine.execClmul h d a b s
  | .clmulh h d a b => Sys2Proof.Machine.execClmulh h d a b s
  | .icmp h cond pd a b => Sys2Proof.Machine.execIcmp h cond pd a b s
  | .sel h d a b => Sys2Proof.Machine.execSel h d a b s
  | .sh1add h d a b => Sys2Proof.Machine.execSh1add h d a b s
  | .sh2add h d a b => Sys2Proof.Machine.execSh2add h d a b s
  | .sh3add h d a b => Sys2Proof.Machine.execSh3add h d a b s
  | .sh4add h d a b => Sys2Proof.Machine.execSh4add h d a b s
  | .plog h fn pd ia pa ib pb => Sys2Proof.Machine.execPlog h fn pd ia pa ib pb s
  | .pmovPg h d => Sys2Proof.Machine.execPmovPg h d s
  | .pmovGp h a => Sys2Proof.Machine.execPmovGp h a s
  | .gets h d sr => Sys2Proof.Machine.execGets h d sr s
  | .sets h sr b => Sys2Proof.Machine.execSets h sr b s
  | .entryw h => Sys2Proof.Machine.execEntryw h s
  | .yield h b => Sys2Proof.Machine.execYield h b s
  | .hresumeRetry h a => Sys2Proof.Machine.execHresumeRetry h a s
  | .hresumeKill h a => Sys2Proof.Machine.execHresumeKill h a s
  | .hresumeTerm h a => Sys2Proof.Machine.execHresumeTerm h a s
  | .nop h => Sys2Proof.Machine.execNop h s
  | .faddS h d a b => Sys2Proof.Machine.execFaddS h d a b s
  | .fsubS h d a b => Sys2Proof.Machine.execFsubS h d a b s
  | .fmulS h d a b => Sys2Proof.Machine.execFmulS h d a b s
  | .ffmaS h d a b => Sys2Proof.Machine.execFfmaS h d a b s
  | .fminS h d a b => Sys2Proof.Machine.execFminS h d a b s
  | .fmaxS h d a b => Sys2Proof.Machine.execFmaxS h d a b s
  | .fdivS h d a b => Sys2Proof.Machine.execFdivS h d a b s
  | .fsqrtS h d a => Sys2Proof.Machine.execFsqrtS h d a s
  | .faddD h d a b => Sys2Proof.Machine.execFaddD h d a b s
  | .fsubD h d a b => Sys2Proof.Machine.execFsubD h d a b s
  | .fmulD h d a b => Sys2Proof.Machine.execFmulD h d a b s
  | .ffmaD h d a b => Sys2Proof.Machine.execFfmaD h d a b s
  | .fminD h d a b => Sys2Proof.Machine.execFminD h d a b s
  | .fmaxD h d a b => Sys2Proof.Machine.execFmaxD h d a b s
  | .fdivD h d a b => Sys2Proof.Machine.execFdivD h d a b s
  | .fsqrtD h d a => Sys2Proof.Machine.execFsqrtD h d a s
  | .fcmpS h cond pd a b => Sys2Proof.Machine.execFcmpS h cond pd a b s
  | .fcmpD h cond pd a b => Sys2Proof.Machine.execFcmpD h cond pd a b s
  | .fcvt h d a code => Sys2Proof.Machine.execFcvt h d a code s
  | .funaryS h d a code => Sys2Proof.Machine.execFunaryS h d a code s
  | .funaryD h d a code => Sys2Proof.Machine.execFunaryD h d a code s
  | .fmv h d a code => Sys2Proof.Machine.execFmv h d a code s
  | .pfmaH h d a b => Sys2Proof.Machine.execPfmaH h d a b s
  | .pfmaB h d a b => Sys2Proof.Machine.execPfmaB h d a b s
  | .fdotH h d a b => Sys2Proof.Machine.execFdotH h d a b s
  | .fdotB h d a b => Sys2Proof.Machine.execFdotB h d a b s
  | .idotB h d a b => Sys2Proof.Machine.execIdotB h d a b s
  | .paddH h d a b => Sys2Proof.Machine.execPaddH h d a b s
  | .pmulH h d a b => Sys2Proof.Machine.execPmulH h d a b s
  | .pshuf h d a b => Sys2Proof.Machine.execPshuf h d a b s
  | .ld h d a b e => Sys2Proof.Machine.execLd h d a b e s
  | .st h d a b e => Sys2Proof.Machine.execSt h d a b e s
  | .lda h d a b e => Sys2Proof.Machine.execLda h d a b e s
  | .stl h d a b e => Sys2Proof.Machine.execStl h d a b e s
  | .ldnr h d a b e => Sys2Proof.Machine.execLdnr h d a b e s
  | .ldf h d a b e => Sys2Proof.Machine.execLdf h d a b e s
  | .stf h d a b e => Sys2Proof.Machine.execStf h d a b e s
  | .pref h a b e => Sys2Proof.Machine.execPref h a b e s
  | .pgreq h d a e => Sys2Proof.Machine.execPgreq h d a e s
  | .atom h d a b e => Sys2Proof.Machine.execAtom h d a b e s
  | .cas h d a b e => Sys2Proof.Machine.execCas h d a b e s
  | .fence h b => Sys2Proof.Machine.execFence h b s
  | .pfenceCore h => Sys2Proof.Machine.execPfenceCore h s
  | .pfenceModule h => Sys2Proof.Machine.execPfenceModule h s
  | .waitc h cond pd a b e => Sys2Proof.Machine.execWaitc h cond pd a b e s
  | .tlbiPage h d a => Sys2Proof.Machine.execTlbiPage h d a s
  | .tlbiCtx h d => Sys2Proof.Machine.execTlbiCtx h d s
  | .tlbiPart h d => Sys2Proof.Machine.execTlbiPart h d s
  | .next h e1 => Sys2Proof.Machine.execNext h e1 s
  | .nextp h e1 e2 => Sys2Proof.Machine.execNextp h e1 e2 s
  | .nextg h a => Sys2Proof.Machine.execNextg h a s
  | .call h e1 => Sys2Proof.Machine.execCall h e1 s
  | .callg h a => Sys2Proof.Machine.execCallg h a s
  | .ret h a => Sys2Proof.Machine.execRet h a s
  | .exit h => Sys2Proof.Machine.execExit h s
  | .region h e1 e2 => Sys2Proof.Machine.execRegion h e1 e2 s
  | .gsync h m => Sys2Proof.Machine.execGsync h m s
  | .vote h d inv pa code => Sys2Proof.Machine.execVote h d inv pa code s
  | .shfl h d a b => Sys2Proof.Machine.execShfl h d a b s
  | .barSync h a b => Sys2Proof.Machine.execBarSync h a b s
  | .barArr h a b => Sys2Proof.Machine.execBarArr h a b s
  | .recd h d a => Sys2Proof.Machine.execRecd h d a s
  | .sysc h a => Sys2Proof.Machine.execSysc h a s
  | .trap h e => Sys2Proof.Machine.execTrap h e s
  | .brk h e => Sys2Proof.Machine.execBrk h e s
  | .mma h d a b => Sys2Proof.Machine.execMma h d a b s
  | .mmas h d a b => Sys2Proof.Machine.execMmas h d a b s
  | .mmat h d a b => Sys2Proof.Machine.execMmat h d a b s
  | .accz h d => Sys2Proof.Machine.execAccz h d s
  | .accrd h d a b => Sys2Proof.Machine.execAccrd h d a b s
  | .accwr h d a b => Sys2Proof.Machine.execAccwr h d a b s
  | .acccvt h a b => Sys2Proof.Machine.execAcccvt h a b s
  | .txf h a => Sys2Proof.Machine.execTxf h a s
  | .txw h m => Sys2Proof.Machine.execTxw h m s
  | .scfg h q a => Sys2Proof.Machine.execScfg h q a s
  | .qpop h d isF q pv => Sys2Proof.Machine.execQpop h d isF q pv s
  | .qpush h q a isF => Sys2Proof.Machine.execQpush h q a isF s
  | .sctlStart h q => Sys2Proof.Machine.execSctlStart h q s
  | .sctlStop h q => Sys2Proof.Machine.execSctlStop h q s
  | .sctlDrain h q => Sys2Proof.Machine.execSctlDrain h q s
  | .yieldEnd bundle => Sys2Proof.Machine.execYieldEnd bundle s
  | .txwCompletion bundle => Sys2Proof.Machine.execTxwCompletion bundle s
  | .streamReadAhead team q => Sys2Proof.Machine.execStreamReadAhead team q s
  | .load t k => Sys2Proof.Machine.execLoad t k s
  | .store t k => Sys2Proof.Machine.execStore t k s
  | .rmw iid => Sys2Proof.Machine.execRmw iid s
  | .fencePerform t k => Sys2Proof.Machine.execFencePerform t k s
  | .drain core entry => Sys2Proof.Machine.execDrain core entry s
  | .publish core => Sys2Proof.Machine.execPublish core s
  | .durable t => Sys2Proof.Machine.execDurable t s
  | .wake t => Sys2Proof.Machine.execWake t s
  | .expire t => Sys2Proof.Machine.execExpire t s
  | .enqueue cmd => Sys2Proof.Machine.execEnqueue cmd s
  | .granuleWrite cmd target => Sys2Proof.Machine.execGranuleWrite cmd target s
  | .sectorWrite cmd => Sys2Proof.Machine.execSectorWrite cmd s
  | .completion cmd => Sys2Proof.Machine.execCompletion cmd s
  | .walk core ctx va kind lane write => Sys2Proof.Machine.execWalk core ctx va kind lane write s
  | .faultQueueEntry report => Sys2Proof.Machine.execFaultQueueEntry report s
  | .issue core lg => Sys2Proof.Machine.execIssue core lg s
  | .mergeWindow bundle => Sys2Proof.Machine.execMergeWindow bundle s
  | .runaheadEntry bundle => Sys2Proof.Machine.execRunaheadEntry bundle s
  | .runaheadRestore bundle => Sys2Proof.Machine.execRunaheadRestore bundle s
  | .wideningCall hazel target link => Sys2Proof.Machine.execWideningCall hazel target link s
  | .launchForm ctx qcb => Sys2Proof.Machine.execLaunchForm ctx qcb s
  | .dispatch part => Sys2Proof.Machine.execDispatch part s
  | .teamRelease team => Sys2Proof.Machine.execTeamRelease team s
  | .arrival t => Sys2Proof.Machine.execArrival t s
  | .hazelReturn t jalr target img => Sys2Proof.Machine.execHazelReturn t jalr target img s
  | .nestedCrossing t jal target link img => Sys2Proof.Machine.execNestedCrossing t jal target link img s
  | .hazelException t exc pc tval size acc img => Sys2Proof.Machine.execHazelException t exc pc tval size acc img s
  | .serviceReply ctx => Sys2Proof.Machine.execServiceReply ctx s
  | .hostRecord link window off size record => Sys2Proof.Machine.execHostRecord link window off size record s
  | .launchPacket p => Sys2Proof.Machine.execLaunchPacket p s
  | .hostAccess link x => Sys2Proof.Machine.execHostAccess link x s
  | .accountingPeriod => Sys2Proof.Machine.execAccountingPeriod s
  | .moveRequest iod => Sys2Proof.Machine.execMoveRequest iod s
  | .moveRelease move => Sys2Proof.Machine.execMoveRelease move s
  | .peerTimeout move => Sys2Proof.Machine.execPeerTimeout move s
  | .pinEnd ctx vpage => Sys2Proof.Machine.execPinEnd ctx vpage s
  | .vkpcu hazelCore machine v => Sys2Proof.Machine.execVkpcu hazelCore machine v s
  | .vkblk hazelCore machine v => Sys2Proof.Machine.execVkblk hazelCore machine v s
  | .vkqwin hazelCore machine v => Sys2Proof.Machine.execVkqwin hazelCore machine v s
  | .vkinj hazelCore machine v => Sys2Proof.Machine.execVkinj hazelCore machine v s
  | .vkhome hazelCore v => Sys2Proof.Machine.execVkhome hazelCore v s
  | .injectedRailEvent hazelCore stages => Sys2Proof.Machine.execInjectedRailEvent hazelCore stages s
  | .unplannedLoss core hard stages => Sys2Proof.Machine.execUnplannedLoss core hard stages s
  | .correctableError core => Sys2Proof.Machine.execCorrectableError core s
  | .pewterError w => Sys2Proof.Machine.execPewterError w s
  | .plannedGating core => Sys2Proof.Machine.execPlannedGating core s
  | .gatedCoreWake core => Sys2Proof.Machine.execGatedCoreWake core s
  | .nearThresholdEntry core lg => Sys2Proof.Machine.execNearThresholdEntry core lg s
  | .nominalReturn core lg => Sys2Proof.Machine.execNominalReturn core lg s
  | .railHoldExpiry quad => Sys2Proof.Machine.execRailHoldExpiry quad s
  | .railSettled quad => Sys2Proof.Machine.execRailSettled quad s
  | .clockMask core mask => Sys2Proof.Machine.execClockMask core mask s
  | .ptpSync ahead => Sys2Proof.Machine.execPtpSync ahead s
  | .run ctx => Sys2Proof.Machine.execRun ctx s
  | .runStart ctx => Sys2Proof.Machine.execRunStart ctx s
  | .save ctx => Sys2Proof.Machine.execSave ctx s
  | .saveStop ctx => Sys2Proof.Machine.execSaveStop ctx s
  | .terminate ctx => Sys2Proof.Machine.execTerminate ctx s
  | .rearm ctx => Sys2Proof.Machine.execRearm ctx s
  | .partitionTableUpdate p => Sys2Proof.Machine.execPartitionTableUpdate p s
  | .blockMoveRequest => Sys2Proof.Machine.execBlockMoveRequest s
  | .removeAcknowledgment block => Sys2Proof.Machine.execRemoveAcknowledgment block s
  | .removeDeadline block => Sys2Proof.Machine.execRemoveDeadline block s
  | .scrubComplete block error => Sys2Proof.Machine.execScrubComplete block error s
  | .addAcknowledgment block => Sys2Proof.Machine.execAddAcknowledgment block s
  | .epoch => Sys2Proof.Machine.execEpoch s
  | .epochComplete => Sys2Proof.Machine.execEpochComplete s
  | .modulePowerLoss => Sys2Proof.Machine.execModulePowerLoss s
  | .powerRestore => Sys2Proof.Machine.execPowerRestore s
  | .spdmRequest m => Sys2Proof.Machine.execSpdmRequest m s
  | .bootStage signatureGood => Sys2Proof.Machine.execBootStage signatureGood s
  | .hazelAccess hazelCore x => Sys2Proof.Machine.execHazelAccess hazelCore x s
  | .peerModuleAccess module x => Sys2Proof.Machine.execPeerModuleAccess module x s
  | .frozenGroupRestart t pcs => Sys2Proof.Machine.execFrozenGroupRestart t pcs s
  | .frozenSourceClear module => Sys2Proof.Machine.execFrozenSourceClear module s
  | .waiterReread t => Sys2Proof.Machine.execWaiterReread t s
  | .interlockedResultWrite t k => Sys2Proof.Machine.execInterlockedResultWrite t k s

end Sys2Proof.Machine
end

