-- ==== Sys2Proof/Machine/Chain.lean ====
section
/-! DEFINITION. The issue of a chain by the bundle that a lane group has chosen (R53-R58, R63, R167), and a chain of a bundle in
runahead (R63, R102, R164, R204, R240, R331-R333). -/

namespace Sys2Proof.Machine

/-! ### What the chain reads (R53, R56) -/

/-- What a register of the write held before it. -/
def WriteRec.oldOf (w : WriteRec) (n : RegName) : Word :=
  match w.reg, n with
  | .preds, .p i => if w.old.getLsbD i.val then 1 else 0
  | _, _ => w.old

/-- The registers that a consumer reads as they were, each with the write that it does not see yet. The writes come from the oldest, `k`
is the number of free choices taken, and `held` what is found so far. A write in flight is made or not as the free choice says, and one
that follows a write not made to one of its registers is held (R56). The write of an interlocked result (`ready` 0) has been made, since
a consumer waits for it (R55), and so have the earlier writes of its registers. -/
def WriteRec.heldBack (now fresh : Nat) : List WriteRec → Nat → List (RegName × WriteRec) → List (RegName × WriteRec)
  | [], _, held => held
  | w :: rest, k, held =>
    let regs := w.reg.parts
    let isHeld := fun (n : RegName) => held.any fun e => e.1 == n
    let late := decide (now < w.ready)
    if w.ready = 0 then WriteRec.heldBack now fresh rest k (held.filter fun e => !regs.contains e.1)
    else if regs.any isHeld || (late && Config.freeBit (fresh + k)) then
      WriteRec.heldBack now fresh rest (k + 1) (held ++ (regs.filter fun n => !isHeld n).map fun n => (n, w))
    else WriteRec.heldBack now fresh rest (if late then k + 1 else k) held

/-- What a chain issued now does not see yet in a thread (R56). -/
def Thread.heldBack (t : Thread) (now fresh : Nat) : List (RegName × WriteRec) :=
  WriteRec.heldBack now (fresh + 80 * t.id.lane) t.writes.reverse 0 []

/-- The registers as a chain issued now reads them (R53, R56). -/
def Thread.seen (t : Thread) (now fresh : Nat) : Regs :=
  (t.heldBack now fresh).foldl (fun r e => r.set e.1 (e.2.oldOf e.1)) t.regs

namespace State

/-- The threads of a bundle at the issue of its chain: what they read, and the cycle from which latencies count. -/
def withSnap (s : State) (b : Bundle) : State :=
  let now := (s.laneGroup b).icycle
  { s with threads := updWhere (fun t => b.has t.id) (fun t => { t with snap := some (t.seen now s.fresh), ic := now }) s.threads
           fresh := s.fresh + 81 * Config.lanes }

/-- A line enters the instruction cache (R294), from its home slice where it was not there, which may sample the access (R306): a full set
of 4 gives up one line, which is the device's choice (log 13). -/
def cacheLine (s : State) (core : Nat) (i : IcLine) : State :=
  let s := if (s.core core).icache.any fun x => x.line == i.line && x.ctx == i.ctx then s
           else s.touchSlice (core / 48) i.ctx (BitVec.ofNat 64 (i.page + 64 * i.line % i.size)) (64 * i.line) false
  let rest := (s.core core).icache.filter fun x => !(x.line == i.line && x.ctx == i.ctx)
  let set := rest.filter fun x => Config.icIndex x.line % 256 == Config.icIndex i.line % 256
  let victim := if rest.length < 4 || set.length < 4 then none else set[s.choose set.length]?
  let kept := match victim with
    | some v => rest.filter fun x => !(x.line == v.line && x.ctx == v.ctx)
    | none => rest
  { s.modCore core fun c => { c with icache := i :: kept } with fresh := s.fresh + 1 }

/-- The lines that a fetch used enter the instruction cache. -/
def cached (s : State) (core : Nat) (l : List (XEff × IcLine)) : State :=
  l.foldl (fun s x => s.cacheLine core x.2) { s with fresh := s.fresh + 256 }

/-- The translations and lines that a fetch used enter the fetch TLB and the instruction cache (R301, R303). -/
def fetched (s : State) (core : Nat) (l : List (XEff × IcLine)) : State :=
  l.foldl (fun s x => (s.applyXEff x.1).cacheLine core x.2) { s with fresh := s.fresh + 256 }

/-- The bundle's threads stand at a member of the chain. -/
def atPc (s : State) (b : Bundle) (pc : Word) : State :=
  { s with threads := updWhere (fun t => b.has t.id) (fun t => { t with pc := pc }) s.threads, focus := some b.id }

/-- The chain is not in issue any more: no thread reads an old copy, and no bundle has the focus. -/
def unsnap (s : State) : State := { s with threads := s.threads.map fun (t : Thread) => { t with snap := none }, focus := none }

end State

/-! ### The checks before a chain executes (R57, R63) -/

/-- A source of the chain was written by a fixed-latency producer of the segment less than its latency ago, counted on the
code (R57). A write by the chain itself is no producer of what the chain reads: it reads the old value (R53, R56; DEDUCED,
log 63). -/
def tooEarly (b : Bundle) (l : List Member) : Bool :=
  l.any fun m => m.instr.reads.any fun n => match b.producers.find? fun p => p.1 == n with
    | some (_, lat, mark) => b.elapsed - mark < lat
    | none => false

/-- A thread's chains are checked (R57). Between a `sets` of SCHK and the next segment entry, where the reference promises neither, that is
a free choice, taken when the chain's operands are read (DESIGN CHOICE, log 14). -/
def checksNow (s : State) (t : Thread) : Bool :=
  if t.schk = t.regs.mode.getLsbD 8 then t.schk else Config.freeBit (s.fresh - Config.lanes + t.id.lane)

/-- The scoreboard traps of a chain, in the threads whose chains are checked (R57). -/
def scoreboardTraps (s : State) (b : Bundle) (l : List Member) (pc : Word) : List Trap :=
  if tooEarly b l then ((s.bundleThreads b).filter (checksNow s)).map fun t => ⟨t.id, .scoreboard, pc, 0, 0, false⟩ else []

/-- What an instruction at issue came to: the bundle is gone and its threads wait for a report or are frozen (a trap, with
its cause code), the bundle stands where it stood (it must be issued again), or it went through. -/
inductive Came where
  | trapped (code : Nat)
  | again
  | through
  deriving DecidableEq, Repr

def came (s : State) (b : Bundle) (pc : Word) : Came :=
  match s.bundle? b.id with
  | some x =>
    if x.hold == .none && s.threads.all fun t => !x.has t.id || (t.pc == pc && t.status == .live) then .again else .through
  | none =>
    match s.threads.find? fun t => b.has t.id && t.status == .asleep none with
    | some t => .trapped (((s.reports.reverse.find? fun r => r.waiter == .thread t.id).map fun r => r.cause.code).getD 0)
    | none => match s.threads.find? fun t => b.has t.id && t.status == .frozen && t.regs.epc == pc with
      | some t => .trapped t.regs.cause.toNat
      | none => .through

/-- A fault that arises after issue (R53): that of an access of row 5 or of `qpush`, and of a `sysc` that finds the queue full. It leaves the
instructions before it in the chain as they are; any other trap prevents the whole chain (log 9). -/
def afterIssue (i : Instr) (code : Nat) : Bool :=
  (match i with | .sysc .. => Cause.queueFull.code == code | _ => false) || (pipeOf i == .m || (match i with | .qpush .. => true | _ => false))
    && [Cause.access, .alignment, .notResident, .failedGranule, .watchpoint].any fun c => c.code == code

/-- A member alone, from the state in which the chain issues. -/
def tryMember (s : State) (b : Bundle) (m : Member) : Option (State × Came) :=
  match exec m.instr (s.atPc b m.pc) with
  | .next s' => some (s', came s' b m.pc)
  | _ => none

/-- The trials of the members of a chain, in chain order. -/
def trials (s : State) (b : Bundle) (l : List Member) : List (Instr × State × Came) :=
  l.filterMap fun m => (tryMember s b m).map fun x => (m.instr, x)

/-- The first member whose trial is of a kind. -/
def firstTrial (tries : List (Instr × State × Came)) (p : Instr → Came → Bool) : Option State :=
  (tries.find? fun x => p x.1 x.2.2).map (·.2.1)

/-- The trial came to a trap of this cause. -/
def Came.isTrap (c : Cause) (x : Came) : Bool := x == .trapped c.code

/-- What keeps a chain of several instructions from executing (R53, R63): a privilege trap, the scoreboard, an illegal
instruction by value, another trap at issue, or an instruction that must be issued again; the state this leaves. -/
def chainStop (s : State) (b : Bundle) (l : List Member) : Option State :=
  let tries := if l.length ≤ 1 then [] else trials s b l
  let sb := scoreboardTraps s b l (((l.head?).map (·.pc)).getD 0)
  match firstTrial tries (fun _ c => c.isTrap .privilege) with
  | some s' => some s'
  | none =>
    if sb ≠ [] then
      -- a lone privileged instruction takes its privilege trap first
      match (if l.length ≤ 1 then firstTrial (trials s b l) (fun _ c => c.isTrap .privilege) else none) with
      | some s' => some s'
      | none => some (s.takeTraps sb)
    else match firstTrial tries (fun _ c => c.isTrap .illegal) with
    | some s' => some s'
    | none => match firstTrial tries (fun i c => match c with | .trapped k => !afterIssue i k | _ => false) with
      | some s' => some s'
      | none => match firstTrial tries (fun _ c => c == .again) with
        | some s' => some (s'.atPc b (((l.head?).map (·.pc)).getD 0))
        | none => none

/-- The order in which the members of a chain execute, each on the registers that the chain read (R53): chain order, so that what follows
a member that faults after issue has no effect (R338). A `brk` acts last, since the group it freezes has completed the chain, and so does
a `gsync`, at which bundles join (R188). -/
def runOrder (l : List Member) : List Member :=
  let last := fun (m : Member) => match m.instr with | .brk .. | .gsync .. => true | _ => false
  l.filter (fun m => !last m) ++ l.filter last

/-- Executes the members one after another; each reads the registers as the chain found them. A fault ends the chain, and
a member that waits stands there with the members after it, which are answered with it. -/
def runMembers (s : State) (b : Bundle) : List Member → Host.Outcome (State × Came × List Member) Fault Refusal
  | [] => .next (s, .through, [])
  | m :: rest =>
    match exec m.instr (s.atPc b m.pc) with
    | .next s' =>
      match came s' b m.pc, rest with
      | .through, _ :: _ => runMembers s' b rest
      | c, _ => .next (s', c, m :: rest)
    | .fault f => .fault f
    | .refused r => .refused r

/-- The stall count of a chain: that of its last instruction (R52). -/
def stallOf (l : List Member) : Nat := (((l.getLast?).bind fun m => m.instr.hdr?).map fun h => h.s.val).getD 0

/-- The fixed-latency producers of the segment after a chain, with the distance mark of the chain (R57): of each register the last in
program order. A variable-latency write of a register leaves it without one. -/
def newProducers (b : Bundle) (l : List Member) : List (RegName × Nat × Nat) :=
  l.foldl (fun ps m => (m.instr.fixedWrites.map fun w => (w.1, w.2, b.elapsed)) ++ ps.filter fun p => !m.instr.writes.contains p.1)
    b.producers

/-- The address after a chain. -/
def chainEnd (pc : Word) (l : List Member) : Word := l.foldl (fun a m => a + BitVec.ofNat 64 (4 * m.words)) pc

namespace State

/-- The bundle after its chain has issued: eligible again after its stall count (R54), in its lane group's cycles. -/
def issuedBundle (s : State) (b : Bundle) (l : List Member) : State :=
  s.modBundle b.id fun x =>
    { x with eligible := (s.laneGroup b).icycle + 1 + stallOf l, elapsed := b.elapsed + 1 + stallOf l, producers := newProducers b l, starved := false, latch := [], mid := none }

/-- A bundle that must issue its chain again tries in a later cycle. -/
def retryBundle (s : State) (b : Bundle) (l : List Member) : State :=
  s.modBundle b.id fun x => { x with eligible := (s.laneGroup b).icycle + 1, starved := chainWaits s b l }

/-- The bundles in which the threads of a bundle go on after a segment end are eligible after the chain's stall count too (R54). -/
def carryStall (s : State) (b : Bundle) (l : List Member) : State :=
  let at_ := (s.laneGroup b).icycle + 1 + stallOf l
  { s with bundles := updWhere (fun x => x.core == b.core && x.slot == b.slot && x.lanes.any b.lanes.contains)
             (fun (x : Bundle) => { x with eligible := max x.eligible at_ }) s.bundles }

/-- The chain is done: the bundle's threads that are still in it stand after the chain, the other bundles of its lane group have been
passed over as they were ready before it (R322), and a cycle passes. -/
def closeChain (s0 s : State) (b : Bundle) (pc : Word) (l : List Member) : State :=
  let s := match s.bundle? b.id with
    | some x => { s with threads := updWhere (fun t => x.has t.id) (fun t => { t with pc := chainEnd pc l }) s.threads }
    | none => s.carryStall b l
  ((s.issuedBundle b l).passOver s0 b.core b.lg b.id).unsnap.tick

/-- A trap that resumes inside the segment, after its chain (R201), finds there the distances that the chain leaves (R57). -/
def trapSegment (s : State) (b : Bundle) (l : List Member) : State :=
  { s with sleepers := updWhere (fun g => g.resumeAt.isSome && g.members.any b.has)
             (fun (g : SleepGroup) => { g with elapsed := b.elapsed + 1 + stallOf l, producers := newProducers b l, stall := 1 + stallOf l })
             s.sleepers }

/-- A bundle goes on waiting in the middle of its chain (R53): what the chain read is kept for the members still to execute. -/
def midBundle (s : State) (b : Bundle) (pc : Word) (l rest : List Member) : State :=
  let snaps := (s.threads.filter fun t => b.has t.id).map fun (t : Thread) => (t.id, t.view)
  s.modBundle b.id fun x => { x with eligible := (s.laneGroup b).icycle + 1, mid := some ⟨pc, l, rest, snaps⟩ }

/-- The threads of a bundle in the middle of a chain read what the chain read. -/
def resnap (s : State) (m : MidChain) : State :=
  let snap := fun (t : Thread) => (m.snaps.find? fun x => decide (x.1 = t.id)).map (·.2)
  { s with threads := s.threads.map fun (t : Thread) => match snap t with | some r => { t with snap := some r } | none => t }

end State

/-- What follows the execution of a chain at an address, issued in the state `s0`: a chain whose first member waits has not issued, and
one of which another waits goes on from there. -/
def afterChain (s0 : State) (b : Bundle) (pc : Word) (l : List Member) (o : Host.Outcome (State × Came × List Member) Fault Refusal) :
    Host.Outcome State Fault Refusal :=
  match o with
  | .next (s', .again, rest) => .next (if rest.length = l.length then (s'.retryBundle b l).unsnap else (s'.midBundle b pc l rest).unsnap)
  | .next (s', .trapped _, _) => .next (s'.trapSegment b l).unsnap
  | .next (s', .through, _) => .next (State.closeChain s0 s' b pc l)
  | .fault f => .fault f
  | .refused r => .refused r

/-! ### The memory-byte budget (R167) -/

/-- The effective address of a row-5 instruction in a thread. -/
def eaOf (i : Instr) (r : Regs) : Option Word :=
  match i with
  | .ld _ _ a _ e | .st _ _ a _ e | .ldf _ _ a _ e | .stf _ _ a _ e => some (effAddr (r.gval (base16 a)) e)
  | .lda _ _ a _ e | .stl _ _ a _ e | .ldnr _ _ a _ e | .atom _ _ a _ e | .cas _ _ a _ e => some (effAddr (r.gval a) e)
  | .pref _ a _ e | .pgreq _ _ a e => some (effAddr (r.gval a) e)
  | .waitc _ _ _ a _ e => some (effAddr (r.gval a) e)
  | _ => none

/-- The partition of a thread has spent its budget of the period (R167, R369). -/
def budgetSpent (s : State) (t : Thread) : Bool :=
  match s.part? (s.ctxOf t).part with
  | some p => decide (p.budget ≠ 0) && p.budget ≤ assocD 0 p.part s.spent
  | none => false

/-- A row-5 access to device memory stalls until the next period (R167). -/
def budgetStall (s : State) (ts : List Thread) (l : List Member) : Bool :=
  ts.any fun t => budgetSpent s t && l.any fun m => match m.instr.hdr?, eaOf m.instr t.regs with
    | some h, some ea => t.regs.pred h.p != h.n && !inAperture ea
    | _, _ => false

/-! ### The chain of a bundle that runs ahead (R332, R333) -/

namespace Thread

def badAny (t : Thread) (l : List RegName) : Bool := l.any t.bad
def mark (t : Thread) (l : List RegName) : Thread :=
  { t with ra := t.ra.map fun r => { r with invalid := r.invalid ++ l.filter fun n => !r.invalid.contains n && n != .g 0 && n != .p 0 } }
def clear (t : Thread) (l : List RegName) : Thread :=
  { t with ra := t.ra.map fun r => { r with invalid := r.invalid.filter fun n => !l.contains n } }
/-- The guard of an instruction is invalid (R332). -/
def guardBad (t : Thread) (i : Instr) : Bool := (i.hdr?.map fun h => t.bad (.p h.p)).getD false

end Thread

/-- How an instruction acts in runahead (R102, R164, R204, R240). -/
inductive RaClass where
  /-- executed on the copy -/
  | run
  /-- left out, its results invalid -/
  | skip
  | load | store | prefetch
  /-- a transfer on the copy -/
  | move
  | region
  | ends
  deriving DecidableEq, Repr

def raClass (i : Instr) : RaClass :=
  match i with
  | .div .. | .divz .. | .rem .. | .remz .. | .fdivS .. | .fdivD .. | .fsqrtS .. | .fsqrtD .. => .skip
  | .ld .. | .ldnr .. => .load
  | .st .. => .store
  | .pref .. => .prefetch
  | .pgreq .. | .pfenceCore .. | .pfenceModule .. => .skip
  | .fence _ b => if b.val % 4 = 1 then .skip else .ends
  | .next .. | .nextp .. | .nextg .. | .call .. | .callg .. | .ret .. => .move
  | .region .. => .region
  | .vote .. | .shfl .. | .nop .. => .run
  | .entryw .. | .yield .. => .skip
  | .mma .. | .mmas .. | .mmat .. | .accz .. | .accwr .. | .acccvt .. | .accrd .. | .qpop .. | .qpush .. => .skip
  | .hresumeRetry .. | .hresumeKill .. | .hresumeTerm .. => .ends
  | i => match pipeOf i with
    | .i | .f => .run
    | _ => .ends

/-- The physical address that a latch or TLB gives an access in runahead, if it is permitted. -/
def raHeld (s : State) (t : Thread) (ea : Word) (w : Want) : Option Nat :=
  if !canonical ea || inAperture ea then none
  else (s.heldEntry .access t.id.core (some t.id.lane) (s.ctxOf t).id (ea.toNat % 2 ^ 57) w).bind fun e =>
    if e.permits (s.hlevel t) w then some (e.pbase + (ea.toNat % 2 ^ 57 - e.vbase)) else none

/-- The bytes of a range that the thread may read from its core's buffer, as a bit mask (R248). -/
def tbCovered (s : State) (t : ThreadId) (pa n : Nat) : Nat :=
  (s.core t.core).tb.foldl (fun m i => if i.readable s t then m ||| i.covers pa n else m) 0

/-- The bytes of a valid runahead load (R164): translated by a latch or TLB, and each in the buffer or in the L1. -/
def raValue (s : State) (t : Thread) (ea : Word) (n : Nat) : Option Nat :=
  if ea.toNat % n ≠ 0 then none
  else (raHeld s t ea .read).bind fun pa =>
    if tbCovered s t.id pa n = byteMask 0 n then some (tbRead s t.id pa n)
    else if s.l1Holds t.id.core pa && heldBy s (some t.id.core) [lineOf pa] == [] then some (tbRead s t.id pa n)
    else none

/-- A prefetch of a bundle in runahead (R148, R164, R333): never a write of a PTE or of a latch (R301, R305), and dropped once the
budget is spent. -/
def raPrefetch (s : State) (t : Thread) (ea : Word) (p : Prefetch) : State :=
  if !canonical ea || inAperture ea || budgetSpent s t then s
  else match s.xlate .access t.id.core (some t.id.lane) (s.ctxOf t) (s.hlevel t) ea .read (s.stalePick t.id.lane) with
    | .ok pa x =>
      if x.pte.isSome || heldBy s none (s.walkLines (s.ctxOf t) ea) ≠ [] then s
      else s.applyXEff { x with lane := none } |>.prefetch t.id.core (s.ctxOf t).id ea pa p
    | .fault _ => s

/-- A store in runahead (R164): where its address is translated, its line is prefetched for ownership. -/
def raStore (s : State) (t : Thread) (ea : Word) : State :=
  match raHeld s t ea .write with
  | some pa => if budgetSpent s t then s else s.prefetch t.id.core (s.ctxOf t).id ea pa .own
  | none => s

/-- A load in runahead, in one thread. -/
def raLoadIn (s : State) (i : Instr) (t : Thread) : State :=
  let mark := s.modThread t.id fun x => x.mark i.writes
  if t.guardBad i then mark
  else match i.hdr?, eaOf i t.view with
  | some h, some ea =>
    if !t.guard h then s
    else if t.badAny i.operands then mark
    else
      let dst : Option LoadDst := match i with
        | .ld _ d a b _ => some ⟨isFClass a, d, b.val % 8, none⟩
        | .ldnr _ d _ b _ => some ⟨false, d, b.val % 8, some ⟨4 + b.val / 8 % 4, by omega⟩⟩
        | _ => none
      match dst with
      | none => mark
      | some x =>
        match raValue s t ea (sizeBytes x.size) with
        | some v => s.modThread t.id fun u =>
            let u := (x.results v).foldl (fun u (n, w) => u.put n w 0) u
            u.clear i.writes
        | none => raPrefetch mark t ea .l1
  | _, _ => mark

/-- The target of a transfer in runahead: the same and valid in every thread, on this side (R204, R333). -/
def raTarget (s : State) (i : Instr) (ts : List Thread) (words : Nat) : Option Word :=
  let tgt := fun (t : Thread) => match i with
    | .next _ e | .call _ e => staticTarget t.pc e
    | .nextp h e1 e2 => staticTarget t.pc (if t.guard h then e1 else e2)
    | .nextg _ a | .callg _ a | .ret _ a => t.view.gval a
    | _ => 0
  let kind := match i with
    | .call .. => Transfer.call false | .callg .. => .call true | .ret .. => .ret | .nextg .. => .seg true | _ => .seg false
  match ts with
  | [] => none
  | t0 :: _ =>
    if ts.all fun t => !t.guardBad i && !t.badAny i.operands && tgt t == tgt t0 && !(kind == .ret && tgt t == 0)
        && fateOf s t kind (tgt t) (packetUp (t.pc + BitVec.ofNat 64 (4 * words))) == .stay
    then some (tgt t0) else none

/-- Runahead ends at this chain (R333): the bundle waits in its slot. -/
def raEnd (s : State) (b : Bundle) : State := (s.modBundle b.id fun x => { x with hold := .raEnded }).unsnap

/-- An instruction executes in a thread (R46): its guard holds, or it has a selector in its place. -/
def executesIn (i : Instr) (t : Thread) : Bool :=
  match i with
  | .sel .. | .nextp .. => true
  | _ => (i.hdr?.map t.guard).getD false

/-- A thread's part in the results of others may be another than the copy says: its guard is invalid, or it executes with one of these
registers invalid. -/
def raUnsure (i : Instr) (regs : List RegName) (t : Thread) : Bool := t.guardBad i || (executesIn i t && t.badAny regs)

/-- An invalid source of another thread reaches a thread's result (R204): of `vote` any part, of `shfl` that of the far thread. -/
def raSpread (i : Instr) (ts : List Thread) (t : Thread) : Bool :=
  match i with
  | .vote .. => ts.any (raUnsure i i.operands)
  | .shfl _ _ a b => ts.any fun u => u.id.pos == (t.view.gval b).toNat % 32 && raUnsure i [.g a] u
  | _ => false

/-- The thread with the marks that a chain issued now finds: a register that it reads as it was has the mark that it had (R56, R59). -/
def raAsRead (now fresh : Nat) (t : Thread) : Thread :=
  let held := t.heldBack now fresh
  { t with ra := t.ra.map fun r =>
      { r with invalid := (r.invalid.filter fun n => !held.any fun e => e.1 == n)
                          ++ (held.filter fun e => e.2.bad.contains e.1).map (·.1) } }

/-- The instruction is performed on the copy in a thread: its guard is valid, and so is what it reads where it executes. A `vote` or `shfl`
is performed in every thread whose guard is valid, since its part in the others' results stands (R102, R332). -/
def raPerforms (i : Instr) (t : Thread) : Bool :=
  let group := match i with | .vote .. | .shfl .. => true | _ => false
  !t.guardBad i && (group || !executesIn i t || !t.badAny i.operands)

/-- The registers whose marks a valid result clears (R332): not the flags where the instruction only adds to them (R101). -/
def raCleared (i : Instr) : List RegName := if i.writes.contains .mode then i.writes else i.writes.filter (· != .fflags)

/-- The marks after an instruction executed on the copy (R102, R332), by the marks that the chain found: nothing where its guard is
valid and false, invalid results where something it reads is invalid, and valid ones otherwise. -/
def raMarks (i : Instr) (spread : Bool) (before : Thread) (t : Thread) : Thread :=
  if before.guardBad i then t.mark i.writes
  else if !executesIn i before then t
  else if spread || before.badAny i.operands then t.mark i.writes
  else t.clear (raCleared i)

/-- The bundle enters a segment in runahead: no window, no convergence, its fixed-latency results are written (R58, R59), and its checks
begin anew. -/
def raGo (s : State) (b : Bundle) (f : Thread → Thread) : State :=
  let go := fun (t : Thread) => let t := f t; { t with schk := t.regs.mode.getLsbD 8
                                                       writes := t.writes.map fun (w : WriteRec) => { w with ready := 0 } }
  { s with threads := updWhere (fun t => b.has t.id) go s.threads }.modBundle b.id fun x => { x with conv := none }

/-- The registers by which an access in runahead finds its address (R164): a store's data is no part of it. -/
def addressRegs (i : Instr) : List RegName :=
  match i with
  | .st _ _ a _ _ => [.g (base16 a)]
  | i => i.operands

/-- What a `pref` brings (R148). -/
def prefetchOf (i : Instr) : Prefetch :=
  match i with
  | .pref _ _ b _ => Prefetch.of b.val
  | _ => .l1

/-- One instruction of a chain in runahead, in threads as the chain found them (R53); `none` where runahead ends. -/
def raMember (s : State) (b : Bundle) (found : List Thread) (m : Member) : Option State :=
  let ts := found.map fun (t : Thread) => { t with pc := m.pc }
  let past := (s.atPc b m.pc).advance m.words
  let marks := fun (s : State) => ts.foldl (fun s t => s.modThread t.id (raMarks m.instr (raSpread m.instr ts t) t)) s
  let skip := fun (t x : Thread) => if t.guardBad m.instr || (m.instr.hdr?.map t.guard).getD false then x.mark m.instr.writes else x
  match raClass m.instr with
  | .run =>
    -- the threads in which nothing is performed go past it
    let part := { b with lanes := (ts.filter (raPerforms m.instr)).map (·.id.lane) }
    let lanes := fun (s : State) (l : List Nat) => s.modBundle b.id fun x => { x with lanes := l }
    if part.lanes = [] then some (marks past)
    else match exec m.instr ((lanes past part.lanes).atPc part m.pc) with
    | .next s' => if came s' part m.pc == .through && ((s'.bundle? b.id).any fun x => x.hold == .none) then some (marks (lanes s' b.lanes)) else none
    | _ => none
  | .skip => some (ts.foldl (fun s t => s.modThread t.id (skip t)) past)
  | .load => some (ts.foldl (fun s t => raLoadIn s m.instr t) past)
  | .store | .prefetch => some (ts.foldl (fun s t =>
      match m.instr.hdr?, eaOf m.instr t.view with
      | some h, some ea =>
        if !t.guardBad m.instr && t.guard h && !t.badAny ((addressRegs m.instr).filter (· != .g 0)) then
          (if raClass m.instr == .store then raStore s t ea else raPrefetch s t ea (prefetchOf m.instr))
        else s
      | _, _ => s) past)
  | .region => some (raGo past b fun t =>
      { t with pc := packetUp (m.pc + 12), ra := t.ra.map fun (r : RaThread) => { r with rserial := r.rserial + 1 } })
  | .move =>
    let link := packetUp (m.pc + BitVec.ofNat 64 (4 * m.words))
    let linked := fun (t : Thread) => match m.instr with
      | .call .. | .callg .. => (t.putG 1 link 0).clear [.g 1]
      | _ => t
    (raTarget (s.atPc b m.pc) m.instr ts m.words).map fun a => raGo s b fun t => { linked t with pc := a }
  | .ends => none

/-- The members of a chain in runahead; `none` where runahead ends. -/
def raMembers (s : State) (b : Bundle) (found : List Thread) : List Member → Option State
  | [] => some s
  | m :: rest => (raMember s b found m).bind fun s' => raMembers s' b found rest

/-- Translations of a fetch that the core's fetch TLB does not hold. -/
def fetchMisses (s : State) (core : Nat) (l : List (XEff × IcLine)) : List XEff :=
  (l.map (·.1)).filter fun x => !((s.core core).tlb.fetch.any fun e => e.serves x.entry.ctx x.entry.vbase)

/-- The walks of fetches in runahead: one that would set A stops there (R301, R333). -/
def raWalks (s : State) (l : List XEff) : State := l.foldl (fun s x => if x.pte.isSome then s else s.applyXEff x) s

/-- A chain of a bundle in runahead (R63, R333): where its page is not in the fetch TLB the walk is made and runahead stops, and nothing
is reported. -/
def raChain (s : State) (b : Bundle) (c : Chain) (pc : Word) : State :=
  let n := (b.ra.map (·.chains)).getD 0
  let missing := fetchMisses s b.core c.effs
  if c.trap.isSome || missing ≠ [] || scoreboardTraps s b c.members pc ≠ [] || Config.runaheadChains ≤ n + 1
  then raEnd (raWalks s missing) b
  else
    let s0 := s
    let found := (s.bundleThreads b).map (raAsRead (s.laneGroup b).icycle (s.fresh - 81 * Config.lanes))
    match raMembers (s.cached b.core c.effs) b found c.members with
    | none => raEnd s b
    | some s' =>
      let ends := c.members.any fun m => m.instr.endsSegment
      let s' := s'.modBundle b.id fun x =>
        { x with ra := x.ra.map fun r => { r with chains := n + 1 }
                 eligible := (s'.laneGroup b).icycle + 1 + stallOf c.members
                 elapsed := if ends then 0 else b.elapsed + 1 + stallOf c.members
                 producers := if ends then [] else newProducers b c.members }
      (s'.passOver s0 b.core b.lg b.id).unsnap.tick

/-! ### The issue of a chain -/

/-- The PTE lines that fetching a chain at an address reads, for the Publish of their narrow holders (R251). -/
def fetchHolders (s : State) (t : Thread) (pc : Word) : List Nat :=
  heldBy s none (s.walkLines (s.ctxOf t) pc ++ s.walkLines (s.ctxOf t) (pc + 60))

/-- The traps of R63, parts 1 and 2: in every thread of the bundle, whatever the guards hold. -/
def fetchTraps (ts : List Thread) (x : FetchTrap) : List Trap :=
  ts.map fun t => ⟨t.id, x.cause, x.epc, x.ea, if x.cause = .fetch then accInfo 4 4 else 0, x.nr⟩

/-- The bundle with the focus issues its chain (R53, R63). A bundle that is not ready loses the focus. -/
def issueChain (s : State) (b : Bundle) : Host.Outcome State Fault Refusal :=
  match s.bundleThreads b with
  | [] => .next { s with focus := none }
  | t :: ts =>
    if !s.mayIssue b then .next { s with focus := none }
    else if let some m := b.mid then afterChain s b m.pc m.members (runMembers (s.resnap m) b m.rest)
    else
      let holders := fetchHolders s t t.pc
      if holders ≠ [] then .next { s.publishFor holders with focus := none }
      else
        let c := chainAt s t t.pc
        let s1 := s.fetched b.core c.effs
        if !b.ra.isSome && c.effs.any (fun x => s.xWaits x.1) then .next { s with focus := none }
        else if b.ra.isSome then .next (raChain (s.withSnap b) b c t.pc)
        else match c.trap with
        | some x => .next (s1.takeTraps (fetchTraps (t :: ts) x)).unsnap
        | none =>
          if interlocked s (t :: ts) c.members || chainWaits s b c.members || budgetStall s (t :: ts) c.members then .next (s1.retryBundle b []).unsnap
          else
            let s2 := s1.withSnap b
            match chainStop s2 b c.members with
            | some s' => .next ((s'.trapSegment b c.members).retryBundle b c.members).unsnap
            | none => afterChain s b t.pc c.members (runMembers s2 b (runOrder c.members))

end Sys2Proof.Machine
end

