-- ==== Sys2Proof/Machine/Auto.lean ====
section
/-! DEFINITION. The events that a device with an empty schedule takes by itself, in the order in which they are tried: each is
one that some schedule may take in any order (R11). -/

namespace Sys2Proof.Machine

/-- The steps that a thread's pending work may take. -/
def threadEvents (t : Thread) : List Instr :=
  (if t.results = [] then [] else [.interlockedResultWrite t.id 0])
  ++ (if t.stage.isSome then [.durable t.id] else [])
  ++ t.pending.map (fun a => match a.kind with
    | .ld _ | .lda .. | .ldf .. => .load t.id a.iid
    | .st | .stl _ | .stf _ => .store t.id a.iid
    | .atom .. | .cas .. => .rmw a.iid
    | .fence .. | .pfence _ => .fencePerform t.id a.iid
    | .waitc _ _ _ _ .check => .load t.id a.iid
    | .waitc _ _ _ _ (.monitor true) => .wake t.id
    | .waitc _ _ _ _ (.monitor false) => .expire t.id
    | .waitc _ _ _ _ (.reread _) => .waiterReread t.id)

/-- A slice's tag-only table has no room left: the holders of its oldest entry publish (R298). -/
def tagEvents (s : State) : List Instr :=
  match s.tagOver with
  | some l => (heldBy s none [l]).map .publish
  | none => []

/-- The entries that a core's buffer may drain. -/
def coreEvents (c : Core) : List Instr :=
  c.tb.filterMap fun i => match i with | .entry k .. => some (.drain c.id k) | .marker _ => none

/-- What ends a bundle's wait. -/
def bundleEvents (b : Bundle) : List Instr :=
  (match b.hold with
   | .yield _ => [.yieldEnd b.id]
   | .merge _ => [.mergeWindow b.id]
   | .txw _ => [.txwCompletion b.id]
   | _ => [])
  ++ (if b.ra.isSome then [.runaheadRestore b.id] else [])

/-- The steps of a tile command. -/
def cmdEvents (c : TileCmd) : List Instr :=
  .enqueue c.id :: .completion c.id :: (if c.sectors = [] then [] else [.sectorWrite c.id])
    ++ (List.range c.targets.length).map (fun k => .granuleWrite c.id k)

/-- The steps of a team's queues. -/
def teamEvents (tm : Team) : List Instr :=
  ((List.finRange 8).filter fun q => ((tm.queues[q.val]?).map fun x => x.started).getD false).map fun q => .streamReadAhead tm.id q

/-- The chain that some lane group may issue next. -/
def issueEvents (s : State) : List Instr :=
  (s.bundles.filter s.ready).filterMap fun b => if h : b.lg < 4 then some (.issue b.core ⟨b.lg, h⟩) else none

/-- Launches, placements, releases, arrivals and answers. -/
def launchEvents (s : State) : List Instr :=
  s.hazels.filterMap (fun h => if h.leaving.isSome then h.home.map .arrival else none)
    ++ s.ctxs.flatMap (fun c => .serviceReply c.id :: c.nodes.map fun n => .launchForm c.id n.qcb)
    ++ s.teams.map (fun tm => .teamRelease tm.id) ++ s.parts.map (fun p => .dispatch p.part)

/-- A core that something waits to run on, or a launch for room (log 34). -/
def wanted (s : State) (c : Core) : Bool :=
  c.gated && ((s.parts.any fun p => (headLaunch s p.part).isSome && !(s.teams.any fun tm => tm.core == c.id)) || (s.bundles.any fun b => b.core == c.id && b.hold == .none)
    || s.threads.any fun t => t.id.core == c.id &&
      (t.pending.any fun a => match a.kind with | .waitc _ _ _ _ (.monitor true) => true | _ => false))

/-- A core whose own counts gate it (R396): 1,600 cycles with no team, or 16,000 with every live thread at rest. -/
def idles (c : Core) : Bool := decide (1600 ≤ c.vacant) || decide (16000 ≤ c.resting) || c.stopping

/-- The cores that no step has touched since reset, which have had no team for all that time, once that is long enough to gate them. -/
def untouched (s : State) : List Nat :=
  if s.tstamp < 1600 then [] else (List.range Config.cores).filter fun k => !s.cores.any fun c => c.id == k

/-- The steps of the controllers of the device. -/
def controllerEvents (s : State) : List Instr :=
  s.ctxs.flatMap (fun c => match c.st with
    | .restoring => [.runStart c.id]
    | .saving => [.saveStop c.id]
    | _ => [])
  ++ [.moveRequest 0, .moveRequest 1, .blockMoveRequest, .accountingPeriod] ++ s.moves.map (fun m => .moveRelease m.id)
  ++ s.history.map (fun h => .pinEnd h.ctx h.vpage) ++ s.blockMoves.map (fun m => .removeDeadline m.block)
  ++ s.blockMoves.filterMap (fun m => if m.st = .scrubbing then some (.scrubComplete m.block false) else none)
  ++ (if s.epochOpen.isSome then [.epochComplete] else [])
  ++ s.cores.filterMap (fun c => if wanted s c then some (.gatedCoreWake c.id) else none)
  ++ s.cores.filterMap (fun c => if !wanted s c && idles c then some (.plannedGating c.id) else none)
  ++ (untouched s).map .plannedGating
  ++ s.rails.flatMap (fun r => [.railHoldExpiry r.quad, .railSettled r.quad])
  ++ s.cores.flatMap (fun c => (List.finRange 4).flatMap fun g => [.nominalReturn c.id g, .nearThresholdEntry c.id g])

/-- What the device may do by itself. -/
def autoEvents (s : State) : List Instr :=
  s.vkinj.map (fun v => .injectedRailEvent v.core []) ++ s.threads.flatMap threadEvents ++ s.cores.flatMap coreEvents ++ tagEvents s
    ++ s.bundles.flatMap bundleEvents ++ s.cmds.flatMap cmdEvents ++ s.teams.flatMap teamEvents
    ++ s.reports.map (fun r => .faultQueueEntry r.id) ++ launchEvents s ++ controllerEvents s ++ issueEvents s

/-- The first event that moves the machine. -/
def autoStep (s : State) : List Instr → Host.Outcome State Fault Refusal
  | [] => .next s.tick
  | e :: rest =>
    match exec e s with
    | .next s' => if s' = s then autoStep s rest else .next s'
    | o => o

end Sys2Proof.Machine
end

