-- ==== Sys2Proof/Machine/Step.lean ====
section
/-! DEFINITION. One step of the module, and where the next instruction is fetched. -/

namespace Sys2Proof.Machine

/-- One step: a bundle that a lane group has chosen issues its chain; otherwise the next event of the schedule takes place;
with none scheduled, the first event that the device can take by itself, or a cycle passes. -/
def step (s : State) : Host.Outcome State Fault Refusal :=
  match s.focusBundle with
  | some b => issueChain s b
  | none =>
    match s.schedule with
    | e :: rest => exec e { s with schedule := rest }
    | [] => autoStep s (autoEvents s)

/-- The PC at which the bundle with the focus fetches. -/
def State.fetchPc (s : State) : Word :=
  match s.focusThreads with
  | t :: _ => t.pc
  | [] => 0

/-- Where the bytes of the next instruction lie in M. -/
def State.fetchPa (s : State) : Nat := 0x200000 + s.fetchPc.toNat % 0x200000

/-- The page-table entries that map the 2 MiB page of an address, for a context whose root table is at physical 0: three
tables at 0x1000, 0x2000 and 0x3000, and a leaf at level 1 with every permission, tag 10, A and D. -/
def State.mapPage (s : State) (va : Nat) (user : Bool) : State :=
  let s := s.writeM (8 * (va / 2 ^ 48 % 512)) 8 0x401
  let s := s.writeM (0x1000 + 8 * (va / 2 ^ 39 % 512)) 8 0x801
  let s := s.writeM (0x2000 + 8 * (va / 2 ^ 30 % 512)) 8 0xC01
  s.writeM (0x3000 + 8 * (va / 2 ^ 21 % 512)) 8 (2 * 2 ^ 54 + 0x200 * 2 ^ 10 + (if user then 0xDF else 0xCF))

/-- `s` with the instruction whose bits are `w` (of `nbits` bits, the bits above them 0) where `step` fetches next: the page
of the PC is mapped, the words stand there, and after a commit instruction stands the `region` with live-in g10-g17 that
R186 and R198 ask for. -/
def State.withFetchWord (s : State) (nbits w : Nat) : State :=
  let w := w % 2 ^ nbits
  let user := match s.focusThreads with | t :: _ => !s.hlevel t | [] => true
  let s1 := s.mapPage (s.fetchPc.toNat % 2 ^ 57) user
  let s2 := s1.writeM s.fetchPa 12 w
  match decodeWords [BitVec.ofNat 32 w, BitVec.ofNat 32 (w / 2 ^ 32), BitVec.ofNat 32 (w / 2 ^ 64)] with
  | .ok (i, n) => if i.isCommit then s2.writeM (s.fetchPa + 4 * n) 12 (0x0B380000 + 2 ^ 32 * 0x3FC00) else s2
  | .error _ => s2

end Sys2Proof.Machine
end

