-- ==== Sys2Proof/Safety.lean ====
section
/-! DEFINITION. What counts as a safe run, the invariant on memories, and the vocabulary in which statements say what a step
does and what it leaves alone. -/

namespace Sys2Proof.Machine

/-- The machine goes on from a state: its next step is neither a fault nor a refusal. -/
def State.Safe (s : State) : Prop := ∃ t, step s = .next t

/-- Every memory image that the module holds is in canonical form: M, the images in the key store and the image of an open epoch
(R351, R354). -/
def State.MemoriesWf (s : State) : Prop :=
  Memory.wf s.mem = true ∧ (∀ e ∈ s.keystore, Memory.wf e.2 = true) ∧ ∀ e, s.epochOpen = some e → Memory.wf e.2 = true

/-- A write of one name reaches another: FFLAGS is part of MODE (R27), and the one write of `pmov.gp` is of every predicate (R111). -/
def RegName.covers (a b : RegName) : Bool :=
  match a, b with
  | .mode, .fflags | .fflags, .mode => true
  | .preds, .p _ => true
  | a, b => a == b

/-- What a register holds after a write of a value, `old` being what it held: g0 and p0 discard writes (R23), a predicate
holds 0 or 1, CAUSE eight bits (R26). -/
def RegName.held (n : RegName) (old v : Word) : Word :=
  match n with
  | .g i => if i.val = 0 then old else v
  | .p i => if i.val = 0 then old else if v = 0 then 0 else 1
  | .cause => v &&& 0xFF
  | _ => v

/-- What the name `r` reads as after a write of `n`: a predicate takes its own bit of a write of them all, and p0 stays true. -/
def RegName.after (n r : RegName) (old v : Word) : Word :=
  match n, r with
  | .preds, .p i => if i.val = 0 ∨ v.getLsbD i.val = true then 1 else 0
  | n, _ => n.held old v

/-- A thread that writes these registers and nothing else (its address apart), with a latency in instruction cycles: every
other register keeps its value, and the replaced values stand in the write records of its region (R20, R55). -/
def Thread.Writes (lat : Nat) (vals : List (RegName × Word)) (x y : Thread) : Prop :=
  y = { x with pc := y.pc, regs := y.regs, writes := y.writes }
  ∧ (∀ r, r ≠ .preds → y.regs.get r = match vals.find? (fun e => e.1.covers r) with
      | some e => e.1.after r (x.regs.get e.1) e.2
      | none => x.regs.get r)
  ∧ y.writes = (vals.reverse.map fun e => ⟨e.1, x.regs.get e.1, if lat = 0 then 0 else x.ic + lat, x.rserial, e.1.parts.filter x.bad⟩) ++ x.writes

/-- An instruction of `n` words that acts on each thread alone (R16, R17, R46): outside the bundle nothing changes; every thread
of the bundle goes past the words; one whose guard holds is related to its successor by `eff`, any other is changed in nothing
but its address; and no other state of the module changes. -/
def State.Lanes (s t : State) (n : Nat) (h : Hdr) (eff : Thread → Thread → Prop) : Prop :=
  t = { s with threads := t.threads } ∧ t.threads.length = s.threads.length
  ∧ ∀ (k : Nat) (x y : Thread), s.threads[k]? = some x → t.threads[k]? = some y →
      if s.inFocus x then
        y.pc = x.pc + BitVec.ofNat 64 (4 * n) ∧ (if x.guard h then eff x y else y = { x with pc := y.pc })
      else y = x

/-- The flags that an operation raises, as a write of MODE (R27): none where it raises none. -/
def Thread.flagWrites (x : Thread) (fl : BitVec 5) : List (RegName × Word) :=
  if fl = 0 then [] else [(.mode, x.regs.mode ||| fl.setWidth 64)]

/-- An instruction that always goes on, as `Lanes` says, from every state. -/
def RunsLanes (i : Instr) (n : Nat) (h : Hdr) (eff : State → Thread → Thread → Prop) : Prop :=
  ∀ s : State, ∃ t, exec i s = .next t ∧ s.Lanes t n h (eff s)

/-- The words that a second source adds to an instruction (R44). -/
abbrev wordsWith (b : Src2) : Nat := 1 + src2Words b

/-- A form with D and A as g registers and a second source (R44, R103, R105): gD takes `v` of gA and the second source, with a
latency, whatever the state. -/
def BinaryG (mk : Hdr → Fin 32 → Fin 32 → Src2 → Instr) (lat : Nat) (v : Word → Word → Word) : Prop :=
  ∀ h d a b, RunsLanes (mk h d a b) (wordsWith b) h fun _ x y => x.Writes lat [(.g d, v (x.view.gval a) (b.g x.view))] y

/-- The same for a result given bit by bit, as a function of gD, gA and the second source. -/
def BinaryBits (mk : Hdr → Fin 32 → Fin 32 → Src2 → Instr) (bit : Word → Word → Word → Nat → Bool) : Prop :=
  ∀ h d a b, RunsLanes (mk h d a b) (wordsWith b) h fun _ x y => ∃ v : Word, x.Writes 4 [(.g d, v)] y ∧
    ∀ i, i < 64 → v.getLsbD i = bit (x.view.gval d) (x.view.gval a) (b.g x.view) i

/-- A form with D and A as g registers alone, its result given by a property. -/
def UnaryG (mk : Hdr → Fin 32 → Fin 32 → Instr) (ok : Word → Word → Prop) : Prop :=
  ∀ h d a, RunsLanes (mk h d a) 1 h fun _ x y => ∃ v : Word, x.Writes 4 [(.g d, v)] y ∧ ok (x.view.gval a) v

/-- A thread that will write an interlocked result (R55) and has written nothing yet. -/
def Thread.Owes (x : Thread) (r : PendRes) (y : Thread) : Prop := y = { x with pc := y.pc, results := x.results ++ [r] }

/-- No two threads stand at one position (R10), in the module or in one save area. -/
def State.IdsDistinct (s : State) : Prop :=
  (s.threads.map (·.id)).Nodup ∧ ∀ x ∈ s.saved, (x.threads.map (·.id)).Nodup

/-- The threads of `b` have taken these traps at U (R40, R139, R338): each trapping thread sleeps on the ticket of an entry to come,
the others of the bundle wait with it, the bundle is gone, one entry is on its way for each trap with the cause, addresses and
region of the thread (R340), and nothing else has changed. `resume` is where they go on. -/
def State.TookTraps (s t : State) (b : Bundle) (traps : List Trap) (resume : Option Word) : Prop :=
  t = { s with threads := t.threads, bundles := s.bundles.filter fun x => x.id != b.id, focus := none, reports := t.reports
               nextId := t.nextId
               sleepers := s.sleepers ++ [⟨s.focusThreads.map (·.id), traps.map fun x => (x.thread, none), resume, b.conv, b.elapsed, b.producers, 0⟩] }
  ∧ t.threads.length = s.threads.length
  ∧ (∀ (k : Nat) (x y : Thread), s.threads[k]? = some x → t.threads[k]? = some y →
      if b.has x.id then
        y = { x with status := y.status, snap := none, passWatch := y.passWatch }
        ∧ ((∃ p ∈ traps, p.thread = x.id) → y.status = .asleep none)
        ∧ ((∀ p ∈ traps, p.thread ≠ x.id) → y.status = .waiting)
        ∧ ((∀ p ∈ traps, p.cause ≠ .watchpoint) → y.passWatch = x.passWatch)
      else y = x)
  ∧ ∃ rs, t.reports = s.reports ++ rs ∧ rs.length = traps.length ∧
      ∀ (j : Nat) (r : Report) (p : Trap) (x : Thread), rs[j]? = some r → traps[j]? = some p → s.thread? p.thread = some x →
        r.kind = 0 ∧ r.cause = p.cause ∧ r.nr = p.nr ∧ r.epc = p.epc ∧ r.eaddr = p.eaddr ∧ r.info = p.info
        ∧ r.waiter = .thread x.id ∧ r.rentry = x.entry ∧ r.serial = x.rserial ∧ r.stamp = s.tstamp ∧ r.ctx = (s.teamOf x).ctx

/-- The group of a thread has been frozen by traps at H (R40): CAUSE, EPC and EADDR of each trapping thread are written, the group's
live threads stop, their bundles are gone and the others stay, system software is interrupted, and nothing else has changed where no
bundle of the group runs ahead (one that does is restored, R335). -/
def State.FrozeGroup (s t : State) (x0 : Thread) (traps : List Trap) : Prop :=
  (∀ c ∈ s.bundles, ∀ x ∈ s.threads, x.team = x0.team → x.group = x0.group → c.has x.id = true → c.ra = none) →
  t = { s with threads := t.threads, bundles := t.bundles, focus := t.focus, interrupts := s.interrupts ++ [(s.teamOf x0).ctx] }
  ∧ t.threads.length = s.threads.length
  ∧ (∀ (k : Nat) (x y : Thread), s.threads[k]? = some x → t.threads[k]? = some y →
      y = { x with status := y.status, snap := y.snap, regs := y.regs }
      ∧ y.regs = { x.regs with cause := y.regs.cause, epc := y.regs.epc, eaddr := y.regs.eaddr }
      ∧ (∀ p, traps.find? (fun p => decide (p.thread = x.id)) = some p →
          y.regs.cause.toNat = p.cause.code ∧ y.regs.epc = p.epc ∧ y.regs.eaddr = p.eaddr)
      ∧ ((∀ p ∈ traps, p.thread ≠ x.id) → y.regs = x.regs)
      ∧ (if x.team = x0.team ∧ x.group = x0.group ∧ x.status = .live then y.status = .frozen ∧ y.snap = none
         else y.status = x.status ∧ y.snap = x.snap))
  ∧ (∀ c, c ∈ t.bundles → c ∈ s.bundles ∧ ∀ x ∈ s.threads, x.team = x0.team → x.group = x0.group → x.status = .live → c.has x.id = false)
  ∧ ∀ c ∈ s.bundles, (∀ d ∈ s.bundles, d.id = c.id → d = c) →
      (∀ x ∈ s.threads, x.team = x0.team → x.group = x0.group → x.status = .live → c.has x.id = false) → c ∈ t.bundles

/-- The bundle in issue runs at U, or at H. -/
def State.IssuesAt (s : State) (b : Bundle) (h : Bool) : Prop :=
  s.focusBundle = some b ∧ b.ra = none ∧ ∃ x xs, s.focusThreads = x :: xs ∧ s.hlevel x = h

/-- A rounded form of rows 3 and 4 (R27, R114): where FRM of every executing thread is a rounding mode, the form runs as `Lanes`
says. -/
def Rounds (i : Instr) (n : Nat) (h : Hdr) (eff : Thread → Thread → Prop) : Prop :=
  ∀ s : State, (∀ x ∈ s.executing h, x.view.frm < 5) → ∃ t, exec i s = .next t ∧ s.Lanes t n h eff

/-- The two scalar widths with their forms of one operation: fD takes the rounded result of fA and the second source, and MODE the
flags, with latency 6. -/
def RoundsFF (w : FWidth) (mk : Hdr → Fin 32 → Fin 32 → Src2 → Instr) (op : Fmt → Nat → Nat → Nat → FRes) : Prop :=
  ∀ h d a b, Rounds (mk h d a b) (wordsWith b) h fun x y =>
    let r := op w.fmt x.view.frm (w.read (x.view.fval a)) (w.read (b.f x.view))
    x.Writes 6 ((.f d, w.boxed r.bits) :: x.flagWrites r.flags) y

/-! ### Memory -/

/-- An access without what a write to its line tells its monitor (R258). -/
def Access.unwoken (a : Access) : Access :=
  match a.kind with
  | .waitc c p v d (.monitor _) => { a with kind := .waitc c p v d (.monitor false) }
  | _ => a

/-- A form of row 5 that puts an access of each executing thread on its pending list (R244): its words, whether it is a commit
instruction (R161), whether its bundle waits for the accesses, whether it counts as a load (R166), and what each thread asks. -/
structure MemForm where
  instr : Instr
  words : Nat
  commit : Bool
  hold : Bool
  load : Bool
  req : Thread → MemReq

/-- The threads of the bundle in which a form performs: those whose guard holds and, for a commit instruction, that neither keep a reply
of this region nor have its commit on its way since before a restart (R162). -/
def State.performs (s : State) (h : Hdr) (f : MemForm) : List Thread :=
  (s.executing h).filter fun x => !(f.commit && (x.kept.isSome || x.committing))

/-- The outcome of the checks of R138 for a thread. -/
def State.checked (s : State) (f : MemForm) (x : Thread) : CheckRes := s.check x (f.req x).probe (s.stalePick x.id.lane)

/-- The translation that the checks have used in a thread, whatever comes of its access. -/
def State.usedBy (s : State) (f : MemForm) (x : Thread) : Option XEff := s.usedXlate (some x.id.lane) x (f.req x).probe (s.stalePick x.id.lane)

/-- Memory differs by nothing but the A and D bits of the PTEs that these threads' translations name (R301). -/
def State.MemBut (s t : State) (ts : List Thread) (res : Thread → CheckRes) : Prop :=
  (∀ a, (∀ x ∈ ts, ∀ l e p, res x = .ok l (some e) → e.pte = some p → a ≠ p.1) → Memory.read t.mem a = Memory.read s.mem a)
  ∧ ∀ a, Memory.read t.mem a ||| 0xC0 = Memory.read s.mem a ||| 0xC0

/-- The stores of the cores are as they were: scratchpads, granules, buffers, tiles. -/
def State.StoresKept (s t : State) : Prop :=
  ∀ c, (t.core c).sp = (s.core c).sp ∧ (t.core c).gran = (s.core c).gran ∧ (t.core c).tb = (s.core c).tb
    ∧ (t.core c).acc = (s.core c).acc ∧ (t.core c).nh = (s.core c).nh ∧ (t.core c).ltr = (s.core c).ltr

/-- The accesses of a form have been issued: each performing thread's access stands last on its pending list under one number, at the
place its check found, with the data read at issue; every thread of the bundle is past the words; no register has changed but in a
thread that holds this region's reply (`kept`); memory, stores, teams and contexts are as they were. -/
def State.Issued (s t : State) (h : Hdr) (f : MemForm) (kept : Nat → List (RegName × Word)) : Prop :=
  s.MemBut t (s.performs h f) (s.checked f) ∧ s.StoresKept t ∧ t.teams = s.teams ∧ t.ctxs = s.ctxs ∧ t.tstamp = s.tstamp
  ∧ t.cmds = s.cmds ∧ t.threads.length = s.threads.length
  ∧ (∀ (k : Nat) (x y : Thread), s.threads[k]? = some x → t.threads[k]? = some y →
      let old := y.pending.take x.pending.length
      old.map Access.unwoken = x.pending.map Access.unwoken
      ∧ (s.inFocus x = true → y.pc = x.pc + BitVec.ofNat 64 (4 * f.words))
      ∧ (s.inFocus x = false → y = { x with pending := old })
      ∧ (s.inFocus x = true → x.guard h = false → y = { x with pc := y.pc, pending := old })
      ∧ (s.inFocus x = true → x.guard h = true → f.commit = true → x.kept = none → x.committing = true →
          y = { x with pc := y.pc, pending := old })
      ∧ (s.inFocus x = true → x.guard h = true → (f.commit && (x.kept.isSome || x.committing)) = false →
          ∃ loc eff, s.checked f x = .ok loc eff
            ∧ y = { x with pc := y.pc, passWatch := y.passWatch
                           pending := old ++ [{ iid := s.nextId, iaddr := x.pc, va := (f.req x).probe.ea, kind := (f.req x).kind
                                                loc := loc, size := (f.req x).probe.size, data := (f.req x).data
                                                serial := x.rserial, hint := (f.req x).hint, begun := false, replay := false }] })
      ∧ (s.inFocus x = true → x.guard h = true → ∀ v, f.commit = true → x.kept = some v → x.ra = none →
          ({ x with pending := old } : Thread).Writes 0 (kept v) y))
  ∧ ∀ b, s.focusBundle = some b → t.bundles = s.bundles.map fun c =>
      if c.id = b.id then (if f.hold ∧ s.performs h f ≠ [] then { c with hold := .access s.nextId } else c) else c

/-- Exactly the threads of one position change, as `eff` says. -/
def State.At (s t : State) (id : ThreadId) (eff : Thread → Thread → Prop) : Prop :=
  t.threads.length = s.threads.length
  ∧ ∀ (k : Nat) (x y : Thread), s.threads[k]? = some x → t.threads[k]? = some y → if x.id = id then eff x y else y = x

/-- An access has performed with these results (R244, R334): it leaves the pending list, and the results are in the registers, or in
the copy that a bundle in runahead will take back; a commit's reply stands beside those of other regions (R162). -/
def Thread.Performed (k : Nat) (vals : List (RegName × Word)) (reply : Option (BitVec 32 × Nat)) (x y : Thread) : Prop :=
  let z : Thread := { x with pending := x.pending.filter fun a => a.iid != k, replies := y.replies }
  (match reply with | some r => y.replies = r :: x.replies.filter (fun e => e.1 != r.1) | none => y.replies = x.replies)
  ∧ (x.ra = none → z.Writes 0 vals y ∧ y.pc = x.pc)
  ∧ ∀ r, x.ra = some r → y = { z with ra := some { r with saved := vals.foldl (fun r e => r.set e.1 e.2) r.saved } }

/-- The other accesses of one issue know that one of them has performed (R139). -/
def Thread.begunAt (k : Nat) (x : Thread) : Thread :=
  { x with pending := x.pending.map fun a => if a.iid = k then { a with begun := true } else a }

/-- A thread changes as `eff` says, and of the others only what they know of its issue. -/
def State.AtBegun (s t : State) (id : ThreadId) (k : Nat) (eff : Thread → Thread → Prop) : Prop :=
  t.threads.length = s.threads.length
  ∧ ∀ (j : Nat) (x y : Thread), s.threads[j]? = some x → t.threads[j]? = some y → if x.id = id then eff x y else y = x.begunAt k

/-- Some core's buffer holds an entry of the sector of an address, so that a Publish may write there. -/
def State.Buffered (s : State) (adr : Nat) : Prop :=
  ∃ c ∈ s.cores, ∃ k mask data con, TbItem.entry k (adr / 32) mask data con ∈ c.tb

/-- Every entry of a core's buffer lies in a line that it holds narrowly. -/
def State.HoldsBuffer (s t : State) (core : Nat) : Prop :=
  ∀ k sec mask data con, TbItem.entry k sec mask data con ∈ (s.core core).tb → sec / 2 ∈ (t.core core).nh

/-- What M holds at an address once the entries with these numbers have drained in the order of the buffer (R248). -/
def State.drainedByte (s : State) (core : Nat) (ks : List Nat) (adr : Nat) : Byte :=
  (s.core core).tb.foldl (fun v i => match i with
    | .entry k sec mask data _ =>
      if k ∈ ks ∧ sec = adr / 32 ∧ mask.testBit (adr % 32) = true then BitVec.ofNat 8 (data / 2 ^ (8 * (adr % 32))) else v
    | .marker _ => v) (Memory.read s.mem adr)

/-- The expected and the new value of a `cas` access. -/
def Access.casPair (a : Access) : Nat × Nat := match a.kind with | .cas _ e n _ => (e, n) | _ => (0, 0)

/-- A load's destination as the instruction words allow it: a pair begins at an even register (R135). -/
def LoadDst.legal (d : LoadDst) : Prop := d.size = 4 → d.d.val % 2 = 0

/-- The place of an access reads as a number: a byte range of M, or of a scratchpad. -/
def State.placeByte (s : State) : Loc → Nat → Byte
  | .dev pa, i => Memory.read s.mem (pa + i)
  | .sp c off, i => Memory.read (s.core c).sp (off + i)

/-- The forms of row 5 that put accesses on the pending lists, as R133-R135, R141-R154 and R157 give them: effective address, size,
kind of access, where it may go, whether a FAILED granule faults, and the data. -/
def memForms (s : State) (h : Hdr) (d a b : Fin 32) (e : Exts) (cond : Fin 4) (pd : Fin 8) :
    List (MemForm × (Nat → List (RegName × Word))) :=
  let n := extsWords e
  let ea16 := fun (x : Thread) => effAddr (x.view.gval (base16 a)) e
  let ea := fun (x : Thread) => effAddr (x.view.gval a) e
  let z := b.val % 8
  let f := isFClass a
  let old8 := fun (v : Nat) => (if b.val / 4 = 1 then (BitVec.ofNat 32 v).signExtend 64 else BitVec.ofNat 64 v : Word)
  let w := b.val % 2 = 0
  let bytes := if b.val % 2 = 1 then 8 else 4
  [ (⟨.ld h d a b e, n, false, false, true, fun x => ⟨⟨ea16 x, sizeBytes z, .read, .any, true⟩, .ld ⟨f, d, z, none⟩, 0, Hint.of b.val⟩⟩, fun _ => []),
    (⟨.st h d a b e, n, false, false, false, fun x => ⟨⟨ea16 x, sizeBytes z, .write, .any, false⟩, .st, storeData x.view f d z, Hint.of b.val⟩⟩, fun _ => []),
    (⟨.lda h d a b e, n, false, false, true,
      fun x => ⟨⟨ea x, sizeBytes z, .read, .any, true⟩, .lda ⟨false, d, z, none⟩ (scope2 (b.val / 8)), 0, .normal⟩⟩, fun _ => []),
    (⟨.stl h d a b e, n, true, false, false,
      fun x => ⟨⟨ea x, sizeBytes z, .write, .any, false⟩, .stl (scope2 (b.val / 8)), storeData x.view false d z, .normal⟩⟩, fun _ => []),
    (⟨.ldf h d a b e, n, b.val / 8 % 2 == 1, true, true,
      fun x => ⟨⟨ea16 x, sizeBytes z, .read, .aperture, false⟩, .ldf ⟨f, d, z, none⟩ (b.val / 8 % 2 == 1), 0, .normal⟩⟩,
      fun v => if z = 4 then [(dataReg f d, BitVec.ofNat 64 v), (dataReg f (oddOf d), BitVec.ofNat 64 (v / 2 ^ 64))]
               else [(dataReg f d, BitVec.ofNat 64 v)]),
    (⟨.stf h d a b e, n, true, b.val / 8 % 2 == 1, false,
      fun x => ⟨⟨ea16 x, sizeBytes z, .write, .aperture, b.val / 8 % 2 == 1⟩, .stf (b.val / 8 % 2 == 1), storeData x.view f d z, .normal⟩⟩,
      fun _ => []),
    (⟨.atom h d a b e, n, true, false, false,
      fun x => ⟨⟨ea x, if b.val / 4 ∈ [1, 6] then 4 else 8, .rmw, .any, true⟩, .atom ⟨b.val / 4, by omega⟩ d (scope2 b.val),
        (x.view.gval d).toNat, .normal⟩⟩, fun v => [(.g d, old8 v)]),
    (⟨.cas h d a b e, n, true, false, false,
      fun x => ⟨⟨ea x, bytes, .rmw, .any, true⟩, .cas d ((x.view.gval d).toNat % 2 ^ (8 * bytes))
        ((x.view.gval (oddOf d)).toNat % 2 ^ (8 * bytes)) (scope2 (b.val / 8)), 0, .normal⟩⟩,
      fun v => [(.g d, if w then (BitVec.ofNat 32 v).signExtend 64 else BitVec.ofNat 64 v), (.g (oddOf d), if v < 2 ^ 64 then 0 else 1)]),
    (⟨.waitc h cond pd a b e, n, true, true, false,
      fun x => ⟨⟨ea x, 8, .read, .device, false⟩, .waitc cond pd (x.view.gval b)
        (match e with | .two _ e2 => some (s.tstamp + 16 * e2.toNat) | _ => none) .check, 0, .normal⟩⟩, fun v => [(.p pd, BitVec.ofNat 64 v)]) ]

/-- The granule of a byte of a core's scratchpad. -/
def State.granAt (s : State) (core off : Nat) : Gran := (s.core core).granule (off / 16)

/-- Nothing but the threads and the holds of bundles has changed. -/
def State.OnlyThreads (s t : State) : Prop :=
  t = { s with threads := t.threads, bundles := t.bundles } ∧ t.bundles.length = s.bundles.length
  ∧ ∀ (k : Nat) (b c : Bundle), s.bundles[k]? = some b → t.bundles[k]? = some c → c = { b with hold := c.hold }

/-- The members of a chain whose instructions stand one after another from an address. -/
def membersFrom (a : Word) : List Instr → List Member
  | [] => []
  | i :: rest => ⟨a, i, i.words⟩ :: membersFrom (a + BitVec.ofNat 64 (4 * i.words)) rest

/-- The words from an address on are those of some instructions, one after another; with the translations and lines that the fetch used.
`k` numbers the first word among the free choices of the issue. -/
def State.fetchesAs (s : State) (x : Thread) : List Instr → Word → Nat → Option (List (XEff × IcLine))
  | [], _, _ => some []
  | i :: rest, a, k =>
    match fetchWords s x i.words a k with
    | .ok ws effs => if ws = encode i then (s.fetchesAs x rest (a + BitVec.ofNat 64 (4 * i.words)) (k + 5)).map (effs ++ ·) else none
    | .fault .. => none

/-- Nothing but the threads, the holds of bundles, and the caches with what they count has changed. -/
def State.OnlyCaches (s t : State) : Prop :=
  t = { s with threads := t.threads, bundles := t.bundles, cores := t.cores, dir := t.dir, tagOnly := t.tagOnly, spent := t.spent
               samples := t.samples, fresh := t.fresh }
  ∧ (∀ c, t.core c = { s.core c with l1 := (t.core c).l1 }) ∧ t.bundles.length = s.bundles.length
  ∧ ∀ (k : Nat) (b c : Bundle), s.bundles[k]? = some b → t.bundles[k]? = some c → c = { b with hold := c.hold }

/-! ### Control -/

/-- The bundle in issue leaves its segment and each of its threads arrives at a segment entry (R16, R57, R58, R168, R172): its address
is the target, its registers are as they were but for a link in g1, results in flight are written, SCHK takes effect, and threads of
one group at one target are in one bundle, and with no merge window open (R324) the other bundles stay; `more` says what else changes in a
thread. Nothing else changes. -/
def State.Moved (s u : State) (b : Bundle) (target : Thread → Word) (link : Option Word) (more : Thread → Thread → Prop) : Prop :=
  u = { s with threads := u.threads, bundles := u.bundles, focus := none, nextId := u.nextId }
  ∧ u.threads.length = s.threads.length
  ∧ (∀ (k : Nat) (x y : Thread), s.threads[k]? = some x → u.threads[k]? = some y →
      (s.inFocus x = false → y = x)
      ∧ (s.inFocus x = true → y.pc = target x ∧ y.status = .live ∧ y.snap = none ∧ y.schk = y.regs.mode.getLsbD 8
          ∧ y.id = x.id ∧ y.team = x.team ∧ y.group = x.group ∧ y.pending = x.pending ∧ y.results = x.results ∧ y.cross = x.cross
          ∧ (∀ w ∈ y.writes, w.ready = 0) ∧ more x y
          ∧ ∀ r, y.regs.get r = match link with
              | some a => if r = .g 1 then a else x.regs.get r
              | none => x.regs.get r))
  ∧ ((∀ c ∈ s.bundles, ∀ d, c.hold ≠ .merge d) →
      (∀ c ∈ s.bundles, c.id ≠ b.id → c ∈ u.bundles)
      ∧ (∀ c ∈ u.bundles, c ∈ s.bundles ∧ c.id ≠ b.id ∨ ∃ x ∈ s.focusThreads, c.has x.id = true)
      ∧ ∀ x ∈ s.focusThreads, ∃ c ∈ u.bundles, c.has x.id = true
        ∧ c.lg = x.id.laneGroup ∧ (c.hold = .none ∨ ∃ d, c.hold = .merge d)
        ∧ ∀ y ∈ s.focusThreads, y.id.core = x.id.core → y.id.slot = x.id.slot → y.id.laneGroup = x.id.laneGroup →
            target y = target x → c.has y.id = true)

/-- The region of a thread stays as it is. -/
def Thread.SameRegion (x y : Thread) : Prop :=
  y.rserial = x.rserial ∧ y.entry = x.entry ∧ y.stage = x.stage ∧ y.slot0 = x.slot0 ∧ y.slot1 = x.slot1

/-- A translated target of a call or return that stays on this side (R168, R176): a page of tag 10. -/
def State.StaysHere (s : State) (x : Thread) (target : Word) : Prop :=
  ∃ e a p l, s.walkTables (s.ctxOf x) target = .leaf e a p l ∧ e.tag = 2

/-- A core has been lost and its threads restarted (R20, R242, R260, R353-R355): its buffer, caches and translations are gone, its
scratchpad reads as the shadow held it, M has changed in the sectors of its buffer alone, threads of other cores have their registers
and places, and each live thread of the core with a complete checkpoint and none being written is at its region's entry, with the
live-in registers, predicates, MODE and serial of that checkpoint, in every other register zero or a value it held since, and with
nothing pending. -/
def State.LostCore (s t : State) (core : Nat) : Prop :=
  (t.core core).tb = [] ∧ (t.core core).l1 = [] ∧ (t.core core).icache = [] ∧ (t.core core).nh = [] ∧ (t.core core).held = []
  ∧ (t.core core).sp = (s.core core).spShadow ∧ (t.core core).gran = (s.core core).granShadow
  ∧ (∀ a, (∀ k sec m d con, TbItem.entry k sec m d con ∈ (s.core core).tb → a / 32 ≠ sec) → Memory.read t.mem a = Memory.read s.mem a)
  ∧ (∀ x ∈ s.threads, x.id.core ≠ core → ∃ y, t.thread? x.id = some y ∧ y.regs = x.regs ∧ y.pc = x.pc ∧ y.status = x.status
      ∧ y.rserial = x.rserial)
  ∧ ∀ x ∈ s.threads, x.id.core = core → x.status = .live → x.stage = none → ∀ c, chooseSlot x.slot0 x.slot1 = some c →
      ∃ y, t.thread? x.id = some y ∧ y.status = .live ∧ y.pc = c.pc ∧ y.entry = c.pc ∧ y.rserial = c.seqh ∧ y.pending = []
        ∧ y.results = [] ∧ y.regs.mode = c.mode ∧ y.regs.p = c.pred ||| 1
        ∧ (c.flags ≠ 1 → ∀ e ∈ (maskRegs c.gmask c.fmask).zip c.live, e.1 ≠ .g 0 → y.regs.get e.1 = e.2)
        ∧ ∀ i : Fin 32, c.flags ≠ 1 → c.gmask.getLsbD i.val = false →
            y.regs.gval i = 0 ∨ y.regs.gval i = x.leaveRa.regs.gval i ∨ ∃ w ∈ x.leaveRa.writes, w.reg = .g i ∧ y.regs.gval i = w.old

end Sys2Proof.Machine
end

