-- ==== Sys2Proof/Certificates/Slice0/Obligations.lean ====
section
/-! DEFINITION. The statements of this row for the provers. -/

open Sys2Proof Sys2Proof.Machine

/-! ### Encoding and the step -/

/-- Every legal instruction word is read back as the instruction it encodes, with the number of its words, whatever follows. -/
def Obligations.DecodeEncode : Prop :=
  ∀ (i : Instr) (rest : List (BitVec 32)), i.hdr?.isSome → i.wf = true →
    decodeWords (encode i ++ rest) = .ok (i, i.words) ∧ (encode i).length = i.words

/-- A list of words decodes to nothing but a legal instruction word, and its encoding is the words it was read from.
Words that are no instruction (R62): L = 3, the eight unassigned opcodes, P = 0 with N = 1, and a guard on an instruction that
ends a segment or on `entryw`, each with any words after it. -/
def Obligations.EncodeDecode : Prop :=
  (∀ (ws : List (BitVec 32)) (i : Instr) (n : Nat), decodeWords ws = .ok (i, n) →
    encode i = ws.take n ∧ n ≤ ws.length ∧ 1 ≤ n ∧ n ≤ 3 ∧ i.wf = true ∧ i.hdr?.isSome)
  ∧ (∀ (w : BitVec 32) (rest : List (BitVec 32)) (i : Instr) (n : Nat), decodeWords (w :: rest) = .ok (i, n) →
    w.extractLsb' 26 2 ≠ 3
    ∧ (w.extractLsb' 19 7).toNat ∉ [0x2D, 0x2E, 0x4E, 0x4F, 0x5F, 0x7D, 0x7E, 0x7F]
    ∧ ¬(w.extractLsb' 0 3 = 0 ∧ w.getLsbD 3 = true)
    ∧ ((w.extractLsb' 19 7).toNat ∈ [0x60, 0x62, 0x63, 0x64, 0x65, 0x66, 0x67, 0x2A] → w.extractLsb' 0 4 = 0))

/-- Words written out in the reference's own tables decode to the instructions they stand for (R104, R105, R106, R109, R110, R111,
R112, R113). -/
def Obligations.ReferenceWords : Prop :=
  let h0 : Hdr := ⟨false, 0, false, 0⟩
  decodeWords [0x003B1AE0] = .ok (.mulhz h0 12 13 (.reg 14), 1)
  ∧ decodeWords [0x00C18E00] = .ok (.clz h0 6 7, 1)
  ∧ decodeWords [0x04E21200, 0x00008804] = .ok (.bfx h0 8 9 (.imm 0x8804), 2)
  ∧ decodeWords [0x35028A00, 0x0000000A] = .ok (.icmp ⟨false, 3, false, 0⟩ 1 2 5 (.imm 10), 2)
  ∧ decodeWords [0x0509CA02, 0x0000000A] = .ok (.sel ⟨false, 0, false, 2⟩ 7 5 (.imm 10), 2)
  ∧ decodeWords [0x0132C2A0] = .ok (.plog h0 1 3 false 1 true 2, 1)
  ∧ decodeWords [0x01394000] = .ok (.pmovPg h0 5, 1)
  ∧ decodeWords [0x01380A10] = .ok (.pmovGp h0 5, 1)
  ∧ decodeWords [0x01415C00] = .ok (.gets h0 5 14, 1)
  ∧ decodeWords [0x054BC000, 0x00000100] = .ok (.sets h0 15 (.imm 0x100), 2)

/-- A step of the module runs the instruction at the bundle's PC (R50, R53, R54, R63): when the words there decode to a legal
instruction alone in its chain, the bundle is in no chain begun before, no check of R63 fails and nothing it needs is outstanding, the step is `exec` of the instruction
in the state in which its operands have been read, and then: a trap leaves no bundle in issue, an instruction that must issue
again leaves the bundle eligible in the next cycle, and any other leaves it eligible after its stall count, past its words. That this
step is another than the ISSUE that chose the bundle is the model's choice (log 5), and so is that with no bundle in issue the next event of
`State.schedule` is executed (log 6).
A chain of two or three instructions (R52, R53), none of them a commit, none kept back at issue, and no `brk` or `gsync` before another:
the step executes them one after another, and then the bundle stands past all of them, eligible after the last one's stall count.
An instruction of rows 0-5 that is no commit and leaves its bundle of live threads standing changes nothing of what the threads of a chain read: so every
source is read before any write (R53).
A fetched word is what memory holds at its physical address (R7, R50), for a context whose text is not encrypted and a core whose
instruction cache holds no line of that address. -/
def Obligations.StepRunsDecoded : Prop :=
  ((∀ (s : State) (b : Bundle) (x : Thread) (xs : List Thread) (i : Instr) (h : Hdr) (effs : List (XEff × IcLine)),
    s.focusBundle = some b → s.bundleThreads b = x :: xs → s.mayIssue b = true → b.ra = none → fetchHolders s x x.pc = [] →
    i.hdr? = some h → h.c = false → i.isCommit = false → i.wf = true → b.mid = none →
    fetchWords s x i.words x.pc 0 = .ok (encode i) effs →
    tileIllegal s x i = false → interlocked s (x :: xs) [⟨x.pc, i, i.words⟩] = false →
    chainWaits s b [⟨x.pc, i, i.words⟩] = false → budgetStall s (x :: xs) [⟨x.pc, i, i.words⟩] = false →
    (∀ e ∈ effs, s.xWaits e.1 = false) →
    let s1 := (s.fetched b.core effs).withSnap b
    scoreboardTraps s1 b [⟨x.pc, i, i.words⟩] x.pc = [] →
    step s = match exec i (s1.atPc b x.pc) with
      | .next t => .next (match came t b x.pc with
          | .trapped _ => (t.trapSegment b [⟨x.pc, i, i.words⟩]).unsnap
          | .again => (t.retryBundle b [⟨x.pc, i, i.words⟩]).unsnap
          | .through => State.closeChain s t b x.pc [⟨x.pc, i, i.words⟩])
      | .fault f => .fault f
      | .refused r => .refused r)
  ∧ (∀ (s : State) (e : Instr) (rest : List Instr), s.focusBundle = none → s.schedule = e :: rest →
      step s = exec e { s with schedule := rest }))
  ∧ (∀ (s : State) (b : Bundle) (x : Thread) (xs : List Thread) (is : List Instr) (effs : List (XEff × IcLine)),
    s.focusBundle = some b → s.bundleThreads b = x :: xs → s.mayIssue b = true → b.ra = none → b.mid = none → fetchHolders s x x.pc = [] →
    2 ≤ is.length → (∀ i ∈ is, i.wf = true ∧ i.isCommit = false ∧ tileIllegal s x i = false) →
    (∀ i ∈ is.dropLast, (i.hdr?.map (·.c)).getD false = true) → (∀ i ∈ is.getLast?, (i.hdr?.map (·.c)).getD false = false) →
    s.fetchesAs x is x.pc 0 = some effs → (∀ e ∈ effs, s.xWaits e.1 = false) →
    let l := membersFrom x.pc is
    chainOk l = true → interlocked s (x :: xs) l = false → chainWaits s b l = false → budgetStall s (x :: xs) l = false →
    let s1 := (s.fetched b.core effs).withSnap b
    chainStop s1 b l = none → runOrder l = l →
    (∀ m n t u, l = [m, n] → exec m.instr (s1.atPc b m.pc) = .next t → came t b m.pc = .through →
      exec n.instr (t.atPc b n.pc) = .next u → came u b n.pc = .through → step s = .next (State.closeChain s u b x.pc l))
    ∧ ∀ m n o t u v, l = [m, n, o] → exec m.instr (s1.atPc b m.pc) = .next t → came t b m.pc = .through →
      exec n.instr (t.atPc b n.pc) = .next u → came u b n.pc = .through → exec o.instr (u.atPc b o.pc) = .next v → came v b o.pc = .through →
      step s = .next (State.closeChain s v b x.pc l))
  ∧ (∀ (s t : State) (b : Bundle) (i : Instr), s.focusBundle = some b → (∀ x ∈ s.focusThreads, x.status = .live) → i.isCommit = false → pipeOf i ≠ .x → exec i s = .next t →
      t.bundle? b.id ≠ none → t.threads.map (fun y => (y.id, y.snap)) = s.threads.map fun y => (y.id, y.snap))
  ∧ (∀ (s : State) (x : Thread) (a : Word) (k : Nat) (w : BitVec 32) (e : XEff) (l : IcLine) (pa : Nat),
    (s.ctxOf x).enc = false → (∀ y ∈ (s.core x.id.core).icache, y.line ≠ lineOf pa) → pa % 4 = 0 →
    s.xlate .fetch x.id.core none (s.ctxOf x) (s.hlevel x) a .fetch (Config.freeBit (s.fresh + k)) = .ok pa e →
    canonical a = true → fetchWord s x a k = .ok w e l → w.toNat = s.readM pa 4)

/-! ### Rows 0 and 1 -/

/-- Row 0 with a fixed latency (R103): sums, differences, products, minima and maxima, as integers, in every thread whose guard
holds; gD alone is written.
Division (R104): at issue nothing is written and the result is owed; the result is the quotient or remainder of integer
division truncated toward zero, with the fixed results of R104 for a zero divisor. -/
def Obligations.RowZero : Prop :=
  (BinaryG .add 4 (fun x y => BitVec.ofNat 64 (x.toNat + y.toNat))
  ∧ BinaryG .sub 4 (fun x y => BitVec.ofInt 64 (x.toInt - y.toInt))
  ∧ BinaryG .addw 4 (fun x y => (BitVec.ofNat 32 (x.toNat + y.toNat)).signExtend 64)
  ∧ BinaryG .subw 4 (fun x y => (BitVec.ofInt 32 (x.toInt - y.toInt)).signExtend 64)
  ∧ BinaryG .mul 6 (fun x y => BitVec.ofNat 64 (x.toNat * y.toNat))
  ∧ BinaryG .mulw 6 (fun x y => (BitVec.ofNat 32 (x.toNat * y.toNat)).signExtend 64)
  ∧ BinaryG .mulh 6 (fun x y => BitVec.ofInt 64 (x.toInt * y.toInt / 2 ^ 64))
  ∧ BinaryG .mulhz 6 (fun x y => BitVec.ofNat 64 (x.toNat * y.toNat / 2 ^ 64))
  ∧ BinaryG .min 4 (fun x y => if x.toInt < y.toInt then x else y)
  ∧ BinaryG .max 4 (fun x y => if x.toInt < y.toInt then y else x)
  ∧ BinaryG .minz 4 (fun x y => if x.toNat < y.toNat then x else y)
  ∧ BinaryG .maxz 4 (fun x y => if x.toNat < y.toNat then y else x))
  ∧ (let owed := fun (mk : Hdr → Fin 32 → Fin 32 → Src2 → Instr) (v : Word → Word → Word) =>
    ∀ h d a b, RunsLanes (mk h d a b) (wordsWith b) h fun _ x y => x.Owes ⟨.g d, v (x.view.gval a) (b.g x.view), 0⟩ y
  owed .div (fun x y => if y = 0 then BitVec.allOnes 64 else BitVec.ofInt 64 (x.toInt.tdiv y.toInt))
  ∧ owed .rem (fun x y => if y = 0 then x else BitVec.ofInt 64 (x.toInt.tmod y.toInt))
  ∧ owed .divz (fun x y => if y = 0 then BitVec.allOnes 64 else BitVec.ofNat 64 (x.toNat / y.toNat))
  ∧ owed .remz (fun x y => if y = 0 then x else BitVec.ofNat 64 (x.toNat % y.toNat)))

/-- Row 1 (R105, R106), bit by bit: logic, shifts and rotation by src2[5:0], bit reversal, field extract and insert, and the two
halves of the carry-less product.
The unary forms of row 1 (R105): leading and trailing zeros, with 64 for 0, one bits, and bit reversal. -/
def Obligations.RowOne : Prop :=
  (let pos := fun (c : Word) => c.toNat % 64
  let wid := fun (c : Word) => Nat.min (c.toNat / 256 % 128) (64 - pos c)
  let prod := fun (x y : Word) (k : Nat) => (List.range (k + 1)).foldl (fun acc j => acc != (x.getLsbD (k - j) && y.getLsbD j)) false
  BinaryBits .and (fun _ x y i => x.getLsbD i && y.getLsbD i)
  ∧ BinaryBits .or (fun _ x y i => x.getLsbD i || y.getLsbD i)
  ∧ BinaryBits .xor (fun _ x y i => x.getLsbD i != y.getLsbD i)
  ∧ BinaryBits .andn (fun _ x y i => x.getLsbD i && !y.getLsbD i)
  ∧ BinaryBits .sll (fun _ x y i => decide (y.toNat % 64 ≤ i) && x.getLsbD (i - y.toNat % 64))
  ∧ BinaryBits .srl (fun _ x y i => x.getLsbD (i + y.toNat % 64))
  ∧ BinaryBits .sra (fun _ x y i => if i + y.toNat % 64 < 64 then x.getLsbD (i + y.toNat % 64) else x.getLsbD 63)
  ∧ BinaryBits .rot (fun _ x y i => x.getLsbD ((i + y.toNat % 64) % 64))
  ∧ BinaryBits .bfx (fun _ x c i =>
      if i < wid c then x.getLsbD (pos c + i) else c.getLsbD 15 && decide (wid c ≠ 0) && x.getLsbD (pos c + wid c - 1))
  ∧ BinaryBits .bfi (fun old x c i => if pos c ≤ i ∧ i < pos c + wid c then x.getLsbD (i - pos c) else old.getLsbD i)
  ∧ BinaryBits .clmul (fun _ x y i => prod x y i)
  ∧ BinaryBits .clmulh (fun _ x y i => prod x y (64 + i)))
  ∧ (UnaryG .clz (fun x v => v.toNat ≤ 64 ∧ (∀ i, i < v.toNat → x.getLsbD (63 - i) = false) ∧ (v.toNat < 64 → x.getLsbD (63 - v.toNat) = true))
  ∧ UnaryG .ctz (fun x v => v.toNat ≤ 64 ∧ (∀ i, i < v.toNat → x.getLsbD i = false) ∧ (v.toNat < 64 → x.getLsbD v.toNat = true))
  ∧ UnaryG .popc (fun x v => v.toNat = (List.range 64).countP fun i => x.getLsbD i)
  ∧ UnaryG .brev (fun x v => ∀ i, i < 64 → v.getLsbD i = x.getLsbD (63 - i)))

/-! ### Row 2 -/

/-- Compare, select and address arithmetic (R107, R108, R109). `sel` executes in every thread of the bundle, and its guard selects; one with
P = 0 and N = 1 is no instruction, and where its words are fetched the chain traps as illegal.
Predicate logic and transfer (R110, R111): `plog` combines two predicates with optional inversion; `pmov.pg` gathers p7 to p0
with bit 0 set; `pmov.gp` writes p1 to p7 from bits 7:1, as one write. -/
def Obligations.RowTwo : Prop :=
  ((∀ h c pd a b, RunsLanes (.icmp h c pd a b) (wordsWith b) h fun _ x y =>
    let u := x.view.gval a
    let v := b.g x.view
    let r : Prop := match c with | 0 => u = v | 1 => u.toInt < v.toInt | 2 => u.toNat < v.toNat | 3 => u &&& v ≠ 0
    ∃ w : Word, (w ≠ 0 ↔ r) ∧ x.Writes 4 [(.p pd, w)] y)
  ∧ (∀ h d a b, RunsLanes (.sel h d a b) (wordsWith b) ⟨h.c, h.s, false, 0⟩ fun _ x y =>
      x.Writes 4 [(.g d, if x.view.pred h.p = !h.n then x.view.gval a else b.g x.view)] y)
  ∧ (∀ c st d a b, let i := Instr.sel ⟨c, st, true, 0⟩ d a b
      (∃ e, decodeWords (encode i) = .error e)
      ∧ ∀ (s : State) (x : Thread) (pc : Word) (effs : List (XEff × IcLine)), fetchWords s x i.words pc 0 = .ok (encode i) effs →
          (chainAt s x pc).trap = some ⟨.illegal, pc, 0, false⟩)
  ∧ BinaryG .sh1add 4 (fun x y => BitVec.ofNat 64 (2 * x.toNat + y.toNat))
  ∧ BinaryG .sh2add 4 (fun x y => BitVec.ofNat 64 (4 * x.toNat + y.toNat))
  ∧ BinaryG .sh3add 4 (fun x y => BitVec.ofNat 64 (8 * x.toNat + y.toNat))
  ∧ BinaryG .sh4add 4 (fun x y => BitVec.ofNat 64 (16 * x.toNat + y.toNat)))
  ∧ ((∀ h fn pd ia pa ib pb, fn ≠ 3 → RunsLanes (.plog h fn pd ia pa ib pb) 1 h fun _ x y =>
    let u := x.view.pred pa != ia
    let v := x.view.pred pb != ib
    let r := match fn with | 0 => u && v | 1 => u || v | _ => u != v
    ∃ w : Word, (w ≠ 0 ↔ r = true) ∧ x.Writes 4 [(.p pd, w)] y)
  ∧ (∀ h d, RunsLanes (.pmovPg h d) 1 h fun _ x y => ∃ v : Word, x.Writes 4 [(.g d, v)] y ∧
      ∀ i, i < 64 → v.getLsbD i = if h : i < 8 then x.view.pred ⟨i, h⟩ else false)
  ∧ (∀ h a, RunsLanes (.pmovGp h a) 1 h fun _ x y => x.Writes 4 [(.preds, x.view.gval a)] y
      ∧ ∀ i : Fin 8, i ≠ 0 → (y.regs.pred i = true ↔ (x.view.gval a).getLsbD i.val = true)))

/-! ### Special registers and traps -/

/-- `gets` (R26, R112): where no executing thread at U asks for CAUSE, EPC or EADDR, gD takes the special register's value with
latency 4; position, shape and identity registers as R26 lists them, TSTAMP the module's count, MODE and the trap registers as the
thread reads them; CDIM, GDIM and TEAM are the values of the second clause, and ECOUNT is the count at issue, which of the values it holds
before the write is the model's choice (log 88).
The shape registers (R28): the fields of CDIM and GDIM at their places, and TEAM as the flat number they give. -/
def Obligations.SpecialReads : Prop :=
  (∀ (s : State) (h : Hdr) (d sr : Fin 32), WellFormed.specialNumber sr = true →
    (24 ≤ sr.val → ∀ x ∈ s.executing h, s.hlevel x = true) →
    ∃ t, exec (.gets h d sr) s = .next t ∧ s.Lanes t 1 h fun x y => ∃ v : Word, x.Writes 4 [(.g d, v)] y
      ∧ (sr = 0 → v.toNat = x.id.lane % 2 ^ 64) ∧ (sr = 1 → v.toNat = x.id.slot % 2 ^ 64) ∧ (sr = 2 → v.toNat = x.group % 2 ^ 64)
      ∧ (sr = 3 → v.toNat = (s.teamOf x).kernel.groups % 2 ^ 64)
      ∧ (sr = 4 → v.toNat = x.id.core % 48) ∧ (sr = 5 → v.toNat = x.id.core / 48 % 2 ^ 64)
      ∧ (sr = 6 → v.toNat = (s.teamOf x).cx % 2 ^ 64) ∧ (sr = 7 → v.toNat = (s.teamOf x).cy % 2 ^ 64)
      ∧ (sr = 9 → v.toNat = (s.teamOf x).grid.1 % 2 ^ 64) ∧ (sr = 10 → v.toNat = (s.teamOf x).grid.2.1 % 2 ^ 64)
      ∧ (sr = 11 → v.toNat = (s.teamOf x).grid.2.2 % 2 ^ 64) ∧ (sr = 19 → v.toNat = (s.ctxOf x).part % 2 ^ 64)
      ∧ (sr = 8 ∨ sr = 12 ∨ sr = 13 → v = s.special x sr.val)
      ∧ (sr = 14 → v.toNat = s.tstamp % 2 ^ 64) ∧ (sr = 15 → v = x.view.mode) ∧ (sr = 16 → v.toNat = ((x.ra.map (·.rserial)).getD x.rserial).toNat)
      ∧ (sr = 17 → v.toNat = (s.teamOf x).ecount % 2 ^ 64) ∧ (sr = 18 → v.toNat = (s.teamOf x).ctx % 2 ^ 64)
      ∧ (sr = 24 → v.toNat = x.view.cause.toNat) ∧ (sr = 25 → v = x.view.epc) ∧ (sr = 26 → v = x.view.eaddr))
  ∧ (∀ (s : State) (x : Thread), let tm := s.teamOf x
    tm.kernel.ca < 16 → tm.kernel.cb < 16 → tm.gdim.1 < 2 ^ 16 → tm.gdim.2.1 < 2 ^ 16 → tm.gdim.2.2 < 2 ^ 16 →
    let cdim := s.special x 8
    let gdim := s.special x 12
    cdim.toNat % 16 = tm.kernel.ca ∧ cdim.toNat / 16 = tm.kernel.cb
    ∧ gdim.toNat % 2 ^ 16 = tm.gdim.1 ∧ gdim.toNat / 2 ^ 16 % 2 ^ 16 = tm.gdim.2.1 ∧ gdim.toNat / 2 ^ 32 = tm.gdim.2.2
    ∧ (s.special x 13).toNat
        = (((tm.grid.2.2 * (gdim.toNat / 2 ^ 16 % 2 ^ 16) + tm.grid.2.1) * (gdim.toNat % 2 ^ 16) + tm.grid.1)
            * ((cdim.toNat % 16) * (cdim.toNat / 16)) + tm.cy * (cdim.toNat % 16) + tm.cx) % 2 ^ 64)

/-- `sets` (R27, R101, R113): where every executing thread may write the register and the value, exactly that value is written with
latency 4 (eight bits of it for CAUSE), and nothing else but that a write of MODE replaces the flags that earlier instructions of the
thread have yet to raise. -/
def Obligations.SetsSpecial : Prop :=
  ∀ (s : State) (h : Hdr) (sr : Fin 32) (b : Src2),
    (24 ≤ sr.val → ∀ x ∈ s.executing h, s.hlevel x = true) →
    (sr = 15 → ∀ x ∈ s.executing h, let v := b.g x.view
      v.extractLsb' 12 52 = 0 ∧ (v.extractLsb' 5 3).toNat ≤ 4 ∧ v.extractLsb' 10 2 ≠ 3) →
    (sr = 24 → ∀ x ∈ s.executing h, (b.g x.view).extractLsb' 8 56 = 0) →
    WellFormed.specialWritable sr = true →
    ∃ t, exec (.sets h sr b) s = .next t ∧ s.Lanes t (wordsWith b) h fun x y =>
      ∃ n, (n = RegName.mode ∧ sr = 15 ∨ n = .cause ∧ sr = 24 ∨ n = .epc ∧ sr = 25 ∨ n = .eaddr ∧ sr = 26)
        ∧ ({ x with results := y.results } : Thread).Writes 4 [(n, b.g x.view)] y ∧ y.regs.get n = b.g x.view
        ∧ (sr ≠ 15 → y.results = x.results) ∧ y.results.length = x.results.length
        ∧ (∀ (k : Nat) (p q : PendRes), x.results[k]? = some p → y.results[k]? = some q → q.dst = p.dst ∧ q.val = p.val
            ∧ (q.flags = p.flags ∨ sr = 15 ∧ x.ra = none ∧ q.flags = 0))

/-- Taking a trap at U (R40, R139, R338).
Taking a trap at H (R40): the group of the bundle stops, and every bundle of other groups stays. -/
def Obligations.TakingTraps : Prop :=
  (∀ (s : State) (b : Bundle) (traps : List Trap) (resume : Option Word), s.IssuesAt b false →
    (∀ p ∈ traps, ∃ x ∈ s.focusThreads, x.id = p.thread) →
    s.TookTraps (s.takeTraps traps resume) b traps resume)
  ∧ (∀ (s : State) (b : Bundle) (x0 : Thread) (xs : List Thread) (traps : List Trap) (resume : Option Word), s.focusBundle = some b →
    b.ra = none → s.focusThreads = x0 :: xs → s.hlevel x0 = true → s.FrozeGroup (s.takeTraps traps resume) x0 traps)

/-- What is reserved to H (R39): at U, `gets` and `sets` of CAUSE, EPC and EADDR, the three `tlbi` and the three `hresume` take a
privilege trap in every executing thread and have no other effect.
FRM of 5 to 7 (R27): an instruction that rounds by MODE.FRM, `fcvt` with every code but the four that widen among them, takes an illegal-instruction trap in the threads that hold it, and has
no other effect. -/
def Obligations.FormsThatTrap : Prop :=
  (∀ (s : State) (b : Bundle) (h : Hdr) (d a sr : Fin 32) (src : Src2) (i : Instr), s.IssuesAt b false →
    (∀ x ∈ s.executing h, s.hlevel x = false) → s.executing h ≠ [] →
    ((i = .gets h d sr ∨ i = .sets h sr src) ∧ 24 ≤ sr.val ∧ sr.val ≤ 26 ∨ i = .tlbiPage h d a ∨ i = .tlbiCtx h d ∨ i = .tlbiPart h d
      ∨ i = .hresumeRetry h a ∨ i = .hresumeKill h a ∨ i = .hresumeTerm h a) →
    ∃ t, exec i s = .next t
      ∧ s.TookTraps t b ((s.executing h).map fun x => ⟨x.id, .privilege, x.pc, 0, 0, false⟩) none)
  ∧ (∀ (s : State) (b : Bundle) (h : Hdr) (d a : Fin 32) (src : Src2) (i : Instr), s.IssuesAt b false →
    i ∈ [.faddS h d a src, .fsubS h d a src, .fmulS h d a src, .ffmaS h d a src, .fdivS h d a src, .fsqrtS h d a, .faddD h d a src,
         .fsubD h d a src, .fmulD h d a src, .ffmaD h d a src, .fdivD h d a src, .fsqrtD h d a, .pfmaH h d a src, .pfmaB h d a src,
         .fdotH h d a src, .fdotB h d a src, .paddH h d a src, .pmulH h d a src]
      ++ ([0, 2, 4, 6, 7, 8, 9, 10, 11, 12, 13, 14, 15, 16, 17, 18, 19, 20, 21, 22, 24, 25] : List (Fin 32)).map (.fcvt h d a) →
    (∃ x ∈ s.executing h, 5 ≤ x.view.frm) →
    ∃ t, exec i s = .next t
      ∧ s.TookTraps t b (((s.executing h).filter fun x => decide (5 ≤ x.view.frm)).map fun x => ⟨x.id, .illegal, x.pc, 0, 0, false⟩) none)

/-! ### Rows 3 and 4 -/

/-- Rounded scalar arithmetic (R25, R97, R114): sources unboxed, one rounding by MODE.FRM, the result boxed and the flags set with
latency 6; `ffma` adds fD.
Divide and square root (R55, R114): nothing is written at issue; the rounded result and its flags are owed. -/
def Obligations.ScalarRounded : Prop :=
  (RoundsFF .s .faddS fAdd ∧ RoundsFF .s .fsubS fSub ∧ RoundsFF .s .fmulS fMul
  ∧ RoundsFF .d .faddD fAdd ∧ RoundsFF .d .fsubD fSub ∧ RoundsFF .d .fmulD fMul
  ∧ (∀ (h : Hdr) (d a : Fin 32) (b : Src2), ∀ p ∈ [(FWidth.s, Instr.ffmaS h d a b), (.d, .ffmaD h d a b)],
      Rounds p.2 (wordsWith b) h fun x y =>
        let r := fFma p.1.fmt x.view.frm (p.1.read (x.view.fval a)) (p.1.read (b.f x.view)) (p.1.read (x.view.fval d))
        x.Writes 6 ((.f d, p.1.boxed r.bits) :: x.flagWrites r.flags) y))
  ∧ (∀ (h : Hdr) (d a : Fin 32) (b : Src2),
    (∀ p ∈ [(FWidth.s, Instr.fdivS h d a b), (.d, .fdivD h d a b)], Rounds p.2 (wordsWith b) h fun x y =>
      let r := fDiv p.1.fmt x.view.frm (p.1.read (x.view.fval a)) (p.1.read (b.f x.view))
      x.Owes ⟨.f d, p.1.boxed r.bits, r.flags⟩ y)
    ∧ ∀ p ∈ [(FWidth.s, Instr.fsqrtS h d a), (.d, .fsqrtD h d a)], Rounds p.2 1 h fun x y =>
      let r := fSqrt p.1.fmt x.view.frm (p.1.read (x.view.fval a))
      x.Owes ⟨.f d, p.1.boxed r.bits, r.flags⟩ y)

/-- Minimum, maximum and compare (R116, R117): neither rounds nor reads FRM; NaNs, zeros and the conditions as the reference lists
them.
Conversions, unary functions and moves (R118-R126): the converted value goes to the class that the code names, with its flags and
latency 6; sign operations and the class mask set no flag; approximate functions have latency 8; a move copies all 64 bits. -/
def Obligations.ScalarUnrounded : Prop :=
  ((∀ (h : Hdr) (d a : Fin 32) (b : Src2),
    ∀ p ∈ [(FWidth.s, false, Instr.fminS h d a b), (.s, true, .fmaxS h d a b), (.d, false, .fminD h d a b), (.d, true, .fmaxD h d a b)],
      RunsLanes p.2.2 (wordsWith b) h fun _ x y =>
        let u := p.1.read (x.view.fval a)
        let v := p.1.read (b.f x.view)
        let fu := p.1.fmt.decode u
        let fv := p.1.fmt.decode v
        ∃ r : Nat, x.Writes 6 ((.f d, p.1.boxed r) :: x.flagWrites (if fu.isSNan || fv.isSNan then 16 else 0)) y
          ∧ (fu.isNan = true → fv.isNan = true → r = p.1.fmt.nanCode)
          ∧ (fu.isNan = true → fv.isNan = false → r = v) ∧ (fu.isNan = false → fv.isNan = true → r = u)
          ∧ (fu.isNan = false → fv.isNan = false → (fu.isZero && fv.isZero) = false →
              r = if (FV.cmp fu fv < 0) = (p.2.1 = false) then u else v)
          ∧ (fu.isZero = true → fv.isZero = true → (p.1.fmt.decode r).neg? = (if p.2.1 then fu.neg? && fv.neg? else fu.neg? || fv.neg?)))
  ∧ (∀ (h : Hdr) (c : Fin 4) (pd : Fin 8) (a : Fin 32) (b : Src2),
    ∀ p ∈ [(FWidth.s, Instr.fcmpS h c pd a b), (.d, .fcmpD h c pd a b)],
      RunsLanes p.2 (wordsWith b) h fun _ x y =>
        let fu := p.1.fmt.decode (p.1.read (x.view.fval a))
        let fv := p.1.fmt.decode (p.1.read (b.f x.view))
        let un := fu.isNan || fv.isNan
        let nv := (fu.isSNan || fv.isSNan) || (un && (c == 1 || c == 2))
        let r : Prop := match c with
          | 0 => un = false ∧ FV.cmp fu fv = 0
          | 1 => un = false ∧ FV.cmp fu fv < 0
          | 2 => un = false ∧ FV.cmp fu fv ≤ 0
          | 3 => un = true
        ∃ w : Word, (w ≠ 0 ↔ r) ∧ x.Writes 6 ((.p pd, w) :: x.flagWrites (if nv then 16 else 0)) y))
  ∧ ((∀ (h : Hdr) (d a code : Fin 32), code.val ≤ 25 →
    (∀ s : State, (code.val ∈ [1, 3, 5, 23] ∨ ∀ x ∈ s.executing h, x.view.frm < 5) → ∃ t, exec (.fcvt h d a code) s = .next t ∧
      s.Lanes t 1 h fun x y =>
        let r := fcvtRes code x.view.frm (if 14 ≤ code.val ∧ code.val ≤ 21 then x.view.gval a else x.view.fval a)
        x.Writes 6 ((if 6 ≤ code.val ∧ code.val ≤ 13 then .g d else .f d, r.val) :: x.flagWrites r.flags) y))
  ∧ (∀ (h : Hdr) (d a code : Fin 32), code.val ≤ 9 → ∀ p ∈ [(FWidth.s, Instr.funaryS h d a code), (.d, .funaryD h d a code)],
      RunsLanes p.2 1 h fun _ x y =>
        let u := p.1.read (x.view.fval a)
        let sign := 2 ^ (p.1.fmt.bits - 1)
        match code.val with
        | 0 => ∃ v, x.Writes 6 [(.f d, p.1.boxed v)] y ∧ v % sign = u % sign ∧ v / sign + u / sign = 1
        | 1 => x.Writes 6 [(.f d, p.1.boxed (u % sign))] y
        | 2 => x.Writes 6 [(.g d, BitVec.ofNat 64 (fClass p.1.fmt u))] y
        | k => let r := approxFn p.1.fmt k u
               x.Writes 8 ((.f d, p.1.boxed r.bits) :: x.flagWrites r.flags) y)
  ∧ ∀ (h : Hdr) (d a : Fin 32),
      RunsLanes (.fmv h d a 0) 1 h (fun _ x y => x.Writes 6 [(.f d, x.view.gval a)] y)
      ∧ RunsLanes (.fmv h d a 1) 1 h (fun _ x y => x.Writes 6 [(.g d, x.view.fval a)] y)
      ∧ RunsLanes (.fmv h d a 2) 1 h (fun _ x y => x.Writes 6 [(.f d, x.view.fval a)] y))

/-- Packed arithmetic (R127-R131): four halves with one rounding each and their flags ORed, the dot products, and the byte
selection. -/
def Obligations.Packed : Prop :=
  let four := fun (i : Instr) (n : Nat) (h : Hdr) (d : Fin 32) (op : Thread → Nat → FRes) =>
    Rounds i n h fun x y => ∃ v : Word, x.Writes 6 ((.f d, v) :: x.flagWrites
        ((op x 0).flags ||| (op x 1).flags ||| (op x 2).flags ||| (op x 3).flags)) y
      ∧ ∀ k, k < 4 → half v k = (op x k).bits
  (∀ (h : Hdr) (d a : Fin 32) (b : Src2),
    let lane := fun (r : Thread → Word) (x : Thread) (k : Nat) => half (r x) k
    let A := lane fun x => x.view.fval a
    let B := lane fun x => b.f x.view
    let D := lane fun x => x.view.fval d
    four (.paddH h d a b) (wordsWith b) h d (fun x k => fAdd .fp16 x.view.frm (A x k) (B x k))
    ∧ four (.pmulH h d a b) (wordsWith b) h d (fun x k => fMul .fp16 x.view.frm (A x k) (B x k))
    ∧ four (.pfmaH h d a b) (wordsWith b) h d (fun x k => fFma .fp16 x.view.frm (A x k) (B x k) (D x k))
    ∧ four (.pfmaB h d a b) (wordsWith b) h d (fun x k => fFma .bf16 x.view.frm (A x k) (B x k) (D x k))
    ∧ (∀ p ∈ [(Fmt.fp16, Instr.fdotH h d a b), (.bf16, .fdotB h d a b)], Rounds p.2 (wordsWith b) h fun x y =>
        let r := fDot p.1 x.view.frm (unbox32 (x.view.fval d)).toNat
          [(A x 0, B x 0), (A x 1, B x 1), (A x 2, B x 2), (A x 3, B x 3)]
        x.Writes 6 ((.f d, box32 (BitVec.ofNat 32 r.bits)) :: x.flagWrites r.flags) y)
    ∧ RunsLanes (.idotB h d a b) (wordsWith b) h (fun _ x y =>
        let e := fun (w : Word) (k : Nat) => (w.extractLsb' (8 * k) 8).toInt
        let sum := ((x.view.gval d).setWidth 32).toInt + ((List.range 8).map fun k => e (x.view.fval a) k * e (b.f x.view) k).sum
        x.Writes 6 [(.g d, BitVec.ofInt 64 (max (-2147483648) (min sum 2147483647)))] y)
    ∧ RunsLanes (.pshuf h d a b) (wordsWith b) h (fun _ x y => ∃ v : Word, x.Writes 6 [(.f d, v)] y ∧
        ∀ k, k < 8 → let c := (b.f x.view).toNat / 16 ^ k % 16
          byteOf v k = if c < 8 then byteOf (x.view.fval a) c else byteOf (x.view.fval d) (c - 8)))

/-- Rounding is exact on what a format holds (R72, R88): the value of every finite encoding, and of every infinity, rounds to that
encoding in every mode, with no flag.
Addition, subtraction, multiplication and multiply-add of finite operands give RoundTo of the exact result, rounded once (R97, R114); an exact
zero sum has the sign of R115. Division and square root round the exact result: of any truncation of it to at least four bits beyond the
format's, with whether anything was cut off; division by zero, 0 ÷ 0 and the root of a negative value are those of R115.
A NaN operand gives the canonical NaN and raises NV exactly when one is signalling, in every operation of rows 3 and 4 that
computes; 0 × ∞ in a multiply-add is invalid besides (R91, R115). So do conversions between formats, rounding to an integral value and
the approximate functions (R119, R122, R125); a NaN converts to the largest integer with NV (R120); and a dot product is NaN for a NaN
term, invalid besides for 0 × ∞ and for infinite terms of both signs (R129). -/
def Obligations.RoundingResults : Prop :=
  (∀ f ∈ [Fmt.fp64, .fp32, .bf16, .fp16, .e4m3, .e5m2, .e3m2, .e2m3, .e2m1], ∀ (rm code : Nat) (sat : Bool), rm ≤ 4 →
    code < 2 ^ f.bits → (f.decode code).isNan = false → ((f.decode code).isInf = true → sat = false) →
    roundTo f rm sat (f.decode code) = ⟨code, 0⟩)
  ∧ (∀ f ∈ [Fmt.fp64, .fp32, .bf16, .fp16], ∀ (rm a b c : Nat) (na nb nc : Bool) (ma mb mc : Nat) (ea eb ec : Int),
    f.decode a = .fin na ma ea → f.decode b = .fin nb mb eb → f.decode c = .fin nc mc ec →
    (∀ k : Int, k ≤ ea → k ≤ eb → 2 * k ≤ ec →
      let x := (f.decode a).scaled k
      let y := (f.decode b).scaled k
      let z := (f.decode c).scaled (2 * k)
      (∀ (n : Bool) (m : Nat) (e : Int), m ≠ 0 →
        let v := FV.fin n m e
        (k ≤ e → v.scaled k = x + y → fAdd f rm a b = roundTo f rm false v)
        ∧ (k ≤ e → v.scaled k = x - y → fSub f rm a b = roundTo f rm false v)
        ∧ (2 * k ≤ e → v.scaled (2 * k) = x * y → fMul f rm a b = roundTo f rm false v)
        ∧ (2 * k ≤ e → v.scaled (2 * k) = x * y + z → fFma f rm a b c = roundTo f rm false v))
      ∧ (x + y = 0 → fAdd f rm a b = ⟨f.signed (if ma = 0 ∧ na = nb then na else rm == 2) 0, 0⟩)
      ∧ (x - y = 0 → fSub f rm a b = ⟨f.signed (if ma = 0 ∧ na = !nb then na else rm == 2) 0, 0⟩)
      ∧ (x * y = 0 → fMul f rm a b = ⟨f.signed (na != nb) 0, 0⟩)
      ∧ (x * y + z = 0 → fFma f rm a b c = ⟨f.signed (if mc = 0 ∧ (na != nb) = nc then nc else rm == 2) 0, 0⟩))
    ∧ (ma ≠ 0 → mb ≠ 0 → ∀ (m : Nat) (k e : Int), k ≤ ea → k ≤ eb → 2 ^ (f.mbits + 3) ≤ m →
        let num := ma * 2 ^ (ea - k).toNat * 2 ^ (-e).toNat
        let den := mb * 2 ^ (eb - k).toNat * 2 ^ e.toNat
        m * den ≤ num → num < (m + 1) * den → fDiv f rm a b = roundFin f rm false (na != nb) m e (m * den != num))
    ∧ (ma = 0 → mb ≠ 0 → fDiv f rm a b = ⟨f.signed (na != nb) 0, 0⟩)
    ∧ (ma ≠ 0 → mb = 0 → fDiv f rm a b = ⟨infCode f (na != nb) false, flagDZ⟩)
    ∧ (ma = 0 → mb = 0 → fDiv f rm a b = ⟨f.nanCode, flagNV⟩)
    ∧ (ma ≠ 0 → na = false → ∀ (m : Nat) (e : Int), 2 ^ (f.mbits + 3) ≤ m →
        let x := ma * 2 ^ (ea - 2 * e).toNat
        let one := 2 ^ (2 * e - ea).toNat
        m ^ 2 * one ≤ x → x < (m + 1) ^ 2 * one → fSqrt f rm a = roundFin f rm false false m e (m ^ 2 * one != x))
    ∧ (ma ≠ 0 → na = true → fSqrt f rm a = ⟨f.nanCode, flagNV⟩) ∧ (ma = 0 → fSqrt f rm a = ⟨f.signed na 0, 0⟩))
  ∧ (∀ f ∈ [Fmt.fp64, .fp32, .bf16, .fp16], ∀ (rm a b c : Nat),
    let u := f.decode a
    let v := f.decode b
    let w := f.decode c
    let nv := fun (x : Bool) => if x then (16 : BitVec 5) else 0
    ((u.isNan || v.isNan) = true →
      fAdd f rm a b = ⟨f.nanCode, nv (u.isSNan || v.isSNan)⟩ ∧ fSub f rm a b = ⟨f.nanCode, nv (u.isSNan || v.isSNan)⟩
      ∧ fMul f rm a b = ⟨f.nanCode, nv (u.isSNan || v.isSNan)⟩ ∧ fDiv f rm a b = ⟨f.nanCode, nv (u.isSNan || v.isSNan)⟩)
    ∧ ((u.isNan || v.isNan || w.isNan) = true → fFma f rm a b c = ⟨f.nanCode,
        nv (u.isSNan || v.isSNan || w.isSNan || (u.isInf && v.isZero) || (u.isZero && v.isInf))⟩)
    ∧ (u.isNan = true → fSqrt f rm a = ⟨f.nanCode, nv u.isSNan⟩ ∧ fRound f rm a = ⟨f.nanCode, nv u.isSNan⟩
        ∧ (∀ g ∈ [Fmt.fp64, .fp32, .bf16, .fp16], fConv f g rm a = ⟨g.nanCode, nv u.isSNan⟩)
        ∧ (∀ lo hi, fToInt f rm lo hi a = (hi, 16)) ∧ ∀ code, approxFn f code a = ⟨f.nanCode, nv u.isSNan⟩))
  ∧ ∀ el ∈ [Fmt.fp16, .bf16], ∀ (rm c : Nat) (ps : List (Nat × Nat)),
    let w := Fmt.fp32.decode c
    let bad := fun (p : Nat × Nat) => let u := el.decode p.1
      let v := el.decode p.2
      (u.isInf && v.isZero) || (u.isZero && v.isInf)
    let infinite := fun (neg : Bool) => w == .inf neg || ps.any fun p => (FV.mul (el.decode p.1) (el.decode p.2)).1 == .inf neg
    let invalid := w.isSNan || (ps.any fun p => (el.decode p.1).isSNan || (el.decode p.2).isSNan || bad p) || (infinite true && infinite false)
    (w.isNan || (ps.any fun p => (el.decode p.1).isNan || (el.decode p.2).isNan) || invalid) = true →
      fDot el rm c ps = ⟨Fmt.fp32.nanCode, if invalid then 16 else 0⟩

/-! ### Row 5 -/

/-- Row 5 at issue (R136, R138, R139, R141-R144, R150-R154, R157, R162, R166, R244, R251): where no walk waits for a Publish or for a
page move's lock on a PTE, no thread has four loads outstanding (for a load) and every check passes, the accesses of the executing
threads are issued. -/
def Obligations.MemoryIssue : Prop :=
  ∀ (s : State) (h : Hdr) (d a b : Fin 32) (e : Exts) (cond : Fin 4) (pd : Fin 8), s.IdsDistinct →
    ∀ p ∈ memForms s h d a b e cond pd, p.1.instr.wf = true →
      (p.1.load = true → ∀ x ∈ s.executing h, (x.pending.filter State.isLoad).length < 4) →
      s.walkHolders ((s.performs h p.1).map fun x => (x, (p.1.req x).probe.ea)) = [] →
      (∀ x ∈ s.performs h p.1, ∃ loc eff, s.checked p.1 x = .ok loc eff ∧ (s.checked p.1 x).waits s = false) →
      ∃ t, exec p.1.instr s = .next t ∧ s.Issued t h p.1 p.2

/-- A fault in any executing thread performs the instruction for none (R139): at U, every thread whose check fails takes its trap at
the instruction, with the address and the cause the check found, and nothing else happens but that the walks of the accesses whose
translation was good have set A and D and filled the TLBs (R301, R303).
The order of the checks (R138): canonical address, alignment, place, translation; a misaligned address in a page that does not
exist is an alignment trap, and a non-canonical one an access fault whatever its alignment. -/
def Obligations.MemoryChecks : Prop :=
  (∀ (s : State) (bd : Bundle) (h : Hdr) (d a b : Fin 32) (e : Exts) (cond : Fin 4) (pd : Fin 8), s.IssuesAt bd false →
    ∀ p ∈ memForms s h d a b e cond pd,
      (p.1.load = true → ∀ x ∈ s.executing h, (x.pending.filter State.isLoad).length < 4) →
      s.walkHolders ((s.performs h p.1).map fun x => (x, (p.1.req x).probe.ea)) = [] →
      (∀ x ∈ s.performs h p.1, (s.usedBy p.1 x).all (fun e => !s.xWaits e) = true) →
      (∃ x ∈ s.performs h p.1, ∃ c, s.checked p.1 x = .fault c) →
      ∃ t traps, exec p.1.instr s = .next t ∧ (s.applyXEffs ((s.performs h p.1).filterMap (s.usedBy p.1))).TookTraps t bd traps none
        ∧ (∀ q ∈ traps, ∃ x ∈ s.performs h p.1, s.checked p.1 x = .fault q.cause ∧ q.thread = x.id ∧ q.epc = x.pc
            ∧ q.eaddr = (p.1.req x).probe.ea)
        ∧ ∀ x ∈ s.performs h p.1, ∀ c, s.checked p.1 x = .fault c → ∃ q ∈ traps, q.thread = x.id ∧ q.cause = c)
  ∧ (∀ (s : State) (x : Thread) (p : Probe) (pick : Bool), 0 < p.size →
    (canonical p.ea = false → s.check x p pick = .fault .access)
    ∧ (canonical p.ea = true → p.ea.toNat % p.size ≠ 0 → s.check x p pick = .fault .alignment)
    ∧ (canonical p.ea = true → p.ea.toNat % p.size = 0 → inAperture p.ea = true → p.place = .device → s.check x p pick = .fault .access)
    ∧ (canonical p.ea = true → p.ea.toNat % p.size = 0 → inAperture p.ea = false → p.place = .aperture →
        s.check x p pick = .fault .access)
    ∧ (∀ loc eff, s.check x p pick = .ok loc eff → canonical p.ea = true ∧ p.ea.toNat % p.size = 0
        ∧ (match loc with
           | .sp c off => inAperture p.ea = true ∧ ∃ m ∈ s.teams ++ [Team.reset], m.core = c ∧ m.rowLo * 1024 ≤ off
               ∧ off + p.size ≤ (m.rowLo + m.kernel.srows) * 1024
           | .dev pa => inAperture p.ea = false ∧ (State.watched (s.ctxOf x) pa p.size p.want = true → x.passWatch = some x.pc))))

/-- `ldnr` (R146): a fault of a check other than a watchpoint writes 0 and false and does not trap; the others load.
`pref` and `pgreq` (R147, R148): neither ever traps; `pref` writes no register, and M changes but for A and D bits only where a Publish
that it asks for drains; `pgreq` gives 0 for an address that is not canonical or lies in the aperture, and otherwise 0 where the page may
be read, or nothing yet and a page-request entry whose ticket is to be written to gD. -/
def Obligations.NonResident : Prop :=
  (∀ (s : State) (h : Hdr) (d a b : Fin 32) (e : Exts), s.IdsDistinct →
    let pr : Fin 8 := ⟨4 + b.val / 8 % 4, by omega⟩
    let probe := fun (x : Thread) => (⟨effAddr (x.view.gval a) e, sizeBytes (b.val % 8), .read, .any, true⟩ : Probe)
    (∀ x ∈ s.executing h, (x.pending.filter State.isLoad).length < 4) →
    s.walkHolders ((s.executing h).map fun x => (x, (probe x).ea)) = [] →
    (∀ x ∈ s.executing h, s.check x (probe x) (s.stalePick x.id.lane) ≠ .fault .watchpoint
      ∧ (s.check x (probe x) (s.stalePick x.id.lane)).waits s = false) →
    ∃ t, exec (.ldnr h d a b e) s = .next t ∧ t.bundles = s.bundles ∧ t.teams = s.teams ∧ s.StoresKept t
      ∧ s.MemBut t (s.executing h) (fun x => s.check x (probe x) (s.stalePick x.id.lane))
      ∧ ∀ (k : Nat) (x y : Thread), s.threads[k]? = some x → t.threads[k]? = some y →
        let old := y.pending.take x.pending.length
        old.map Access.unwoken = x.pending.map Access.unwoken
        ∧ (s.inFocus x = false → y = { x with pending := old })
        ∧ (s.inFocus x = true → y.pc = x.pc + BitVec.ofNat 64 (4 * extsWords e))
        ∧ (s.inFocus x = true → x.guard h = false → y = { x with pc := y.pc, pending := old })
        ∧ (s.inFocus x = true → x.guard h = true →
            (∀ c, s.check x (probe x) (s.stalePick x.id.lane) = .fault c →
              ({ x with pending := old } : Thread).Writes 0 [(.g d, 0), (.p pr, 0)] y)
            ∧ ∀ loc eff, s.check x (probe x) (s.stalePick x.id.lane) = .ok loc eff →
              y = { x with pc := y.pc, passWatch := y.passWatch
                           pending := old ++ [{ iid := s.nextId, iaddr := x.pc, va := (probe x).ea
                                                kind := .ld ⟨false, d, b.val % 8, some pr⟩, loc := loc, size := sizeBytes (b.val % 8)
                                                data := 0, serial := x.rserial, hint := .normal, begun := false, replay := false }] }))
  ∧ (∀ (s : State) (h : Hdr) (d a b : Fin 32) (e : Exts),
    s.walkHolders ((s.executing h).map fun x => (x, effAddr (x.view.gval a) e)) = [] →
    (∃ t, exec (.pref h a b e) s = .next t ∧ t.reports = s.reports ∧ t.bundles = s.bundles ∧ t.threads.length = s.threads.length
      ∧ (∀ (k : Nat) (x y : Thread), s.threads[k]? = some x → t.threads[k]? = some y →
          y = { x with pc := if s.inFocus x then x.pc + BitVec.ofNat 64 (4 * extsWords e) else x.pc, pending := y.pending }
          ∧ y.pending.map Access.unwoken = x.pending.map Access.unwoken)
      ∧ ∀ adr, ¬s.Buffered adr → Memory.read t.mem adr ||| 0xC0 = Memory.read s.mem adr ||| 0xC0)
    ∧ (∃ t, exec (.pgreq h d a e) s = .next t ∧ t.bundles = s.bundles ∧ t.threads.length = s.threads.length
      ∧ (∃ rs, t.reports = s.reports ++ rs ∧ ∀ r ∈ rs, r.kind = 1 ∧ r.cause = .pageRequest ∧ ∃ x ∈ s.executing h,
          r.waiter = .reg x.id d ∧ r.eaddr = effAddr (x.view.gval a) e ∧ canonical r.eaddr = true ∧ inAperture r.eaddr = false)
      ∧ (∀ (k : Nat) (x y : Thread), s.threads[k]? = some x → t.threads[k]? = some y →
          y.pending.map Access.unwoken = x.pending.map Access.unwoken
          ∧ (s.inFocus x = false → y = { x with pending := y.pending })
          ∧ (s.inFocus x = true → y.pc = x.pc + BitVec.ofNat 64 (4 * extsWords e))
          ∧ (s.inFocus x = true → x.guard h = false → y = { x with pc := y.pc, pending := y.pending })
          ∧ (s.IdsDistinct → s.inFocus x = true → x.guard h = true →
              let ea := effAddr (x.view.gval a) e
              let zero := ({ x with pending := y.pending } : Thread).Writes 0 [(.g d, 0)] y
              let asked := y = { x with pc := y.pc, pending := y.pending }
                ∧ ∃ r ∈ t.reports, r.kind = 1 ∧ r.waiter = .reg x.id d ∧ r.eaddr = ea
              (zero ∨ asked) ∧ (canonical ea = false ∨ inAperture ea = true → zero)
              ∧ (s.executing h = [x] → canonical ea = true → inAperture ea = false →
                  match s.xlate .access x.id.core (some x.id.lane) (s.ctxOf x) (s.hlevel x) ea .read (s.stalePick x.id.lane) with
                  | .ok _ _ => zero
                  | .fault _ => asked)))
      ∧ ∀ adr, Memory.read t.mem adr ||| 0xC0 = Memory.read s.mem adr ||| 0xC0)
    ∧ ((∀ x ∈ s.executing h, canonical (effAddr (x.view.gval a) e) = false ∨ inAperture (effAddr (x.view.gval a) e) = true) →
        s.IdsDistinct → ∃ t, exec (.pgreq h d a e) s = .next t ∧ ({ s with fresh := s.fresh + 128 } : State).Lanes t (extsWords e) h fun x y => x.Writes 0 [(.g d, 0)] y))

/-- `fence` and `pfence` at issue (R155, R156): at THREAD scope a fence has no effect; any other puts one access on each executing
thread's list, and the bundle goes on.
Fence (t, f) (R248, R250, R261): an acquire changes no buffer; a release places a marker after the entries of its core's buffer, whose
lines a narrow one holds; a full fence places its marker and waits until no entry stands before it; a `pfence` performs once the
checkpoint of its region is durable, and for the module form none of its stores is left in the buffer. Where the tables of R298 have room for the
lines, memory does not change, and it changes nowhere but in what a buffer holds. -/
def Obligations.Fences : Prop :=
  ((∀ (h : Hdr) (b : Fin 32), b.val / 4 % 8 = 0 → RunsLanes (.fence h b) 1 h fun _ x y => y = { x with pc := y.pc })
  ∧ ∀ (s : State) (h : Hdr) (b : Fin 32), ∀ p ∈ [(Instr.pfenceCore h, AccKind.pfence false), (.pfenceModule h, .pfence true)]
        ++ (if b.val / 4 % 8 = 0 then [] else [(Instr.fence h b, .fence ⟨b.val % 4, by omega⟩ (scope3 (b.val / 4)))]),
      ∃ t, exec p.1 s = .next t ∧ t.nextId = s.nextId + 1 ∧ ({ s with nextId := s.nextId + 1 } : State).Lanes t 1 h fun x y =>
        ∃ a : Access, y = { x with pc := y.pc, pending := x.pending ++ [a] } ∧ a.iid = s.nextId ∧ a.kind = p.2 ∧ a.size = 0
          ∧ a.serial = x.rserial ∧ a.iaddr = x.pc)
  ∧ (∀ (s : State) (id : ThreadId) (x : Thread) (k : Nat) (a : Access), s.thread? id = some x → eligible x k = some a →
    (∀ kind sc, a.kind = .fence kind sc →
      let tb := (s.core id.core).tb
      let room := (placeMarker s id.core sc.narrow).tagOver = none
      let marked := fun (t : State) => (t.core id.core).tb = tb ++ [.marker s.nextId] ∧ (sc.narrow = true → s.HoldsBuffer t id.core)
      (kind = 0 → ∃ t, exec (.fencePerform id k) s = .next t ∧ t = { s with threads := t.threads } ∧ s.At t id (Thread.Performed k [] none))
      ∧ (kind = 1 ∨ kind = 2 → ∃ t, exec (.fencePerform id k) s = .next t
          ∧ (∃ y, t.thread? id = some y ∧ y.regs = x.regs ∧ ∀ q ∈ y.pending, q.iid ≠ k)
          ∧ (∀ adr, ¬s.Buffered adr → Memory.read t.mem adr = Memory.read s.mem adr)
          ∧ (room → t.mem = s.mem ∧ s.At t id (Thread.Performed k [] none) ∧ (tb ≠ [] → marked t)))
      ∧ (kind = 3 → (if a.data = 0 then tb = [] else markerGone s id.core (a.data - 1) = true) →
          ∃ t, exec (.fencePerform id k) s = .next t ∧ t = { s with threads := t.threads } ∧ s.At t id (Thread.Performed k [] none))
      ∧ (kind = 3 → a.data ≠ 0 → markerGone s id.core (a.data - 1) = false → exec (.fencePerform id k) s = .next s)
      ∧ (kind = 3 → a.data = 0 → tb ≠ [] → room → ∃ t, exec (.fencePerform id k) s = .next t ∧ t.mem = s.mem ∧ marked t
          ∧ s.At t id fun y z => z = { y with pending := y.pending.map fun q => if q.iid = k then { q with data := s.nextId + 1 } else q }))
    ∧ (∀ m, a.kind = .pfence m → x.gateOpen a.serial = true →
        (m = true → ∀ e sec msk dat con, TbItem.entry e sec msk dat con ∈ (s.core id.core).tb → ∀ w ∈ con, w.1 ≠ id) →
        ∃ t, exec (.fencePerform id k) s = .next t ∧ s.At t id (Thread.Performed k [] none) ∧ t = { s with threads := t.threads }))

/-- Translation (R32, R38, R299-R304): a walk's leaf is a valid PTE of memory whose page holds the address, aligned, of one of three
sizes, with the PTE's permissions; an access that translates has the permission and the privilege it needs; a WALK that finds a leaf
sets A, and D for a write to a writable page, fills the TLB and changes no other byte, unless a page move has locked the PTE (R310);
one that finds none fills nothing.
`tlbi` at H (R39, R159, R304): once no access that used a swept translation is pending, the page's, context's or partition's
translations leave the latches and TLBs of every core, with the instruction-cache lines fetched through them and the walk-cache entries of
the contexts; every other entry and line stays, and of each thread only the address changes. -/
def Obligations.TranslationTlbs : Prop :=
  ((∀ (s : State) (c : Context) (va : Word) (e : TlbEntry) (a : Nat) (p : Word) (nl : List (Nat × Nat × Nat × Nat)),
    s.walkTables c va = .leaf e a p nl →
      p.toNat = s.readM a 8 ∧ p.getLsbD 0 = true ∧ (e.size = 0x10000 ∨ e.size = 0x200000 ∨ e.size = 0x40000000)
      ∧ e.vbase ≤ va.toNat % 2 ^ 57 ∧ va.toNat % 2 ^ 57 < e.vbase + e.size ∧ e.vbase % e.size = 0 ∧ e.pbase % e.size = 0
      ∧ e.ctx = c.id ∧ e.r = p.getLsbD 1 ∧ e.w = p.getLsbD 2 ∧ e.x = p.getLsbD 3 ∧ e.u = p.getLsbD 4 ∧ (e.r || e.w || e.x) = true
      ∧ e.tag = p.toNat / 2 ^ 54 % 4 ∧ p.toNat / 2 ^ 56 % 2 ^ 7 = 0)
  ∧ (∀ (s : State) (kind : TlbKind) (core : Nat) (lane : Option Nat) (c : Context) (hl : Bool) (va : Word) (want : Want) (pick : Bool)
      (pa : Nat) (eff : XEff), s.xlate kind core lane c hl va want pick = .ok pa eff →
      let e := eff.entry
      e.vbase ≤ va.toNat % 2 ^ 57 ∧ va.toNat % 2 ^ 57 < e.vbase + e.size ∧ pa = e.pbase + (va.toNat % 2 ^ 57 - e.vbase)
      ∧ match want with
        | .read => e.r = true ∧ (e.u = true ∨ hl = true)
        | .write => e.w = true ∧ (e.u = true ∨ hl = true)
        | .rmw => e.r = true ∧ e.w = true ∧ (e.u = true ∨ hl = true)
        | .fetch => e.x = true ∧ e.tag = 2 ∧ (e.u = true ↔ hl = false))
  ∧ ∀ (s : State) (core ctx : Nat) (va : Word) (kind : TlbKind) (lane : Option Nat) (write : Bool) (c : Context),
      s.ctx? ctx = some c →
      (canonical va = false → exec (.walk core ctx va kind lane write) s = .next s)
      ∧ (canonical va = true → heldBy s none (s.walkLines c va) = [] →
          ((∀ pick, s.walkFor core c va pick = .notResident ∨ s.walkFor core c va pick = .format ∨ ∃ g, s.walkFor core c va pick = .access g) →
            exec (.walk core ctx va kind lane write) s = .next { s with fresh := s.fresh + 1 })
          ∧ ∀ e a p nl, (∀ pick, s.walkFor core c va pick = .leaf e a p nl) → writeWaits s a 8 = false →
            let wr := write && e.w
            ∃ t, exec (.walk core ctx va kind lane write) s = .next t ∧ t.teams = s.teams ∧ t.bundles = s.bundles
              ∧ t.readM a 8 = (p.toNat ||| (if wr then 0xC0 else 0x40))
              ∧ (∀ adr, ¬(a ≤ adr ∧ adr < a + 8) → Memory.read t.mem adr = Memory.read s.mem adr)
              ∧ { e with d := e.d || wr } ∈ (t.core core).tlb.of kind
              ∧ ∀ l, lane = some l → (l, { e with d := e.d || wr }) ∈ (t.core core).tlb.latches))
  ∧ (∀ (s : State) (h : Hdr) (d a : Fin 32) (i : Instr) (ofCtx : Thread → Nat → Bool) (inPage : Thread → Nat → Nat → Bool),
    let named := fun (x : Thread) (ctx : Nat) => ctx == (x.view.gval d).toNat % 4096
    (i = .tlbiPage h d a ∧ ofCtx = named ∧ inPage = (fun x lo n =>
        decide (lo ≤ (x.view.gval a).toNat % 2 ^ 57) && decide ((x.view.gval a).toNat % 2 ^ 57 < lo + n))
      ∨ i = .tlbiCtx h d ∧ ofCtx = named ∧ inPage = (fun _ _ _ => true)
      ∨ i = .tlbiPart h d ∧ ofCtx = (fun x ctx => s.ctxs.any fun c => c.id == ctx && c.part == (x.view.gval d).toNat % 16)
        ∧ inPage = (fun _ _ _ => true)) →
    (∀ x ∈ s.executing h, s.hlevel x = true) →
    (∀ x ∈ s.executing h, ∀ y ∈ s.threads, ∀ q ∈ y.pending, ∀ pa, q.loc = .dev pa → q.size ≠ 0 → ofCtx x (s.teamOf y).ctx = false
      ∨ i = .tlbiPage h d a ∧ q.va.toNat % 2 ^ 57 / 2 ^ 30 ≠ (x.view.gval a).toNat % 2 ^ 57 / 2 ^ 30) →
    ∃ t, exec i s = .next t ∧ t = { s with threads := t.threads, cores := t.cores }
      ∧ (∀ (k : Nat) (x y : Thread), s.threads[k]? = some x → t.threads[k]? = some y →
          y = { x with pc := if s.inFocus x then x.pc + 4 else x.pc })
      ∧ t.cores.length = s.cores.length
      ∧ ∀ (k : Nat) (c c' : Core), s.cores[k]? = some c → t.cores[k]? = some c' →
        let stays := fun (e : TlbEntry) => !(s.executing h).any fun x => ofCtx x e.ctx && inPage x e.vbase e.size
        c' = { c with tlb := c'.tlb, icache := c'.icache } ∧ c'.tlb.access = c.tlb.access.filter stays
        ∧ c'.tlb.fetch = c.tlb.fetch.filter stays ∧ c'.tlb.stream = c.tlb.stream.filter stays ∧ c'.tlb.tile = c.tlb.tile.filter stays
        ∧ c'.tlb.latches = c.tlb.latches.filter (fun e => stays e.2)
        ∧ c'.tlb.walk = c.tlb.walk.filter (fun e => !(s.executing h).any fun x => ofCtx x e.1)
        ∧ c'.icache = c.icache.filter (fun l => !(s.executing h).any fun x => ofCtx x l.ctx && inPage x l.page l.size))

/-! ### Accesses perform -/

/-- Load (t, a) (R135, R141, R244, R248, R255): an eligible load whose line no other core's Publish still holds, or whose scratchpad
bytes no other thread holds, takes its bytes, extended as its size says, into its registers, and no byte of memory changes. An `ldnr` whose
window or block has gone takes 0 and false (R146).
A thread reads its own stores (R248, R259): right after a store of at most 16 bytes within a sector joins the buffer, the thread
reads the stored bytes at its place, and M has not changed.
Store (t, a) of `st` and `stl` (R142, R144, R248-R250, R255): to device memory it joins the buffer of the thread's core and M keeps every
byte; to a scratchpad the bytes stand there at once, and no other byte changes. An `stl` first places a marker after what the buffer
holds: at TEAM and CLUSTER, and at every scope for an `stl` of the aperture by the model's reading (log 64), the lines before it and its own
become narrow-held, and its entry, or in the aperture its marker, is the core's latest team release; at DEVICE and SYSTEM none does. A
release makes M change nowhere but in what a buffer holds.
Saved loads of one issue (R165, R365) are translated and checked anew when one of them is next to perform, and then stand at the places
their checks found. -/
def Obligations.LoadStorePerform : Prop :=
  (∀ (s : State) (id : ThreadId) (x : Thread) (k v : Nat) (a : Access) (dst : LoadDst),
    s.powered? id = some x → eligible x k = some a → (a.kind = .ld dst ∨ ∃ sc, a.kind = .lda dst sc) → dst.legal → a.replay = false →
    (placeGone s x a = false → (match a.loc with
      | .dev pa => heldBy s (some id.core) [lineOf pa] = [] ∧ a.size ≠ 0 ∧ v = tbRead s id pa a.size
      | .sp core off => (s.core core).heldByOther id off a.size = false ∧ v = Memory.readLE (s.core core).sp off a.size) →
      ∃ t, exec (.load id k) s = .next t ∧ t.mem = s.mem ∧ s.AtBegun t id k (Thread.Performed k (dst.results v) none)
        ∧ t.bundles = s.bundles ∧ t.teams = s.teams ∧ t.cmds = s.cmds ∧ ∀ c, (t.core c).sp = (s.core c).sp ∧ (t.core c).tb = (s.core c).tb)
    ∧ (placeGone s x a = true → heldBy s (some id.core) a.lines = [] → ∀ p, dst.pr = some p →
      ∃ t, exec (.load id k) s = .next t ∧ t = { s with threads := t.threads }
        ∧ s.At t id (Thread.Performed k [(.g dst.d, 0), (.p p, 0)] none)))
  ∧ (∀ (s : State) (t : ThreadId) (serial : BitVec 32) (pa n v : Nat), 0 < n → pa % 32 + n ≤ 32 →
    let s' := tbStore s t.core (t, serial) pa n v
    tbRead s' t pa n = v % 2 ^ (8 * n) ∧ s'.mem = s.mem)
  ∧ (∀ (s : State) (id : ThreadId) (x : Thread) (k : Nat) (a : Access), s.powered? id = some x → eligible x k = some a →
    a.replay = false → placeGone s x a = false → (∀ pa, a.loc = .dev pa → (s.core id.core).entryCount < 512) →
    let old := s.core id.core
    let stored := fun (t : State) (core off : Nat) => Memory.readLE (t.core core).sp off a.size = a.data % 2 ^ (8 * a.size)
      ∧ (∀ o, ¬(off ≤ o ∧ o < off + a.size) → Memory.read (t.core core).sp o = Memory.read (s.core core).sp o)
      ∧ ∀ c, c ≠ core → (t.core c).sp = (s.core c).sp
    (a.kind = .st →
      (∀ pa, a.loc = .dev pa → ∃ t, exec (.store id k) s = .next t ∧ t.mem = s.mem ∧ s.AtBegun t id k (Thread.Performed k [] none)
        ∧ (0 < a.size → pa % 32 + a.size ≤ 32 → tbRead t id pa a.size = a.data % 2 ^ (8 * a.size)))
      ∧ ∀ core off, a.loc = .sp core off → (core = id.core ∨ x.gateOpen a.serial = true) → ∃ t, exec (.store id k) s = .next t
        ∧ t.mem = s.mem ∧ s.AtBegun t id k (Thread.Performed k [] none) ∧ stored t core off)
    ∧ ∀ sc, a.kind = .stl sc → x.gateOpen a.serial = true →
      (∃ t, exec (.store id k) s = .next t ∧ (∃ y, t.thread? id = some y ∧ (a.serial, 0) ∈ y.replies ∧ y.regs = x.regs
          ∧ ∀ q ∈ y.pending, q.iid ≠ k)
        ∧ ∀ adr, ¬s.Buffered adr → (∀ pa, a.loc = .dev pa → adr / 32 ≠ sectorOf pa) → Memory.read t.mem adr = Memory.read s.mem adr)
      ∧ (∀ pa, a.loc = .dev pa → let s1 := placeMarker s id.core sc.narrow
        let s2 := (tbStore s1 id.core (id, a.serial) pa a.size a.data).noteStore id.core (s.teamOf x).ctx pa a.va .normal
        let e := if old.tb = [] then s.nextId else s.nextId + 1
        s1.tagOver = none → (sc.narrow = true → (narrowRelease s2 id.core pa).tagOver = none) →
        ∃ t, exec (.store id k) s = .next t ∧ t.mem = s.mem ∧ s.AtBegun t id k (Thread.Performed k [] (some (a.serial, 0)))
          ∧ (0 < a.size → pa % 32 + a.size ≤ 32 → tbRead t id pa a.size = a.data % 2 ^ (8 * a.size))
          ∧ (t.core id.core).tb = (if old.tb = [] then [] else old.tb ++ [.marker s.nextId])
            ++ [.entry e (sectorOf pa) (byteMask (pa % 32) a.size) (a.data % 2 ^ (8 * a.size) * 2 ^ (8 * (pa % 32))) [(id, a.serial)]]
          ∧ (if sc.narrow then (t.core id.core).ltr = some e ∧ lineOf pa ∈ (t.core id.core).nh ∧ s.HoldsBuffer t id.core
              ∧ ∀ l ∈ old.nh, l ∈ (t.core id.core).nh
             else (t.core id.core).ltr = old.ltr ∧ (t.core id.core).nh = old.nh))
      ∧ ∀ core off, a.loc = .sp core off → (placeMarker s id.core true).tagOver = none → ∃ t, exec (.store id k) s = .next t
        ∧ t.mem = s.mem ∧ s.AtBegun t id k (Thread.Performed k [] (some (a.serial, 0))) ∧ stored t core off
        ∧ (if old.tb = [] then (t.core id.core).tb = [] else (t.core id.core).tb = old.tb ++ [.marker s.nextId]
              ∧ (t.core id.core).ltr = some s.nextId ∧ s.HoldsBuffer t id.core))
  ∧ ∀ (s : State) (id : ThreadId) (x : Thread) (k : Nat) (a : Access), s.IdsDistinct → (∀ y ∈ s.threads, y.id.lane < 128) →
    s.powered? id = some x → eligible x k = some a → a.replay = true →
    let c := fun (p : Thread × Access) => s.check { p.1 with pc := p.2.iaddr } p.2.probe (s.stalePick p.1.id.lane)
    (∀ p ∈ lanesOf s k, p.2.replay = true ∧ heldBy s none (s.probeLines p.1 p.2.va) = [] ∧ (∃ loc eff, c p = .ok loc eff)
      ∧ (c p).waits s = false) →
    ∃ t, exec (.load id k) s = .next t ∧ t.bundles = s.bundles ∧ (∀ adr, Memory.read t.mem adr ||| 0xC0 = Memory.read s.mem adr ||| 0xC0)
      ∧ ∀ p ∈ lanesOf s k, ∃ y, t.thread? p.1.id = some y ∧ y.regs = p.1.regs ∧ y.pending.map (·.iid) = p.1.pending.map (·.iid)
        ∧ ∀ q ∈ y.pending, q.iid = k → q.replay = false ∧ ∃ eff, c p = .ok q.loc eff

/-- The full-empty store and load (R149-R151, R255). A lane of `stf` whose gate is open, and that is the lowest of its issue still to write
its granule, performs in a step of its own: it stores its bytes and no other, and leaves its granule FULL; a lane of `stf.wait` waits while
its granule is FULL, and performs once it is EMPTY. The lanes of a plain `stf` that are still to perform are bound to (R139). An `ldf` performs once every lane's granule is FULL, gives each lane its bytes, and with `.clr` leaves the granules
EMPTY. M changes nowhere but in what a buffer holds, since a store releases (R151). -/
def Obligations.FullEmpty : Prop :=
  ∀ (s : State) (id : ThreadId) (x : Thread) (k : Nat) (a : Access), s.IdsDistinct → s.powered? id = some x → eligible x k = some a →
    a.replay = false →
    let M := fun (t : State) => ∀ adr, ¬s.Buffered adr → Memory.read t.mem adr = Memory.read s.mem adr
    (∀ c o, a.kind = .stf false → a.loc = .sp c o → (∀ p ∈ lanesOf s k, placeGone s p.1 p.2 = false) → x.gateOpen a.serial = true →
      lowestLane s k id a = true →
      ∃ t, exec (.store id k) s = .next t ∧ M t ∧ t.granAt c o = .full
        ∧ Memory.readLE (t.core c).sp o a.size = a.data % 2 ^ (8 * a.size)
        ∧ (∀ c' o', ¬(c' = c ∧ o ≤ o' ∧ o' < o + a.size) → Memory.read (t.core c').sp o' = Memory.read (s.core c').sp o')
        ∧ (∃ y, t.thread? id = some y ∧ (a.serial, 0) ∈ y.replies ∧ y.regs = x.regs ∧ ∀ q ∈ y.pending, q.iid ≠ k)
        ∧ ∀ p ∈ lanesOf s k, p.1.id ≠ id → ∃ y, t.thread? p.1.id = some y ∧ y.regs = p.1.regs
          ∧ ∃ q ∈ y.pending, q.iid = k ∧ q.loc = p.2.loc ∧ q.data = p.2.data ∧ q.begun = true)
    ∧ (∀ c o, a.kind = .stf true → a.loc = .sp c o → placeGone s x a = false → x.gateOpen a.serial = true → lowestLane s k id a = true →
      (s.granAt c o = .full → exec (.store id k) s = .next s)
      ∧ (s.granAt c o = .empty → ∃ t, exec (.store id k) s = .next t ∧ M t ∧ t.granAt c o = .full
          ∧ Memory.readLE (t.core c).sp o a.size = a.data % 2 ^ (8 * a.size)
          ∧ (∀ o', ¬(o ≤ o' ∧ o' < o + a.size) → Memory.read (t.core c).sp o' = Memory.read (s.core c).sp o')
          ∧ (∃ y, t.thread? id = some y ∧ (a.serial, 0) ∈ y.replies ∧ y.regs = x.regs ∧ ∀ q ∈ y.pending, q.iid ≠ k)
          ∧ ∀ b ∈ t.bundles, b.hold = .access k → ∃ z ∈ t.threads, b.has z.id = true ∧ ∃ q ∈ z.pending, q.iid = k))
    ∧ (∀ dst clr, a.kind = .ldf dst clr → dst.legal →
      (∀ p ∈ lanesOf s k, ∃ c o, p.2.loc = .sp c o ∧ p.2.kind = .ldf dst clr ∧ (eligible p.1 k).isSome ∧ s.granAt c o = .full
        ∧ placeGone s p.1 p.2 = false ∧ p.2.replay = false ∧ (s.core c).heldByOther p.1.id o p.2.size = false
        ∧ (clr = true → p.1.gateOpen p.2.serial = true)) →
      ∃ t, exec (.load id k) s = .next t ∧ t.mem = s.mem
        ∧ (∀ p ∈ lanesOf s k, ∀ c o, p.2.loc = .sp c o → t.granAt c o = if clr then .empty else .full)
        ∧ (∀ (j : Nat) (y z : Thread) (q : Access) (c o : Nat), s.threads[j]? = some y → t.threads[j]? = some z → (y, q) ∈ lanesOf s k →
            q.loc = .sp c o → Thread.Performed k (dst.results (Memory.readLE (s.core c).sp o q.size))
              (if clr then some (q.serial, Memory.readLE (s.core c).sp o q.size) else none) y z)
        ∧ ∀ b ∈ t.bundles, b.hold ≠ .access k)

/-- A read-modify-write by one lane (R152, R154, R248): the old value goes to gD, and the place holds the operation's result; for `cas`,
the new value where the old one equalled the expected one, and gD+1 tells which. No other byte of memory changes.
Lanes of one `atom` on one place, of 4 or 8 bytes, act one after another in lane order (R153): gD of each takes what the lanes before it
left, its reply is kept, and memory holds what the last one leaves. Of the lanes of one `cas` on one place the first that expects the old
value succeeds and no other (R154): the lanes up to it read the old value, the later ones the new. -/
def Obligations.Atomics : Prop :=
  (∀ (s : State) (x : Thread) (a : Access) (pa : Nat), s.IdsDistinct → lanesOf s a.iid = [(x, a)] → a.loc = .dev pa → x.id.lane < 128 →
    (eligible x a.iid).isSome → placeGone s x a = false → x.gateOpen a.serial = true → (s.core x.id.core).gated = false → tbClear s x.id.core pa a.size = true →
    a.lines = [lineOf pa] → heldBy s none [lineOf pa] = [] → writeWaits s pa a.size = false →
    let old := s.readM pa a.size
    let others := fun (t : State) => ∀ adr, ¬(pa ≤ adr ∧ adr < pa + a.size) → Memory.read t.mem adr = Memory.read s.mem adr
    (∀ op d sc, a.kind = .atom op d sc → ∃ t, exec (.rmw a.iid) s = .next t
      ∧ t.readM pa a.size = atomNew op old a.data % 2 ^ (8 * a.size) ∧ others t
      ∧ ∃ y, y ∈ t.threads ∧ y.id = x.id ∧ (a.serial, old) ∈ y.replies ∧ (∀ q ∈ y.pending, q.iid ≠ a.iid)
          ∧ (x.ra = none → d.val ≠ 0 → y.regs.gval d = atomOld op old))
    ∧ (∀ d expected new sc, a.kind = .cas d expected new sc → d.val % 2 = 0 → ∃ t, exec (.rmw a.iid) s = .next t
      ∧ t.readM pa a.size = (if old = expected then new % 2 ^ (8 * a.size) else old) ∧ others t
      ∧ ∃ y, y ∈ t.threads ∧ y.id = x.id ∧ (∀ q ∈ y.pending, q.iid ≠ a.iid)
          ∧ (x.ra = none → y.regs.gval (oddOf d) = (if old = expected then 0 else 1)
              ∧ (d.val ≠ 0 → y.regs.gval d = if a.size = 4 then (BitVec.ofNat 32 old).signExtend 64 else BitVec.ofNat 64 old))))
  ∧ (∀ (s : State) (ls : List (Thread × Access)) (pa : Nat) (op : Fin 8) (d : Fin 32), op.val ≠ 1 → op.val ≠ 6 →
    (∀ p ∈ ls, p.2.loc = .dev pa ∧ p.2.size = 8 ∧ p.2.data < 2 ^ 64 ∧ ∃ sc, p.2.kind = .atom op d sc) →
    (rmwLanes ls [] s).readM pa 8 = ls.foldl (fun v p => atomNew op v p.2.data) (s.readM pa 8)
    ∧ ∀ adr, ¬(pa ≤ adr ∧ adr < pa + 8) → Memory.read (rmwLanes ls [] s).mem adr = Memory.read s.mem adr)
  ∧ ∀ (s : State) (iid pa n : Nat), s.IdsDistinct →
    let ls := byLane ((lanesOf s iid).filter fun p => p.2.isRmw)
    let old := s.readM pa n
    (∀ p ∈ ls, p.2.loc = .dev pa ∧ p.2.size = n ∧ placeGone s p.1 p.2 = false ∧ rmwReady s iid p.1 p.2 = true) →
    let others := fun (t : State) => ∀ adr, ¬(pa ≤ adr ∧ adr < pa + n) → Memory.read t.mem adr = Memory.read s.mem adr
    (∀ (op : Fin 8) (d : Fin 32), n = atomBytes op → (∀ p ∈ ls, ∃ sc, p.2.kind = .atom op d sc) →
      let left := fun (l : List (Thread × Access)) => l.foldl (fun v p => atomNew op v p.2.data % 2 ^ (8 * n)) old
      ∃ t, exec (.rmw iid) s = .next t ∧ others t ∧ (ls ≠ [] → t.readM pa n = left ls)
        ∧ ∀ (j : Nat) (x : Thread) (a : Access), ls[j]? = some (x, a) → ∃ y, t.thread? x.id = some y
          ∧ (a.serial, left (ls.take j)) ∈ y.replies ∧ (∀ q ∈ y.pending, q.iid ≠ iid)
          ∧ (x.ra = none → d.val ≠ 0 → y.regs.gval d = atomOld op (left (ls.take j))))
    ∧ ∀ (d : Fin 32), n = 4 ∨ n = 8 → d.val % 2 = 0 → (∀ p ∈ ls, ∃ e v sc, p.2.kind = .cas d e v sc) →
      let winner := fun (l : List (Thread × Access)) => l.find? fun p => p.2.casPair.1 == old
      let left := fun (l : List (Thread × Access)) => match winner l with | some p => p.2.casPair.2 % 2 ^ (8 * n) | none => old
      ∃ t, exec (.rmw iid) s = .next t ∧ others t ∧ t.readM pa n = left ls
        ∧ ∀ (j : Nat) (x : Thread) (a : Access), ls[j]? = some (x, a) → ∃ y, t.thread? x.id = some y ∧ (∀ q ∈ y.pending, q.iid ≠ iid)
          ∧ let seen := left (ls.take j)
            (x.ra = none → (d.val ≠ 0 → y.regs.gval d = if n = 4 then (BitVec.ofNat 32 seen).signExtend 64 else BitVec.ofNat 64 seen)
              ∧ y.regs.gval (oddOf d) = if winner (ls.take j) = none ∧ a.casPair.1 = old then 0 else 1)

/-- Drain (c, E) (R248): the bytes that the entry holds, and no others, are replaced in M, and the entry leaves the buffer.
Publish (c) (R248, R251): where every gate of what it drains is open, all entries up to the core's latest team release leave the
buffer, each byte of M that one of them holds becomes that of the last of them in the order of the buffer, every other byte stays, and no
line is narrow-held by the core any more. -/
def Obligations.DrainPublish : Prop :=
  (∀ (s : State) (c k sec mask data : Nat) (con : List (ThreadId × BitVec 32)), drainable s c k = true →
    (s.core c).tb.find? (fun i => i.isEntry k) = some (.entry k sec mask data con) →
    ∃ t, exec (.drain c k) s = .next t
      ∧ (∀ i, i < 32 → Memory.read t.mem (32 * sec + i)
          = if mask.testBit i then BitVec.ofNat 8 (data / 2 ^ (8 * i)) else Memory.read s.mem (32 * sec + i))
      ∧ (∀ adr, adr / 32 ≠ sec → Memory.read t.mem adr = Memory.read s.mem adr)
      ∧ (∀ i ∈ (t.core c).tb, i.isEntry k = false) ∧ (∀ i ∈ (t.core c).tb, i ∈ (s.core c).tb)
      ∧ (∀ c', c' ≠ c → (t.core c').tb = (s.core c').tb) ∧ t.teams = s.teams)
  ∧ (∀ (s : State) (c : Nat), publishable s c = true →
    ∃ t, exec (.publish c) s = .next t ∧ (t.core c).nh = [] ∧ (t.core c).ltr = none
      ∧ (∀ k ∈ publishSet (s.core c), ∀ i ∈ (t.core c).tb, i.isEntry k = false)
      ∧ (∀ i ∈ (t.core c).tb, i ∈ (s.core c).tb)
      ∧ (((s.core c).tb.map TbItem.id).Nodup → ∀ adr, Memory.read t.mem adr = s.drainedByte c (publishSet (s.core c)) adr)
      ∧ ∀ adr, (∀ k sec msk dat con, TbItem.entry k sec msk dat con ∈ (s.core c).tb → k ∈ publishSet (s.core c) → adr / 32 ≠ sec) →
          Memory.read t.mem adr = Memory.read s.mem adr)

/-- `region` (R19, R20, R183, R184, R352): once the last checkpoint is durable and the tile rows of the region are written, RSERIAL
advances by one, a checkpoint of the live-in registers, the predicates and MODE, as the instruction reads them, at the packet after the
instruction is being written, and the thread goes on there.
Durable (R255, R259, R350, R352): unless an armed injection cuts it, the checkpoint being written becomes the slot of its serial,
the gate of the region is open, no register changes, and the bytes that the region held back reach the shadow. -/
def Obligations.RegionsCheckpoints : Prop :=
  (∀ (s : State) (b : Bundle) (h : Hdr) (e1 e2 : Ext), s.focusBundle = some b → s.IdsDistinct →
    (∀ x ∈ s.focusThreads, x.stage = none ∧ ∀ r ∈ x.results, ∀ l, r.dst ≠ .rows l) →
    ∃ u, exec (.region h e1 e2) s = .next (settle u)
      ∧ s.Moved u b (fun x => BitVec.ofNat 64 (((x.pc + 12).toNat + 11) / 12 * 12)) none (fun x y =>
          y.rserial = x.rserial + 1 ∧ y.entry = y.pc ∧ y.gmask = e1 ∧ y.fmask = e2 ∧ y.slot0 = x.slot0 ∧ y.slot1 = x.slot1
          ∧ ∃ c, y.stage = some c ∧ c.seqh = y.rserial ∧ c.seqt = y.rserial ∧ c.flags = 0 ∧ c.pc = y.entry ∧ c.gmask = e1
              ∧ c.fmask = e2 ∧ c.mode = x.view.mode ∧ c.pred = x.view.p ∧ c.live = (maskRegs e1 e2).map x.view.get))
  ∧ (∀ (s : State) (id : ThreadId) (x : Thread) (ck : CkSlot), s.thread? id = some x → x.stage = some ck →
    (∀ v ∈ s.vkinj, v.target ≠ id ∨ v.armed = false) → s.tagOver = none →
    ∃ t, exec (.durable id) s = .next t ∧ t.mem = s.mem ∧ t.bundles = s.bundles
      ∧ s.At t id (fun y z => z.stage = none ∧ z.regs = y.regs ∧ z.pc = y.pc ∧ z.rserial = y.rserial ∧ z.status = y.status
          ∧ (if ck.seqh.toNat % 2 = 0 then z.slot0 = ck ∧ z.slot1 = y.slot1 else z.slot1 = ck ∧ z.slot0 = y.slot0))
      ∧ (∀ y ∈ t.threads, y.id = id → ∀ k, y.gateOpen k = true)
      ∧ (∀ o w j, (o, w, j) ∈ (t.core id.core).held → ¬(w = id ∧ j = ck.seqh))
      ∧ ∀ o, (o, id, ck.seqh) ∈ (s.core id.core).held →
          Memory.read (t.core id.core).spShadow o = Memory.read (s.core id.core).sp o)

/-- The write of an interlocked result (R55): a register with the flags it raises, or tile rows; the result leaves the list, and
nothing else changes.
`waitc` (R157, R158, R258): a check that finds its condition true writes true and lets the bundle go on; one past its deadline
writes false; any other leaves the thread waiting, its registers as they were. A write to its line, or 256 cycles without a monitor
entry, enables the check again, and at the deadline a waiting monitor expires with false. -/
def Obligations.ResultsWaits : Prop :=
  (∀ (s : State) (id : ThreadId) (x : Thread) (k : Nat) (r : PendRes), s.thread? id = some x → x.results[k]? = some r →
    (∀ d, (r.dst = .g d ∨ r.dst = .f d) → ∃ t, exec (.interlockedResultWrite id k) s = .next t ∧ t = { s with threads := t.threads }
      ∧ s.At t id (fun y z => y.ra = none → ({ y with results := y.results.eraseIdx k } : Thread).Writes 0
          ((if r.dst = .g d then .g d else .f d, r.val) :: (if r.dst = .f d then y.flagWrites r.flags else [])) z ∧ z.pc = y.pc))
    ∧ (∀ l, r.dst = .rows l → ∃ t, exec (.interlockedResultWrite id k) s = .next t ∧ t.mem = s.mem
        ∧ s.At t id (fun y z => z = { y with results := y.results.eraseIdx k })
        ∧ ∀ row, assocD 0 row (t.core id.core).acc
            = ((l.reverse.find? fun e => e.2.1 == row).map fun e => e.2.2).getD (assocD 0 row (s.core id.core).acc)))
  ∧ (∀ (s : State) (id : ThreadId) (x : Thread) (k pa : Nat) (a : Access) (cond : Fin 4) (pd : Fin 8) (cmp : Word) (dl : Option Nat)
    (m : MonState), s.powered? id = some x → eligible x k = some a → a.kind = .waitc cond pd cmp dl m → a.loc = .dev pa → a.iid = k →
    x.ra = none → a.replay = false → placeGone s x a = false →
    let word : Word := BitVec.ofNat 64 (s.readM pa 8)
    let met : Prop := match cond with | 0 => word = cmp | 1 => word ≠ cmp | 2 => cmp.toInt ≤ word.toInt | 3 => word &&& cmp ≠ 0
    (m = .check → x.gateOpen a.serial = true → tbClear s id.core pa 8 = true → heldBy s none a.lines = [] →
      (met → ∃ t, exec (.load id k) s = .next t ∧ s.OnlyCaches t ∧ s.At t id (Thread.Performed k [(.p pd, 1)] (some (a.serial, 1))))
      ∧ (¬met → (∃ d, dl = some d ∧ d ≤ s.tstamp) →
          ∃ t, exec (.load id k) s = .next t ∧ s.OnlyCaches t ∧ s.At t id (Thread.Performed k [(.p pd, 0)] (some (a.serial, 0))))
      ∧ (¬met → (∀ d, dl = some d → s.tstamp < d) → ∃ t, exec (.load id k) s = .next t ∧ t.bundles = s.bundles ∧ s.OnlyCaches t
          ∧ s.At t id (fun y z => z = { y with pending := z.pending } ∧ z.pending.length = y.pending.length)))
    ∧ (m = .monitor true → ∃ t, exec (.wake id) s = .next t ∧ t = { s with threads := t.threads }
        ∧ ∃ z, t.thread? id = some z ∧ { a with kind := .waitc cond pd cmp dl .check } ∈ z.pending ∧ z.regs = x.regs)
    ∧ (∀ due, m = .reread due → due ≤ s.tstamp → ∃ t, exec (.waiterReread id) s = .next t ∧ t = { s with threads := t.threads }
        ∧ ∃ z, t.thread? id = some z ∧ { a with kind := .waitc cond pd cmp dl .check } ∈ z.pending ∧ z.regs = x.regs)
    ∧ (∀ d, m = .monitor false → dl = some d → d ≤ s.tstamp → x.pending = [a] →
        ∃ t, exec (.expire id) s = .next t ∧ s.OnlyThreads t ∧ s.At t id (Thread.Performed k [(.p pd, 0)] (some (a.serial, 0)))))

/-! ### Row 6 -/

/-- Segment transfers (R45, R46, R168, R170, R171): with canonical targets, and packet-aligned ones for `nextg`, every thread of the
bundle goes on at its target (`nextp` chooses by its selector), nothing but its place changes, and barriers and `gsync` that this
completes are settled.
Calls and returns on this side (R168, R173, R174): a call leaves in g1 the packet boundary at or after the next instruction; `callg`
and `ret` take their targets from a register, packet-aligned and not 0 for `ret`. -/
def Obligations.SegmentsCalls : Prop :=
  (∀ (s : State) (b : Bundle) (h : Hdr) (a : Fin 32) (e1 e2 : Ext), s.focusBundle = some b → s.IdsDistinct →
    let at_ := fun (x : Thread) (e : Ext) => (BitVec.ofNat 64 (x.pc.toNat / 12 * 12) + e.signExtend 64 : Word)
    ∀ p ∈ [(Instr.next h e1, fun x => at_ x e1), (.nextp h e1 e2, fun x => at_ x (if x.view.pred h.p = !h.n then e1 else e2)),
           (.nextg h a, fun x => x.view.gval a)],
      (∀ x ∈ s.focusThreads, canonical (p.2 x) = true ∧ x.returned (p.2 x) = none ∧ (p.1 = .nextg h a → (p.2 x).toNat % 12 = 0)) →
      ∃ u, exec p.1 s = .next (settle u) ∧ s.Moved u b p.2 none Thread.SameRegion)
  ∧ (∀ (s : State) (b : Bundle) (x0 : Thread) (xs : List Thread) (h : Hdr) (a : Fin 32) (e1 : Ext), s.focusBundle = some b →
    s.focusThreads = x0 :: xs → s.IdsDistinct →
    let at_ := fun (x : Thread) => (BitVec.ofNat 64 (x.pc.toNat / 12 * 12) + e1.signExtend 64 : Word)
    let rp := fun (n : Nat) (x : Thread) => (BitVec.ofNat 64 (((x.pc + BitVec.ofNat 64 n).toNat + 11) / 12 * 12) : Word)
    ∀ p ∈ [(Instr.call h e1, at_, some 8), (.callg h a, fun x => x.view.gval a, some 4), (.ret h a, fun x => x.view.gval a, none)],
      (∀ x ∈ s.focusThreads, canonical (p.2.1 x) = true ∧ s.StaysHere x (p.2.1 x) ∧ x.returned (p.2.1 x) = none
        ∧ (p.1 ≠ .call h e1 → (p.2.1 x).toNat % 12 = 0 ∧ p.2.1 x ≠ 0)) →
      s.walkHolders (s.focusThreads.map fun x => (x, p.2.1 x)) = [] →
      (∀ n, p.2.2 = some n → heldBy s none (s.focusThreads.flatMap fun x => agentLines s (s.ctxOf x) (rp n x) 4) = []) →
      ∃ u, exec p.1 s = .next (settle u) ∧ s.Moved u b p.2.1 (p.2.2.map fun n => rp n x0) Thread.SameRegion)

/-- A call to a page of tag 01, direct or through a register, and a return to one, depart (R30, R174, R175, R177): once every thread of the
bundle is quiet, each is away, its registers are the image of a hazel thread at the target with x0 = 0 and, for a call, x1 the link; a call
notes its crossing, and a return takes one back.
`exit`, and `ret` to address 0 (R174, R182): every thread of the bundle ends, its bundle is gone, and nothing else changes but what
this settles. -/
def Obligations.CrossingsExits : Prop :=
  (∀ (s : State) (b : Bundle) (x0 : Thread) (xs : List Thread) (h : Hdr) (a : Fin 32) (e1 : Ext), s.focusBundle = some b →
    s.focusThreads = x0 :: xs → s.IdsDistinct →
    let rp := fun (n : Nat) (x : Thread) => (BitVec.ofNat 64 (((x.pc + BitVec.ofNat 64 n).toNat + 11) / 12 * 12) : Word)
    let at_ := fun (x : Thread) => (BitVec.ofNat 64 (x.pc.toNat / 12 * 12) + e1.signExtend 64 : Word)
    let ga := fun (x : Thread) => x.view.gval a
    ∀ p ∈ [(Instr.call h e1, at_, Transfer.call false, some 8), (.callg h a, ga, .call true, some 4), (.ret h a, ga, .ret, none)],
    let goes := p.2.1
    let isCall := p.2.2.2.isSome
    let n := p.2.2.2.getD 4
    (∀ x ∈ s.focusThreads, fateOf s x p.2.2.1 (goes x) (rp n x) = .cross ∧ x.returned (goes x) = none ∧ quiet s x = true
      ∧ (isCall = false → goes x ≠ 0)) →
    s.walkHolders (s.focusThreads.map fun x => (x, goes x)) = [] →
    (isCall = true → heldBy s none (s.focusThreads.flatMap fun x => agentLines s (s.ctxOf x) (rp n x) 4) = []) →
    ∃ u, exec p.1 s = .next (settle u) ∧ u.mem = s.mem
      ∧ (∀ (k : Nat) (x y : Thread), s.threads[k]? = some x → u.threads[k]? = some y →
          if s.inFocus x then y.status = .away ∧ y.cross = (if isCall then true :: x.cross else x.cross.drop 1)
            ∧ y.regs.gval 1 = (if isCall then rp n x0 else x.regs.gval 1)
            ∧ (∀ i, i ≠ 1 → y.regs.gval i = x.regs.gval i)
            ∧ ∃ z ∈ u.hazels, z.home = some x.id ∧ z.pc = goes x ∧ z.img.x[0] = 0
                ∧ (∀ (i : Fin 32), z.img.x[i] = y.regs.gval i) ∧ z.img.f = x.regs.f ∧ z.img.fcsr = y.regs.mode.setWidth 8
          else y = x)
      ∧ (∀ c ∈ u.bundles, c.id ≠ b.id) ∧ (∀ z ∈ s.hazels, z ∈ u.hazels))
  ∧ (∀ (s : State) (b : Bundle) (h : Hdr) (a : Fin 32), s.focusBundle = some b → s.IdsDistinct →
    ∀ i ∈ [Instr.exit h, .ret h a], (i = .ret h a → (∀ x ∈ s.focusThreads, x.view.gval a = 0)
        ∧ s.walkHolders (s.focusThreads.map fun x => (x, 0)) = []) →
      ∃ u, exec i s = .next (settle u) ∧ u = { s with threads := u.threads, bundles := u.bundles, focus := none }
        ∧ (∀ c, c ∈ u.bundles ↔ c ∈ s.bundles ∧ c.id ≠ b.id) ∧ u.threads.length = s.threads.length
        ∧ ∀ (k : Nat) (x y : Thread), s.threads[k]? = some x → u.threads[k]? = some y →
            y = if s.inFocus x then { x with status := .ended false, snap := none } else x)

/-- `entryw`, `nop` and `yield` (R61, R180, R202): the first two change nothing but the address; `yield` makes the bundle wait for the
largest count of its executing threads (the model's choice where they differ, log 99), at most 4095, and gives up its age.
The ends of a yield and of a merge window (R202, R324), and runahead (R330, R331, R334): from its end on the bundle waits no more;
before it nothing changes. A bundle whose chain waits for a load, with RAEN in every thread and a free slot, saves its threads'
registers and goes on with the results in flight marked invalid; once the load has performed, every thread has its registers and
address back, and its RSERIAL has never changed. -/
def Obligations.WaitsRunahead : Prop :=
  ((∀ h, RunsLanes (.nop h) 1 h fun _ x y => y = { x with pc := y.pc })
  ∧ (∀ h, RunsLanes (.entryw h) 1 h fun _ x y => y = { x with pc := y.pc })
  ∧ ∀ (s : State) (b : Bundle) (h : Hdr) (src : Src2), s.focusBundle = some b →
      ∃ t n, exec (.yield h src) s = .next t ∧ t = { s with threads := t.threads, bundles := t.bundles }
        ∧ t.threads.length = s.threads.length
        ∧ (∀ (k : Nat) (x y : Thread), s.threads[k]? = some x → t.threads[k]? = some y →
            y = { x with pc := if s.inFocus x then x.pc + BitVec.ofNat 64 (4 * wordsWith src) else x.pc })
        ∧ (s.executing h = [] → t.bundles = s.bundles)
        ∧ (s.executing h ≠ [] → t.bundles = s.bundles.map fun c =>
            if c.id = b.id then { c with hold := .yield (s.tstamp + 1 + n), stamp := s.tstamp } else c)
        ∧ (∀ x ∈ s.executing h, min (src.g x.view).toNat 4095 ≤ n)
        ∧ (s.executing h ≠ [] → ∃ x ∈ s.executing h, n = min (src.g x.view).toNat 4095))
  ∧ (∀ (s : State) (k : Nat) (b : Bundle), s.bundle? k = some b →
    let frees : State := { s with bundles := s.bundles.map fun c => if c.id = k then { c with hold := .none } else c }
    (∀ d, b.hold = .yield d → exec (.yieldEnd k) s = .next (if d ≤ s.tstamp then frees else s))
    ∧ (∀ d, b.hold = .merge d → exec (.mergeWindow k) s = .next (if d ≤ s.tstamp then frees else s))
    ∧ (∀ x0 xs u a, s.bundleThreads b = x0 :: xs → b.ra = none → s.mayIssue b = true → (chainAt s x0 x0.pc).trap = none →
        blockingLoad s (x0 :: xs) (chainAt s x0 x0.pc).members = some (u, a) → (∀ x ∈ x0 :: xs, x.regs.mode.getLsbD 9 = true) →
        (s.bundles.filter fun c => c.core == b.core && c.lg == b.lg && c.ra.isSome).length < 4 →
        (s.ctxOf x0).st = .running → b.mid = none → ∃ t, exec (.runaheadEntry k) s = .next t ∧ t = { s with threads := t.threads, bundles := t.bundles }
          ∧ (∃ c, t.bundle? k = some c ∧ ∃ r, c.ra = some r ∧ r.thread = u.id ∧ r.iid = a.iid ∧ r.chains = 0)
          ∧ t.threads.length = s.threads.length
          ∧ ∀ (j : Nat) (x y : Thread), s.threads[j]? = some x → t.threads[j]? = some y →
              if b.has x.id then ∃ q, y = { x with ra := some q, writes := y.writes } ∧ q.saved = x.regs ∧ q.rserial = x.rserial
                ∧ q.pc = x.pc ∧ ∀ n, n ∈ q.invalid ↔ n ∈ s.outstanding x
              else y = x)
    ∧ ∀ r, b.ra = some r → (∀ x ∈ s.threads, x.id = r.thread → ∀ a ∈ x.pending, a.iid ≠ r.iid) → b.id = k →
        ∃ t, exec (.runaheadRestore k) s = .next t ∧ t = { s with threads := t.threads, bundles := t.bundles }
          ∧ (∃ c, t.bundle? k = some c ∧ c.ra = none ∧ c.lanes = b.lanes ∧ (b.hold = .raEnded → c.hold = .none))
          ∧ t.threads.length = s.threads.length
          ∧ ∀ (j : Nat) (x y : Thread), s.threads[j]? = some x → t.threads[j]? = some y →
              if b.has x.id then y.ra = none ∧ ∀ q, x.ra = some q → y = { x with
                regs := q.saved, pc := q.pc, writes := q.writes, schk := q.schk, ra := none, snap := none }
              else y = x)

/-- `gsync` (R188, R189): with each executing thread naming itself, the bundle goes past the words and waits with the masks of its
executing threads; with no executing thread it waits with them where a bundle that waits there names one of its lanes, and otherwise, by
the model's choice (log 80), its threads have passed the instruction and go on, each with the live threads of the group that have not
passed it before it, and the others meet them there; an executing thread that does not name itself takes an illegal-instruction trap.
A `gsync` completes (R188, R189): when the one bundle at it holds every live thread that its masks name but those that have passed it
with false guards and not met the waiters since (log 80), and the masks are equal, the bundle goes on, converged under that mask, and the
other threads of the group meet its threads there.
The results of the next two are written at issue, which is the model's reading of their interlock (log 30).
`vote` and `shfl` (R190, R191): in a converged bundle whose mask covers the executing threads, each executing thread takes the count,
rank, first position or ballot of the threads whose predicate holds, or the fold of its own value with that of the position it
names; otherwise they take a convergence trap. -/
def Obligations.GroupSync : Prop :=
  (∀ (s : State) (b : Bundle) (h : Hdr) (m : RegOrExt), s.focusBundle = some b →
    let mask := fun (x : Thread) => match m with | .reg a => (x.view.gval a).setWidth 32 | .ext e => e
    let n := match m with | .reg _ => 1 | .ext _ => 2
    let waits := fun (a : Word) (ms : List (Nat × BitVec 32)) => ∃ u, exec (.gsync h m) s = .next (settle u)
      ∧ u = { s with threads := u.threads, bundles := u.bundles } ∧ u.threads.length = s.threads.length
      ∧ (∀ (k : Nat) (x y : Thread), s.threads[k]? = some x → u.threads[k]? = some y →
          y = { x with pc := if s.inFocus x then x.pc + BitVec.ofNat 64 (4 * n) else x.pc })
      ∧ u.bundles = s.bundles.map fun c => if c.id = b.id then { c with hold := .gsync a ms } else c
    (∀ x xs, s.executing h = x :: xs → (∀ y ∈ x :: xs, (mask y).getLsbD (y.id.lane % 32) = true) →
      waits x.pc ((x :: xs).map fun y => (y.id.lane, mask y)))
    ∧ (∀ x xs, s.executing h = [] → s.focusThreads = x :: xs →
        let named : Prop := ∃ c ∈ s.bundles, c.core = b.core ∧ c.slot = b.slot ∧ c.lg = b.lg ∧ ∃ ms, c.hold = .gsync x.pc ms
          ∧ ∃ e ∈ ms, ∃ l ∈ b.lanes, e.2.getLsbD (l % 32) = true
        let other := fun (u : Thread) => u.id.core = b.core ∧ u.id.slot = b.slot ∧ u.id.laneGroup = b.lg ∧ u.id.lane ∉ b.lanes
        (named → waits x.pc [])
        ∧ (¬named → ∃ t, exec (.gsync h m) s = .next t ∧ t = { s with threads := t.threads } ∧ t.threads.length = s.threads.length
            ∧ ∀ (k : Nat) (y z : Thread), s.threads[k]? = some y → t.threads[k]? = some z →
                (s.inFocus y = true → z = { y with pc := y.pc + BitVec.ofNat 64 (4 * n), reached := z.reached }
                  ∧ ∃ to_ : BitVec 32, z.reached = (if to_ = 0 then y.reached else y.reached ++ [(y.rserial, x.pc, to_)])
                    ∧ ∀ p : Fin 32, to_.getLsbD p.val = true ↔
                        ∃ u ∈ s.threads, other u ∧ u.alive = true ∧ u.id.lane % 32 = p.val ∧ u.passed x.pc y.id.pos = false)
                ∧ (s.inFocus y = false → other y → z = y.met x.pc (lanesMask b.lanes))
                ∧ (s.inFocus y = false → ¬other y → z = y)))
    ∧ (s.IssuesAt b false → (∃ x ∈ s.executing h, (mask x).getLsbD (x.id.lane % 32) = false) →
        ∃ t, exec (.gsync h m) s = .next t ∧ s.TookTraps t b (((s.executing h).filter fun x => !(mask x).getLsbD (x.id.lane % 32)).map
          fun x => ⟨x.id, .illegal, x.pc, 0, 0, false⟩) none))
  ∧ (∀ (s : State) (b : Bundle) (a : Word) (m0 : BitVec 32) (masks : List (Nat × BitVec 32)), b ∈ s.bundles →
    b.hold = .gsync a masks → masks ≠ [] → (∀ e ∈ masks, e.2 = m0) → b.lanes ≠ [] →
    (∀ c ∈ s.bundles, c.id = b.id → c = b) →
    (∀ c ∈ s.bundles, c ≠ b → ∀ ms, c.core = b.core → c.slot = b.slot → c.lg = b.lg → c.hold ≠ .gsync a ms) →
    (∀ x ∈ s.threads, x.alive = true → x.id.core = b.core → x.id.slot = b.slot → x.id.laneGroup = b.lg → m0.getLsbD x.id.pos = true →
      x.id.lane ∈ b.lanes ∨ ∀ e ∈ masks, x.passed a (e.1 % 32) = true) →
    let t := settleGsync s b
    t = { s with bundles := t.bundles, threads := t.threads } ∧ t.threads.length = s.threads.length
    ∧ (∀ (k : Nat) (x y : Thread), s.threads[k]? = some x → t.threads[k]? = some y →
        if x.id.core = b.core ∧ x.id.slot = b.slot ∧ x.id.laneGroup = b.lg ∧ x.id.lane ∉ b.lanes
        then y = x.met a (lanesMask b.lanes) else y = x)
    ∧ (∃ c ∈ t.bundles, c.id = b.id ∧ c.hold = .none ∧ c.conv = some m0 ∧ ∀ l, l ∈ c.lanes ↔ l ∈ b.lanes)
    ∧ ∀ c, c ≠ b → c ∈ s.bundles → c ∈ t.bundles)
  ∧ (∀ (s : State) (b : Bundle) (h : Hdr) (d a bb : Fin 32) (inv : Bool) (pa : Fin 8) (code : Fin 32), s.focusBundle = some b → code.val ≤ 3 →
    let ex := s.executing h
    let ok : Prop := ex = [] ∨ ∃ m, b.conv = some m ∧ ∀ x ∈ ex, m.getLsbD (x.id.lane % 32) = true
    let yes := (ex.filter fun x => x.view.pred pa != inv).map fun x => x.id.lane % 32
    (ok → ∃ t, exec (.vote h d inv pa code) s = .next t ∧ s.Lanes t 1 h fun x y => ∃ v : Word, x.Writes 0 [(.g d, v)] y
        ∧ (code = 0 → v.toNat = ((yes.map (2 ^ ·)).sum + 2 ^ 32 * ex.length + 2 ^ 40 * yes.length) % 2 ^ 64)
        ∧ (code = 1 → v.toNat = (yes.countP fun k => k < x.id.lane % 32) % 2 ^ 64)
        ∧ (code = 2 → (yes = [] → v = 32) ∧ (yes ≠ [] → v.toNat ∈ yes ∧ ∀ k ∈ yes, v.toNat ≤ k))
        ∧ (code = 3 → v.toNat = yes.length % 2 ^ 64))
    ∧ (ok → ∃ t, exec (.shfl h d a bb) s = .next t ∧ s.Lanes t 1 h fun x y => ∃ v : Word, x.Writes 0 [(.g d, v)] y
        ∧ let own := x.view.gval a
          let c := x.view.gval bb
          ((∀ u ∈ ex, u.id.lane % 32 ≠ c.toNat % 32) → v = own)
          ∧ ∀ u, (ex.find? fun u => u.id.lane % 32 == c.toNat % 32) = some u →
              let far := u.view.gval a
              match c.toNat / 256 % 8 with
              | 0 => v = far
              | 1 => v = own + far
              | 2 => v.toInt = min own.toInt far.toInt
              | 3 => v.toInt = max own.toInt far.toInt
              | 4 => v.toNat = min own.toNat far.toNat
              | 5 => v.toNat = max own.toNat far.toNat
              | 6 => v = own &&& far
              | _ => v = own ||| far)
    ∧ (¬ok → s.IssuesAt b false → ∀ i ∈ [Instr.vote h d inv pa code, .shfl h d a bb],
        ∃ t, exec i s = .next t ∧ s.TookTraps t b (ex.map fun x => ⟨x.id, .convergence, x.pc, 0, 0, false⟩) none))

/-- Eleven forms complete with the effect the reference gives them, under conditions on the state and the operands alone. `gets` (R26, R112):
gD takes the special register; that ECOUNT is the count at issue is the model's choice (log 88). `ldnr` (R146): with no fault and fewer than four loads outstanding the load is issued. `pref` (R148): no
register changes, and the translation it finds is in the access TLB. `pgreq` (R147): gD takes 0, or a page request that will write it is on
its way. `tlbi.page`, `tlbi.ctx` and `tlbi.part` at H (R159): the page's, the context's or the partition's translations are in no TLB and
no latch. Store (R142, R248): the bytes are in the buffer. Drain (R248): the entry's bytes are in M. Publish (R248): no line is
narrow-held, what was to be published has left the buffer, and M holds its bytes, of several for one byte the last. Walk (R301, R303): the leaf is in the TLB and its A bit is set. -/
def Obligations.Completions : Prop :=
  (∀ (s : State) (h : Hdr) (d sr : Fin 32), WellFormed.specialNumber sr = true →
    (24 ≤ sr.val → ∀ x ∈ s.executing h, s.hlevel x = true) →
    ∃ t, exec (.gets h d sr) s = .next t ∧ s.Lanes t 1 h fun x y => x.Writes 4 [(.g d, s.special x sr.val)] y)
  ∧ (∀ (s : State) (h : Hdr) (d a b : Fin 32) (e : Exts), s.IdsDistinct →
    let ea := fun (x : Thread) => effAddr (x.view.gval a) e
    let found := fun (x : Thread) => s.check x ⟨ea x, sizeBytes (b.val % 8), .read, .any, true⟩ (s.stalePick x.id.lane)
    (∀ x ∈ s.executing h, (x.pending.filter State.isLoad).length < 4) →
    s.walkHolders ((s.executing h).map fun x => (x, ea x)) = [] →
    (∀ x ∈ s.executing h, (∃ loc eff, found x = .ok loc eff) ∧ (found x).waits s = false) →
    ∃ t, exec (.ldnr h d a b e) s = .next t ∧ ∀ x ∈ s.executing h, ∃ y, t.thread? x.id = some y
      ∧ y.pc = x.pc + BitVec.ofNat 64 (4 * extsWords e) ∧ y.regs = x.regs
      ∧ ∃ q ∈ y.pending, q.iid = s.nextId ∧ q.kind = .ld ⟨false, d, b.val % 8, some ⟨4 + b.val / 8 % 4, by omega⟩⟩ ∧ q.va = ea x
        ∧ q.size = sizeBytes (b.val % 8) ∧ ∃ eff, found x = .ok q.loc eff)
  ∧ (∀ (s : State) (h : Hdr) (a b : Fin 32) (e : Exts), let ea := fun (x : Thread) => effAddr (x.view.gval a) e
    s.walkHolders ((s.executing h).map fun x => (x, ea x)) = [] →
    ∃ t, exec (.pref h a b e) s = .next t
      ∧ (∀ (k : Nat) (x y : Thread), s.threads[k]? = some x → t.threads[k]? = some y → y.regs = x.regs
          ∧ y.pc = if s.inFocus x then x.pc + BitVec.ofNat 64 (4 * extsWords e) else x.pc)
      ∧ ∀ (x : Thread) (pa : Nat) (eff : XEff), s.executing h = [x] → canonical (ea x) = true → inAperture (ea x) = false →
          s.xlate .access x.id.core (some x.id.lane) (s.ctxOf x) (s.hlevel x) (ea x) .read (s.stalePick x.id.lane) = .ok pa eff →
          s.xWaits eff = false → eff.latched = false → eff.entry ∈ (t.core x.id.core).tlb.access)
  ∧ (∀ (s : State) (h : Hdr) (d a : Fin 32) (e : Exts), let ea := fun (x : Thread) => effAddr (x.view.gval a) e
    s.IdsDistinct → s.walkHolders ((s.executing h).map fun x => (x, ea x)) = [] →
    ∃ t, exec (.pgreq h d a e) s = .next t ∧ ∀ x ∈ s.executing h, ∃ y, t.thread? x.id = some y
      ∧ y.pc = x.pc + BitVec.ofNat 64 (4 * extsWords e)
      ∧ (y.regs.gval d = 0 ∨ ∃ r ∈ t.reports, r.kind = 1 ∧ r.cause = .pageRequest ∧ r.waiter = .reg x.id d ∧ r.eaddr = ea x))
  ∧ (∀ (s : State) (h : Hdr) (d a : Fin 32), (∀ x ∈ s.executing h, s.hlevel x = true) →
    (∀ y ∈ s.threads, ∀ q ∈ y.pending, ∀ pa, q.loc = .dev pa → q.size = 0) →
    let swept := fun (i : Instr) (covers : Thread → TlbEntry → Prop) => ∃ t, exec i s = .next t
      ∧ (∀ (k : Nat) (x y : Thread), s.threads[k]? = some x → t.threads[k]? = some y → y.regs = x.regs
          ∧ y.pc = if s.inFocus x then x.pc + 4 else x.pc)
      ∧ ∀ c ∈ t.cores, ∀ e ∈ c.tlb.fetch ++ c.tlb.access ++ c.tlb.stream ++ c.tlb.tile ++ c.tlb.latches.map (·.2),
          ∀ x ∈ s.executing h, ¬covers x e
    swept (.tlbiPage h d a) (fun x e => e.ctx = (x.view.gval d).toNat % 4096
        ∧ e.vbase ≤ (x.view.gval a).toNat % 2 ^ 57 ∧ (x.view.gval a).toNat % 2 ^ 57 < e.vbase + e.size)
    ∧ swept (.tlbiCtx h d) (fun x e => e.ctx = (x.view.gval d).toNat % 4096)
    ∧ swept (.tlbiPart h d) (fun x e => ∃ c ∈ s.ctxs, c.id = e.ctx ∧ c.part = (x.view.gval d).toNat % 16))
  ∧ (∀ (s : State) (id : ThreadId) (x : Thread) (k pa : Nat) (q : Access), s.powered? id = some x → eligible x k = some q →
    q.kind = .st → q.loc = .dev pa → 0 < q.size → pa % 32 + q.size ≤ 32 → (s.core id.core).entryCount < 512 → q.replay = false →
    placeGone s x q = false → ∃ t, exec (.store id k) s = .next t ∧ t.mem = s.mem ∧ tbRead t id pa q.size = q.data % 2 ^ (8 * q.size)
      ∧ s.AtBegun t id k fun x y => y = { x with pending := x.pending.filter fun r => r.iid != k })
  ∧ (∀ (s : State) (c k sec mask data : Nat) (con : List (ThreadId × BitVec 32)) (before after : List TbItem),
    (s.core c).tb = before ++ .entry k sec mask data con :: after →
    (∀ i ∈ before, ∃ k' sec' m' d' con', i = .entry k' sec' m' d' con' ∧ k' ≠ k ∧ sec' ≠ sec) → (∀ w ∈ con, s.gate w = true) →
    (∀ x ∈ s.cores, x.id ≠ c → sec / 2 ∉ x.nh) → writeWaits s (32 * sec) 32 = false →
    ∃ t, exec (.drain c k) s = .next t ∧ (∀ i ∈ (t.core c).tb, i.isEntry k = false)
      ∧ (∀ i, i < 32 → mask.testBit i = true → Memory.read t.mem (32 * sec + i) = BitVec.ofNat 8 (data / 2 ^ (8 * i)))
      ∧ ∀ adr, adr / 32 ≠ sec → Memory.read t.mem adr = Memory.read s.mem adr)
  ∧ (∀ (s : State) (c : Nat), (∀ k sec mask data con, TbItem.entry k sec mask data con ∈ (s.core c).tb →
      (∀ w ∈ con, s.gate w = true) ∧ writeWaits s (32 * sec) 32 = false) →
    ∃ t, exec (.publish c) s = .next t ∧ (t.core c).nh = [] ∧ (t.core c).ltr = none
      ∧ (∀ k ∈ publishSet (s.core c), ∀ i ∈ (t.core c).tb, i.isEntry k = false)
      ∧ (((s.core c).tb.map TbItem.id).Nodup → ∀ (before after : List TbItem) (k sec mask data : Nat) (con : List (ThreadId × BitVec 32)) (i : Nat),
          (s.core c).tb = before ++ .entry k sec mask data con :: after → k ∈ publishSet (s.core c) → i < 32 → mask.testBit i = true →
          (∀ q mq dq cq, TbItem.entry q sec mq dq cq ∈ after → q ∈ publishSet (s.core c) → mq.testBit i = false) →
          Memory.read t.mem (32 * sec + i) = BitVec.ofNat 8 (data / 2 ^ (8 * i))))
  ∧ ∀ (s : State) (core ctx a : Nat) (va p : Word) (kind : TlbKind) (lane : Option Nat) (write : Bool) (c : Context) (e : TlbEntry)
      (nl : List (Nat × Nat × Nat × Nat)), s.ctx? ctx = some c → canonical va = true → heldBy s none (s.walkLines c va) = [] →
    (∀ pick, s.walkFor core c va pick = .leaf e a p nl) → writeWaits s a 8 = false →
    ∃ t, exec (.walk core ctx va kind lane write) s = .next t ∧ t.bundles = s.bundles
      ∧ { e with d := e.d || (write && e.w) } ∈ (t.core core).tlb.of kind ∧ (t.readM a 8).testBit 6 = true

/-- Arrival at a team barrier (R192-R194, R216): where every executing thread has performed its accesses and written its tile rows, its gate is open, no reply of this
region is kept and all name one target in range, the barrier's count rises by the threads that arrive, their earlier stores are
released, with the lines of the buffer narrow-held where the tables of R298 have room, and a `.sync` bundle waits for the phase. A target out of range or unequal is a barrier trap.
A barrier completes (R193): when its arrivals have reached the target, or for target 0 every live thread of the team, its phase
advances, its count and target are cleared, and the bundles that waited for the phase go on; below that it stays as it is. -/
def Obligations.Barriers : Prop :=
  (∀ (s : State) (b : Bundle) (x0 : Thread) (xs : List Thread) (h : Hdr) (a bb : Fin 32) (bar : Bar), s.focusBundle = some b →
    s.executing h = x0 :: xs → (∀ x ∈ x0 :: xs, x.kept = none) → (s.teamOf x0).bars[a.val]? = some bar → s.IdsDistinct →
    let want := bar.target.getD (x0.view.gval bb).toNat
    let fits := fun (x : Thread) => (x.view.gval bb).toNat ≤ (s.teamOf x).kernel.groups * 32 ∧ (x.view.gval bb).toNat = want
    ∀ p ∈ [(Instr.barSync h a bb, true), (.barArr h a bb, false)],
      ((∀ x ∈ x0 :: xs, x.pending = [] ∧ x.gateOpen x.rserial = true ∧ x.rowsDone = true ∧ fits x) →
        let room := (placeMarker s b.core true).tagOver = none
        ∃ u, exec p.1 s = .next (settle u) ∧ (room → u.mem = s.mem) ∧ (∀ adr, ¬s.Buffered adr → Memory.read u.mem adr = Memory.read s.mem adr)
          ∧ u.teams = s.teams.map (fun tm => if tm.id = x0.team then
              { tm with bars := tm.bars.set a.val ⟨bar.phase, bar.count + (xs.length + 1), some want⟩ } else tm)
          ∧ u.bundles = s.bundles.map (fun c => if c.id = b.id ∧ p.2 = true then { c with hold := .barSync a.val bar.phase } else c)
          ∧ (room → (s.core b.core).tb ≠ [] → (∃ m, (u.core b.core).tb = (s.core b.core).tb ++ [.marker m]) ∧ s.HoldsBuffer u b.core)
          ∧ u.threads.length = s.threads.length
          ∧ ∀ (k : Nat) (x y : Thread), s.threads[k]? = some x → u.threads[k]? = some y →
              y.pending.map Access.unwoken = x.pending.map Access.unwoken ∧ (room → y.pending = x.pending)
              ∧ y = { x with pc := if s.inFocus x then x.pc + 4 else x.pc, pending := y.pending
                             replies := if s.inFocus x && x.guard h
                             then (x.rserial, bar.phase) :: x.replies.filter (fun e => e.1 != x.rserial) else x.replies })
      ∧ (s.IssuesAt b false → (∃ x ∈ x0 :: xs, ¬fits x) → ∃ t traps, exec p.1 s = .next t ∧ s.TookTraps t b traps none
          ∧ (∀ q ∈ traps, q.cause = .barrier ∧ ∃ x ∈ x0 :: xs, q.thread = x.id ∧ q.epc = x.pc ∧ ¬fits x)
          ∧ ∀ x ∈ x0 :: xs, ¬fits x → ∃ q ∈ traps, q.thread = x.id))
  ∧ (∀ (s : State),
    let live := fun (tm : Team) => (s.threads.filter fun x => x.team == tm.id && x.alive).length
    let done := fun (tm : Team) (b : Bar) => ∃ n, b.target = some n ∧ (if n = 0 then live tm else n) ≤ b.count
    let t := settleBars s
    t = { s with teams := t.teams, bundles := t.bundles }
    ∧ (∀ (k i : Nat) (tm tm' : Team) (b : Bar), s.teams[k]? = some tm → t.teams[k]? = some tm' → tm.bars[i]? = some b →
        (done tm b → tm'.bars[i]? = some ⟨b.phase + 1, 0, none⟩) ∧ (¬done tm b → tm'.bars[i]? = some b))
    ∧ ∀ (k : Nat) (c c' : Bundle), s.bundles[k]? = some c → t.bundles[k]? = some c' → c' = { c with hold := c'.hold }
        ∧ ((∀ i ph, c.hold ≠ .barSync i ph) → c' = c)
        ∧ ∀ i ph x, c.hold = .barSync i ph → (s.threads.find? fun x => c.has x.id) = some x →
            (c'.hold = .none ↔ ((t.teamOf x).bars[i]?.map (·.phase)) ≠ some ph))

/-- `trap` (R201): at U, a software trap with its code in every executing thread; when the tickets are resolved RETRY the threads go on at
the instruction after it. At H the trap freezes the group, with the code in EADDR. With no executing thread it does nothing.
`brk` (R201, R402): without a debug monitor it does nothing; with one that has room, in one step by the model's choice (log 17, 25), the
event's ticket is open, TAIL of the debug block advances by one, the group's live threads are frozen past the instruction, and no bundle
is in issue. -/
def Obligations.TrapBreakpoint : Prop :=
  (∀ (s : State) (b : Bundle) (h : Hdr) (e : Exts),
    (∀ x xs, s.IssuesAt b false → s.executing h = x :: xs → ∃ t, exec (.trap h e) s = .next t
      ∧ s.TookTraps t b ((x :: xs).map fun y => ⟨y.id, .softTrap, y.pc, match e with | .none => 0 | .one c | .two c _ => c.setWidth 64, 0, false⟩)
          (some (x.pc + BitVec.ofNat 64 (4 * extsWords e))))
    ∧ (∀ x xs y ys, s.IssuesAt b true → s.executing h = x :: xs → s.focusThreads = y :: ys → ∃ t, exec (.trap h e) s = .next t
      ∧ s.FrozeGroup t y ((x :: xs).map fun y => ⟨y.id, .softTrap, y.pc,
          match e with | .none => 0 | .one c | .two c _ => c.setWidth 64, 0, false⟩))
    ∧ (s.executing h = [] → ∃ t, exec (.trap h e) s = .next t ∧ s.Lanes t (extsWords e) h fun _ _ => False))
  ∧ (∀ (s : State) (h : Hdr) (e : Exts),
    ((∀ x ∈ s.executing h, (s.ctxOf x).dbg = false) →
      ∃ t, exec (.brk h e) s = .next t ∧ s.Lanes t (extsWords e) h fun x y => y = { x with pc := y.pc })
    ∧ ∀ (x : Thread) (xs : List Thread) (d pe : Nat), laneOrder (s.executing h) = x :: xs → (s.ctxOf x).dbg = true →
        ctxPa s (s.ctxOf x) (s.ctxOf x).dbgBlk = some d →
        let tail := s.readM d 8
        let cap := s.readM (d + 16) 8
        let k := tail % cap
        let base : Word := BitVec.ofNat 64 (s.readM (d + 24) 8 + k * 0xC000)
        let ev : Word := (s.ctxOf x).dbgBlk + BitVec.ofNat 64 (64 + 64 * k)
        (tail + 2 ^ 64 - s.readM (d + 8) 8) % 2 ^ 64 < cap → ctxPa s (s.ctxOf x) ev = some pe →
        heldBy s none (debugLines s (s.ctxOf x) base ev) = [] →
        (∀ c ∈ s.bundles, ∀ y ∈ s.threads, y.team = x.team → y.group = x.group → c.has y.id = true → c.ra = none) →
        ∃ t, exec (.brk h e) s = .next t ∧ t.readM d 8 = (tail + 1) % 2 ^ 64 ∧ t.focus = none
          ∧ (∃ o ∈ t.tickets, o.ticket = pe + 56 ∧ o.done = false ∧ o.debug = some (x.team, x.group, base) ∧ o.ctx = (s.ctxOf x).id)
          ∧ t.threads.length = s.threads.length
          ∧ ∀ (k : Nat) (y z : Thread), s.threads[k]? = some y → t.threads[k]? = some z →
              z.pc = (if s.inFocus y then y.pc + BitVec.ofNat 64 (4 * extsWords e) else y.pc) ∧ z.regs = y.regs
              ∧ (if y.team = x.team ∧ y.group = x.group ∧ y.status = .live then z.status = .frozen else z.status = y.status))

/-- `rec` (R195-R197, R251, R254): executing threads of one bundle, all but those that keep this region's reply, whose handle, queue base
and slots may be written, on a queue with room for them all, with their earlier writes in M and no line of the queue or its tables held by a
core: in lane order the eight registers from gD of each stand in the slots from TAIL on, TAIL advances by their number, the reply of each is
kept, and no byte outside the slots and TAIL changes. That the append is one step with no line held is the model's choice (log 17). On a queue
without room every one of them takes a queue trap.
`sysc` (R198, R199, R251): executing threads, with their earlier writes in M and no line of the queue held by a core, a service queue with
room and a following `region` whose live-in registers include g10 to g17: the continuation of each, with its resume point, who it is, STAMP,
RSERIAL, masks, MODE, REQ and SAVED, stands in the queue's next slots in lane order, TAIL advances by their number, each thread's
continuation is pending at its slot, its reply is kept, and the bundle goes on without them; one step again by the model's choice (log 17).
On a queue without room for them all the first of them perform, as many as it takes, and each of the others takes a queue trap, whose EADDR
is the queue's address; that lane order decides who they are, and that address, are the model's choice (log 66). -/
def Obligations.AppendService : Prop :=
  (∀ (s : State) (b : Bundle) (h : Hdr) (d a : Fin 32) (pa : Nat) (handle : Word) (slot : Nat → Nat), s.focusBundle = some b →
    s.IdsDistinct → d.val % 8 = 0 → (∀ x ∈ s.executing h, x.id.lane < 128) →
    let ts := laneOrder ((s.executing h).filter fun x => x.kept.isNone)
    let cap := s.readM (pa + 8) 8
    let tail := s.readM (pa + 16) 8
    let used := (tail + 2 ^ 64 - s.readM (pa + 24) 8) % 2 ^ 64
    let slotVa := fun (j : Nat) => (BitVec.ofNat 64 (s.readM pa 8 + 64 * ((tail + j) % cap)) : Word)
    (∀ x ∈ ts, x.view.gval a = handle ∧ (∃ e, storeCheck s x handle 64 = .ok (pa, e) ∧ e.pte = none)
      ∧ ∃ p, storeCheck s x (BitVec.ofNat 64 (s.readM pa 8)) 64 = .ok p) → 0 < cap →
    (∀ (j : Nat) (x : Thread), ts[j]? = some x → ∃ e, storeCheck s x (slotVa j) 64 = .ok (slot j, e) ∧ e.pte = none) →
    heldBy s none (recordWalks s ts a) = [] →
    (used + ts.length ≤ cap → (∀ j, j < ts.length → (slot j + 64 ≤ pa ∨ pa + 64 ≤ slot j)
        ∧ ∀ k, k < ts.length → k ≠ j → slot j + 64 ≤ slot k ∨ slot k + 64 ≤ slot j) →
      (∀ x ∈ ts, quiet s x = true) → agentHolders s (ts.map (fun _ => (pa, 64)) ++ ts.filterMap (recordPlace s ts a)) = [] →
      recordLocked s ts a = false →
      ∃ t, exec (.recd h d a) s = .next t
        ∧ (∀ (j : Nat) (x : Thread), ts[j]? = some x → ∀ k, k < 8 → t.readM (slot j + 8 * k) 8
            = if hk : d.val + k < 32 then (x.view.gval ⟨d.val + k, hk⟩).toNat else 0)
        ∧ t.readM (pa + 16) 8 = (tail + ts.length) % 2 ^ 64
        ∧ (∀ adr, (∀ j, j < ts.length → ¬(slot j ≤ adr ∧ adr < slot j + 64)) → ¬(pa + 16 ≤ adr ∧ adr < pa + 24) →
            Memory.read t.mem adr = Memory.read s.mem adr)
        ∧ ∀ x ∈ s.threads, ∃ y, t.thread? x.id = some y ∧ y.regs = x.regs ∧ y.pc = (if s.inFocus x then x.pc + 4 else x.pc)
            ∧ (x ∈ ts → (x.rserial, 0) ∈ y.replies))
    ∧ (cap < used + ts.length → ts ≠ [] → s.IssuesAt b false → ∃ t, exec (.recd h d a) s = .next t
        ∧ s.TookTraps t b (ts.map fun x => ⟨x.id, .queueFull, x.pc, handle, accInfo 64 2, false⟩) none))
  ∧ (∀ (s : State) (b : Bundle) (x0 : Thread) (xs : List Thread) (h : Hdr) (a : Fin 32) (q : Nat) (place : Nat → Nat → Nat) (gm fm : Ext),
    s.focusBundle = some b → laneOrder (s.executing h) = x0 :: xs → s.IdsDistinct →
    let ts := (x0 :: xs).filter fun x => x.kept.isNone
    let c := s.ctxOf x0
    let cap := s.readM (q + 8) 8
    let tail := s.readM (q + 16) 8
    let used := (tail + 2 ^ 64 - s.readM (q + 24) 8) % 2 ^ 64
    let va := fun (j : Nat) => (BitVec.ofNat 64 (s.readM q 8 + 192 * ((tail + j) % cap)) : Word)
    ctxPa s c c.svcq = some q → followingMasks s x0 = (gm, fm) → gm &&& 0x3FC00 = 0x3FC00 → 0 < cap →
    heldBy s none (agentLines s c c.svcq 64 ++ agentLines s c (x0.pc + 8) 4 ++ agentLines s c (x0.pc + 12) 4) = [] →
    (used + ts.length ≤ cap → (∀ x ∈ ts, quiet s x = true) →
      (∀ j, j < ts.length → heldBy s none (continuationWalks s c (va j) ++ continuationLines s c (va j)) = []) →
      serviceLocked s c q ts.length = false →
      (∀ j i, j < ts.length → i < 24 → ctxPa s c (va j + BitVec.ofNat 64 (8 * i)) = some (place j i)
        ∧ (place j i + 8 ≤ q ∨ q + 64 ≤ place j i)
        ∧ ∀ l k, l < ts.length → k < 24 → (l, k) ≠ (j, i) → place j i + 8 ≤ place l k ∨ place l k + 8 ≤ place j i) →
      (∀ y ∈ s.threads, y.back = none) →
      let left := b.lanes.filter fun l => !(ts.map (·.id.lane)).contains l
      ∃ t, exec (.sysc h a) s = .next t
        ∧ t.readM (q + 16) 8 = (tail + ts.length) % 2 ^ 64
        ∧ (∀ (j : Nat) (x : Thread), ts[j]? = some x → let w := fun (i : Nat) => t.readM (place j i) 8
            w 0 = (x.pc + 4).toNat
            ∧ w 1 = ((x.view.gval a).toNat % 2 ^ 16 * 2 ^ 48 + (s.teamOf x).ctx * 2 ^ 32 + x.id.posWord) % 2 ^ 64
            ∧ w 2 = s.tstamp % 2 ^ 64 ∧ w 3 = x.rserial.toNat ∧ w 4 = fm.toNat * 2 ^ 32 + gm.toNat ∧ w 5 = x.view.mode.toNat ∧ w 6 = 0 ∧ w 7 = 0
            ∧ (∀ k, (hk : k < 8) → w (8 + k) = (x.view.g[10 + k]'(by omega)).toNat)
            ∧ (∀ k, k < 8 → w (16 + k) = ((((maskRegs (gm &&& ~~~0x3FC00) fm).map x.view.get)[k]?).getD 0).toNat)
            ∧ ∃ y, t.thread? x.id = some y ∧ y.status = .continuation (va j) ∧ (x.rserial, 0) ∈ y.replies ∧ y.regs = x.regs
                ∧ y.pc = x.pc + 4)
        ∧ (∀ adr, (∀ j i, j < ts.length → i < 24 → ¬(place j i ≤ adr ∧ adr < place j i + 8)) → ¬(q + 16 ≤ adr ∧ adr < q + 24) →
            Memory.read t.mem adr = Memory.read s.mem adr)
        ∧ (left = [] → ∀ k ∈ t.bundles, k.id ≠ b.id) ∧ (left ≠ [] → ∀ k ∈ t.bundles, k.id = b.id → k.lanes = left))
    ∧ (cap ≤ used → ts ≠ [] → s.IssuesAt b false → ∃ t, exec (.sysc h a) s = .next t
        ∧ s.TookTraps t b (ts.map fun x => ⟨x.id, .queueFull, x.pc, c.svcq, 0, false⟩) none)
    ∧ (used < cap → cap < used + ts.length → s.IssuesAt b false → (∀ x ∈ ts.take (cap - used), quiet s x = true) →
      (∀ j, j < cap - used → heldBy s none (continuationWalks s c (va j) ++ continuationLines s c (va j)) = []
        ∧ continuationMapped s c (va j) = true) →
      serviceLocked s c q (cap - used) = false →
      (∀ j i pa, j < cap - used → i < 24 → ctxPa s c (va j + BitVec.ofNat 64 (8 * i)) = some pa → pa + 8 ≤ q ∨ q + 64 ≤ pa) →
      let n := cap - used
      ∃ (u t : State), exec (.sysc h a) s = .next t ∧ u.readM (q + 16) 8 = (tail + n) % 2 ^ 64
        ∧ u.TookTraps t { b with lanes := b.lanes.filter fun l => !((ts.take n).map (·.id.lane)).contains l }
            ((ts.drop n).map fun x => ⟨x.id, .queueFull, x.pc, c.svcq, 0, false⟩) none
        ∧ (∀ (j : Nat) (x : Thread), j < n → ts[j]? = some x → ∃ y, u.thread? x.id = some y ∧ y.status = .continuation (va j)
            ∧ (x.rserial, 0) ∈ y.replies ∧ y.regs = x.regs ∧ y.pc = x.pc + 4)
        ∧ ∀ x ∈ s.threads, x ∉ ts.take n → u.thread? x.id = some x))

/-- `hresume` at H (R203): one executing thread that is quiet and names an unresolved ticket of its handler's tables writes 1 (RETRY) or 2
(KILL, TERM) to it; RETRY and KILL then resolve the ticket for its waiters, TERM ends its context. On a ticket that already holds 1 or
2 nothing happens but that the instruction is past. An address that translates to no ticket is an access fault.
RETRY and KILL (R203, R345, R346) for a thread whose ticket has resolved and on which nothing else waits: RETRY restarts it at its
region's entry with the registers, predicates, MODE and serial of its checkpoint over those it has; KILL ends it. -/
def Obligations.TicketResolution : Prop :=
  (∀ (s : State) (b : Bundle) (x : Thread) (h : Hdr) (a : Fin 32), s.focusBundle = some b → s.executing h = [x] → x.kept = none →
    x.id.lane < 128 → s.IdsDistinct → s.hlevel x = true → s.walkHolders [(x, x.view.gval a)] = [] →
    ∀ p ∈ [(Instr.hresumeRetry h a, 1, Resolution.retry), (.hresumeKill h a, 2, .kill), (.hresumeTerm h a, 2, .term)],
      (∀ o eff, ticketAt s x (x.view.gval a) = .ok (o, eff) → quiet s x = true → eff.pte = none → heldBy s none (resolveLines s o p.2.2) = [] →
        ∃ u, u.threads.length = s.threads.length
          ∧ (∀ (k : Nat) (y z : Thread), s.threads[k]? = some y → u.threads[k]? = some z →
              z.pc = (if s.inFocus y then y.pc + 4 else y.pc) ∧ z.regs = y.regs ∧ z.status = y.status
              ∧ (y.id = x.id → (x.rserial, 0) ∈ z.replies))
          ∧ (s.readM o.ticket 8 % 4 ≠ 0 → exec p.1 s = .next u ∧ u.mem = s.mem)
          ∧ (s.readM o.ticket 8 % 4 = 0 → u.readM o.ticket 8 = p.2.1
              ∧ (∀ adr, ¬(o.ticket ≤ adr ∧ adr < o.ticket + 8) → Memory.read u.mem adr = Memory.read s.mem adr)
              ∧ exec p.1 s = .next (if p.1 = .hresumeRetry h a then resolveTicket u o true
                  else if p.1 = .hresumeKill h a then resolveTicket u o false else terminateContext (closeTicket u o) o.ctx)))
      ∧ (∀ c, ticketAt s x (x.view.gval a) = .error c → c = .access ∧ (b.ra = none → ∃ y ys t, s.focusThreads = y :: ys ∧ exec p.1 s = .next t
          ∧ (s.hlevel y = true → s.FrozeGroup t y [⟨x.id, .access, x.pc, x.view.gval a, accInfo 8 2, false⟩]))))
  ∧ (∀ (s : State) (x : Thread), s.thread? x.id = some x → s.IdsDistinct →
    (let t := s.wakeGroup ⟨[x.id], [(x.id, some true)], none, none, 0, [], 0⟩
     ∃ y, t.thread? x.id = some y ∧ y.status = .live ∧ y.pc = x.entry ∧ y.rserial = x.curSlot.seqh ∧ y.regs = x.curSlot.load x.regs
       ∧ t.mem = s.mem ∧ ∀ z ∈ s.threads, z.id ≠ x.id → z ∈ t.threads)
    ∧ (let t := s.wakeGroup ⟨[x.id], [(x.id, some false)], none, none, 0, [], 0⟩
       ∃ y, t.thread? x.id = some y ∧ y.status = .ended true ∧ t.mem = s.mem ∧ ∀ z ∈ s.threads, z.id ≠ x.id → z ∈ t.threads))

/-! ### Row 7 -/

/-- The products (R211-R216, R255): with acceptable operand words and frames in FULL granules, those fetched before as they were fetched
(which granules a waiting bundle has fetched is the model's, log 19), each executing thread owes its tile row, whose
elements are MatrixOutput of the old ones, and nothing is written yet. Of two dense unscaled KI8 frames the element is the saturating
sum, block by block of 32, of the products of the signed bytes (R94). -/
def Obligations.MatrixProducts : Prop :=
  (∀ (s : State) (h : Hdr) (d a b : Fin 32) (x0 : Thread) (xs : List Thread) (acc : Acc), s.executing h = x0 :: xs → s.IdsDistinct →
    ∀ p ∈ [(Instr.mma h d a b, Product.mma), (.mmas h d a b, .mmas), (.mmat h d a b, .mmat)],
      (∀ x ∈ x0 :: xs, tileBad s d.val x = false ∧ productWords s p.2 a b (x0 :: xs) x = none ∧ rowsPending x = false
        ∧ spPending x = false) →
      let lo := (s.teamOf x0).rowLo * 1024
      let ao := lo + aFrame (x0.view.gval a) * 1024
      let bo := lo + aFrame (x0.view.gval b) * 1024
      let c := s.operandCore x0.id.core
      let fr := fun (o : Nat) => Memory.readLE c.sp o frameBytes
      let hd := fun (o : Nat) => frameHdr (Memory.readLE c.sp o 8)
      let bs := if p.2 = .mmas then [bo, bo + frameBytes] else [bo]
      (∀ o ∈ ao :: bs, ∀ g, o ≤ 16 * g → 16 * g < o + frameBytes → c.granule g = .full
        ∧ ∀ x ∈ x0 :: xs, c.heldByOther x.id (16 * g) 16 = false) →
      (hd ao).violates = false →
      (p.2 = .mmas → ∀ x ∈ x0 :: xs, dataViolatesA (hd ao) (fr ao) (aRow (x.view.gval a)) = false) →
      (∀ o ∈ bs, (hd o).violates = false ∧ dataViolatesB (hd o) (fr o) = false ∧ accOf p.2 (hd ao) (hd o) = some acc
        ∧ (hd o).kind = (hd bo).kind ∧ (hd o).scaled = (hd bo).scaled) →
      (acc = .fp64 → d.val % 2 = 0 ∧ tileBad s (d.val + 1) x0 = false) →
      let fb2 := if p.2 = .mmas then fr (bo + frameBytes) else 0
      let old := s.core x0.id.core
      let new := fun (x : Thread) (old j : Nat) => matrixOutput acc (hd ao) (hd bo) (fr ao) (fr bo) fb2 (aRow (x.view.gval a)) j old
      ∃ t, exec p.1 s = .next t ∧ (∀ k, (t.core k).acc = (s.core k).acc ∧ (t.core k).sp = (s.core k).sp
          ∧ (t.core k).gran = (s.core k).gran)
        ∧ ({ s with cores := t.cores } : State).Lanes t 1 h fun x y => ∃ l, y = { x with pc := y.pc, results := x.results ++ [⟨.rows l, 0, 0⟩] }
          ∧ let tile := s.tileOf x d.val
            let r := x.id.pos
            if acc = .fp64 then ∃ v w : BitVec 2048, l = [(tile, tile * 32 + r, v), (tile + 1, (tile + 1) * 32 + r, w)] ∧ ∀ k, k < 32 →
                rowElem v 64 k = new x (rowElem (old.row tile r) 64 k) k % 2 ^ 64
                ∧ rowElem w 64 k = new x (rowElem (old.row (tile + 1) r) 64 k) (32 + k) % 2 ^ 64
            else ∃ v : BitVec 2048, l = [(tile, tile * 32 + r, v)] ∧ ∀ k, k < 64 →
                rowElem v 32 k = new x (rowElem (old.row tile r) 32 k) k % 2 ^ 32)
  ∧ ∀ (fa fb i j old : Nat), i < 64 → j < 64 →
      let ha : FrameHdr := ⟨8, false, false, 0, false⟩
      let hb : FrameHdr := ⟨8, false, true, 0, false⟩
      let block := fun (n : Nat) => ((List.range 32).map fun k =>
        signedCode 8 (frByte fa (1024 + 128 * i + 32 * n + k)) * signedCode 8 (frByte fb (1024 + 64 * (32 * n + k) + j))).sum
      signedCode 32 (matrixOutput .int32 ha hb fa fb 0 i j old)
        = (List.range 4).foldl (fun v n => max (-2147483648) (min (v + block n) 2147483647)) (signedCode 32 old)

/-- `accz`, `accrd` and `accwr` (R216-R219): with the tile below the count and no row of the threads still to be written, the row of
each thread becomes zero; gD takes the 64-bit word that the index names, at issue by the model's reading (log 30); that word becomes gA,
of several threads' for one word that of the last in the bundle's order (log 89), and no other word of any tile changes. Rows owed to threads
that do not execute the instruction are used as they stand (the model's choice, log 95).
`acccvt` (R220, R221): with one acceptable control word and nothing to wait for, each thread converts its tile row into row ROWB +
position of the frame, with its scales and the header, in FULL granules; no other byte of the scratchpad changes. -/
def Obligations.Accumulators : Prop :=
  (∀ (s : State) (h : Hdr) (d a b : Fin 32), s.IdsDistinct →
    let ex := s.executing h
    let ready := fun (tile : Fin 32) => ∀ x ∈ ex, tileBad s tile.val x = false ∧ rowsPending x = false
    let at_ := fun (x : Thread) (tile : Fin 32) (r : Nat) => s.tileOf x tile.val * 32 + r
    let row := fun (t : State) (c r : Nat) => (assocD 0 r (t.core c).acc : BitVec 2048)
    let only := fun (t : State) => (∀ c, t.core c = { s.core c with acc := (t.core c).acc, rowEntry := (t.core c).rowEntry })
      ∧ ({ s with cores := t.cores } : State).Lanes t 1 h fun x y => y = { x with pc := y.pc }
    (ready d → ∃ t, exec (.accz h d) s = .next t ∧ only t ∧ ∀ c r, row t c r
        = if ∃ x ∈ ex, x.id.core = c ∧ r = at_ x d x.id.pos then 0 else row s c r)
    ∧ (ready a → ∃ t, exec (.accrd h d a b) s = .next t ∧ s.Lanes t 1 h fun x y => ∃ v : Word, x.Writes 0 [(.g d, v)] y
        ∧ let i := x.view.gval b
          v.toNat = rowElem (row s x.id.core (at_ x a (i.toNat / 32 % 32))) 64 (i.toNat % 32))
    ∧ (ready d → ∃ t, exec (.accwr h d a b) s = .next t ∧ only t ∧ ∀ c r w, w < 32 → rowElem (row t c r) 64 w
        = match ex.reverse.find? fun x => decide (x.id.core = c ∧ r = at_ x d ((x.view.gval b).toNat / 32 % 32)
              ∧ (x.view.gval b).toNat % 32 = w) with
          | some x => (x.view.gval a).toNat
          | none => rowElem (row s c r) 64 w))
  ∧ (∀ (s : State) (h : Hdr) (a b : Fin 32) (w : Word) (x0 : Thread) (xs : List Thread), s.executing h = x0 :: xs → s.IdsDistinct →
    ((x0 :: xs).map (·.id.pos)).Nodup →
    let c := cvtCtl w
    let tm := s.teamOf x0
    (∀ x ∈ x0 :: xs, x.view.gval b = w ∧ c.ok (tm.kernel.srows * 1024) (c.rowb + x.id.pos) = true ∧ s.teamOf x = tm
      ∧ tileBad s a.val x = false ∧ rowsPending x = false ∧ spPending x = false) →
    let el := (frameHdr c.kind).elem
    let K := ((kindOf c.kind).map (·.K)).getD 0
    let base := tm.rowLo * 1024 + c.frame * 1024
    let row := fun (x : Thread) => c.rowb + x.id.pos
    let off := fun (x : Thread) => base + 1024 + (if c.orient then 8 * el.bits * row x else 128 * row x + 8 * el.bits * c.qpos)
    let soff := fun (x : Thread) => base + 64 + row x * (K / 32) + 2 * c.qpos
    let vals := fun (x : Thread) => rowValues c.srci ((s.core x.id.core).row (s.tileOf x a.val) x.id.pos)
    let mine := fun (x : Thread) (o : Nat) => (base ≤ o ∧ o < base + 64) ∨ (off x ≤ o ∧ o < off x + 8 * el.bits)
      ∨ (c.scaled = true ∧ soff x ≤ o ∧ o < soff x + 2)
    ∃ t, exec (.acccvt h a b) s = .next t ∧ ({ s with cores := t.cores } : State).Lanes t 1 h (fun x y => y = { x with pc := y.pc })
      ∧ (∀ k, (t.core k).acc = (s.core k).acc ∧ (t.core k).tb = (s.core k).tb ∧ (k ≠ x0.id.core → t.core k = s.core k))
      ∧ (∀ o, (∀ x ∈ x0 :: xs, ¬mine x o) → Memory.read (t.core x0.id.core).sp o = Memory.read (s.core x0.id.core).sp o)
      ∧ (∀ x ∈ x0 :: xs, ∀ o, mine x o → (t.core x0.id.core).granule (o / 16) = .full)
      ∧ frameHdr (Memory.readLE (t.core x0.id.core).sp base 8) = ⟨c.kind, c.scaled, c.orient, 0, false⟩
      ∧ ∀ x ∈ x0 :: xs, ∀ j, j < 64 →
          let q := quantizeBlock (if c.kind = 8 then .mxint8 else el) c.rnd (if j < 32 then (vals x).take 32 else (vals x).drop 32)
          let code := Memory.readLE (t.core x0.id.core).sp (off x) (8 * el.bits) / 2 ^ (el.bits * j) % 2 ^ el.bits
          if c.scaled then some code = (q.2[j % 32]?).map (· % 2 ^ el.bits)
              ∧ (Memory.read (t.core x0.id.core).sp (soff x + j / 32)).toNat = q.1 % 256
          else some code = ((vals x)[j]?).map fun v => el.round c.rnd c.sat v % 2 ^ el.bits)

/-- `txf` and `txw` (R222, R233, R257): with acceptable descriptors, nothing to wait for and at most 256 commands of the team, each
performing thread's command joins the team's with the descriptor's copy, in lane order, and ECOUNT rises by their number. `txw` goes
on where ECOUNT is at most the least count of its threads; otherwise its bundle waits for that count, and goes on once ECOUNT has
fallen to it.
Queues (R234-R238): `scfg` binds the descriptor's copy, stopped at element 0, and keeps no position of the binding before (the model's choice,
log 101); `sctl` starts, stops or empties the queue; the stream
engine reads the next element of a started inbound queue; `qpop` gives each executing thread its element of the row, or 0 and false
past the end; `qpush` stores each executing thread's element at its place; both move the position by 32. That starting a queue that no `scfg`
has bound changes nothing is the model's reading (log 27), that the results of `qpop` are written at issue too (log 30), and that read ahead
goes element by element, with one walk each, its choice (log 96). -/
def Obligations.TileCommandsQueues : Prop :=
  ((∀ (s : State) (h : Hdr) (a : Fin 32), s.IdsDistinct →
    let ts := laneOrder ((s.executing h).filter fun x => !commanded s x)
    (∀ x ∈ ts, descOffTrap s x (x.view.gval a) = none ∧ descWaits s x (x.view.gval a).toNat = false
      ∧ descTrap s x (x.view.gval a) = none ∧ pendingCmds s x.team + ts.length ≤ 256) →
    ∃ t cs, exec (.txf h a) s = .next t ∧ t.cmds = s.cmds ++ cs ∧ cs.length = ts.length
      ∧ (∀ (j : Nat) (c : TileCmd) (x : Thread), cs[j]? = some c → ts[j]? = some x →
          c.team = x.team ∧ c.thread = x.id ∧ c.serial = x.rserial ∧ c.phase = .issued ∧ c.targets = [] ∧ c.sectors = []
          ∧ ∀ k, k < 8 → c.desc[k]? = some (BitVec.ofNat 64 (Memory.readLE (s.core x.id.core).sp
              ((s.teamOf x).rowLo * 1024 + (x.view.gval a).toNat + 8 * k) 8)))
      ∧ t.teams = s.teams.map (fun tm => { tm with ecount := tm.ecount + (ts.filter fun x => x.team == tm.id).length })
      ∧ ({ s with cmds := t.cmds, teams := t.teams, nextId := t.nextId } : State).Lanes t 1 h fun x y => y = { x with pc := y.pc })
  ∧ (∀ (s : State) (b : Bundle) (h : Hdr) (m : RegOrExt) (x : Thread) (xs : List Thread), s.focusBundle = some b →
      s.executing h = x :: xs →
      let count := fun (y : Thread) => match m with | .reg a => (y.view.gval a).toNat | .ext e => e.toNat
      let words := match m with | .reg _ => 1 | .ext _ => 2
      ∃ n t, (∀ y ∈ x :: xs, n ≤ count y) ∧ (∃ y ∈ x :: xs, n = count y) ∧ exec (.txw h m) s = .next t
        ∧ ({ s with bundles := t.bundles } : State).Lanes t words h (fun y z => z = { y with pc := z.pc })
        ∧ t.bundles = if (s.teamOf x).ecount ≤ n then s.bundles
            else s.bundles.map fun c => if c.id = b.id then { c with hold := .txw n } else c)
  ∧ ∀ (s : State) (k n : Nat) (b : Bundle) (tm : Team), s.bundle? k = some b → b.hold = .txw n → teamOfBundle s b = some tm →
      exec (.txwCompletion k) s = .next (if tm.ecount ≤ n then
        { s with bundles := s.bundles.map fun c => if c.id = k then { c with hold := .none } else c } else s))
  ∧ (∀ (s : State) (h : Hdr) (q : Fin 8) (d a : Fin 32) (f : Bool) (pv : Fin 8) (x0 : Thread) (xs : List Thread), s.IdsDistinct →
    s.executing h = x0 :: xs → (∀ x ∈ x0 :: xs, x.id.lane < 128 ∧ x.team = x0.team) →
    let queue := fun (t : State) (x : Thread) => (t.teamOf x).queue q.val
    let onlyQueue := fun (t : State) => ∀ (k : Nat) (m m' : Team), s.teams[k]? = some m → t.teams[k]? = some m' →
      if m.id = x0.team then m' = { m with queues := m'.queues } ∧ ∀ i, i ≠ q.val → m'.queues[i]? = m.queues[i]? else m' = m
    let present := (∃ tm, s.team? x0.team = some tm ∧ q.val < tm.queues.length)
    let replies := fun (t : State) => ({ s with teams := t.teams } : State).Lanes t 1 h fun x y =>
      y = { x with pc := y.pc, replies := (x.rserial, 0) :: x.replies.filter (fun e => e.1 != x.rserial) }
    let free := ∀ x ∈ x0 :: xs, x.kept = none ∧ x.gateOpen x.rserial = true
    let drained := ∀ x ∈ x0 :: xs, ((queue s x).desc.map sdOut).getD false = true →
      (match x.marker with | some m => markerGone s x.id.core m = true | none => (s.core x.id.core).tb = [])
      ∧ ∀ y ∈ s.threads, y.team = x.team → ∀ p ∈ y.pending, p.kind ≠ .st
    (present → free → ∀ x ∈ x0 :: xs, (∀ y ∈ x0 :: xs, x.id.lane ≤ y.id.lane) →
      let off := (x.view.gval a).toNat
      descOffTrap s x (x.view.gval a) = none → descWaits s x off = false → sdOk (readDesc s x off) = true →
      ∃ t, exec (.scfg h q a) s = .next t ∧ replies t ∧ onlyQueue t
        ∧ queue t x0 = ⟨some ((List.range 8).map fun k => BitVec.ofNat 64
            (Memory.readLE (s.core x.id.core).sp ((s.teamOf x).rowLo * 1024 + off + 8 * k) 8)), false, 0, [], [], none, false⟩)
    ∧ (present → free → ∀ p ∈ [(Instr.sctlStart h q, { queue s x0 with started := (queue s x0).desc.isSome || (queue s x0).started }),
          (.sctlStop h q, { queue s x0 with started := false }),
          (.sctlDrain h q, if ((queue s x0).desc.map sdOut).getD false then queue s x0
            else { queue s x0 with ahead := [] })],
        (p.1 = .sctlDrain h q → drained) → ∃ t, exec p.1 s = .next t ∧ replies t ∧ onlyQueue t ∧ queue t x0 = p.2)
    ∧ (∀ ds, present → (queue s x0).desc = some ds → (queue s x0).started = true → sdOut ds = false → sdF ds = f →
        let row := (queue s x0).pos
        (∀ l, l < 32 → row + l < sdTotal ds → ∃ v, (row + l, v) ∈ (queue s x0).ahead) →
        (∀ e, (queue s x0).frozen = some e → e < row ∨ row + 32 ≤ e) →
        ∃ t, exec (.qpop h d f q pv) s = .next t ∧ onlyQueue t ∧ (queue t x0).pos = row + 32
          ∧ (∀ e, e ∈ (queue t x0).ahead ↔ e ∈ (queue s x0).ahead ∧ row + 32 ≤ e.1)
          ∧ ({ s with teams := t.teams } : State).Lanes t 1 h fun x y =>
            let e := row + x.id.lane % 32
            let raw := assocD 0 e (queue s x0).ahead
            let v : Word := if sdTotal ds ≤ e then 0
              else if sdSigned ds = true ∧ f = false then BitVec.ofInt 64 (signedCode (8 * sdSize ds) raw) else BitVec.ofNat 64 raw
            x.Writes 0 [(if f then .f d else .g d, v), (.p pv, if e < sdTotal ds then 1 else 0)] y)
    ∧ (∀ ds, present → (queue s x0).desc = some ds → (queue s x0).started = true → sdOut ds = true → sdF ds = f →
        let ts := (x0 :: xs).filter fun x => (queue s x0).pos + x.id.lane % 32 < sdTotal ds
        let probe := fun (x : Thread) => (⟨sdAddr ds ((queue s x0).pos + x.id.lane % 32), sdSize ds, .write, .any, false⟩ : Probe)
        let res := fun (x : Thread) => s.checkVia none x (probe x) (s.stalePick x.id.lane)
        s.walkHolders (ts.map fun x => (x, (probe x).ea)) = [] → (∀ x ∈ ts, ∃ loc eff, res x = .ok loc eff ∧ (res x).waits s = false) →
        ∃ t, exec (.qpush h q a f) s = .next t ∧ s.MemBut t ts res ∧ s.StoresKept t ∧ t.bundles = s.bundles ∧ onlyQueue t
          ∧ (queue t x0).pos = (queue s x0).pos + 32
          ∧ ∀ (k : Nat) (x y : Thread), s.threads[k]? = some x → t.threads[k]? = some y →
            let old := y.pending.take x.pending.length
            old.map Access.unwoken = x.pending.map Access.unwoken
            ∧ (x ∉ ts → y = { x with pc := if s.inFocus x then x.pc + 4 else x.pc, pending := old })
            ∧ (x ∈ ts → ∃ loc eff, res x = .ok loc eff ∧ y = { x with
                pc := x.pc + 4, passWatch := y.passWatch
                pending := old ++ [{ iid := s.nextId, iaddr := x.pc, va := (probe x).ea, kind := .st, loc := loc, size := sdSize ds
                                     data := ((if f then x.view.fval a else x.view.gval a).toNat % 2 ^ (8 * sdSize ds)), serial := x.rserial
                                     hint := .normal, begun := false, replay := false }] }))
    ∧ ∀ tm ds pa e, s.team? x0.team = some tm → (tm.queue q.val).desc = some ds → (tm.queue q.val).started = true →
        (tm.queue q.val).stalled = false → (tm.queue q.val).frozen = none → sdOut ds = false →
        let n := nextAhead (tm.queue q.val)
        n < sdTotal ds → (sdAddr ds n).toNat % sdSize ds = 0 → engineHolders s tm (sdAddr ds n) [] = [] →
        engineCheck s tm .stream (sdAddr ds n) (sdSize ds) false = .ok pa e → heldBy s none [lineOf pa] = [] → s.xWaits e = false → (s.core tm.core).gated = false →
        q.val < tm.queues.length → ∃ t, exec (.streamReadAhead x0.team q) s = .next t ∧ t.threads.length = s.threads.length
          ∧ queue t x0 = { queue s x0 with ahead := (queue s x0).ahead ++ [(n, s.readM pa (sdSize ds))] }
          ∧ ∀ adr, Memory.read t.mem adr ||| 0xC0 = Memory.read s.mem adr ||| 0xC0)

/-- The tile engine (R226-R232, R255-R257) on a core that is not gated: a command enters when its thread's earlier accesses have
performed, and keeps the reply; CP takes its source granules with their states, read one by one or together, IN and MC their storage as
the frame of R226; GRANULE_WRITE writes one granule with its state, FAILED in a closed window; SECTOR_WRITE the covered bits of a
sector; COMPLETION the status, and then, as a step of its own, ECOUNT falls. Which granules and sectors are steps of their own, and their
order, is the model's choice (log 20), and so are the masks of index rows beyond ROWS and that a status once set stays (log 100). -/
def Obligations.TileEngine : Prop :=
  ∀ (s : State) (c : TileCmd), s.cmd? c.id = some c → (∀ x ∈ s.cmds, x.id = c.id → x = c) →
    let cmd := fun (t : State) => t.cmd? c.id
    let d := tileDesc c.desc
    cmdStands s c = false →
    (c.phase = .issued → mayEnqueue s c = true →
        (match c.marker with | some m => ∀ i ∈ (s.core c.thread.core).tb, i.id ≠ m | none => (s.core c.thread.core).tb = []) →
      let s1 : State := { s with threads := s.threads.map fun x => if x.id = c.thread then keepOld x c.serial else x
                                 cmds := s.cmds.map fun x => if x.id = c.id then { x with phase := .reading } else x }
      ∃ t, exec (.enqueue c.id) s = .next t ∧ exec (.enqueue c.id) s1 = .next t)
    ∧ (∀ tm, c.phase = .reading → s.team? c.team = some tm → d.xop = 3 →
        let base := tm.rowLo * 1024 + d.frame
        let k := sourceCore s c tm
        (∀ g, g < 576 → k.granule (base / 16 + g) ≠ .empty) → k.held = [] →
        ∃ t c', exec (.enqueue c.id) s = .next t ∧ t = { s with cmds := t.cmds } ∧ cmd t = some c' ∧ c'.phase = .writing ∧ c'.status = c.status
          ∧ ∀ x ∈ c'.targets, x.frame = d.base.toNat % 2 ^ 20 ∧ x.writes.length = 576
            ∧ ∀ w ∈ x.writes, w.1 < 576 ∧ w.2.1 = some (Memory.readLE k.sp (base + 16 * w.1) 16)
              ∧ w.2.2 = k.granule (base / 16 + w.1))
    ∧ (∀ tm n, c.phase = .reading → s.team? c.team = some tm → (d.xop = 1 ∨ d.xop = 3) → n < 576 →
        let g := (tm.rowLo * 1024 + d.frame) / 16 + n
        (s.core tm.core).granule g ≠ .empty → (s.core tm.core).held = [] → (∀ e ∈ c.got, e.1 ≠ g) →
        ∃ t, exec (.granuleWrite c.id n) s = .next t ∧ t = { s with cmds := t.cmds }
          ∧ cmd t = some { c with got := c.got ++ [(g, Memory.readLE (s.core tm.core).sp (16 * g) 16, (s.core tm.core).granule g)] })
    ∧ (∀ tm n s' ps, c.phase = .reading → s.team? c.team = some tm → (d.xop = 0 ∨ d.xop = 2) →
        engineReads s tm .tile c.got 0 (inRuns d).flatten [] = (.ok n s', ps) →
        let vs := joinRuns (inRuns d) ps
        let f : Fetched := ⟨vs.take d.rows, (vs.drop d.rows).take d.rows, vs.drop (2 * d.rows)⟩
        ∃ t c', exec (.enqueue c.id) s = .next t ∧ cmd t = some c' ∧ c'.phase = .writing ∧ c'.status = (if expandBad d f then 1 else 0)
          ∧ (d.xop = 0 → ∃ x, c'.targets = [x] ∧ x.team = tm.id ∧ x.pos = none)
          ∧ ∀ x ∈ c'.targets, x.frame = d.frame ∧ x.writes.length = 576 ∧ ∀ w ∈ x.writes, w.1 < 576 ∧
              if expandBad d f then w.2.1 = none ∧ w.2.2 = .failed
              else w.2.2 = .full ∧ w.2.1 = some (frameOf d f / 2 ^ (128 * w.1) % 2 ^ 128))
    ∧ (∀ k x g v st rest, c.phase = .writing → c.targets[k]? = some x → x.writes = (g, v, st) :: rest →
        ∃ t c', exec (.granuleWrite c.id k) s = .next t ∧ t = { s with cmds := t.cmds, cores := t.cores } ∧ cmd t = some c' ∧
        match s.team? x.team with
        | none => t.cores = s.cores ∧ c'.targets[k]? = some { x with writes := [] } ∧ c'.fmask.testBit (x.pos.getD 0) = true
            ∧ c'.status = (if c.status = 0 then 2 else c.status)
        | some tm =>
          let o := tm.rowLo * 1024 + x.frame + 16 * g
          let refused := x.pos.isSome && s.teamExited tm
          c'.targets[k]? = some { x with writes := rest }
          ∧ (t.core tm.core).granule (o / 16) = (if refused then .failed else st)
          ∧ (∀ q, q ≠ o / 16 → (t.core tm.core).granule q = (s.core tm.core).granule q)
          ∧ (∀ y, v = some y → refused = false → Memory.readLE (t.core tm.core).sp o 16 = y % 2 ^ 128)
          ∧ (∀ q, ¬(o ≤ q ∧ q < o + 16) ∨ v = none ∨ refused = true → Memory.read (t.core tm.core).sp q = Memory.read (s.core tm.core).sp q)
          ∧ (refused = true → c'.fmask.testBit (x.pos.getD 0) = true ∧ c'.status = if c.status = 0 then 2 else c.status)
          ∧ (refused = false → c'.fmask = c.fmask ∧ c'.status = c.status)
          ∧ ∀ q, q ≠ tm.core → t.core q = s.core q)
    ∧ (∀ tm sec mask data rest pa e, c.phase = .writing → c.sectors = (sec, mask, data) :: rest → s.team? c.team = some tm →
        engineHolders s tm (BitVec.ofNat 64 (32 * sec)) [] = [] →
        engineCheckMask s tm (BitVec.ofNat 64 (32 * sec)) mask = .ok pa e → e.pte = none → heldBy s none [lineOf pa] = [] →
        writeWaits s pa 32 = false →
        ∃ t c', exec (.sectorWrite c.id) s = .next t ∧ cmd t = some c' ∧ c'.sectors = rest ∧ c'.status = c.status
          ∧ (∀ i, i < 256 → (t.readM pa 32).testBit i = if mask.testBit i then data.testBit i else (s.readM pa 32).testBit i)
          ∧ ∀ adr, ¬(pa ≤ adr ∧ adr < pa + 32) → Memory.read t.mem adr = Memory.read s.mem adr)
    ∧ (c.phase = .counting → ∃ t, exec (.completion c.id) s = .next t ∧ t = { s with cmds := t.cmds, teams := t.teams }
        ∧ t.cmds = s.cmds.filter (fun x => x.id != c.id)
        ∧ t.teams = s.teams.map (fun m => if m.id = c.team then { m with ecount := m.ecount - 1 } else m))
    ∧ ∀ tm, c.phase = .writing → s.team? c.team = some tm → c.drained = true →
        let ends := fun (t : State) => t.cmds = s.cmds.map (fun x => if x.id = c.id then { x with phase := .counting } else x)
          ∧ t.teams = s.teams ∧ t.bundles = s.bundles
        (d.cwen = false → ∃ t, exec (.completion c.id) s = .next t ∧ ends t ∧ t.mem = s.mem
          ∧ (c.status = 0 → t.reports = s.reports)
          ∧ (c.status ≠ 0 → c.quiet = false → ∃ r, t.reports = s.reports ++ [r] ∧ r.kind = 2 ∧ r.cause = .tileStatus
              ∧ r.epc = c.descAddr ∧ r.info = c.fmask % 2 ^ 12 * 2 ^ 16 + c.status * 2 ^ 8 ∧ r.waiter = .nobody))
        ∧ (∀ pa e, d.cwen = true → engineHolders s tm d.doneAt [] = [] → engineCheck s tm .tile d.doneAt 8 true = .ok pa e →
            e.pte = none → heldBy s none [lineOf pa] = [] → c.status < 256 →
            ∃ t, exec (.completion c.id) s = .next t ∧ ends t
              ∧ t.readM pa 8 = 2 ^ 63 + c.fmask % 2 ^ 12 * 2 ^ 16 + c.status
              ∧ ∀ adr, ¬(pa ≤ adr ∧ adr < pa + 8) → Memory.read t.mem adr = Memory.read s.mem adr)

/-! ### Translation, the fault queue, scheduling -/

/-- A fault-queue entry (R338-R344): one that may be written stands in the slot at TAIL with the layout of R340 and R341, TAIL advances,
its ticket is open unless the entry is born resolved, and its waiter learns the ticket; one for a page with a pending entry raises
that entry's COUNT instead; a watch record without room raises LOST. No other byte changes. The entry, TAIL and the ticket are one step by
the model's choice (log 17). -/
def Obligations.FaultQueue : Prop :=
  ∀ (s : State) (r : Report) (c : Context), s.reports.find? (fun q => q.id == r.id) = some r → s.ctx? r.ctx = some c →
    reportReady s r = true →
    let left := fun (t : State) => t.reports = s.reports.filter (fun x => x.id != r.id)
    let told := fun (t : State) (va : Word) => ∀ (k : Nat) (x y : Thread), s.threads[k]? = some x → t.threads[k]? = some y →
      (r.waiter = .thread x.id → x.status = .asleep none → y.status = .asleep (some va))
      ∧ (r.waiter ≠ .thread x.id → y.status = x.status)
      ∧ (∀ d, r.waiter = .reg x.id d → x.ra = none → y.regs.gval d = if d.val = 0 then 0 else va)
      ∧ ((∀ d, r.waiter ≠ .reg x.id d) → y.regs = x.regs)
    (∀ o, mergeEntry s r = some o → heldBy s none [lineOf o.entry] = [] →
      ∃ t, exec (.faultQueueEntry r.id) s = .next t ∧ left t ∧ told t o.va
        ∧ t.readM (o.entry + 4) 2 = min 0xFFFF (s.readM (o.entry + 4) 2 + 1)
        ∧ (∀ x ∈ t.tickets, x.ticket = o.ticket → r.waiter ∈ x.waiters)
        ∧ ∀ adr, ¬(o.entry + 4 ≤ adr ∧ adr < o.entry + 6) → Memory.read t.mem adr = Memory.read s.mem adr)
    ∧ ∀ (q e : Nat), mergeEntry s r = none → ctxPa s c c.fqcb = some q →
      let cap := s.readM (q + 8) 8
      let tail := s.readM (q + 16) 8
      let used := (tail + 2 ^ 64 - s.readM (q + 24) 8) % 2 ^ 64
      let va : Word := BitVec.ofNat 64 (s.readM q 8 + 64 * (tail % cap))
      0 < cap → ctxPa s c va = some e → heldBy s none (agentLines s c c.fqcb 64 ++ agentLines s c va 64) = [] →
      (used < cap → s.readM (e + 56) 8 ≠ 0 → (e + 64 ≤ q ∨ q + 64 ≤ e) →
        ∃ t, exec (.faultQueueEntry r.id) s = .next t ∧ left t ∧ told t (va + 56)
          ∧ t.readM (q + 16) 8 = (tail + 1) % 2 ^ 64
          ∧ t.readM e 8 = r.cause.code + r.kind % 8 * 2 ^ 8 + (if r.nr then 2 ^ 11 else 0) + c.part % 16 * 2 ^ 12
              + r.ctx % 2 ^ 12 * 2 ^ 16 + 2 ^ 32
          ∧ t.readM (e + 8) 8 = r.epc.toNat ∧ t.readM (e + 16) 8 = r.eaddr.toNat ∧ t.readM (e + 24) 8 = r.who % 2 ^ 64
          ∧ t.readM (e + 32) 8 = r.rentry.toNat ∧ t.readM (e + 40) 4 = r.serial.toNat ∧ t.readM (e + 44) 4 = r.info % 2 ^ 32
          ∧ t.readM (e + 48) 8 = r.stamp % 2 ^ 64 ∧ (r.kind ≤ 1 → t.readM (e + 56) 8 = 0)
          ∧ (∃ o ∈ t.tickets, o.ticket = e + 56 ∧ o.entry = e ∧ o.ctx = r.ctx ∧ o.waiters = [r.waiter] ∧ o.nr = (r.nr && mergeRoom s r.ctx)
              ∧ (o.done = false ↔ t.readM (e + 56) 8 = 0))
          ∧ ∀ adr, ¬(e ≤ adr ∧ adr < e + 64) → ¬(q + 16 ≤ adr ∧ adr < q + 24) → Memory.read t.mem adr = Memory.read s.mem adr)
      ∧ (cap ≤ used → r.kind = 4 → ∃ t, exec (.faultQueueEntry r.id) s = .next t ∧ left t
          ∧ t.readM (q + 32) 8 = (s.readM (q + 32) 8 + 1) % 2 ^ 64
          ∧ ∀ adr, ¬(q + 32 ≤ adr ∧ adr < q + 40) → Memory.read t.mem adr = Memory.read s.mem adr)

/-- ISSUE (R321, R322), which puts the chosen bundle in focus for the next step (the model's choice, log 5): once the operands of waiting products have been fetched as far as they may be, of the ready bundles of a lane group
one with the least key of R322 is chosen. With none ready a cycle passes (the model's choice, log 8): TSTAMP rises by one, each lane group's instruction cycle
by one, in near-threshold mode in every fourth cycle (R9, R59), a core without a team counts one, and where no launch is due no context
and no queue changes (R325). Operands that have been fetched stay fetched (the model's choice, log 19). When the chosen bundle has issued its chain, every other one of the
lane group that was ready counts a cycle passed over and is boosted at the 64th. -/
def Obligations.Issue : Prop :=
  ∀ (s : State) (core : Nat) (lg : Fin 4),
    let mine := fun (b : Bundle) => b.core = core ∧ b.lg = lg.val
    let s1 := s.noteWaits core lg.val
    (s1 = { s with bundles := s1.bundles, fresh := s1.fresh } ∧ s1.bundles.length = s.bundles.length
      ∧ ∀ (k : Nat) (c d : Bundle), s.bundles[k]? = some c → s1.bundles[k]? = some d →
          d = { c with latch := d.latch, starved := d.starved } ∧ (∃ l, d.latch = c.latch ++ l)
          ∧ ((∀ b ∈ s.bundles, mine b → b.id ≠ c.id) → d = c))
    ∧ ((∃ b ∈ s1.bundles, mine b ∧ s1.ready b = true) →
      ∃ b, b ∈ s1.bundles ∧ mine b ∧ s1.ready b = true
        ∧ (∀ c ∈ s1.bundles, mine c → s1.ready c = true → keyLt (s1.issueKey c) (s1.issueKey b) = false)
        ∧ exec (.issue core lg) s = .next { s1 with focus := some b.id })
    ∧ ((∀ b ∈ s1.bundles, mine b → s1.ready b = false) →
      ∃ t, exec (.issue core lg) s = .next t
        ∧ t = { s1 with tstamp := s.tstamp + 1, cores := t.cores, ctxs := t.ctxs, queues := t.queues }
        ∧ ((∀ c ∈ s.ctxs, ∀ n ∈ c.nodes, ∀ pa, ctxPa s c n.qcb = some pa →
            forms { s with tstamp := s.tstamp + 1 } n (pendingAt s pa) = false) → t.ctxs = s.ctxs ∧ t.queues = s.queues)
        ∧ t.cores.length = s.cores.length
        ∧ ∀ (k : Nat) (c d : Core), s.cores[k]? = some c → t.cores[k]? = some d →
          d = { c with lgs := d.lgs, vacant := d.vacant, resting := d.resting }
          ∧ d.vacant = (if ∃ m ∈ s.teams, m.core = c.id then 0 else c.vacant + 1)
          ∧ d.lgs.length = c.lgs.length ∧ ∀ (i : Nat) (g g' : LaneGroup), c.lgs[i]? = some g → d.lgs[i]? = some g' → g'.near = g.near ∧
            if g.near = true ∧ g.phase < 3 then g'.icycle = g.icycle ∧ g'.phase = g.phase + 1
            else g'.icycle = g.icycle + 1 ∧ g'.phase = 0)
    ∧ ∀ (u : State) (id : Nat), let t := u.passOver s core lg.val id
      t = { u with bundles := t.bundles } ∧ t.bundles.length = u.bundles.length
      ∧ ∀ (k : Nat) (c d : Bundle), u.bundles[k]? = some c → t.bundles[k]? = some d →
          d = { c with passed := d.passed, boost := d.boost } ∧ (¬mine c → d = c)
          ∧ (mine c → c.id = id → d.passed = 0 ∧ d.boost = none)
          ∧ (mine c → c.id ≠ id → s.ready c = true → c.ra = none → d.passed = c.passed + 1
              ∧ d.boost = if c.boost = none ∧ 64 ≤ c.passed + 1 then some u.tstamp else c.boost)
          ∧ (mine c → c.id ≠ id → s.ready c = false → d.passed = 0 ∧ d.boost = c.boost)

/-! ### Launches -/

/-- Widening calls (R181, R316): an accepted call makes a grid of the kernel with the dimensions of x10 and the arguments x10 to x17,
last in its partition's queue, and the caller waits; a refused one answers 1 in a0 and 0 in a1 at the next instruction; a target page
that is not there, or whose tables break a format rule, is a page fault. -/
def Obligations.WideningCalls : Prop :=
  ∀ (s : State) (hz : Hazel) (target : Word) (link : Fin 32) (c : Context), s.hazel? hz.id = some hz → s.ctx? hz.ctx = some c →
    (∀ z ∈ s.hazels, z.id = hz.id → z = hz) → hz.home = none → hz.asleep = false → hz.grid = none → hz.exc = none → c.st = .running →
    heldBy s none (s.walkLines c target) = [] → canonical target = true →
    ((s.walkTables c target = .notResident ∨ s.walkTables c target = .format) → exec (.wideningCall hz.id target link) s = .next
      { s with hazels := s.hazels.map fun z => if z.id = hz.id then { z with exc := some (12, target) } else z })
    ∧ (∀ e a p nl, s.walkTables c target = .leaf e a p nl → e.tag = 2 → e.x = true → (link = 1 ∨ link = 5) →
        (∃ h, instrAt s c target = some (.entryw h)) →
        let ret := hz.pc + BitVec.ofNat 64 (hazelLength s hz hz.pc)
        let x10 := hz.img.x[10]
        (widens s c target x10 = none → ∃ t z, exec (.wideningCall hz.id target link) s = .next t ∧ t.hazel? hz.id = some z
          ∧ t = { s with hazels := t.hazels } ∧ z.pc = ret ∧ z.img.x[10] = 1 ∧ z.img.x[11] = 0 ∧ z.img.x[link.val] = ret)
        ∧ ∀ k, widens s c target x10 = some k → (s.grids.filter fun g => g.ctx == c.id).length < 256 →
            (k ∈ c.kernels ∧ k.entry = target ∧ k.widen = true ∧ k.node = false ∧ x10.toNat < 2 ^ 48)
            ∧ ∃ t g z, exec (.wideningCall hz.id target link) s = .next t
              ∧ t = { s with grids := s.grids ++ [g], hazels := t.hazels, queues := t.queues, nextId := t.nextId }
              ∧ g.id = s.nextId ∧ g.ctx = c.id ∧ g.kernel = k ∧ g.caller = hz.id ∧ g.nextCluster = 0 ∧ g.out = 0 ∧ g.killed = 0
              ∧ g.gdim.1 + 2 ^ 16 * g.gdim.2.1 + 2 ^ 32 * g.gdim.2.2 = x10.toNat ∧ 0 < g.gdim.1 * g.gdim.2.1 * g.gdim.2.2
              ∧ (∀ i, (hi : i < 8) → g.args[i]? = some (hz.img.x[10 + i]'(by omega)))
              ∧ t.hazel? hz.id = some z ∧ z.grid = some g.id ∧ z.ret = ret ∧ z.img.x[link.val] = ret
              ∧ ∃ q ∈ t.queues, q.1 = c.part ∧ q.2.getLast? = some (.grid g.id))

/-- Placement of a widened grid's next cluster (R29, R270, R317-R320): one team on each core of the room found, with the kernel's terms
and the grid's shape, whose threads are live at the entry with the launch registers; the outstanding count rises by the teams.
Node launches (R325-R328): a node's records form a launch once THRESH of them wait, or the oldest has waited for MAXWAIT; its dispatch takes at most THRESH records in the
order of the ring, HEAD moves past them in the same step, and thread number i of the one team is live with record i in g10 to g17.
A team whose threads have ended and whose stores are in M is released, and the counts of its grids fall.
Where the stack region of a thread begins is the model's reading of R409 (log 33). -/
def Obligations.Dispatch : Prop :=
  (∀ (s : State) (p : PartDesc) (x : Grid) (die : Nat) (rooms : List Room), s.part? p.part = some p → p.active = true →
    headLaunch s p.part = some (.grid x.id) → s.grid? x.id = some x → findRoom s p x.kernel = some (die, rooms) →
    (∀ g ∈ s.grids, g.id = x.id → g = x) →
    let k := x.kernel
    let n := x.nextCluster
    ∃ t, exec (.dispatch p.part) s = .next t ∧ t.mem = s.mem ∧ t.teams.length = s.teams.length + rooms.length
      ∧ t.grid? x.id = some { x with nextCluster := n + 1, out := x.out + rooms.length }
      ∧ (∀ (i : Nat) (r : Room), rooms[i]? = some r → ∃ m, t.teams[s.teams.length + i]? = some m ∧ m.ctx = x.ctx ∧ m.kernel = k
          ∧ m.core = r.core ∧ m.groups = r.groups ∧ m.rowLo = r.rowLo ∧ m.tileLo = r.tileLo ∧ m.ecount = 0 ∧ m.owner = some x.id
          ∧ m.gdim = x.gdim ∧ m.grid = (n % x.gdim.1, n / x.gdim.1 % x.gdim.2.1, n / (x.gdim.1 * x.gdim.2.1))
          ∧ m.cx = i % k.ca ∧ m.cy = i / k.ca)
      ∧ t.threads.length = s.threads.length + ((rooms.map fun r => r.groups.length).sum) * 32
      ∧ ∀ (j : Nat) (y : Thread), s.threads.length ≤ j → t.threads[j]? = some y →
          y.status = .live ∧ y.pc = k.entry ∧ y.entry = k.entry ∧ y.rserial = 0 ∧ y.regs.p = 1 ∧ y.regs.mode = 0x200
          ∧ y.regs.gval 1 = 0 ∧ y.regs.gval 3 = k.gp
          ∧ (k.stack ≠ 0 → y.regs.gval 4 = k.stackBase + BitVec.ofNat 64 (k.stack * y.id.posWord)
              ∧ y.regs.gval 2 = y.regs.gval 4 + BitVec.ofNat 64 k.stack)
          ∧ ∀ i, (hi : i < 8) → 10 + i < k.gregs → y.regs.gval ⟨10 + i, by omega⟩ = (x.args[i]?).getD 0)
  ∧ ((∀ (s : State) (c : Context) (n : Node) (pa : Nat), s.ctx? c.id = some c → c.nodes.find? (fun m => m.qcb == n.qcb) = some n →
    ctxPa s c n.qcb = some pa → n.formed = false →
    (n.thresh ≤ pendingAt s pa ∨ 1 ≤ pendingAt s pa ∧ n.maxwait ≠ 0
      ∧ ∃ o at_ rest, n.pendingRecs = (o, at_) :: rest ∧ 16 * n.maxwait ≤ s.tstamp - at_) → agentHolders s [(pa, 64)] = [] →
    (n.kernel.hlevel = true → c.handler = true) → ∃ t, exec (.launchForm c.id n.qcb) s = .next t ∧ t = { s with ctxs := t.ctxs, queues := t.queues }
      ∧ (∃ q ∈ t.queues, q.1 = c.part ∧ q.2.getLast? = some (.node c.id n.qcb))
      ∧ ∃ d, t.ctx? c.id = some d ∧ d.nodes = c.nodes.map fun m => if m.qcb = n.qcb then { m with formed := true } else m)
  ∧ (∀ (s : State) (p : PartDesc) (c : Context) (n : Node) (pa die : Nat) (r : Room) (rs : List Room), s.part? p.part = some p →
      p.active = true → headLaunch s p.part = some (.node c.id n.qcb) → s.ctx? c.id = some c →
      c.nodes.find? (fun m => m.qcb == n.qcb) = some n → ctxPa s c n.qcb = some pa → findRoom s p n.kernel = some (die, r :: rs) →
      let take := min (pendingAt s pa) n.thresh
      0 < take → agentHolders s (launchLines s c pa take) = [] →
      let k := n.kernel
      let slot := fun (i : Nat) => (BitVec.ofNat 64 (s.readM pa 8 + 64 * ((s.readM (pa + 24) 8 + i) % s.readM (pa + 8) 8)) : Word)
      0 < s.readM (pa + 8) 8 → (∀ i, i < take → ∃ a, ctxPa s c (slot i) = some a) →
      ∃ t, exec (.dispatch p.part) s = .next t ∧ t.readM (pa + 24) 8 = (s.readM (pa + 24) 8 + take) % 2 ^ 64
        ∧ (∀ adr, ¬(pa + 24 ≤ adr ∧ adr < pa + 32) → Memory.read t.mem adr = Memory.read s.mem adr)
        ∧ t.teams.length = s.teams.length + 1
        ∧ (∃ m, t.teams[s.teams.length]? = some m ∧ m.ctx = c.id ∧ m.kernel = k ∧ m.core = r.core ∧ m.gdim = (1, 1, 1) ∧ m.owner = none)
        ∧ t.threads.length = s.threads.length + r.groups.length * 32
        ∧ ∀ (j : Nat) (y : Thread), t.threads[s.threads.length + j]? = some y →
            (take ≤ j → y.status = .ended false)
            ∧ (j < take → y.status = .live ∧ y.pc = k.entry ∧ ∀ a, ctxPa s c (slot j) = some a →
                ∀ i, (hi : i < 8) → 10 + i < k.gregs → y.regs.gval ⟨10 + i, by omega⟩ = BitVec.ofNat 64 (s.readM (a + 8 * i) 8)))
  ∧ ∀ (s : State) (m : Team), s.team? m.id = some m →
      (releasable s m = false → exec (.teamRelease m.id) s = .next s)
      ∧ (releasable s m = true → ∃ t, exec (.teamRelease m.id) s = .next t ∧ t.mem = s.mem
          ∧ t.teams = s.teams.filter (fun x => x.id != m.id) ∧ t.threads = s.threads.filter (fun y => y.team != m.id)
          ∧ (m.owner = none → (∀ o ∈ m.origins, o = none) → t.grids = s.grids ∧ t.hazels = s.hazels)
          ∧ ∀ (g : Grid) (hz : Hazel), m.owner = some g.id → s.grid? g.id = some g → s.hazel? g.caller = some hz →
              (∀ x ∈ s.grids, x.id = g.id → x = g) →
              if g.nextCluster = g.gdim.1 * g.gdim.2.1 * g.gdim.2.2 ∧ g.out ≤ 1 then
                t.grid? g.id = none ∧ ∃ z, t.hazel? g.caller = some z ∧ z.grid = none ∧ z.pc = hz.ret
                  ∧ z.img.x[10] = (if g.killed = 0 then 0 else 2) ∧ z.img.x[11].toNat = min g.killed (2 ^ 32 - 1)
              else t.grid? g.id = some { g with out := g.out - 1 } ∧ t.hazels = s.hazels))

/-! ### The hazel side -/

/-- Returns, nested crossings and exceptions of away threads (R33, R178, R179, R383, R410). A target that a thread may enter lies in a
resident page of tag 10 with X and the thread's privilege, at a packet boundary; the image is then shipped, for a return to a `region`
and for a call with its link. Any other target in a page that is not of tag 01 is a transit fault with the page or access fault that the
hazel core reports, for a jump that is no call a fault of the fetch at its target, and an exception the fault of R410: an entry for the
away thread, which sleeps. -/
def Obligations.HazelCrossings : Prop :=
  (∀ (s : State) (c : Context) (hl : Bool) (target : Word) (pa : Nat), landing s c hl target = .enter pa →
    canonical target = true ∧ target.toNat % 12 = 0 ∧ ∃ e a p nl, s.walkTables c target = .leaf e a p nl
      ∧ e.tag = 2 ∧ e.x = true ∧ e.u = !hl ∧ pa = e.pbase + (target.toNat % 2 ^ 57 - e.vbase))
  ∧ ∀ (s : State) (t : ThreadId) (hz : Hazel) (x : Thread) (c : Context), awayThread s t = some hz → s.thread? t = some x →
      s.ctx? hz.ctx = some c →
      let set := fun (f : Hazel → Hazel) => { s with hazels := s.hazels.map fun y => if y.id = hz.id then f y else y }
      let slept := fun (u : State) (f : Hazel → Hazel) (at_ tval : Word) (cause : Cause) (nr : Bool) (info : Nat)
          (exc : List (Nat × Nat)) =>
        ∃ r, u = { set (fun y => { f y with asleep := true, pass := if cause = .watchpoint then some tval else none }) with
            hazelTraps := s.hazelTraps ++ exc, reports := s.reports ++ [r], nextId := s.nextId + 1 }
          ∧ r.kind = 0 ∧ r.cause = cause ∧ r.nr = nr ∧ r.epc = at_ ∧ r.eaddr = tval ∧ r.rentry = at_ ∧ r.serial = x.rserial
          ∧ r.info = info ∧ r.stamp = s.tstamp ∧ r.ctx = hz.ctx ∧ r.waiter = .hazel t
      (∀ (jalr target : Word) (img : Image), x.cross.head? = some true → heldBy s none (agentLines s c target 4) = [] →
        let stays := fun (y : Hazel) => { y with img := img, pc := jalr }
        let denied := fun (u : State) => slept u stays jalr target .transit false 0 [(hz.id, 1)]
        ∃ u, exec (.hazelReturn t jalr target img) s = .next u ∧
          match landing s c (s.hlevel x) target with
          | .ordinary => u = set fun y => { y with img := img, pc := target }
          | .pageFault nr => slept u stays jalr target .transit nr 0 [(hz.id, 12)]
          | .accessFault => denied u
          | .enter pa => if (codeWord s c pa (target.toNat % 2 ^ 57)).any isRegionWord
                         then u = set fun y => { y with img := img, pc := target, leaving := some false } else denied u)
      ∧ (∀ (jal target : Word) (link : Fin 32) (img : Image), link ≠ 0 → heldBy s none (s.walkLines c target) = [] →
        let linked : Image := { img with x := img.x.set link.val (jal + BitVec.ofNat 64 (hazelLength s hz jal)) }
        let stays := fun (y : Hazel) => { y with img := img, pc := jal }
        let goes := fun (leave : Option Bool) (y : Hazel) => { y with img := linked, pc := target, leaving := leave }
        let isCall := link = 1 ∨ link = 5
        let denied := fun (u : State) => slept u stays jal target .transit false 0 [(hz.id, 1)]
        let wrongTag := fun (u : State) => slept u (goes none) target target .access false (accInfo 4 4) []
        ∃ u, exec (.nestedCrossing t jal target link img) s = .next u ∧
          match landing s c (s.hlevel x) target with
          | .ordinary => u = set (goes none)
          | .pageFault nr => if isCall then slept u stays jal target .transit nr 0 [(hz.id, 12)]
              else slept u (goes none) target target (if nr then .notResident else .access) nr (accInfo 4 4) []
          | .accessFault => if isCall then denied u else wrongTag u
          | .enter _ => if isCall then (if x.cross.length < 64 then u = set (goes (some true)) else denied u) else wrongTag u)
      ∧ ∀ (pc tval : Word) (size acc : Nat) (img : Image),
        ∀ p ∈ [(HazelExc.pageNotResident, Cause.notResident), (.otherFault, .access), (.misaligned, .alignment), (.illegal, .illegal),
               (.watchpoint, .watchpoint), (.ebreak, .softTrap)],
          ∃ u, exec (.hazelException t p.1 pc tval size acc img) s = .next u
            ∧ slept u (fun y => { y with img := img, pc := if p.1 = .ebreak then pc + BitVec.ofNat 64 (hazelLength s hz pc) else pc })
                pc tval p.2 (decide (p.1 = .pageNotResident)) (accInfo size acc) []

/-- Arrivals (R178, R179) and service replies (R200, R391): the shipped image is in the thread's registers at the address it was
shipped for, with g0 zero and p1 to p7 false; a return takes its crossing back, a nested crossing adds one and opens an implicit
region. An answered continuation's thread starts at its RPC with MODE, RSERIAL, the live-in registers of SAVED and g10 to g17 from the
answer, every doubleword at the place its own page maps, the other registers as at launch, and AHEAD advances. Each of the two is one
step, which waits while a line it touches is narrow-held (the model's choice, log 17). -/
def Obligations.ArrivalsReplies : Prop :=
  (∀ (s : State) (t : ThreadId) (hz : Hazel) (x : Thread) (nested : Bool),
    s.hazels.find? (fun h => h.home == some t && h.leaving.isSome) = some hz → hz.leaving = some nested → s.thread? t = some x →
    x.status = .away → x.stage = none → (s.ctxOf x).st = .running → (s.core t.core).gated = false →
    ∃ u y, exec (.arrival t) s = .next (settle u) ∧ u.mem = s.mem ∧ u.hazels = s.hazels.filter (fun h => h.id != hz.id)
      ∧ (∀ z ∈ s.threads, z.id ≠ t → z ∈ u.threads)
      ∧ u.thread? t = some y ∧ y.status = .live ∧ y.pc = hz.pc ∧ y.regs.f = hz.img.f ∧ (∀ i, y.regs.gval i = if i.val = 0 then 0 else hz.img.x[i.val])
      ∧ (∀ i : Fin 8, i.val ≠ 0 → y.regs.pred i = false) ∧ y.regs.mode.setWidth 8 = hz.img.fcsr
      ∧ (nested = false → y.cross = x.cross.drop 1 ∧ y.rserial = x.rserial ∧ y.entry = x.entry ∧ y.stage = none)
      ∧ (nested = true → y.cross = false :: x.cross ∧ y.rserial = x.rserial + 1 ∧ y.entry = hz.pc ∧ y.implicit = true
          ∧ ∃ k, y.stage = some k ∧ k.seqh = y.rserial ∧ k.flags = 1 ∧ k.pc = hz.pc
              ∧ k.live = (List.finRange 32).map y.regs.gval ++ (List.finRange 32).map y.regs.fval))
  ∧ ∀ (s : State) (c : Context) (q a : Nat) (place : Nat → Nat) (x : Thread), s.ctx? c.id = some c → c.st = .running → ctxPa s c c.svcq = some q →
      let ahead := s.readM (q + 56) 8
      let slot : Word := BitVec.ofNat 64 (s.readM (q + 32) 8 + 8 * (ahead % s.readM (q + 40) 8))
      let va : Word := BitVec.ofNat 64 (s.readM a 8)
      let w := fun (k : Nat) => s.readM (place k) 8
      let gm : Ext := BitVec.ofNat 32 (w 4)
      let fm : Ext := BitVec.ofNat 32 (w 4 / 2 ^ 32)
      let saved := (maskRegs (gm &&& ~~~0x3FC00) fm).zip ((List.range 8).map fun i => w (16 + i))
      0 < s.readM (q + 40) 8 → ahead ≠ s.readM (q + 48) 8 → ctxPa s c slot = some a →
      heldBy s none (agentLines s c c.svcq 64 ++ agentLines s c slot 8 ++ continuationLines s c va) = [] →
      (∀ k, k < 24 → ctxPa (writeMaster s (q + 56) 8 ((ahead + 1) % 2 ^ 64)) c (va + BitVec.ofNat 64 (8 * k)) = some (place k)
        ∧ (place k + 8 ≤ q ∨ q + 64 ≤ place k)) →
      s.thread? x.id = some x → x.status = .continuation va → (s.teamOf x).ctx = c.id →
      (∀ z ∈ s.threads, z.status = .continuation va → (s.teamOf z).ctx = c.id → z = x) →
      ∃ t y, exec (.serviceReply c.id) s = .next t ∧ t.readM (q + 56) 8 = (ahead + 1) % 2 ^ 64
        ∧ (∀ adr, ¬(q + 56 ≤ adr ∧ adr < q + 64) → Memory.read t.mem adr = Memory.read s.mem adr)
        ∧ t.thread? x.id = some y ∧ y.status = .live ∧ y.pc.toNat = w 0 ∧ y.rserial.toNat = w 3 % 2 ^ 32
        ∧ y.regs.mode = modeLoaded (BitVec.ofNat 64 (w 5)) ∧ (∀ i, (hi : i < 8) → (y.regs.gval ⟨10 + i, by omega⟩).toNat = w (8 + i))
        ∧ (∀ i : Fin 8, i.val ≠ 0 → y.regs.pred i = false)
        ∧ (∀ e ∈ saved, e.1 ≠ .g 0 → (y.regs.get e.1).toNat = e.2)
        ∧ (∀ i : Fin 32, ¬(10 ≤ i.val ∧ i.val < 18) → (∀ e ∈ saved, e.1 ≠ .g i) →
            y.regs.gval i = (entryRegs (s.teamOf x).kernel x.id []).gval i)
        ∧ (∀ i : Fin 32, (∀ e ∈ saved, e.1 ≠ .f i) → y.regs.fval i = 0)
        ∧ ∃ b ∈ t.bundles, b.has x.id = true

/-! ### Links and masters -/

/-- Records of hosts (R386, R387): the aligned 64 bytes of RECORD on a bound window are appended to its node's queue and counted in
ACCEPT; a full queue counts FULL and drops the record; an unbound window, or any other write of RECORD, counts BAD. Nothing else is
written.
Launch packets (R389, R390): one that matches no entry of the admission table, or comes from a frozen source, is refused, and the
sixteenth refused in a period freezes its source, which firmware clears; one beyond the budget is counted in OVER; any other raises
USED, and is appended and counted where its queue has room. That a packet which several
entries match is counted by one that has budget left is the model's (log 79). -/
def Obligations.RecordsPackets : Prop :=
  (∀ (s : State) (link : Fin 2) (window off size : Nat) (record : List Word), window < 1024 → s.powered = true →
    heldBy s none (physLines (bindingPa s link window) 32) = [] → record.length = 8 →
    let n := countOf s link window
    let counts := fun (t : State) (m : WindowCount) => countOf t link window = m ∧ m.link = n.link ∧ m.window = n.window
    (bindingOf s link window = none ∨ (off ≠ 0 ∨ size ≠ 64) ∧ off < 0x40 →
      ∃ t, exec (.hostRecord link window off size record) s = .next t ∧ counts t { n with bad := n.bad + 1 }
        ∧ t = { s with windows := t.windows })
    ∧ ∀ (b : Binding) (c : Context) (pa a : Nat), bindingOf s link window = some b → off = 0 → size = 64 → s.ctx? b.ctx = some c →
        ctxPa s c b.qcb = some pa → ctxPa s c (recordSlot s pa 0) = some a → (a + 64 ≤ pa ∨ pa + 64 ≤ a) →
        heldBy s none (agentLines s c b.qcb 64 ++ agentLines s c (recordSlot s pa 0) 64) = [] → writeWaits s pa 64 = false → writeWaits s a 64 = false →
        (pendingAt s pa < s.readM (pa + 8) 8 →
          ∃ t, exec (.hostRecord link window off size record) s = .next t ∧ counts t { n with accept := n.accept + 1 }
            ∧ t.drops = s.drops ∧ (∀ k w, record[k]? = some w → t.readM (a + 8 * k) 8 = w.toNat)
            ∧ t.readM (pa + 16) 8 = (s.readM (pa + 16) 8 + 1) % 2 ^ 64
            ∧ ∀ adr, ¬(a ≤ adr ∧ adr < a + 64) → ¬(pa + 16 ≤ adr ∧ adr < pa + 24) → Memory.read t.mem adr = Memory.read s.mem adr)
        ∧ (s.readM (pa + 8) 8 ≤ pendingAt s pa →
          ∃ t, exec (.hostRecord link window off size record) s = .next t ∧ counts t { n with full := n.full + 1 }
            ∧ t = { s with windows := t.windows, drops := t.drops }
            ∧ ∀ k, assocD 0 k t.drops = assocD 0 k s.drops + (if k = b.source then 1 else 0)))
  ∧ (∀ (s : State) (p : LaunchPacket), s.powered = true →
    let fits := s.admissions.filter fun a => a.matches p && admitsFabric s a
    let hit := (fits.find? fun a => a.used < a.budget).or fits.head?
    let n := assocD 0 p.srcMod s.refusedCounts + 1
    ((p.srcMod ∈ s.frozenSources ∨ hit = none) → ∃ t, exec (.launchPacket p) s = .next t
      ∧ t = { s with refusedCounts := t.refusedCounts, frozenSources := t.frozenSources }
      ∧ (∀ k, assocD 0 k t.refusedCounts = if k = p.srcMod then n else assocD 0 k s.refusedCounts)
      ∧ ∀ k, k ∈ t.frozenSources ↔ k ∈ s.frozenSources ∨ (16 ≤ n ∧ k = p.srcMod))
    ∧ (∀ a, p.srcMod ∉ s.frozenSources → hit = some a →
        (a.valid = true ∧ a.tenant = p.tenant ∧ a.node = p.node ∧ a.srcLo ≤ p.srcMod ∧ p.srcMod ≤ a.srcHi)
        ∧ (a.budget ≤ a.used → exec (.launchPacket p) s = .next
            { s with admissions := s.admissions.map fun x => if x = a then { x with excess := x.excess + 1 } else x })
        ∧ ∀ (c : Context) (pa b : Nat), a.used < a.budget → s.ctx? a.ctx = some c → ctxPa s c p.node = some pa →
            ctxPa s c (recordSlot s pa 0) = some b → (b + 64 ≤ pa ∨ pa + 64 ≤ b) → p.record.length = 8 →
            heldBy s none (agentLines s c p.node 64 ++ agentLines s c (recordSlot s pa 0) 64) = [] → writeWaits s pa 64 = false →
            writeWaits s b 64 = false →
            (pendingAt s pa < s.readM (pa + 8) 8 → ∃ t, exec (.launchPacket p) s = .next t
              ∧ t.admissions = s.admissions.map (fun x => if x = a then { x with used := x.used + 1, appended := x.appended + 1 } else x)
              ∧ (∀ k w, p.record[k]? = some w → t.readM (b + 8 * k) 8 = w.toNat)
              ∧ t.readM (pa + 16) 8 = (s.readM (pa + 16) 8 + 1) % 2 ^ 64)
            ∧ (s.readM (pa + 8) 8 ≤ pendingAt s pa → ∃ t, exec (.launchPacket p) s = .next t ∧ t.mem = s.mem
              ∧ t.admissions = s.admissions.map (fun x => if x = a then { x with used := x.used + 1 } else x)))
    ∧ ∀ m, ∃ t, exec (.frozenSourceClear m) s = .next t ∧ t = { s with refusedCounts := t.refusedCounts, frozenSources := t.frozenSources }
        ∧ (∀ k, k ∈ t.frozenSources ↔ k ∈ s.frozenSources ∧ k ≠ m)
        ∧ ∀ k, assocD 0 k t.refusedCounts = if k = m then 0 else assocD 0 k s.refusedCounts)

/-- Masters outside the compute cores (R263, R291, R385): a host, a peer module, or machine-level firmware of a hazel core reads what M
holds at a device-memory, host or peer address, or writes exactly its bytes. At an address that none of them reaches a host or peer
changes nothing, by the model's choice (log 38), and firmware takes an access fault. A core's window reads zero and discards writes while
the core runs a team (R293). A hazel thread's access goes to the page that its tables map. Firmware reads and writes the doublewords of
its tables (R362, R390, R399), by entry and offset (the model's, log 83), and system software places a thread on a hazel core or takes it
away (R377). What a read returned stands in the model's field `answer`. -/
def Obligations.OuterMasters : Prop :=
  ∀ (s : State) (link : Fin 2) (k : Nat) (pc : Word) (x : OuterAccess),
    let reads := fun (t : State) (pa : Nat) => t.answer = s.readM pa x.size ∧ t.mem = s.mem
    let writes := fun (t : State) (pa v : Nat) => t.readM pa x.size = v % 2 ^ (8 * x.size)
      ∧ ∀ adr, ¬(pa ≤ adr ∧ adr < pa + x.size) → Memory.read t.mem adr = Memory.read s.mem adr
    let done := fun (t : State) (pa : Nat) => match x.write with | none => reads t pa | some v => writes t pa v
    let outside := [Instr.hostAccess link x, .peerModuleAccess k x]
    (∀ i ∈ outside ++ (if s.hazel? k = none then [.hazelAccess k (.mem pc x)] else []),
      physKind x.addr ≠ .window → physKind x.addr ≠ .unmapped → s.powered = true → heldBy s none (physLines x.addr x.size) = [] →
        writeWaits s x.addr x.size = false → ∃ t, exec i s = .next t ∧ done t x.addr)
    ∧ (∀ i ∈ outside, (physKind x.addr = .window ∨ physKind x.addr = .unmapped) →
        ∃ t, exec i s = .next t ∧ t = { s with answer := t.answer, fresh := t.fresh, samples := t.samples })
    ∧ (s.hazel? k = none → physKind x.addr = .unmapped → exec (.hazelAccess k (.mem pc x)) s = .next
        { s with hazelTraps := s.hazelTraps ++ [(k, if x.write.isSome then 7 else 5)] })
    ∧ (s.hazel? k = none → physKind x.addr = .window →
        (s.core ((x.addr - 0x8000000000) / 0x1000000)).runs s = true →
        exec (.hazelAccess k (.mem pc x)) s = .next (match x.write with | none => { s with answer := 0 } | some _ => s))
    ∧ (∀ (hz : Hazel) (c : Context) (e : TlbEntry) (a : Nat) (p : Word) (nl : List (Nat × Nat × Nat × Nat)),
        let va : Word := BitVec.ofNat 64 x.addr
        let write := x.write.isSome
        s.hazel? k = some hz → s.ctx? hz.ctx = some c → hz.asleep = false → hz.leaving = none → hz.grid = none → hz.exc = none →
        c.st = .running → s.powered = true → heldBy s none (agentLines s c va x.size) = [] → canonical va = true →
        s.walkTables c va = .leaf e a p nl → (if write then e.w else e.r) = true → (hz.user = true → e.u = true) →
        let pa := e.pbase + (va.toNat % 2 ^ 57 - e.vbase)
        State.watched c pa x.size (if write then .write else .read) = false → heldBy s none (physLines pa x.size) = [] →
        writeWaits s pa x.size = false → p &&& 0xC0 = 0xC0 → ∃ t, exec (.hazelAccess k (.mem pc x)) s = .next t ∧ done t pa)
    ∧ (∀ (tb : FwTable) (entry off : Nat) (w : Option Word), ∃ t, exec (.hazelAccess k (.table tb entry off w)) s = .next t
        ∧ (tableEntries tb ≤ entry ∨ tableBytes tb ≤ off ∨ off % 8 ≠ 0 → t = s)
        ∧ (entry < tableEntries tb → off < tableBytes tb → off % 8 = 0 → match w with
          | none => t = { s with answer := (tableWord s tb entry off).toNat }
          | some v => t = { s with ctxs := t.ctxs, admissions := t.admissions } ∧ match tb with
            | .context => ∃ c, t.ctx? entry = some c ∧ (∀ d, s.ctx? entry = some d → c.st = d.st) ∧ (off = 16 → c.fqcb = v)
                ∧ (off = 24 → c.saveArea = v) ∧ (off = 32 → c.svcq = v) ∧ (off = 56 → c.done = v)
            | .security => ∃ c, t.ctx? entry = some c ∧ (off = 0 → c.enc = v.getLsbD 0 ∧ c.dbg = v.getLsbD 1)
                ∧ (off = 8 → c.keyId = v.toNat) ∧ (off = 16 → c.dbgBlk = v)
            | .admission => ∃ a, t.admissions[entry]? = some a ∧ (off = 0 → a.valid = v.getLsbD 48) ∧ (off = 8 → a.node = v)))
    ∧ (∀ h : HazelThread, ∃ t, exec (.hazelAccess k (.place h)) s = .next t ∧
        if (s.hazel? k).isSome then t = s
        else t = { s with nextId := t.nextId, hazels := t.hazels } ∧ ∃ z, t.hazel? k = some z ∧ z.ctx = h.ctx ∧ z.home = h.home
          ∧ z.img = h.img ∧ z.pc = h.pc ∧ z.asleep = h.asleep ∧ z.exc = none ∧ z.leaving = none)
    ∧ exec (.hazelAccess k .remove) s = .next { s with hazels := s.hazels.filter fun y => y.id != k }

/-- CSRs of the hazel cores (R309, R374, R382, R387, R405): at machine level a value without reserved bits is taken, `vkinj` with
FIRED cleared, and a read returns what was written last; any other write, and a read below that level, raises an illegal-instruction
exception at the hazel core and changes nothing. `vkhome` is readable at every level and names the thread whose state the core holds; no
write of it is taken. What a read returned stands in the model's field `answer`.
An accounting period (R9, R306, R370, R390): before 2,048 cycles have passed nothing happens; then launches admitted and refusals
count from zero, the samples are gone, new way masks and budgets are in effect, and with no samples no byte of memory changes. -/
def Obligations.CsrsPeriods : Prop :=
  (∀ (s : State) (core : Nat) (machine : Bool) (v : Word),
    let illegal : State := { s with hazelTraps := s.hazelTraps ++ [(core, 2)] }
    (∀ i ∈ [Instr.vkpcu core false none, .vkblk core false none, .vkqwin core false none, .vkinj core false none],
      exec i s = .next illegal)
    ∧ exec (.vkpcu core true none) s = .next { s with answer := (assocD 0 (core / 32) s.vkpcu).toNat }
    ∧ exec (.vkblk core true none) s = .next { s with answer := s.vkblk.toNat }
    ∧ exec (.vkqwin core true none) s = .next { s with answer := s.vkqwin.toNat }
    ∧ (∀ x, s.vkinj.find? (fun y => y.core == core) = some x → exec (.vkinj core true none) s = .next { s with answer := x.value.toNat })
    ∧ (s.vkinj.find? (fun y => y.core == core) = none → exec (.vkinj core true none) s = .next { s with answer := 0 })
    ∧ (∀ hz, s.hazel? core = some hz → exec (.vkhome core none) s = .next
        { s with answer := match hz.home with | some t => (2 ^ 63 + t.posWord) % 2 ^ 64 | none => 0 })
    ∧ (s.hazel? core = none → exec (.vkhome core none) s = .next { s with answer := 0 })
    ∧ (∃ t, exec (.vkpcu core machine (some v)) s = .next t ∧
      if machine = true ∧ v.extractLsb' 0 6 = 0 ∧ v.extractLsb' 56 8 = 0 then t = { s with vkpcu := t.vkpcu }
        ∧ ∀ k, assocD 0 k t.vkpcu = if k = core / 32 then v else assocD 0 k s.vkpcu
      else t = illegal)
    ∧ exec (.vkblk core machine (some v)) s = .next
        (if machine = true ∧ v.extractLsb' 0 6 = 0 ∧ v.extractLsb' 56 8 = 0 then { s with vkblk := v } else illegal)
    ∧ exec (.vkqwin core machine (some v)) s = .next
        (if machine = true ∧ v.extractLsb' 0 16 = 0 ∧ v.extractLsb' 56 8 = 0 then { s with vkqwin := v } else illegal)
    ∧ exec (.vkhome core (some v)) s = .next illegal
    ∧ ∃ t, exec (.vkinj core machine (some v)) s = .next t ∧
        if machine = true ∧ v.extractLsb' 52 8 = 0 ∧ v.getLsbD 32 = false ∧ v.extractLsb' 61 2 ≠ 3 ∧ (v.extractLsb' 43 9).toNat ≤ 383 then
          t = { s with vkinj := t.vkinj } ∧ (∀ x ∈ s.vkinj, x.core ≠ core → x ∈ t.vkinj)
          ∧ ∀ x ∈ t.vkinj, x.core = core → ∀ i, i < 64 → x.value.getLsbD i = (decide (i ≠ 60) && v.getLsbD i)
        else t = illegal)
  ∧ (∀ (s : State), (s.tstamp < s.periodStart + 2048 → exec .accountingPeriod s = .next s)
    ∧ (s.periodStart + 2048 ≤ s.tstamp → heldBy s none (nominationLines s (nominations s)) = [] →
        ∃ t, exec .accountingPeriod s = .next t ∧ t.periodStart = s.periodStart + 2048 ∧ t.samples = [] ∧ t.refusedCounts = []
          ∧ t.spent = [] ∧ t.nextQuota = [] ∧ t.teams = s.teams ∧ t.bundles = s.bundles
          ∧ t.admissions = s.admissions.map (fun a => { a with used := 0 })
          ∧ (s.samples = [] → t.mem = s.mem)
          ∧ t.parts.length = s.parts.length
          ∧ ∀ (k : Nat) (p q : PartDesc), s.parts[k]? = some p → t.parts[k]? = some q → q = { p with ways := q.ways, budget := q.budget }
            ∧ (∀ w b, s.nextQuota.find? (fun y => y.1 == p.part) = some (p.part, w, b) → q.ways = w ∧ q.budget = b)
            ∧ (s.nextQuota.find? (fun y => y.1 == p.part) = none → q = p)))

/-! ### Page moves and CSRs -/

/-- Page moves (R308-R313): the unit takes the request at HEAD with eight moves at most; a refused one completes at once with its
status, an accepted one names the page's base, its size and its PTEs; the page is frozen if its PTEs are as they were, and else the
move ends with status 4. At its release the target holds what the source held, each PTE names the target with every other field kept,
no TLB translates the page, and the completion word is written. A peer that does not answer within 80,000 cycles ends it with status 5. A
pin ends at its deadline, and the moves that completed before count no more. That steps 3 to 5 are one step is the model's (log 35), and
that the 16 level-0 entries of a 64 KiB page are its PTEs its reading (log 69). -/
def Obligations.PageMoves : Prop :=
  ∀ (s : State),
    let ends := fun (t : State) (m : Move) (status : Nat) => t.moves = s.moves.filter (fun x => x.id != m.id)
      ∧ t.readM m.done.toNat 8 = 2 ^ 63 + status
    (∀ (iod : Fin 2) (a : Nat), (s.moves.find? fun m => m.iod == iod.val && !m.frozen && !m.blocked s) = none →
      (s.moves.filter fun m => m.iod == iod.val).length < 8 →
      let blk := (ringBlock s (assocD 0 iod.val s.vkpcu) (assocD 0 iod.val s.pcuBlock)).toNat
      ringHolders s (assocD 0 iod.val s.vkpcu) (assocD 0 iod.val s.pcuBlock) = [] →
      ringRequest s blk 64 = some a →
      let r := moveReq s a
      heldBy s none (physLines a 64 ++ physLines r.peers (16 * min r.npeer 15) ++ [lineOf r.done] ++ moveLines s r) = [] →
      ∃ t, exec (.moveRequest iod) s = .next t ∧
        match moveStart s iod.val r with
        | .error st => t.moves = s.moves ∧ t.readM r.done 8 = 2 ^ 63 + st % 256
        | .ok m => t.moves = s.moves ++ [{ m with id := s.nextId }] ∧ m.source % m.size = 0 ∧ m.target = r.target ∧ m.vpage = r.vpage
            ∧ m.frozen = false ∧ t.readM (blk + 24) 8 = (s.readM (blk + 24) 8 + 1) % 2 ^ 64
            ∧ ∀ adr, ¬(blk + 24 ≤ adr ∧ adr < blk + 32) → Memory.read t.mem adr = Memory.read s.mem adr)
    ∧ (∀ (iod : Fin 2) (m : Move), (s.moves.find? fun m => m.iod == iod.val && !m.frozen && !m.blocked s) = some m →
        heldBy s none (m.lines ++ m.ptes.map (fun q => lineOf q.1) ++ [lineOf m.done.toNat]) = [] →
        ∃ t, exec (.moveRequest iod) s = .next t ∧
          if ∀ q ∈ m.ptes, s.readM q.1 8 = q.2.toNat then t = { s with moves := t.moves, cores := t.cores, dir := t.dir }
            ∧ (∀ y ∈ t.moves, y.id = m.id → y.frozen = true) ∧ t.moves.length = s.moves.length
            ∧ (m.size ≠ 0 → ∀ c ∈ t.cores, ∀ l ∈ c.l1, ¬(m.source / 64 ≤ l.line ∧ l.line ≤ (m.source + m.size - 1) / 64))
          else ends t m 4)
    ∧ (∀ (m : Move), s.moves.find? (fun x => x.id == m.id && x.frozen) = some m → Memory.wf s.mem = true →
        let ptes := m.ptes.map (·.1)
        (∀ a ∈ ptes, a < 0x8000000000000 ∧ a % 8 = 0) → ptes.Nodup →
        heldBy s none (m.lines ++ physLines m.target m.size ++ m.ptes.map (fun q => lineOf q.1) ++ [lineOf m.done.toNat]) = [] →
        writeWaits { s with moves := s.moves.filter fun x => x.id != m.id } m.target m.size = false →
        (m.size = 0x10000 ∨ m.size = 0x200000) → m.target % m.size = 0 → m.target < 2 ^ 56 → m.source % m.size = 0 →
        (m.source + m.size ≤ m.target ∨ m.target + m.size ≤ m.source) →
        (∀ q ∈ m.done.toNat :: ptes, q + 8 ≤ m.target ∨ m.target + m.size ≤ q) →
        (∀ a ∈ ptes, a + 8 ≤ m.done.toNat ∨ m.done.toNat + 8 ≤ a) →
        ∃ t, exec (.moveRelease m.id) s = .next t ∧ ends t m 0
          ∧ (∀ i, i < m.size → Memory.read t.mem (m.target + i) = Memory.read s.mem (m.source + i))
          ∧ (∀ a ∈ ptes, let q : Word := BitVec.ofNat 64 (t.readM a 8)
             let p : Word := BitVec.ofNat 64 (s.readM a 8)
             ptePpn q = m.target / 0x1000 + (if m.size = 0x10000 then 8 else 0) ∧ ∀ i, (i < 10 ∨ 54 ≤ i) → q.getLsbD i = p.getLsbD i)
          ∧ (∀ adr, ¬(m.target ≤ adr ∧ adr < m.target + m.size) → (∀ a ∈ ptes, ¬(a ≤ adr ∧ adr < a + 8)) →
              ¬(m.done.toNat ≤ adr ∧ adr < m.done.toNat + 8) → Memory.read t.mem adr = Memory.read s.mem adr)
          ∧ (∀ c ∈ t.cores, ∀ e ∈ c.tlb.access ++ c.tlb.fetch ++ c.tlb.stream ++ c.tlb.tile ++ c.tlb.latches.map (·.2),
              e.serves m.ctx (m.vpage.toNat % 2 ^ 57) = false)
          ∧ ∃ r ∈ t.history, r.ctx = m.ctx ∧ r.vpage = m.vpage ∧ r.stamps.getLast? = some s.tstamp)
    ∧ (∀ (m : Move), s.moves.find? (fun x => x.id == m.id) = some m → m.ptes.length ≠ (pagePtes m.size 0).length →
        heldBy s none [lineOf m.done.toNat] = [] →
        (s.tstamp < m.began + 80000 → exec (.peerTimeout m.id) s = .next s)
        ∧ (m.began + 80000 ≤ s.tstamp → ∃ t, exec (.peerTimeout m.id) s = .next t ∧ ends t m 5
          ∧ ∀ adr, ¬(m.done.toNat ≤ adr ∧ adr < m.done.toNat + 8) → Memory.read t.mem adr = Memory.read s.mem adr))
    ∧ ∀ (ctx : Nat) (vpage : Word), ∃ t, exec (.pinEnd ctx vpage) s = .next t ∧ t = { s with history := t.history }
        ∧ t.history.length = s.history.length
        ∧ ∀ (k : Nat) (g r : MoveHist), s.history[k]? = some g → t.history[k]? = some r →
            (∀ d, g.ctx = ctx → g.vpage = vpage → g.pinned = some d → d ≤ s.tstamp →
              r = { g with stamps := g.stamps.filter fun x => decide (d ≤ x), pinned := none })
            ∧ (¬(g.ctx = ctx ∧ g.vpage = vpage ∧ ∃ d, g.pinned = some d ∧ d ≤ s.tstamp) → r = g)

/-! ### Losses and power -/

/-- Unplanned losses and injected rail events (R20, R242, R260, R305, R353-R355, R405): what has escaped a core that is not gated reaches
M, where no page move makes it wait (log 97), every pending access of its threads is discarded, those of earlier regions too (R260, which the model follows where R163 has a loss discard
writes of the current region alone, log 93), the core loses what is not in the pewter layer, and each live thread on it restarts
from its complete checkpoint; every injection that matches the write is
fired, and none is counted. A gated core loses its translations and instruction lines, and nothing else.
Errors of the pewter layer (R354, R357): a correctable one is counted; a checkpoint slot without another complete one ends its thread
as KILL does, granules become FAILED, tile rows read as NaNs, and a core's log, a reply or a status record ends the context whose it is;
each loss that is somebody's leaves a KIND 5 entry, which names the first of the granules. That a gated core's threads lose nothing (log 43), and what an entry of KIND 5 holds
(log 46), are the model's readings. -/
def Obligations.Losses : Prop :=
  ((∀ (s : State) (core : Nat) (stages : List (ThreadId × Nat)), s.IdsDistinct →
    ((s.core core).losses.filter fun x => s.tstamp ≤ x + 16000000).length < 2 →
    ∃ t u, exec (.unplannedLoss core false stages) s = .next t ∧ s.tstamp ∈ (t.core core).losses ∧ t.spares = s.spares
      ∧ ((s.core core).gated = false → (∀ i ∈ (s.core core).tb, i.waits s = false) → t.threads = (settle u).threads ∧ t.mem = u.mem ∧ s.LostCore u core)
      ∧ ((s.core core).gated = true → t = { s with cores := t.cores }
          ∧ t.core core = { s.core core with losses := (t.core core).losses, icache := [], tlb := ⟨[], [], [], [], [], []⟩ }))
  ∧ ∀ (s : State) (hazelCore : Nat) (stages : List (ThreadId × Nat)) (v : Vkinj), s.IdsDistinct →
      s.vkinj.find? (fun v => v.core == hazelCore && v.fires s) = some v → (∀ i ∈ (s.core v.target.core).tb, i.waits s = false) →
      ∃ t, exec (.injectedRailEvent hazelCore stages) s = .next (settle t)
        ∧ s.LostCore t v.target.core
        ∧ (t.core v.target.core).losses = (s.core v.target.core).losses
        ∧ ∀ x ∈ s.vkinj, x.fires s = true → x.target = v.target →
            ∃ w ∈ t.vkinj, w.core = x.core ∧ ∀ i, i < 64 → w.value.getLsbD i = (if i = 63 then false else if i = 60 then true else x.value.getLsbD i))
  ∧ (∀ (s : State) (core : Nat),
    (∃ t, exec (.correctableError core) s = .next t ∧ t.core core = { s.core core with correctable := (s.core core).correctable + 1 }
      ∧ (∀ c, c ≠ core → t.core c = s.core c) ∧ t = { s with cores := t.cores })
    ∧ (∀ (id : ThreadId) (k : Fin 2) (x : Thread), s.thread? id = some x → s.IdsDistinct →
        let torn := fun (c : CkSlot) => { c with seqt := c.seqh + 1 }
        let slot0 := if k.val = 0 then torn x.slot0 else x.slot0
        let slot1 := if k.val = 0 then x.slot1 else torn x.slot1
        ∃ u y, (exec (.pewterError (.checkpointSlot id k)) s = .next u ∨ exec (.pewterError (.checkpointSlot id k)) s = .next (settle u))
          ∧ u.mem = s.mem ∧ (∀ z ∈ s.threads, z.id ≠ id → z ∈ u.threads) ∧ u.thread? id = some y
          ∧ ((chooseSlot slot0 slot1).isSome = true → y = { x with slot0 := slot0, slot1 := slot1 } ∧ u.reports = s.reports)
          ∧ ((chooseSlot slot0 slot1).isNone = true → x.status = .live → y.status = .ended true ∧ y.pending = []
              ∧ ∃ r, u.reports = s.reports ++ [r] ∧ r.kind = 5 ∧ r.cause = .stateLost ∧ r.ctx = (s.teamOf x).ctx ∧ r.rentry = x.entry))
    ∧ (∀ g n, let hit := fun q => g ≤ q ∧ q < g + n
        ∃ t, exec (.pewterError (.granule core g n)) s = .next t ∧ (∀ q, hit q → (t.core core).granule q = .failed) ∧ t.mem = s.mem
        ∧ (∀ q, ¬hit q → (t.core core).granule q = (s.core core).granule q) ∧ t.threads = s.threads
        ∧ ((∀ q, hit q → rowOwner s core (q / 64) = none) → t.reports = s.reports)
        ∧ ∀ q tm, hit q → rowOwner s core (q / 64) = some tm → (∀ p, hit p → p < q → rowOwner s core (p / 64) = none) →
            ∃ r, t.reports = s.reports ++ [r] ∧ r.kind = 5 ∧ r.cause = .stateLost ∧ r.ctx = tm.ctx
              ∧ r.eaddr = apertureAddr (16 * q - tm.rowLo * 1024))
    ∧ (∀ tile row n, let hit := fun q => tile * 32 + row ≤ q ∧ q < tile * 32 + row + n
        ∃ t, exec (.pewterError (.tileRow core tile row n)) s = .next t ∧ t.threads = s.threads
        ∧ (∀ q, hit q → ∀ j, j < 64 → rowElem (assocD 0 q (t.core core).acc) 32 j = 0x7FC00000)
        ∧ (∀ q, ¬hit q → assocD 0 q (t.core core).acc = (assocD 0 q (s.core core).acc : BitVec 2048))
        ∧ ((∀ q, hit q → tileOwner s core (q / 32) = none) → t.reports = s.reports)
        ∧ ∀ q tm, hit q → tileOwner s core (q / 32) = some tm → (∀ p, hit p → p < q → tileOwner s core (p / 32) = none) →
            ∃ r, t.reports = s.reports ++ [r] ∧ r.kind = 5 ∧ r.cause = .stateLost ∧ r.ctx = tm.ctx)
    ∧ ∀ ctx, heldBy s none (termLines s ctx) = [] → ∃ t, exec (.pewterError (.log core ctx)) s = .next t ∧
        ((∀ m ∈ s.teams, m.core = core → m.ctx ≠ ctx) → t = s)
        ∧ ∀ m ∈ s.teams, m.core = core → m.ctx = ctx → ∀ c, s.ctx? ctx = some c →
          (∃ d, t.ctx? ctx = some d ∧ d.st = .terminated) ∧ ∃ r ∈ t.reports, r.kind = 5 ∧ r.cause = .stateLost ∧ r.ctx = ctx)

/-- Planned gating and its end (R165, R241, R270, R305, R361): the core stops issuing; once its checkpoints are durable, its results written and its
buffer empty it powers down, loses its caches, keeps its translations, and its streams read their rows again; at its wake every thread is
where it was, with the registers of its budget, its loads to be issued again, and each bundle eligible after its stall count (R54).
A core that still stops goes on.
Clocks, near-threshold mode and rails (R59, R388, R393-R395): no bundle may issue in a cycle whose bit of the
clock mask is 0, nor while its rail is below the voltage of its lane group's mode; a mask other than 0 is taken; a nominal lane group whose bundles have
waited long enough becomes near-threshold, and one with a ready bundle returns, the rail first; a rail falls to its highest vote when
its hold has expired, and settles at its time; TSTAMP slews by one. That a quad with no vote falls to 0 V, and that gating and wakes may come
at any time, are the model's readings (log 51). -/
def Obligations.GatingClocks : Prop :=
  (∀ (s : State) (core : Nat), (s.core core).withdrawn = false →
    let mine := fun (x : Thread) => x.id.core = core
    ((s.core core).gated = false → (s.core core).stopping = false →
      (∀ b ∈ s.bundles, (b.ra = none ∧ b.mid = none) ∨ ∀ x ∈ s.threads, mine x → b.has x.id = false) →
      ∃ t, exec (.plannedGating core) s = .next t ∧ t = { s with cores := t.cores }
        ∧ t.core core = { s.core core with stopping := true } ∧ t.coreIssues core = false)
    ∧ ((s.core core).gated = false → (s.core core).stopping = true → (s.core core).tb = [] →
        (∀ x ∈ s.threads, mine x → x.still = true) →
        ∃ t, exec (.plannedGating core) s = .next t ∧ t = { s with cores := t.cores, rails := t.rails, dir := t.dir, teams := s.teams.map (fun m => if m.core = core then m.dropAhead else m) }
          ∧ t.core core = { s.core core with gated := true, nh := [], ltr := none, l1 := [], icache := [] })
    ∧ ((s.core core).gated = true →
        ∃ t, exec (.gatedCoreWake core) s = .next t
          ∧ t = { s with cores := t.cores, rails := t.rails, threads := t.threads, bundles := t.bundles }
          ∧ t.core core = { s.core core with gated := false, stopping := false, vacant := 0, resting := 0, lgs := (t.core core).lgs }
          ∧ ((railOf s (quadIndex core)).target = 700 → (t.core core).lgs = (s.core core).lgs)
          ∧ t.bundles.length = s.bundles.length
          ∧ (∀ (k : Nat) (b d : Bundle), s.bundles[k]? = some b → t.bundles[k]? = some d →
              d = { b with starved := d.starved, latch := d.latch } ∧ (b.core ≠ core → d = b))
          ∧ t.threads.length = s.threads.length
          ∧ ∀ (k : Nat) (x y : Thread), s.threads[k]? = some x → t.threads[k]? = some y →
              if mine x then
                y = { x with regs := y.regs, snap := none, ic := 0, writes := y.writes, pending := y.pending }
                ∧ y.regs.p = x.regs.p ∧ y.regs.mode = x.regs.mode ∧ y.pending.length = x.pending.length
                ∧ (∀ a ∈ y.pending, State.isLoad a = true → a.replay = true)
                ∧ (∀ i : Fin 32, y.regs.gval i = if i.val < (s.teamOf x).kernel.gregs then x.regs.gval i else 0)
                ∧ ∀ i : Fin 32, y.regs.fval i = if i.val < (s.teamOf x).kernel.fregs then x.regs.fval i else 0
              else y = x)
    ∧ ((s.core core).gated = false → (s.core core).stopping = true → ∃ t, exec (.gatedCoreWake core) s = .next t
        ∧ t = { s with cores := t.cores } ∧ t.core core = { s.core core with stopping := false }))
  ∧ (∀ (s : State) (core quad : Nat) (lg : Fin 4) (g : LaneGroup),
    let rail := fun (t : State) => railOf t quad
    (∀ b : Bundle, (s.core b.core).clockMask.getLsbD (s.tstamp % 32) = false → s.mayIssue b = false ∧ s.ready b = false)
    ∧ (∀ b : Bundle, (rail s).mv = (rail s).target → quad = quadIndex b.core →
        (rail s).mv < (if (s.laneGroup b).near then 420 else 700) → s.mayIssue b = false ∧ s.ready b = false)
    ∧ (∀ mask, exec (.clockMask core 0) s = .next s ∧ (mask ≠ 0 → ∃ t, exec (.clockMask core mask) s = .next t
      ∧ t.core core = { s.core core with clockMask := mask } ∧ ∀ c, c ≠ core → t.core c = s.core c))
    ∧ (∀ n, (s.core core).lgs[lg.val]? = some g → nearAfter (hints s core lg) = some n → g.near = false → n ≤ g.waited →
        ∃ t, exec (.nearThresholdEntry core lg) s = .next t ∧ (t.core core).lgs[lg.val]? = some { g with near := true, phase := 0 }
          ∧ t = { s with cores := t.cores, rails := t.rails })
    ∧ ((s.core core).lgs[lg.val]? = some g → g.near = true → (∃ b ∈ s.bundles, b.core = core ∧ b.lg = lg.val ∧ s.ready b = true) →
        quad = quadIndex core →
        ∃ t, exec (.nominalReturn core lg) s = .next t ∧ t = { s with cores := t.cores, rails := t.rails }
          ∧ ((rail s).mv = 700 → (rail s).target = 700 →
              (t.core core).lgs[lg.val]? = some { g with near := false, phase := 0, waited := 0 })
          ∧ ((rail s).target < 700 → (rail t).target = 700 ∧ t.cores = s.cores ∧ s.tstamp ≤ (rail t).due))
    ∧ (∀ d, (rail s).holdUntil = some d →
        (s.tstamp < d → exec (.railHoldExpiry quad) s = .next s)
        ∧ (d ≤ s.tstamp → ∃ t, exec (.railHoldExpiry quad) s = .next t ∧ t = { s with rails := t.rails } ∧ (rail t).holdUntil = none
            ∧ (rail t).target = min (rail s).target (demand s quad)))
    ∧ ((rail s).holdUntil = none → ∃ t, exec (.railHoldExpiry quad) s = .next t ∧ t = { s with rails := t.rails }
        ∧ rail t = if demand s quad < (rail s).target then { rail s with holdUntil := some (s.tstamp + 160000) } else rail s)
    ∧ (∃ t, exec (.railSettled quad) s = .next t ∧ t = { s with rails := t.rails }
        ∧ (rail t).mv = if (rail s).due ≤ s.tstamp then (rail s).target else (rail s).mv)
    ∧ ∀ ahead, ∃ t, exec (.ptpSync ahead) s = .next t ∧ t.mem = s.mem ∧ t.threads = s.threads
        ∧ (s.tstamp < s.lastSlew + 1024 → t = s)
        ∧ (s.lastSlew + 1024 ≤ s.tstamp → t.lastSlew = s.tstamp ∧ t.tstamp = if ahead then s.tstamp + 1 else s.tstamp))

/-! ### Contexts -/

/-- Commands of the context controller (R348, R363, R364, R367, R368): each is accepted in the states its row gives, RUN from saved, or
from terminated or lost once rebuilt (R376), with the partition holding its positions, SAVE from running, TERMINATE from any but terminated, REARM with well-formed watchpoints; one that
is not accepted, one with a reserved value in CMD among them, completes with its status and changes the context in nothing but CMD. A TERMINATE that had nothing else to write leaves M as it was but for its
completion word. A command is one step, taken when no line it touches is narrow-held (the model's, log 17), and a reserved CMD is refused by
the model's choice (log 56). -/
def Obligations.ContextCommands : Prop :=
  ∀ (s : State) (c : Context) (d : Nat), s.ctx? c.id = some c → s.powered = true →
    heldBy s none (doneLines s c ++ termLines s c.id ++ runLines s c.id) = [] → ctxPa s c c.done = some d →
    let done := fun (t : State) (status : Nat) => t.readM d 8 = 2 ^ 63 + status
      ∧ ∀ adr, ¬(d ≤ adr ∧ adr < d + 8) → Memory.read t.mem adr = Memory.read s.mem adr
    let now := fun (t : State) (f : Context → Context) => t.ctx? c.id = some (f { c with cmd := 0 })
    let area := savedOf (s.modCtx c.id fun x => { x with cmd := 0 }) c.id
    let fits := decide (area.threads.map (·.id)).Nodup && (s.part? c.part).any fun p => area.teams.all fun m => m.within p && !(s.core m.core).withdrawn
    let at_ := area.stamp
    let runs := c.st = .saved ∨ c.st = .terminated ∨ c.st = .lost
    (4 < c.cmd → ∀ i ∈ [Instr.run c.id, .save c.id, .terminate c.id, .rearm c.id], ∃ t, exec i s = .next t ∧ done t 1 ∧ now t id) ∧ (c.cmd ≤ 4 →
    (∃ t, exec (.run c.id) s = .next t ∧ t.threads.length = s.threads.length
      ∧ (¬runs → done t 1 ∧ now t id)
      ∧ (runs → fits = false → done t 2 ∧ now t id)
      ∧ (runs → fits = true → t.mem = s.mem ∧ (∃ v, t.saved.find? (fun y => y.ctx == c.id) = some v ∧ v.teams = area.teams) ∧ now t fun x =>
          { x with st := .restoring, owes := true, saveDeadline := if s.tstamp < at_ then at_ + 32 else 0 }))
    ∧ (∃ t, exec (.save c.id) s = .next t
      ∧ (c.st ≠ .running → done t 1 ∧ now t id)
      ∧ (c.st = .running → t.mem = s.mem ∧ t.threads = s.threads ∧ now t fun x =>
          { x with st := .saving, stopped := false, owes := true, saveDeadline := s.tstamp + 80000 }))
    ∧ (∃ t, exec (.rearm c.id) s = .next t
      ∧ ((c.st = .terminated ∨ c.st = .stranded ∨ c.st = .lost ∨ ∃ w ∈ c.watchRaw, watchOk w = false) → done t 1 ∧ now t id)
      ∧ (c.st ≠ .terminated → c.st ≠ .stranded → c.st ≠ .lost → (∀ w ∈ c.watchRaw, watchOk w = true) →
          done t 0 ∧ ∃ ws, now t (fun x => { x with watch := ws }) ∧ ws.length = (c.watchRaw.filter fun w => w.2.getLsbD 7).length
            ∧ ∀ w ∈ c.watchRaw, w.2.getLsbD 7 = true →
                (⟨w.1.toNat, 2 ^ (w.2.toNat % 16), w.2.getLsbD 6, w.2.getLsbD 5, w.2.getLsbD 4⟩ : Watch) ∈ ws))
    ∧ ∃ t, exec (.terminate c.id) s = .next t
      ∧ (c.st = .terminated → done t 1 ∧ now t id)
      ∧ (c.st ≠ .terminated → (∃ x, t.ctx? c.id = some x ∧ x.st = .terminated)
          ∧ (c.nodes = [] → savedCmds s c.id = [] → (∀ k ∈ s.cmds, ∀ m ∈ s.teams, m.ctx = c.id → k.team ≠ m.id) → done t 0)
          ∧ (∀ m ∈ s.teams, m.ctx = c.id → ∀ y ∈ t.threads, y.team = m.id → ∃ k, y.status = .ended k)
          ∧ (∀ m ∈ t.teams, m.ctx = c.id ∨ ∃ n ∈ s.teams, m = { n with bars := m.bars })))

/-- Saving and restoring (R360, R361, R364-R367, R378): a save wakes the context's gated cores, and stops the context, with no chain half issued, when
no barrier is partly arrived or its deadline has come;
once its threads stand still and its stores have drained, its threads and teams are in the save area and no longer in the module, and
where its tables map the area to one run of memory, each thread's record there holds G, F, PC and MODE at their offsets, registers
outside the budget as zero. A restore waits for its places; then every saved thread stands where it was saved, with the G, F, PC, MODE,
RSERIAL and PRED of its record (as they were saved where no page is mapped, log 50), and the context runs.
The restart of a frozen group's thread by system software (R40): at the entry of its region as after RETRY, at another region entry
with every register, predicate, MODE and RSERIAL as at the trap; an address that is no region entry restarts nothing. A save and a restore are
each one step, taken when no line they touch is narrow-held (the model's, log 17). -/
def Obligations.SaveRestore : Prop :=
  (∀ (s : State) (c : Context), s.ctx? c.id = some c →
    let mine := fun (x : Thread) => (s.teamOf x).ctx = c.id
    let cores := ((teamsOf s c.id).map (·.core)).eraseDups
    s.powered = true →
    (c.st = .saving → ∀ k, cores.find? (fun k => (s.core k).gated) = some k → exec (.saveStop c.id) s = exec (.gatedCoreWake k) s)
    ∧ (c.st = .saving → c.stopped = false → (∀ k ∈ cores, (s.core k).gated = false) →
      (∀ b ∈ s.bundles, b.mid = none) → (partlyArrived s c.id = false ∨ c.saveDeadline ≤ s.tstamp) → (∀ b ∈ s.bundles, b.ra = none) →
      ∃ t, exec (.saveStop c.id) s = .next t ∧ t = { s with ctxs := t.ctxs } ∧ t.ctx? c.id = some { c with stopped := true })
    ∧ (c.st = .saving → c.stopped = true → (∀ x ∈ s.threads, mine x → x.still = true) →
        (∀ k ∈ cores, buffered s ((threadsOf s c.id).map (·.id)) k = false ∧ (s.core k).nh = [] ∧ (s.core k).withdrawn = false ∧ (s.core k).gated = false) →
        (∀ x ∈ s.threads, ∃ m, s.team? x.team = some m) → (∀ m ∈ s.teams, s.team? m.id = some m) →
        heldBy s none (doneLines s c ++ areaLines s c (areaWords s c).length) = [] →
        ∃ t v, exec (.saveStop c.id) s = .next t ∧ v ∈ t.saved ∧ v.ctx = c.id ∧ v.stamp = s.tstamp
          ∧ (∀ x, x ∈ v.threads ↔ x ∈ s.threads ∧ mine x) ∧ (∀ m, m ∈ v.teams ↔ ∃ n ∈ s.teams, n.ctx = c.id ∧ m = n.dropAhead)
          ∧ (∀ x ∈ t.threads, (s.teamOf x).ctx ≠ c.id) ∧ (∀ m ∈ t.teams, m ∈ s.teams ∧ m.ctx ≠ c.id)
          ∧ t.threads.length + v.threads.length = s.threads.length
          ∧ (∃ x, t.ctx? c.id = some x ∧ x.st = .saved ∧ x.gen = (c.gen + 1) % 2 ^ 16 ∧ x.savedAt = s.tstamp)
          ∧ (∀ d, c.owes = true → ctxPa s c c.done = some d → t.readM d 8 = 2 ^ 63)
          ∧ ∀ q, (∀ k < (areaWords s c).length, ctxPa s c (areaAddr c k) = some (q + 8 * k)) → s.IdsDistinct →
            (∀ d, ctxPa s c c.done = some d → d + 8 ≤ q ∨ q + 8 * (areaWords s c).length ≤ d) →
            ∀ x ∈ s.threads, mine x → ∀ o, (x.id, o) ∈ recordPlaces s.threads s.cmds 512 (teamsOf s c.id) →
              let k := (s.teamOf x).kernel
              (∀ i : Fin 32, t.readM (q + 8 * (o + i.val)) 8 = (if i.val < k.gregs then x.regs.gval i else 0).toNat)
              ∧ (∀ i : Fin 32, t.readM (q + 8 * o + 256 + 8 * i.val) 8 = (if i.val < k.fregs then x.regs.fval i else 0).toNat)
              ∧ t.readM (q + 8 * o + 512) 8 = x.pc.toNat ∧ t.readM (q + 8 * o + 520) 8 = x.regs.mode.toNat)
    ∧ ∀ v, s.saved.find? (fun x => x.ctx == c.id) = some v → c.st = .restoring → (c.saveDeadline = 0 ∨ c.saveDeadline ≤ s.tstamp) →
        v.teams.all (placeFree s v.teams) = true → positionsFree s v = true →
        heldBy s none (doneLines s c ++ areaLines s c (areaSize v) ++ (openTickets s c.id).flatMap fun o => resolveLines s o .retry) = [] →
        (∀ o ∈ s.tickets, o.ctx = c.id → o.done = true ∨ s.readM o.ticket 8 % 4 = 0) →
        (∀ g ∈ s.sleepers ++ v.sleepers, ∃ w ∈ g.waits, w.2 = none) →
        ∃ t, exec (.runStart c.id) s = .next t ∧ (∃ x, t.ctx? c.id = some x ∧ x.st = .running)
          ∧ (∀ y ∈ t.saved, y.ctx ≠ c.id) ∧ t.threads.length = s.threads.length + v.threads.length
          ∧ (∀ m ∈ v.teams, ∃ n ∈ t.teams, n = { m with bars := n.bars })
          ∧ (∀ d, ctxPa s c c.done = some d → t.readM d 8 = 2 ^ 63)
          ∧ ∀ x ∈ v.threads, ∃ y ∈ t.threads, let w := recordWord s c v x.id
            let k := ((v.teams.find? fun m => m.id == x.team).map (·.kernel)).getD Kernel.reset
            y.id = x.id ∧ y.pc = (w 64).getD x.pc ∧ y.rserial = ((w 66).map (BitVec.setWidth 32)).getD x.rserial
            ∧ ((∀ b ∈ s.bundles ++ v.bundles, ∀ a l, b.hold ≠ .gsync a l) → match w 66, w 68 with
                | some u, some a => let tstate := u.toNat / 2 ^ 40 % 2 ^ 8
                  (tstate = 4 → y.status = .continuation a)
                  ∧ (tstate = 2 → (∃ o, x.status = .asleep (some o)) → y.status = .asleep (some a))
                  ∧ (tstate ≠ 2 → tstate ≠ 4 → y.status = x.status)
                | _, _ => y.status = x.status)
            ∧ y.regs.mode = ((w 65).map modeLoaded).getD x.regs.mode
            ∧ y.regs.p = ((w 66).map fun u => BitVec.ofNat 8 (u.toNat / 2 ^ 32)).getD x.regs.p ||| 1
            ∧ (∀ i : Fin 32, y.regs.gval i = if i.val ≠ 0 ∧ i.val < k.gregs then (w i.val).getD (x.regs.gval i) else 0)
            ∧ ∀ i : Fin 32, y.regs.fval i = if i.val < k.fregs then (w (32 + i.val)).getD (x.regs.fval i) else 0)
  ∧ (∀ (s : State) (x : Thread) (a : Word), s.thread? x.id = some x → s.IdsDistinct → x.status = .frozen → s.hlevel x = true →
    x.results = [] → x.pending = [] →
    (regionEntry s x a = false → ∃ u, exec (.frozenGroupRestart x.id [(x.id, some a)]) s = .next (settle u) ∧ u.threads = s.threads)
    ∧ (regionEntry s x a = true →
        ∃ u y, exec (.frozenGroupRestart x.id [(x.id, some a)]) s = .next (settle u) ∧ u.mem = s.mem
          ∧ (∀ z ∈ s.threads, z.id ≠ x.id → z ∈ u.threads) ∧ u.thread? x.id = some y ∧ y.status = .live ∧ y.pc = a
          ∧ (a ≠ x.entry → y.regs = x.regs ∧ y.rserial = x.rserial)
          ∧ (a = x.entry → y.regs = x.curSlot.load x.regs ∧ y.rserial = x.curSlot.seqh)
          ∧ ∃ b ∈ u.bundles, b.has x.id = true))

/-! ### Partitions and the module -/

/-- The partition table (R369, R370): an update that would make active partitions share anything, or leaves the ranges of a core, is
refused with status 1 and changes nothing; an accepted one takes effect, BLOCKS apart, and the active partitions stay disjoint.
The status stands in the model's field `answer`, and the refusal of new ranges for a running partition is its reading (log 47). -/
def Obligations.PartitionTable : Prop :=
  (∀ (s : State) (p : PartDesc), ∃ t, exec (.partitionTableUpdate p) s = .next t ∧
    if updateOk s p then t = { s with answer := 0, parts := t.parts, nextQuota := t.nextQuota, lastDie := t.lastDie }
      ∧ (∀ q ∈ s.parts, q.part ≠ p.part → q ∈ t.parts)
      ∧ ∃ q, t.part? p.part = some q ∧ q.blocks = ((s.part? p.part).map (·.blocks)).getD [] ∧ q.active = p.active
          ∧ q.slotLo = p.slotLo ∧ q.slotN = p.slotN ∧ q.rowLo = p.rowLo ∧ q.rowN = p.rowN ∧ q.tileLo = p.tileLo ∧ q.tileN = p.tileN
          ∧ ((∀ o, s.part? p.part = some o → o.active = false) → q.ways = p.ways ∧ q.budget = p.budget)
    else t = { s with answer := 1 })
  ∧ ∀ (s : State) (p : PartDesc), updateOk s p = true →
      p.part < 16 ∧ p.slotLo + p.slotN ≤ 8 ∧ p.rowLo + p.rowN ≤ 768 ∧ p.tileLo + p.tileN ≤ 32
      ∧ (p.active = true → ∀ q ∈ s.parts, q.active = true → q.part ≠ p.part →
          (p.slotN = 0 ∨ q.slotN = 0 ∨ p.slotLo + p.slotN ≤ q.slotLo ∨ q.slotLo + q.slotN ≤ p.slotLo)
          ∧ (p.rowN = 0 ∨ q.rowN = 0 ∨ p.rowLo + p.rowN ≤ q.rowLo ∨ q.rowLo + q.rowN ≤ p.rowLo)
          ∧ (p.tileN = 0 ∨ q.tileN = 0 ∨ p.tileLo + p.tileN ≤ q.tileLo ∨ q.tileLo + q.tileN ≤ p.tileLo) ∧ p.ways &&& q.ways = 0)

/-- BLOCK_MOVE_REQUEST (R372, R374): with no notice owed, a request that waited for its block begins once the block is not moving any more;
with none such the request at HEAD of the control block is taken: one whose block is moving waits, a refused one completes with status 2, an
accepted one becomes a move.
Block moves (R372-R374): a request joins the moves with its partitions, deadline and completion word, removing first when it has an
owner; an acknowledged removal, or one whose deadline has come, at once takes the block from its partition and sweeps that partition's
translations; the scrub waits for page moves, buffered stores and issues that had begun to perform there, and then no line of the block is
cached; a scrubbed block reads zero and goes to its new owner, and the acknowledgment ends the move with status 0. -/
def Obligations.BlockMoves : Prop :=
  (∀ (s : State) (r : BlockReq), (∀ m ∈ s.blockMoves, m.noticed = true ∨ m.st = .scrubbing) → blockNext s = some r →
    heldBy s none (physLines r.done 8) = [] →
    (∀ m ∈ s.blockMoves, m.block ≠ r.block) ∧ r ∈ s.blockQueue ∧ ∃ t, exec .blockMoveRequest s = .next t
      ∧ t.blockQueue = s.blockQueue.erase r ∧ ∀ bad, bad = blockRequestBad s r.block r.src r.dst r.rest →
        if bad = true then t.blockMoves = s.blockMoves ∧ t.readM r.done 8 = 2 ^ 63 + 2
        else ∃ m, t.blockMoves = s.blockMoves ++ [m] ∧ m.block = r.block ∧ m.done = r.done ∧ m.deadline = r.deadline)
  ∧ (∀ (s : State) (a : Nat), (∀ m ∈ s.blockMoves, m.noticed = true ∨ m.st = .scrubbing) → blockNext s = none →
    let blk := (ringBlock s s.vkblk s.blkBlock).toNat
    ringHolders s s.vkblk s.blkBlock = [] →
    ringRequest s blk 32 = some a →
    let block := s.readM a 1
    let src := s.readM (a + 1) 1
    let dst := s.readM (a + 2) 1
    let done := s.readM (a + 16) 8
    let bad := blockRequestBad s block src dst (s.readM (a + 3) 5 + s.readM (a + 24) 8)
    heldBy s none (physLines a 32 ++ physLines done 8) = [] →
    ((∃ m ∈ s.blockMoves, m.block = block) → (blk + 64 ≤ a ∨ a + 32 ≤ blk) → ∃ t r, exec .blockMoveRequest s = .next t
      ∧ t.blockMoves = s.blockMoves ∧ t.blockQueue = s.blockQueue ++ [r] ∧ r.block = block ∧ r.src = src ∧ r.dst = dst ∧ r.done = done
      ∧ t.readM (blk + 24) 8 = (s.readM (blk + 24) 8 + 1) % 2 ^ 64)
    ∧ ((∀ m ∈ s.blockMoves, m.block ≠ block) →
    (bad = true → (done + 8 ≤ blk ∨ blk + 64 ≤ done) → ∃ t, exec .blockMoveRequest s = .next t ∧ t.blockMoves = s.blockMoves
      ∧ t.readM done 8 = 2 ^ 63 + 2 ∧ t.readM (blk + 24) 8 = (s.readM (blk + 24) 8 + 1) % 2 ^ 64)
    ∧ (bad = false → ∃ t m, exec .blockMoveRequest s = .next t ∧ t.blockMoves = s.blockMoves ++ [m] ∧ m.block = block ∧ m.done = done
        ∧ m.deadline = s.readM (a + 8) 8 ∧ m.src = (if src = 0xFF then none else some src) ∧ m.dst = (if dst = 0xFF then none else some dst)
        ∧ m.st = (if src = 0xFF then .scrubbing else .removing) ∧ block ≤ 143 ∧ src ≠ dst)))
  ∧ (∀ (s : State) (m : BlockMove), s.blockMoves.find? (fun x => x.block == m.block) = some m →
    let ends := fun (t : State) (status : Nat) => t.blockMoves = s.blockMoves.filter (fun x => x.block != m.block)
      ∧ t.readM m.done 8 = 2 ^ 63 + status
    (m.st = .removing →
      ∀ i, (i = .removeAcknowledgment m.block ∧ m.noticed = true ∨ i = .removeDeadline m.block ∧ m.deadline ≤ s.tstamp) →
        ∃ t, exec i s = .next t ∧ t.mem = s.mem ∧ t.parts = s.parts.map (fun p => { p with blocks := p.blocks.filter (· != m.block) })
          ∧ (∃ x, t.blockMoves.find? (fun x => x.block == m.block) = some x ∧ x = { m with st := .scrubbing, noticed := false })
          ∧ ∀ p, m.src = some p → ∀ c ∈ t.cores, ∀ e ∈ c.tlb.access ++ c.tlb.fetch ++ c.tlb.stream ++ c.tlb.tile, e.ctx ∉ ctxsOfPart s p)
    ∧ (m.st = .scrubbing → heldBy s none [lineOf m.done] = [] → (∀ c ∈ s.cores, ∀ l ∈ c.nh, blockOf (64 * l) ≠ some m.block) → ∀ error,
        (blockBusy s m.block = true → exec (.scrubComplete m.block error) s = .next s)
        ∧ (blockBusy s m.block = false → ∃ t, exec (.scrubComplete m.block error) s = .next t
          ∧ (∀ c ∈ t.cores, ∀ l ∈ c.l1, blockOf (64 * l.line) ≠ some m.block)
          ∧ ((error = true ∨ m.dst = none) → ends t (if error then 1 else 0) ∧ t.parts = s.parts
              ∧ ∀ adr, blockOf adr = some m.block → ¬(m.done ≤ adr ∧ adr < m.done + 8) → Memory.read t.mem adr = 0)
          ∧ ∀ q, error = false → m.dst = some q → (∀ p ∈ t.parts, p.part = q → m.block ∈ p.blocks)
              ∧ (∃ x, t.blockMoves.find? (fun x => x.block == m.block) = some x ∧ x.st = .adding ∧ x.done = m.done)
              ∧ (s.part? q = none → ∀ adr, Memory.read t.mem adr = if blockOf adr = some m.block then 0 else Memory.read s.mem adr)))
    ∧ (m.st = .adding → m.noticed = true → heldBy s none [lineOf m.done] = [] →
        ∃ t, exec (.addAcknowledgment m.block) s = .next t ∧ ends t 0
          ∧ ∀ adr, ¬(m.done ≤ adr ∧ adr < m.done + 8) → Memory.read t.mem adr = Memory.read s.mem adr))

/-- Epochs and module power (R262, R375, R376, R398, R399): an epoch captures M as it stands when it begins and is kept once complete; at a
loss of module power the cores stop, an open epoch is abandoned and a last one is taken; a restoration brings back the M of the last
complete epoch, and contexts that ran are lost. Boot stages advance only with a good signature; SPDM requests are answered, and a TDISP
session fills a key slot and names it in the security entry of its context. That the epoch of a power loss holds M as the last step left it
(log 49), what an SPDM answer says (log 52), and the order of slot and entry (log 83) are the model's. -/
def Obligations.ModulePower : Prop :=
  ∀ (s : State) (good : Bool) (link : Fin 2),
    (∃ t, exec .epoch s = .next t ∧ t.mem = s.mem ∧ (s.powered = true → s.epochOpen = none → t.epochOpen = some (s.epochCount + 1, s.mem))
      ∧ ((s.powered = false ∨ s.epochOpen.isSome = true) → t = s))
    ∧ (∃ t, exec .epochComplete s = .next t ∧ t.epochOpen = none ∧ t.mem = s.mem ∧ t.threads = s.threads
      ∧ ∀ e, s.epochOpen = some e → t.keystore = s.keystore ++ [e])
    ∧ (s.powered = true → ∃ t, exec .modulePowerLoss s = .next t ∧ t.powered = false ∧ t.epochOpen = none ∧ t.threads = []
      ∧ t.bundles = [] ∧ t.teams = [] ∧ t.keystore = s.keystore ++ [(s.epochCount + 1, s.mem)]
      ∧ ∃ u, exec .powerRestore t = .next u ∧ u.powered = true ∧ u.mem = s.mem)
    ∧ (s.powered = false → ∃ t, exec .powerRestore s = .next t ∧ t.powered = true ∧ t.mem = ((s.keystore.getLast?).map (·.2)).getD []
      ∧ t.ctxs.length = s.ctxs.length ∧ ∀ (k : Nat) (c d : Context), s.ctxs[k]? = some c → t.ctxs[k]? = some d →
          d.id = c.id ∧ d.st = if c.st = .running ∨ c.st = .saving ∨ c.st = .restoring then .lost else c.st)
    ∧ (∃ t, exec (.bootStage good) s = .next t ∧ t = { s with bootStage := t.bootStage, recovery := t.recovery }
      ∧ t.bootStage = (if s.recovery = false ∧ good = true then s.bootStage + 1 else s.bootStage)
      ∧ t.recovery = (s.recovery || !good))
    ∧ (∃ t v, exec (.spdmRequest (.measure link)) s = .next t ∧ t = { s with spdm := s.spdm ++ [(link.val, v)] })
    ∧ ∀ ctx slot key, ∃ t, exec (.spdmRequest (.bind ctx slot key)) s = .next t ∧ t = { s with keySlots := t.keySlots, ctxs := t.ctxs }
      ∧ t.keySlots.find? (fun k => k.1 == slot) = some (slot, key)
      ∧ (∀ n, n ≠ slot → t.keySlots.find? (fun k => k.1 == n) = s.keySlots.find? (fun k => k.1 == n))
      ∧ ∀ c, s.ctx? ctx = some c → t.ctx? ctx = some { c with keyId := slot }

/-! ### Invariants of every step -/

/-- Every step keeps the canonical form of M, of the images in the key store and of an open epoch's image (R244, R375): from any state,
reached or not. The form itself is the model's (log 2). -/
def Obligations.StepKeepsMemories : Prop := ∀ s t : State, s.MemoriesWf → step s = .next t → t.MemoriesWf

/-- Every step keeps threads at positions of their own (R10): one compute thread to each (core, lane, slot), in the module and in each
save area. -/
def Obligations.StepKeepsIds : Prop := ∀ s t : State, s.IdsDistinct → step s = .next t → t.IdsDistinct

/-- TSTAMP never goes back (R26, R388): no step from any state, a correction by PTP among them, lowers it. -/
def Obligations.TimeNeverGoesBack : Prop := ∀ s t : State, step s = .next t → s.tstamp ≤ t.tstamp

/-- The invariants hold after reset, and what the spec gives a thread at launch holds there (R23, R26, R27, R29): registers 0, p0 alone
true, MODE with RAEN alone, RSERIAL 0 and the trap registers 0. That a thread stands in the reset state at all (log 1) and that memory
lists nothing there (log 2) are the model's. -/
def Obligations.ResetState : Prop :=
  State.reset.MemoriesWf ∧ State.reset.IdsDistinct ∧ State.reset.mem = [] ∧ ∀ x ∈ State.reset.threads,
    (∀ i, x.regs.gval i = 0) ∧ (∀ i, x.regs.fval i = 0) ∧ (∀ i : Fin 8, x.regs.pred i = decide (i.val = 0)) ∧ x.regs.mode = 0x200
    ∧ x.rserial = 0 ∧ x.regs.cause = 0 ∧ x.regs.epc = 0 ∧ x.regs.eaddr = 0
end

