-- ==== Sys2Proof/Laws/State.lean ====
section
/-! SUPPORT. The fields that each update of the state leaves alone, one lemma per field and update. -/

namespace Sys2Proof.Machine.State

/-! ### bump -/

@[simp] theorem bump_mem (s : State) : (s.bump).mem = s.mem := rfl
@[simp] theorem bump_tstamp (s : State) : (s.bump).tstamp = s.tstamp := rfl
@[simp] theorem bump_threads (s : State) : (s.bump).threads = s.threads := rfl
@[simp] theorem bump_bundles (s : State) : (s.bump).bundles = s.bundles := rfl
@[simp] theorem bump_teams (s : State) : (s.bump).teams = s.teams := rfl
@[simp] theorem bump_cores (s : State) : (s.bump).cores = s.cores := rfl
@[simp] theorem bump_ctxs (s : State) : (s.bump).ctxs = s.ctxs := rfl
@[simp] theorem bump_cmds (s : State) : (s.bump).cmds = s.cmds := rfl
@[simp] theorem bump_grids (s : State) : (s.bump).grids = s.grids := rfl
@[simp] theorem bump_hazels (s : State) : (s.bump).hazels = s.hazels := rfl
@[simp] theorem bump_reports (s : State) : (s.bump).reports = s.reports := rfl
@[simp] theorem bump_keystore (s : State) : (s.bump).keystore = s.keystore := rfl
@[simp] theorem bump_epochOpen (s : State) : (s.bump).epochOpen = s.epochOpen := rfl
@[simp] theorem bump_focus (s : State) : (s.bump).focus = s.focus := rfl
@[simp] theorem bump_schedule (s : State) : (s.bump).schedule = s.schedule := rfl
@[simp] theorem bump_nextId (s : State) : (s.bump).nextId = s.nextId := rfl
@[simp] theorem bump_moves (s : State) : (s.bump).moves = s.moves := rfl
@[simp] theorem bump_parts (s : State) : (s.bump).parts = s.parts := rfl
@[simp] theorem bump_sleepers (s : State) : (s.bump).sleepers = s.sleepers := rfl
@[simp] theorem bump_tickets (s : State) : (s.bump).tickets = s.tickets := rfl
@[simp] theorem bump_dir (s : State) : (s.bump).dir = s.dir := rfl
@[simp] theorem bump_saved (s : State) : (s.bump).saved = s.saved := rfl
@[simp] theorem bump_admissions (s : State) : (s.bump).admissions = s.admissions := rfl
@[simp] theorem bump_vkinj (s : State) : (s.bump).vkinj = s.vkinj := rfl
@[simp] theorem bump_rails (s : State) : (s.bump).rails = s.rails := rfl
@[simp] theorem bump_answer (s : State) : (s.bump).answer = s.answer := rfl
@[simp] theorem bump_blockMoves (s : State) : (s.bump).blockMoves = s.blockMoves := rfl
@[simp] theorem bump_blockQueue (s : State) : (s.bump).blockQueue = s.blockQueue := rfl
@[simp] theorem bump_keySlots (s : State) : (s.bump).keySlots = s.keySlots := rfl
@[simp] theorem bump_history (s : State) : (s.bump).history = s.history := rfl
@[simp] theorem bump_samples (s : State) : (s.bump).samples = s.samples := rfl
@[simp] theorem bump_powered (s : State) : (s.bump).powered = s.powered := rfl

/-! ### modThread -/

@[simp] theorem modThread_mem (s : State) (k : ThreadId) (f : Thread → Thread) : (s.modThread k f).mem = s.mem := rfl
@[simp] theorem modThread_tstamp (s : State) (k : ThreadId) (f : Thread → Thread) : (s.modThread k f).tstamp = s.tstamp := rfl
@[simp] theorem modThread_bundles (s : State) (k : ThreadId) (f : Thread → Thread) : (s.modThread k f).bundles = s.bundles := rfl
@[simp] theorem modThread_teams (s : State) (k : ThreadId) (f : Thread → Thread) : (s.modThread k f).teams = s.teams := rfl
@[simp] theorem modThread_cores (s : State) (k : ThreadId) (f : Thread → Thread) : (s.modThread k f).cores = s.cores := rfl
@[simp] theorem modThread_ctxs (s : State) (k : ThreadId) (f : Thread → Thread) : (s.modThread k f).ctxs = s.ctxs := rfl
@[simp] theorem modThread_cmds (s : State) (k : ThreadId) (f : Thread → Thread) : (s.modThread k f).cmds = s.cmds := rfl
@[simp] theorem modThread_grids (s : State) (k : ThreadId) (f : Thread → Thread) : (s.modThread k f).grids = s.grids := rfl
@[simp] theorem modThread_hazels (s : State) (k : ThreadId) (f : Thread → Thread) : (s.modThread k f).hazels = s.hazels := rfl
@[simp] theorem modThread_reports (s : State) (k : ThreadId) (f : Thread → Thread) : (s.modThread k f).reports = s.reports := rfl
@[simp] theorem modThread_keystore (s : State) (k : ThreadId) (f : Thread → Thread) : (s.modThread k f).keystore = s.keystore := rfl
@[simp] theorem modThread_epochOpen (s : State) (k : ThreadId) (f : Thread → Thread) : (s.modThread k f).epochOpen = s.epochOpen := rfl
@[simp] theorem modThread_focus (s : State) (k : ThreadId) (f : Thread → Thread) : (s.modThread k f).focus = s.focus := rfl
@[simp] theorem modThread_schedule (s : State) (k : ThreadId) (f : Thread → Thread) : (s.modThread k f).schedule = s.schedule := rfl
@[simp] theorem modThread_fresh (s : State) (k : ThreadId) (f : Thread → Thread) : (s.modThread k f).fresh = s.fresh := rfl
@[simp] theorem modThread_nextId (s : State) (k : ThreadId) (f : Thread → Thread) : (s.modThread k f).nextId = s.nextId := rfl
@[simp] theorem modThread_moves (s : State) (k : ThreadId) (f : Thread → Thread) : (s.modThread k f).moves = s.moves := rfl
@[simp] theorem modThread_parts (s : State) (k : ThreadId) (f : Thread → Thread) : (s.modThread k f).parts = s.parts := rfl
@[simp] theorem modThread_sleepers (s : State) (k : ThreadId) (f : Thread → Thread) : (s.modThread k f).sleepers = s.sleepers := rfl
@[simp] theorem modThread_tickets (s : State) (k : ThreadId) (f : Thread → Thread) : (s.modThread k f).tickets = s.tickets := rfl
@[simp] theorem modThread_dir (s : State) (k : ThreadId) (f : Thread → Thread) : (s.modThread k f).dir = s.dir := rfl
@[simp] theorem modThread_saved (s : State) (k : ThreadId) (f : Thread → Thread) : (s.modThread k f).saved = s.saved := rfl
@[simp] theorem modThread_admissions (s : State) (k : ThreadId) (f : Thread → Thread) : (s.modThread k f).admissions = s.admissions := rfl
@[simp] theorem modThread_vkinj (s : State) (k : ThreadId) (f : Thread → Thread) : (s.modThread k f).vkinj = s.vkinj := rfl
@[simp] theorem modThread_rails (s : State) (k : ThreadId) (f : Thread → Thread) : (s.modThread k f).rails = s.rails := rfl
@[simp] theorem modThread_answer (s : State) (k : ThreadId) (f : Thread → Thread) : (s.modThread k f).answer = s.answer := rfl
@[simp] theorem modThread_blockMoves (s : State) (k : ThreadId) (f : Thread → Thread) : (s.modThread k f).blockMoves = s.blockMoves := rfl
@[simp] theorem modThread_blockQueue (s : State) (k : ThreadId) (f : Thread → Thread) : (s.modThread k f).blockQueue = s.blockQueue := rfl
@[simp] theorem modThread_keySlots (s : State) (k : ThreadId) (f : Thread → Thread) : (s.modThread k f).keySlots = s.keySlots := rfl
@[simp] theorem modThread_history (s : State) (k : ThreadId) (f : Thread → Thread) : (s.modThread k f).history = s.history := rfl
@[simp] theorem modThread_samples (s : State) (k : ThreadId) (f : Thread → Thread) : (s.modThread k f).samples = s.samples := rfl
@[simp] theorem modThread_powered (s : State) (k : ThreadId) (f : Thread → Thread) : (s.modThread k f).powered = s.powered := rfl

/-! ### modBundle -/

@[simp] theorem modBundle_mem (s : State) (k : Nat) (f : Bundle → Bundle) : (s.modBundle k f).mem = s.mem := rfl
@[simp] theorem modBundle_tstamp (s : State) (k : Nat) (f : Bundle → Bundle) : (s.modBundle k f).tstamp = s.tstamp := rfl
@[simp] theorem modBundle_threads (s : State) (k : Nat) (f : Bundle → Bundle) : (s.modBundle k f).threads = s.threads := rfl
@[simp] theorem modBundle_teams (s : State) (k : Nat) (f : Bundle → Bundle) : (s.modBundle k f).teams = s.teams := rfl
@[simp] theorem modBundle_cores (s : State) (k : Nat) (f : Bundle → Bundle) : (s.modBundle k f).cores = s.cores := rfl
@[simp] theorem modBundle_ctxs (s : State) (k : Nat) (f : Bundle → Bundle) : (s.modBundle k f).ctxs = s.ctxs := rfl
@[simp] theorem modBundle_cmds (s : State) (k : Nat) (f : Bundle → Bundle) : (s.modBundle k f).cmds = s.cmds := rfl
@[simp] theorem modBundle_grids (s : State) (k : Nat) (f : Bundle → Bundle) : (s.modBundle k f).grids = s.grids := rfl
@[simp] theorem modBundle_hazels (s : State) (k : Nat) (f : Bundle → Bundle) : (s.modBundle k f).hazels = s.hazels := rfl
@[simp] theorem modBundle_reports (s : State) (k : Nat) (f : Bundle → Bundle) : (s.modBundle k f).reports = s.reports := rfl
@[simp] theorem modBundle_keystore (s : State) (k : Nat) (f : Bundle → Bundle) : (s.modBundle k f).keystore = s.keystore := rfl
@[simp] theorem modBundle_epochOpen (s : State) (k : Nat) (f : Bundle → Bundle) : (s.modBundle k f).epochOpen = s.epochOpen := rfl
@[simp] theorem modBundle_focus (s : State) (k : Nat) (f : Bundle → Bundle) : (s.modBundle k f).focus = s.focus := rfl
@[simp] theorem modBundle_schedule (s : State) (k : Nat) (f : Bundle → Bundle) : (s.modBundle k f).schedule = s.schedule := rfl
@[simp] theorem modBundle_fresh (s : State) (k : Nat) (f : Bundle → Bundle) : (s.modBundle k f).fresh = s.fresh := rfl
@[simp] theorem modBundle_nextId (s : State) (k : Nat) (f : Bundle → Bundle) : (s.modBundle k f).nextId = s.nextId := rfl
@[simp] theorem modBundle_moves (s : State) (k : Nat) (f : Bundle → Bundle) : (s.modBundle k f).moves = s.moves := rfl
@[simp] theorem modBundle_parts (s : State) (k : Nat) (f : Bundle → Bundle) : (s.modBundle k f).parts = s.parts := rfl
@[simp] theorem modBundle_sleepers (s : State) (k : Nat) (f : Bundle → Bundle) : (s.modBundle k f).sleepers = s.sleepers := rfl
@[simp] theorem modBundle_tickets (s : State) (k : Nat) (f : Bundle → Bundle) : (s.modBundle k f).tickets = s.tickets := rfl
@[simp] theorem modBundle_dir (s : State) (k : Nat) (f : Bundle → Bundle) : (s.modBundle k f).dir = s.dir := rfl
@[simp] theorem modBundle_saved (s : State) (k : Nat) (f : Bundle → Bundle) : (s.modBundle k f).saved = s.saved := rfl
@[simp] theorem modBundle_admissions (s : State) (k : Nat) (f : Bundle → Bundle) : (s.modBundle k f).admissions = s.admissions := rfl
@[simp] theorem modBundle_vkinj (s : State) (k : Nat) (f : Bundle → Bundle) : (s.modBundle k f).vkinj = s.vkinj := rfl
@[simp] theorem modBundle_rails (s : State) (k : Nat) (f : Bundle → Bundle) : (s.modBundle k f).rails = s.rails := rfl
@[simp] theorem modBundle_answer (s : State) (k : Nat) (f : Bundle → Bundle) : (s.modBundle k f).answer = s.answer := rfl
@[simp] theorem modBundle_blockMoves (s : State) (k : Nat) (f : Bundle → Bundle) : (s.modBundle k f).blockMoves = s.blockMoves := rfl
@[simp] theorem modBundle_blockQueue (s : State) (k : Nat) (f : Bundle → Bundle) : (s.modBundle k f).blockQueue = s.blockQueue := rfl
@[simp] theorem modBundle_keySlots (s : State) (k : Nat) (f : Bundle → Bundle) : (s.modBundle k f).keySlots = s.keySlots := rfl
@[simp] theorem modBundle_history (s : State) (k : Nat) (f : Bundle → Bundle) : (s.modBundle k f).history = s.history := rfl
@[simp] theorem modBundle_samples (s : State) (k : Nat) (f : Bundle → Bundle) : (s.modBundle k f).samples = s.samples := rfl
@[simp] theorem modBundle_powered (s : State) (k : Nat) (f : Bundle → Bundle) : (s.modBundle k f).powered = s.powered := rfl

/-! ### modTeam -/

@[simp] theorem modTeam_mem (s : State) (k : Nat) (f : Team → Team) : (s.modTeam k f).mem = s.mem := rfl
@[simp] theorem modTeam_tstamp (s : State) (k : Nat) (f : Team → Team) : (s.modTeam k f).tstamp = s.tstamp := rfl
@[simp] theorem modTeam_threads (s : State) (k : Nat) (f : Team → Team) : (s.modTeam k f).threads = s.threads := rfl
@[simp] theorem modTeam_bundles (s : State) (k : Nat) (f : Team → Team) : (s.modTeam k f).bundles = s.bundles := rfl
@[simp] theorem modTeam_cores (s : State) (k : Nat) (f : Team → Team) : (s.modTeam k f).cores = s.cores := rfl
@[simp] theorem modTeam_ctxs (s : State) (k : Nat) (f : Team → Team) : (s.modTeam k f).ctxs = s.ctxs := rfl
@[simp] theorem modTeam_cmds (s : State) (k : Nat) (f : Team → Team) : (s.modTeam k f).cmds = s.cmds := rfl
@[simp] theorem modTeam_grids (s : State) (k : Nat) (f : Team → Team) : (s.modTeam k f).grids = s.grids := rfl
@[simp] theorem modTeam_hazels (s : State) (k : Nat) (f : Team → Team) : (s.modTeam k f).hazels = s.hazels := rfl
@[simp] theorem modTeam_reports (s : State) (k : Nat) (f : Team → Team) : (s.modTeam k f).reports = s.reports := rfl
@[simp] theorem modTeam_keystore (s : State) (k : Nat) (f : Team → Team) : (s.modTeam k f).keystore = s.keystore := rfl
@[simp] theorem modTeam_epochOpen (s : State) (k : Nat) (f : Team → Team) : (s.modTeam k f).epochOpen = s.epochOpen := rfl
@[simp] theorem modTeam_focus (s : State) (k : Nat) (f : Team → Team) : (s.modTeam k f).focus = s.focus := rfl
@[simp] theorem modTeam_schedule (s : State) (k : Nat) (f : Team → Team) : (s.modTeam k f).schedule = s.schedule := rfl
@[simp] theorem modTeam_fresh (s : State) (k : Nat) (f : Team → Team) : (s.modTeam k f).fresh = s.fresh := rfl
@[simp] theorem modTeam_nextId (s : State) (k : Nat) (f : Team → Team) : (s.modTeam k f).nextId = s.nextId := rfl
@[simp] theorem modTeam_moves (s : State) (k : Nat) (f : Team → Team) : (s.modTeam k f).moves = s.moves := rfl
@[simp] theorem modTeam_parts (s : State) (k : Nat) (f : Team → Team) : (s.modTeam k f).parts = s.parts := rfl
@[simp] theorem modTeam_sleepers (s : State) (k : Nat) (f : Team → Team) : (s.modTeam k f).sleepers = s.sleepers := rfl
@[simp] theorem modTeam_tickets (s : State) (k : Nat) (f : Team → Team) : (s.modTeam k f).tickets = s.tickets := rfl
@[simp] theorem modTeam_dir (s : State) (k : Nat) (f : Team → Team) : (s.modTeam k f).dir = s.dir := rfl
@[simp] theorem modTeam_saved (s : State) (k : Nat) (f : Team → Team) : (s.modTeam k f).saved = s.saved := rfl
@[simp] theorem modTeam_admissions (s : State) (k : Nat) (f : Team → Team) : (s.modTeam k f).admissions = s.admissions := rfl
@[simp] theorem modTeam_vkinj (s : State) (k : Nat) (f : Team → Team) : (s.modTeam k f).vkinj = s.vkinj := rfl
@[simp] theorem modTeam_rails (s : State) (k : Nat) (f : Team → Team) : (s.modTeam k f).rails = s.rails := rfl
@[simp] theorem modTeam_answer (s : State) (k : Nat) (f : Team → Team) : (s.modTeam k f).answer = s.answer := rfl
@[simp] theorem modTeam_blockMoves (s : State) (k : Nat) (f : Team → Team) : (s.modTeam k f).blockMoves = s.blockMoves := rfl
@[simp] theorem modTeam_blockQueue (s : State) (k : Nat) (f : Team → Team) : (s.modTeam k f).blockQueue = s.blockQueue := rfl
@[simp] theorem modTeam_keySlots (s : State) (k : Nat) (f : Team → Team) : (s.modTeam k f).keySlots = s.keySlots := rfl
@[simp] theorem modTeam_history (s : State) (k : Nat) (f : Team → Team) : (s.modTeam k f).history = s.history := rfl
@[simp] theorem modTeam_samples (s : State) (k : Nat) (f : Team → Team) : (s.modTeam k f).samples = s.samples := rfl
@[simp] theorem modTeam_powered (s : State) (k : Nat) (f : Team → Team) : (s.modTeam k f).powered = s.powered := rfl

/-! ### modCtx -/

@[simp] theorem modCtx_mem (s : State) (k : Nat) (f : Context → Context) : (s.modCtx k f).mem = s.mem := rfl
@[simp] theorem modCtx_tstamp (s : State) (k : Nat) (f : Context → Context) : (s.modCtx k f).tstamp = s.tstamp := rfl
@[simp] theorem modCtx_threads (s : State) (k : Nat) (f : Context → Context) : (s.modCtx k f).threads = s.threads := rfl
@[simp] theorem modCtx_bundles (s : State) (k : Nat) (f : Context → Context) : (s.modCtx k f).bundles = s.bundles := rfl
@[simp] theorem modCtx_teams (s : State) (k : Nat) (f : Context → Context) : (s.modCtx k f).teams = s.teams := rfl
@[simp] theorem modCtx_cores (s : State) (k : Nat) (f : Context → Context) : (s.modCtx k f).cores = s.cores := rfl
@[simp] theorem modCtx_cmds (s : State) (k : Nat) (f : Context → Context) : (s.modCtx k f).cmds = s.cmds := rfl
@[simp] theorem modCtx_grids (s : State) (k : Nat) (f : Context → Context) : (s.modCtx k f).grids = s.grids := rfl
@[simp] theorem modCtx_hazels (s : State) (k : Nat) (f : Context → Context) : (s.modCtx k f).hazels = s.hazels := rfl
@[simp] theorem modCtx_reports (s : State) (k : Nat) (f : Context → Context) : (s.modCtx k f).reports = s.reports := rfl
@[simp] theorem modCtx_keystore (s : State) (k : Nat) (f : Context → Context) : (s.modCtx k f).keystore = s.keystore := rfl
@[simp] theorem modCtx_epochOpen (s : State) (k : Nat) (f : Context → Context) : (s.modCtx k f).epochOpen = s.epochOpen := rfl
@[simp] theorem modCtx_focus (s : State) (k : Nat) (f : Context → Context) : (s.modCtx k f).focus = s.focus := rfl
@[simp] theorem modCtx_schedule (s : State) (k : Nat) (f : Context → Context) : (s.modCtx k f).schedule = s.schedule := rfl
@[simp] theorem modCtx_fresh (s : State) (k : Nat) (f : Context → Context) : (s.modCtx k f).fresh = s.fresh := rfl
@[simp] theorem modCtx_nextId (s : State) (k : Nat) (f : Context → Context) : (s.modCtx k f).nextId = s.nextId := rfl
@[simp] theorem modCtx_moves (s : State) (k : Nat) (f : Context → Context) : (s.modCtx k f).moves = s.moves := rfl
@[simp] theorem modCtx_parts (s : State) (k : Nat) (f : Context → Context) : (s.modCtx k f).parts = s.parts := rfl
@[simp] theorem modCtx_sleepers (s : State) (k : Nat) (f : Context → Context) : (s.modCtx k f).sleepers = s.sleepers := rfl
@[simp] theorem modCtx_tickets (s : State) (k : Nat) (f : Context → Context) : (s.modCtx k f).tickets = s.tickets := rfl
@[simp] theorem modCtx_dir (s : State) (k : Nat) (f : Context → Context) : (s.modCtx k f).dir = s.dir := rfl
@[simp] theorem modCtx_saved (s : State) (k : Nat) (f : Context → Context) : (s.modCtx k f).saved = s.saved := rfl
@[simp] theorem modCtx_admissions (s : State) (k : Nat) (f : Context → Context) : (s.modCtx k f).admissions = s.admissions := rfl
@[simp] theorem modCtx_vkinj (s : State) (k : Nat) (f : Context → Context) : (s.modCtx k f).vkinj = s.vkinj := rfl
@[simp] theorem modCtx_rails (s : State) (k : Nat) (f : Context → Context) : (s.modCtx k f).rails = s.rails := rfl
@[simp] theorem modCtx_answer (s : State) (k : Nat) (f : Context → Context) : (s.modCtx k f).answer = s.answer := rfl
@[simp] theorem modCtx_blockMoves (s : State) (k : Nat) (f : Context → Context) : (s.modCtx k f).blockMoves = s.blockMoves := rfl
@[simp] theorem modCtx_blockQueue (s : State) (k : Nat) (f : Context → Context) : (s.modCtx k f).blockQueue = s.blockQueue := rfl
@[simp] theorem modCtx_keySlots (s : State) (k : Nat) (f : Context → Context) : (s.modCtx k f).keySlots = s.keySlots := rfl
@[simp] theorem modCtx_history (s : State) (k : Nat) (f : Context → Context) : (s.modCtx k f).history = s.history := rfl
@[simp] theorem modCtx_samples (s : State) (k : Nat) (f : Context → Context) : (s.modCtx k f).samples = s.samples := rfl
@[simp] theorem modCtx_powered (s : State) (k : Nat) (f : Context → Context) : (s.modCtx k f).powered = s.powered := rfl

/-! ### modCmd -/

@[simp] theorem modCmd_mem (s : State) (k : Nat) (f : TileCmd → TileCmd) : (s.modCmd k f).mem = s.mem := rfl
@[simp] theorem modCmd_tstamp (s : State) (k : Nat) (f : TileCmd → TileCmd) : (s.modCmd k f).tstamp = s.tstamp := rfl
@[simp] theorem modCmd_threads (s : State) (k : Nat) (f : TileCmd → TileCmd) : (s.modCmd k f).threads = s.threads := rfl
@[simp] theorem modCmd_bundles (s : State) (k : Nat) (f : TileCmd → TileCmd) : (s.modCmd k f).bundles = s.bundles := rfl
@[simp] theorem modCmd_teams (s : State) (k : Nat) (f : TileCmd → TileCmd) : (s.modCmd k f).teams = s.teams := rfl
@[simp] theorem modCmd_cores (s : State) (k : Nat) (f : TileCmd → TileCmd) : (s.modCmd k f).cores = s.cores := rfl
@[simp] theorem modCmd_ctxs (s : State) (k : Nat) (f : TileCmd → TileCmd) : (s.modCmd k f).ctxs = s.ctxs := rfl
@[simp] theorem modCmd_grids (s : State) (k : Nat) (f : TileCmd → TileCmd) : (s.modCmd k f).grids = s.grids := rfl
@[simp] theorem modCmd_hazels (s : State) (k : Nat) (f : TileCmd → TileCmd) : (s.modCmd k f).hazels = s.hazels := rfl
@[simp] theorem modCmd_reports (s : State) (k : Nat) (f : TileCmd → TileCmd) : (s.modCmd k f).reports = s.reports := rfl
@[simp] theorem modCmd_keystore (s : State) (k : Nat) (f : TileCmd → TileCmd) : (s.modCmd k f).keystore = s.keystore := rfl
@[simp] theorem modCmd_epochOpen (s : State) (k : Nat) (f : TileCmd → TileCmd) : (s.modCmd k f).epochOpen = s.epochOpen := rfl
@[simp] theorem modCmd_focus (s : State) (k : Nat) (f : TileCmd → TileCmd) : (s.modCmd k f).focus = s.focus := rfl
@[simp] theorem modCmd_schedule (s : State) (k : Nat) (f : TileCmd → TileCmd) : (s.modCmd k f).schedule = s.schedule := rfl
@[simp] theorem modCmd_fresh (s : State) (k : Nat) (f : TileCmd → TileCmd) : (s.modCmd k f).fresh = s.fresh := rfl
@[simp] theorem modCmd_nextId (s : State) (k : Nat) (f : TileCmd → TileCmd) : (s.modCmd k f).nextId = s.nextId := rfl
@[simp] theorem modCmd_moves (s : State) (k : Nat) (f : TileCmd → TileCmd) : (s.modCmd k f).moves = s.moves := rfl
@[simp] theorem modCmd_parts (s : State) (k : Nat) (f : TileCmd → TileCmd) : (s.modCmd k f).parts = s.parts := rfl
@[simp] theorem modCmd_sleepers (s : State) (k : Nat) (f : TileCmd → TileCmd) : (s.modCmd k f).sleepers = s.sleepers := rfl
@[simp] theorem modCmd_tickets (s : State) (k : Nat) (f : TileCmd → TileCmd) : (s.modCmd k f).tickets = s.tickets := rfl
@[simp] theorem modCmd_dir (s : State) (k : Nat) (f : TileCmd → TileCmd) : (s.modCmd k f).dir = s.dir := rfl
@[simp] theorem modCmd_saved (s : State) (k : Nat) (f : TileCmd → TileCmd) : (s.modCmd k f).saved = s.saved := rfl
@[simp] theorem modCmd_admissions (s : State) (k : Nat) (f : TileCmd → TileCmd) : (s.modCmd k f).admissions = s.admissions := rfl
@[simp] theorem modCmd_vkinj (s : State) (k : Nat) (f : TileCmd → TileCmd) : (s.modCmd k f).vkinj = s.vkinj := rfl
@[simp] theorem modCmd_rails (s : State) (k : Nat) (f : TileCmd → TileCmd) : (s.modCmd k f).rails = s.rails := rfl
@[simp] theorem modCmd_answer (s : State) (k : Nat) (f : TileCmd → TileCmd) : (s.modCmd k f).answer = s.answer := rfl
@[simp] theorem modCmd_blockMoves (s : State) (k : Nat) (f : TileCmd → TileCmd) : (s.modCmd k f).blockMoves = s.blockMoves := rfl
@[simp] theorem modCmd_blockQueue (s : State) (k : Nat) (f : TileCmd → TileCmd) : (s.modCmd k f).blockQueue = s.blockQueue := rfl
@[simp] theorem modCmd_keySlots (s : State) (k : Nat) (f : TileCmd → TileCmd) : (s.modCmd k f).keySlots = s.keySlots := rfl
@[simp] theorem modCmd_history (s : State) (k : Nat) (f : TileCmd → TileCmd) : (s.modCmd k f).history = s.history := rfl
@[simp] theorem modCmd_samples (s : State) (k : Nat) (f : TileCmd → TileCmd) : (s.modCmd k f).samples = s.samples := rfl
@[simp] theorem modCmd_powered (s : State) (k : Nat) (f : TileCmd → TileCmd) : (s.modCmd k f).powered = s.powered := rfl

/-! ### modGrid -/

@[simp] theorem modGrid_mem (s : State) (k : Nat) (f : Grid → Grid) : (s.modGrid k f).mem = s.mem := rfl
@[simp] theorem modGrid_tstamp (s : State) (k : Nat) (f : Grid → Grid) : (s.modGrid k f).tstamp = s.tstamp := rfl
@[simp] theorem modGrid_threads (s : State) (k : Nat) (f : Grid → Grid) : (s.modGrid k f).threads = s.threads := rfl
@[simp] theorem modGrid_bundles (s : State) (k : Nat) (f : Grid → Grid) : (s.modGrid k f).bundles = s.bundles := rfl
@[simp] theorem modGrid_teams (s : State) (k : Nat) (f : Grid → Grid) : (s.modGrid k f).teams = s.teams := rfl
@[simp] theorem modGrid_cores (s : State) (k : Nat) (f : Grid → Grid) : (s.modGrid k f).cores = s.cores := rfl
@[simp] theorem modGrid_ctxs (s : State) (k : Nat) (f : Grid → Grid) : (s.modGrid k f).ctxs = s.ctxs := rfl
@[simp] theorem modGrid_cmds (s : State) (k : Nat) (f : Grid → Grid) : (s.modGrid k f).cmds = s.cmds := rfl
@[simp] theorem modGrid_hazels (s : State) (k : Nat) (f : Grid → Grid) : (s.modGrid k f).hazels = s.hazels := rfl
@[simp] theorem modGrid_reports (s : State) (k : Nat) (f : Grid → Grid) : (s.modGrid k f).reports = s.reports := rfl
@[simp] theorem modGrid_keystore (s : State) (k : Nat) (f : Grid → Grid) : (s.modGrid k f).keystore = s.keystore := rfl
@[simp] theorem modGrid_epochOpen (s : State) (k : Nat) (f : Grid → Grid) : (s.modGrid k f).epochOpen = s.epochOpen := rfl
@[simp] theorem modGrid_focus (s : State) (k : Nat) (f : Grid → Grid) : (s.modGrid k f).focus = s.focus := rfl
@[simp] theorem modGrid_schedule (s : State) (k : Nat) (f : Grid → Grid) : (s.modGrid k f).schedule = s.schedule := rfl
@[simp] theorem modGrid_fresh (s : State) (k : Nat) (f : Grid → Grid) : (s.modGrid k f).fresh = s.fresh := rfl
@[simp] theorem modGrid_nextId (s : State) (k : Nat) (f : Grid → Grid) : (s.modGrid k f).nextId = s.nextId := rfl
@[simp] theorem modGrid_moves (s : State) (k : Nat) (f : Grid → Grid) : (s.modGrid k f).moves = s.moves := rfl
@[simp] theorem modGrid_parts (s : State) (k : Nat) (f : Grid → Grid) : (s.modGrid k f).parts = s.parts := rfl
@[simp] theorem modGrid_sleepers (s : State) (k : Nat) (f : Grid → Grid) : (s.modGrid k f).sleepers = s.sleepers := rfl
@[simp] theorem modGrid_tickets (s : State) (k : Nat) (f : Grid → Grid) : (s.modGrid k f).tickets = s.tickets := rfl
@[simp] theorem modGrid_dir (s : State) (k : Nat) (f : Grid → Grid) : (s.modGrid k f).dir = s.dir := rfl
@[simp] theorem modGrid_saved (s : State) (k : Nat) (f : Grid → Grid) : (s.modGrid k f).saved = s.saved := rfl
@[simp] theorem modGrid_admissions (s : State) (k : Nat) (f : Grid → Grid) : (s.modGrid k f).admissions = s.admissions := rfl
@[simp] theorem modGrid_vkinj (s : State) (k : Nat) (f : Grid → Grid) : (s.modGrid k f).vkinj = s.vkinj := rfl
@[simp] theorem modGrid_rails (s : State) (k : Nat) (f : Grid → Grid) : (s.modGrid k f).rails = s.rails := rfl
@[simp] theorem modGrid_answer (s : State) (k : Nat) (f : Grid → Grid) : (s.modGrid k f).answer = s.answer := rfl
@[simp] theorem modGrid_blockMoves (s : State) (k : Nat) (f : Grid → Grid) : (s.modGrid k f).blockMoves = s.blockMoves := rfl
@[simp] theorem modGrid_blockQueue (s : State) (k : Nat) (f : Grid → Grid) : (s.modGrid k f).blockQueue = s.blockQueue := rfl
@[simp] theorem modGrid_keySlots (s : State) (k : Nat) (f : Grid → Grid) : (s.modGrid k f).keySlots = s.keySlots := rfl
@[simp] theorem modGrid_history (s : State) (k : Nat) (f : Grid → Grid) : (s.modGrid k f).history = s.history := rfl
@[simp] theorem modGrid_samples (s : State) (k : Nat) (f : Grid → Grid) : (s.modGrid k f).samples = s.samples := rfl
@[simp] theorem modGrid_powered (s : State) (k : Nat) (f : Grid → Grid) : (s.modGrid k f).powered = s.powered := rfl

/-! ### modHazel -/

@[simp] theorem modHazel_mem (s : State) (k : Nat) (f : Hazel → Hazel) : (s.modHazel k f).mem = s.mem := rfl
@[simp] theorem modHazel_tstamp (s : State) (k : Nat) (f : Hazel → Hazel) : (s.modHazel k f).tstamp = s.tstamp := rfl
@[simp] theorem modHazel_threads (s : State) (k : Nat) (f : Hazel → Hazel) : (s.modHazel k f).threads = s.threads := rfl
@[simp] theorem modHazel_bundles (s : State) (k : Nat) (f : Hazel → Hazel) : (s.modHazel k f).bundles = s.bundles := rfl
@[simp] theorem modHazel_teams (s : State) (k : Nat) (f : Hazel → Hazel) : (s.modHazel k f).teams = s.teams := rfl
@[simp] theorem modHazel_cores (s : State) (k : Nat) (f : Hazel → Hazel) : (s.modHazel k f).cores = s.cores := rfl
@[simp] theorem modHazel_ctxs (s : State) (k : Nat) (f : Hazel → Hazel) : (s.modHazel k f).ctxs = s.ctxs := rfl
@[simp] theorem modHazel_cmds (s : State) (k : Nat) (f : Hazel → Hazel) : (s.modHazel k f).cmds = s.cmds := rfl
@[simp] theorem modHazel_grids (s : State) (k : Nat) (f : Hazel → Hazel) : (s.modHazel k f).grids = s.grids := rfl
@[simp] theorem modHazel_reports (s : State) (k : Nat) (f : Hazel → Hazel) : (s.modHazel k f).reports = s.reports := rfl
@[simp] theorem modHazel_keystore (s : State) (k : Nat) (f : Hazel → Hazel) : (s.modHazel k f).keystore = s.keystore := rfl
@[simp] theorem modHazel_epochOpen (s : State) (k : Nat) (f : Hazel → Hazel) : (s.modHazel k f).epochOpen = s.epochOpen := rfl
@[simp] theorem modHazel_focus (s : State) (k : Nat) (f : Hazel → Hazel) : (s.modHazel k f).focus = s.focus := rfl
@[simp] theorem modHazel_schedule (s : State) (k : Nat) (f : Hazel → Hazel) : (s.modHazel k f).schedule = s.schedule := rfl
@[simp] theorem modHazel_fresh (s : State) (k : Nat) (f : Hazel → Hazel) : (s.modHazel k f).fresh = s.fresh := rfl
@[simp] theorem modHazel_nextId (s : State) (k : Nat) (f : Hazel → Hazel) : (s.modHazel k f).nextId = s.nextId := rfl
@[simp] theorem modHazel_moves (s : State) (k : Nat) (f : Hazel → Hazel) : (s.modHazel k f).moves = s.moves := rfl
@[simp] theorem modHazel_parts (s : State) (k : Nat) (f : Hazel → Hazel) : (s.modHazel k f).parts = s.parts := rfl
@[simp] theorem modHazel_sleepers (s : State) (k : Nat) (f : Hazel → Hazel) : (s.modHazel k f).sleepers = s.sleepers := rfl
@[simp] theorem modHazel_tickets (s : State) (k : Nat) (f : Hazel → Hazel) : (s.modHazel k f).tickets = s.tickets := rfl
@[simp] theorem modHazel_dir (s : State) (k : Nat) (f : Hazel → Hazel) : (s.modHazel k f).dir = s.dir := rfl
@[simp] theorem modHazel_saved (s : State) (k : Nat) (f : Hazel → Hazel) : (s.modHazel k f).saved = s.saved := rfl
@[simp] theorem modHazel_admissions (s : State) (k : Nat) (f : Hazel → Hazel) : (s.modHazel k f).admissions = s.admissions := rfl
@[simp] theorem modHazel_vkinj (s : State) (k : Nat) (f : Hazel → Hazel) : (s.modHazel k f).vkinj = s.vkinj := rfl
@[simp] theorem modHazel_rails (s : State) (k : Nat) (f : Hazel → Hazel) : (s.modHazel k f).rails = s.rails := rfl
@[simp] theorem modHazel_answer (s : State) (k : Nat) (f : Hazel → Hazel) : (s.modHazel k f).answer = s.answer := rfl
@[simp] theorem modHazel_blockMoves (s : State) (k : Nat) (f : Hazel → Hazel) : (s.modHazel k f).blockMoves = s.blockMoves := rfl
@[simp] theorem modHazel_blockQueue (s : State) (k : Nat) (f : Hazel → Hazel) : (s.modHazel k f).blockQueue = s.blockQueue := rfl
@[simp] theorem modHazel_keySlots (s : State) (k : Nat) (f : Hazel → Hazel) : (s.modHazel k f).keySlots = s.keySlots := rfl
@[simp] theorem modHazel_history (s : State) (k : Nat) (f : Hazel → Hazel) : (s.modHazel k f).history = s.history := rfl
@[simp] theorem modHazel_samples (s : State) (k : Nat) (f : Hazel → Hazel) : (s.modHazel k f).samples = s.samples := rfl
@[simp] theorem modHazel_powered (s : State) (k : Nat) (f : Hazel → Hazel) : (s.modHazel k f).powered = s.powered := rfl

/-! ### mapFocus -/

@[simp] theorem mapFocus_mem (s : State) (f : Thread → Thread) : (s.mapFocus f).mem = s.mem := rfl
@[simp] theorem mapFocus_tstamp (s : State) (f : Thread → Thread) : (s.mapFocus f).tstamp = s.tstamp := rfl
@[simp] theorem mapFocus_bundles (s : State) (f : Thread → Thread) : (s.mapFocus f).bundles = s.bundles := rfl
@[simp] theorem mapFocus_teams (s : State) (f : Thread → Thread) : (s.mapFocus f).teams = s.teams := rfl
@[simp] theorem mapFocus_cores (s : State) (f : Thread → Thread) : (s.mapFocus f).cores = s.cores := rfl
@[simp] theorem mapFocus_ctxs (s : State) (f : Thread → Thread) : (s.mapFocus f).ctxs = s.ctxs := rfl
@[simp] theorem mapFocus_cmds (s : State) (f : Thread → Thread) : (s.mapFocus f).cmds = s.cmds := rfl
@[simp] theorem mapFocus_grids (s : State) (f : Thread → Thread) : (s.mapFocus f).grids = s.grids := rfl
@[simp] theorem mapFocus_hazels (s : State) (f : Thread → Thread) : (s.mapFocus f).hazels = s.hazels := rfl
@[simp] theorem mapFocus_reports (s : State) (f : Thread → Thread) : (s.mapFocus f).reports = s.reports := rfl
@[simp] theorem mapFocus_keystore (s : State) (f : Thread → Thread) : (s.mapFocus f).keystore = s.keystore := rfl
@[simp] theorem mapFocus_epochOpen (s : State) (f : Thread → Thread) : (s.mapFocus f).epochOpen = s.epochOpen := rfl
@[simp] theorem mapFocus_focus (s : State) (f : Thread → Thread) : (s.mapFocus f).focus = s.focus := rfl
@[simp] theorem mapFocus_schedule (s : State) (f : Thread → Thread) : (s.mapFocus f).schedule = s.schedule := rfl
@[simp] theorem mapFocus_fresh (s : State) (f : Thread → Thread) : (s.mapFocus f).fresh = s.fresh := rfl
@[simp] theorem mapFocus_nextId (s : State) (f : Thread → Thread) : (s.mapFocus f).nextId = s.nextId := rfl
@[simp] theorem mapFocus_moves (s : State) (f : Thread → Thread) : (s.mapFocus f).moves = s.moves := rfl
@[simp] theorem mapFocus_parts (s : State) (f : Thread → Thread) : (s.mapFocus f).parts = s.parts := rfl
@[simp] theorem mapFocus_sleepers (s : State) (f : Thread → Thread) : (s.mapFocus f).sleepers = s.sleepers := rfl
@[simp] theorem mapFocus_tickets (s : State) (f : Thread → Thread) : (s.mapFocus f).tickets = s.tickets := rfl
@[simp] theorem mapFocus_dir (s : State) (f : Thread → Thread) : (s.mapFocus f).dir = s.dir := rfl
@[simp] theorem mapFocus_saved (s : State) (f : Thread → Thread) : (s.mapFocus f).saved = s.saved := rfl
@[simp] theorem mapFocus_admissions (s : State) (f : Thread → Thread) : (s.mapFocus f).admissions = s.admissions := rfl
@[simp] theorem mapFocus_vkinj (s : State) (f : Thread → Thread) : (s.mapFocus f).vkinj = s.vkinj := rfl
@[simp] theorem mapFocus_rails (s : State) (f : Thread → Thread) : (s.mapFocus f).rails = s.rails := rfl
@[simp] theorem mapFocus_answer (s : State) (f : Thread → Thread) : (s.mapFocus f).answer = s.answer := rfl
@[simp] theorem mapFocus_blockMoves (s : State) (f : Thread → Thread) : (s.mapFocus f).blockMoves = s.blockMoves := rfl
@[simp] theorem mapFocus_blockQueue (s : State) (f : Thread → Thread) : (s.mapFocus f).blockQueue = s.blockQueue := rfl
@[simp] theorem mapFocus_keySlots (s : State) (f : Thread → Thread) : (s.mapFocus f).keySlots = s.keySlots := rfl
@[simp] theorem mapFocus_history (s : State) (f : Thread → Thread) : (s.mapFocus f).history = s.history := rfl
@[simp] theorem mapFocus_samples (s : State) (f : Thread → Thread) : (s.mapFocus f).samples = s.samples := rfl
@[simp] theorem mapFocus_powered (s : State) (f : Thread → Thread) : (s.mapFocus f).powered = s.powered := rfl

/-! ### advance -/

@[simp] theorem advance_mem (s : State) (n : Nat) : (s.advance n).mem = s.mem := rfl
@[simp] theorem advance_tstamp (s : State) (n : Nat) : (s.advance n).tstamp = s.tstamp := rfl
@[simp] theorem advance_bundles (s : State) (n : Nat) : (s.advance n).bundles = s.bundles := rfl
@[simp] theorem advance_teams (s : State) (n : Nat) : (s.advance n).teams = s.teams := rfl
@[simp] theorem advance_cores (s : State) (n : Nat) : (s.advance n).cores = s.cores := rfl
@[simp] theorem advance_ctxs (s : State) (n : Nat) : (s.advance n).ctxs = s.ctxs := rfl
@[simp] theorem advance_cmds (s : State) (n : Nat) : (s.advance n).cmds = s.cmds := rfl
@[simp] theorem advance_grids (s : State) (n : Nat) : (s.advance n).grids = s.grids := rfl
@[simp] theorem advance_hazels (s : State) (n : Nat) : (s.advance n).hazels = s.hazels := rfl
@[simp] theorem advance_reports (s : State) (n : Nat) : (s.advance n).reports = s.reports := rfl
@[simp] theorem advance_keystore (s : State) (n : Nat) : (s.advance n).keystore = s.keystore := rfl
@[simp] theorem advance_epochOpen (s : State) (n : Nat) : (s.advance n).epochOpen = s.epochOpen := rfl
@[simp] theorem advance_focus (s : State) (n : Nat) : (s.advance n).focus = s.focus := rfl
@[simp] theorem advance_schedule (s : State) (n : Nat) : (s.advance n).schedule = s.schedule := rfl
@[simp] theorem advance_fresh (s : State) (n : Nat) : (s.advance n).fresh = s.fresh := rfl
@[simp] theorem advance_nextId (s : State) (n : Nat) : (s.advance n).nextId = s.nextId := rfl
@[simp] theorem advance_moves (s : State) (n : Nat) : (s.advance n).moves = s.moves := rfl
@[simp] theorem advance_parts (s : State) (n : Nat) : (s.advance n).parts = s.parts := rfl
@[simp] theorem advance_sleepers (s : State) (n : Nat) : (s.advance n).sleepers = s.sleepers := rfl
@[simp] theorem advance_tickets (s : State) (n : Nat) : (s.advance n).tickets = s.tickets := rfl
@[simp] theorem advance_dir (s : State) (n : Nat) : (s.advance n).dir = s.dir := rfl
@[simp] theorem advance_saved (s : State) (n : Nat) : (s.advance n).saved = s.saved := rfl
@[simp] theorem advance_admissions (s : State) (n : Nat) : (s.advance n).admissions = s.admissions := rfl
@[simp] theorem advance_vkinj (s : State) (n : Nat) : (s.advance n).vkinj = s.vkinj := rfl
@[simp] theorem advance_rails (s : State) (n : Nat) : (s.advance n).rails = s.rails := rfl
@[simp] theorem advance_answer (s : State) (n : Nat) : (s.advance n).answer = s.answer := rfl
@[simp] theorem advance_blockMoves (s : State) (n : Nat) : (s.advance n).blockMoves = s.blockMoves := rfl
@[simp] theorem advance_blockQueue (s : State) (n : Nat) : (s.advance n).blockQueue = s.blockQueue := rfl
@[simp] theorem advance_keySlots (s : State) (n : Nat) : (s.advance n).keySlots = s.keySlots := rfl
@[simp] theorem advance_history (s : State) (n : Nat) : (s.advance n).history = s.history := rfl
@[simp] theorem advance_samples (s : State) (n : Nat) : (s.advance n).samples = s.samples := rfl
@[simp] theorem advance_powered (s : State) (n : Nat) : (s.advance n).powered = s.powered := rfl

/-! ### lanewise -/

@[simp] theorem lanewise_mem (s : State) (n : Nat) (h : Hdr) (f : Thread → Thread) : (s.lanewise n h f).mem = s.mem := rfl
@[simp] theorem lanewise_tstamp (s : State) (n : Nat) (h : Hdr) (f : Thread → Thread) : (s.lanewise n h f).tstamp = s.tstamp := rfl
@[simp] theorem lanewise_bundles (s : State) (n : Nat) (h : Hdr) (f : Thread → Thread) : (s.lanewise n h f).bundles = s.bundles := rfl
@[simp] theorem lanewise_teams (s : State) (n : Nat) (h : Hdr) (f : Thread → Thread) : (s.lanewise n h f).teams = s.teams := rfl
@[simp] theorem lanewise_cores (s : State) (n : Nat) (h : Hdr) (f : Thread → Thread) : (s.lanewise n h f).cores = s.cores := rfl
@[simp] theorem lanewise_ctxs (s : State) (n : Nat) (h : Hdr) (f : Thread → Thread) : (s.lanewise n h f).ctxs = s.ctxs := rfl
@[simp] theorem lanewise_cmds (s : State) (n : Nat) (h : Hdr) (f : Thread → Thread) : (s.lanewise n h f).cmds = s.cmds := rfl
@[simp] theorem lanewise_grids (s : State) (n : Nat) (h : Hdr) (f : Thread → Thread) : (s.lanewise n h f).grids = s.grids := rfl
@[simp] theorem lanewise_hazels (s : State) (n : Nat) (h : Hdr) (f : Thread → Thread) : (s.lanewise n h f).hazels = s.hazels := rfl
@[simp] theorem lanewise_reports (s : State) (n : Nat) (h : Hdr) (f : Thread → Thread) : (s.lanewise n h f).reports = s.reports := rfl
@[simp] theorem lanewise_keystore (s : State) (n : Nat) (h : Hdr) (f : Thread → Thread) : (s.lanewise n h f).keystore = s.keystore := rfl
@[simp] theorem lanewise_epochOpen (s : State) (n : Nat) (h : Hdr) (f : Thread → Thread) : (s.lanewise n h f).epochOpen = s.epochOpen := rfl
@[simp] theorem lanewise_focus (s : State) (n : Nat) (h : Hdr) (f : Thread → Thread) : (s.lanewise n h f).focus = s.focus := rfl
@[simp] theorem lanewise_schedule (s : State) (n : Nat) (h : Hdr) (f : Thread → Thread) : (s.lanewise n h f).schedule = s.schedule := rfl
@[simp] theorem lanewise_fresh (s : State) (n : Nat) (h : Hdr) (f : Thread → Thread) : (s.lanewise n h f).fresh = s.fresh := rfl
@[simp] theorem lanewise_nextId (s : State) (n : Nat) (h : Hdr) (f : Thread → Thread) : (s.lanewise n h f).nextId = s.nextId := rfl
@[simp] theorem lanewise_moves (s : State) (n : Nat) (h : Hdr) (f : Thread → Thread) : (s.lanewise n h f).moves = s.moves := rfl
@[simp] theorem lanewise_parts (s : State) (n : Nat) (h : Hdr) (f : Thread → Thread) : (s.lanewise n h f).parts = s.parts := rfl
@[simp] theorem lanewise_sleepers (s : State) (n : Nat) (h : Hdr) (f : Thread → Thread) : (s.lanewise n h f).sleepers = s.sleepers := rfl
@[simp] theorem lanewise_tickets (s : State) (n : Nat) (h : Hdr) (f : Thread → Thread) : (s.lanewise n h f).tickets = s.tickets := rfl
@[simp] theorem lanewise_dir (s : State) (n : Nat) (h : Hdr) (f : Thread → Thread) : (s.lanewise n h f).dir = s.dir := rfl
@[simp] theorem lanewise_saved (s : State) (n : Nat) (h : Hdr) (f : Thread → Thread) : (s.lanewise n h f).saved = s.saved := rfl
@[simp] theorem lanewise_admissions (s : State) (n : Nat) (h : Hdr) (f : Thread → Thread) : (s.lanewise n h f).admissions = s.admissions := rfl
@[simp] theorem lanewise_vkinj (s : State) (n : Nat) (h : Hdr) (f : Thread → Thread) : (s.lanewise n h f).vkinj = s.vkinj := rfl
@[simp] theorem lanewise_rails (s : State) (n : Nat) (h : Hdr) (f : Thread → Thread) : (s.lanewise n h f).rails = s.rails := rfl
@[simp] theorem lanewise_answer (s : State) (n : Nat) (h : Hdr) (f : Thread → Thread) : (s.lanewise n h f).answer = s.answer := rfl
@[simp] theorem lanewise_blockMoves (s : State) (n : Nat) (h : Hdr) (f : Thread → Thread) : (s.lanewise n h f).blockMoves = s.blockMoves := rfl
@[simp] theorem lanewise_blockQueue (s : State) (n : Nat) (h : Hdr) (f : Thread → Thread) : (s.lanewise n h f).blockQueue = s.blockQueue := rfl
@[simp] theorem lanewise_keySlots (s : State) (n : Nat) (h : Hdr) (f : Thread → Thread) : (s.lanewise n h f).keySlots = s.keySlots := rfl
@[simp] theorem lanewise_history (s : State) (n : Nat) (h : Hdr) (f : Thread → Thread) : (s.lanewise n h f).history = s.history := rfl
@[simp] theorem lanewise_samples (s : State) (n : Nat) (h : Hdr) (f : Thread → Thread) : (s.lanewise n h f).samples = s.samples := rfl
@[simp] theorem lanewise_powered (s : State) (n : Nat) (h : Hdr) (f : Thread → Thread) : (s.lanewise n h f).powered = s.powered := rfl

/-! ### writeM -/

@[simp] theorem writeM_tstamp (s : State) (a n v : Nat) : (s.writeM a n v).tstamp = s.tstamp := rfl
@[simp] theorem writeM_threads (s : State) (a n v : Nat) : (s.writeM a n v).threads = s.threads := rfl
@[simp] theorem writeM_bundles (s : State) (a n v : Nat) : (s.writeM a n v).bundles = s.bundles := rfl
@[simp] theorem writeM_teams (s : State) (a n v : Nat) : (s.writeM a n v).teams = s.teams := rfl
@[simp] theorem writeM_cores (s : State) (a n v : Nat) : (s.writeM a n v).cores = s.cores := rfl
@[simp] theorem writeM_ctxs (s : State) (a n v : Nat) : (s.writeM a n v).ctxs = s.ctxs := rfl
@[simp] theorem writeM_cmds (s : State) (a n v : Nat) : (s.writeM a n v).cmds = s.cmds := rfl
@[simp] theorem writeM_grids (s : State) (a n v : Nat) : (s.writeM a n v).grids = s.grids := rfl
@[simp] theorem writeM_hazels (s : State) (a n v : Nat) : (s.writeM a n v).hazels = s.hazels := rfl
@[simp] theorem writeM_reports (s : State) (a n v : Nat) : (s.writeM a n v).reports = s.reports := rfl
@[simp] theorem writeM_keystore (s : State) (a n v : Nat) : (s.writeM a n v).keystore = s.keystore := rfl
@[simp] theorem writeM_epochOpen (s : State) (a n v : Nat) : (s.writeM a n v).epochOpen = s.epochOpen := rfl
@[simp] theorem writeM_focus (s : State) (a n v : Nat) : (s.writeM a n v).focus = s.focus := rfl
@[simp] theorem writeM_schedule (s : State) (a n v : Nat) : (s.writeM a n v).schedule = s.schedule := rfl
@[simp] theorem writeM_fresh (s : State) (a n v : Nat) : (s.writeM a n v).fresh = s.fresh := rfl
@[simp] theorem writeM_nextId (s : State) (a n v : Nat) : (s.writeM a n v).nextId = s.nextId := rfl
@[simp] theorem writeM_moves (s : State) (a n v : Nat) : (s.writeM a n v).moves = s.moves := rfl
@[simp] theorem writeM_parts (s : State) (a n v : Nat) : (s.writeM a n v).parts = s.parts := rfl
@[simp] theorem writeM_sleepers (s : State) (a n v : Nat) : (s.writeM a n v).sleepers = s.sleepers := rfl
@[simp] theorem writeM_tickets (s : State) (a n v : Nat) : (s.writeM a n v).tickets = s.tickets := rfl
@[simp] theorem writeM_dir (s : State) (a n v : Nat) : (s.writeM a n v).dir = s.dir := rfl
@[simp] theorem writeM_saved (s : State) (a n v : Nat) : (s.writeM a n v).saved = s.saved := rfl
@[simp] theorem writeM_admissions (s : State) (a n v : Nat) : (s.writeM a n v).admissions = s.admissions := rfl
@[simp] theorem writeM_vkinj (s : State) (a n v : Nat) : (s.writeM a n v).vkinj = s.vkinj := rfl
@[simp] theorem writeM_rails (s : State) (a n v : Nat) : (s.writeM a n v).rails = s.rails := rfl
@[simp] theorem writeM_answer (s : State) (a n v : Nat) : (s.writeM a n v).answer = s.answer := rfl
@[simp] theorem writeM_blockMoves (s : State) (a n v : Nat) : (s.writeM a n v).blockMoves = s.blockMoves := rfl
@[simp] theorem writeM_blockQueue (s : State) (a n v : Nat) : (s.writeM a n v).blockQueue = s.blockQueue := rfl
@[simp] theorem writeM_keySlots (s : State) (a n v : Nat) : (s.writeM a n v).keySlots = s.keySlots := rfl
@[simp] theorem writeM_history (s : State) (a n v : Nat) : (s.writeM a n v).history = s.history := rfl
@[simp] theorem writeM_samples (s : State) (a n v : Nat) : (s.writeM a n v).samples = s.samples := rfl
@[simp] theorem writeM_powered (s : State) (a n v : Nat) : (s.writeM a n v).powered = s.powered := rfl

/-! ### setCore -/

@[simp] theorem setCore_mem (s : State) (c : Core) : (s.setCore c).mem = s.mem := by
  unfold setCore; split <;> rfl
@[simp] theorem setCore_tstamp (s : State) (c : Core) : (s.setCore c).tstamp = s.tstamp := by
  unfold setCore; split <;> rfl
@[simp] theorem setCore_threads (s : State) (c : Core) : (s.setCore c).threads = s.threads := by
  unfold setCore; split <;> rfl
@[simp] theorem setCore_bundles (s : State) (c : Core) : (s.setCore c).bundles = s.bundles := by
  unfold setCore; split <;> rfl
@[simp] theorem setCore_teams (s : State) (c : Core) : (s.setCore c).teams = s.teams := by
  unfold setCore; split <;> rfl
@[simp] theorem setCore_ctxs (s : State) (c : Core) : (s.setCore c).ctxs = s.ctxs := by
  unfold setCore; split <;> rfl
@[simp] theorem setCore_cmds (s : State) (c : Core) : (s.setCore c).cmds = s.cmds := by
  unfold setCore; split <;> rfl
@[simp] theorem setCore_grids (s : State) (c : Core) : (s.setCore c).grids = s.grids := by
  unfold setCore; split <;> rfl
@[simp] theorem setCore_hazels (s : State) (c : Core) : (s.setCore c).hazels = s.hazels := by
  unfold setCore; split <;> rfl
@[simp] theorem setCore_reports (s : State) (c : Core) : (s.setCore c).reports = s.reports := by
  unfold setCore; split <;> rfl
@[simp] theorem setCore_keystore (s : State) (c : Core) : (s.setCore c).keystore = s.keystore := by
  unfold setCore; split <;> rfl
@[simp] theorem setCore_epochOpen (s : State) (c : Core) : (s.setCore c).epochOpen = s.epochOpen := by
  unfold setCore; split <;> rfl
@[simp] theorem setCore_focus (s : State) (c : Core) : (s.setCore c).focus = s.focus := by
  unfold setCore; split <;> rfl
@[simp] theorem setCore_schedule (s : State) (c : Core) : (s.setCore c).schedule = s.schedule := by
  unfold setCore; split <;> rfl
@[simp] theorem setCore_fresh (s : State) (c : Core) : (s.setCore c).fresh = s.fresh := by
  unfold setCore; split <;> rfl
@[simp] theorem setCore_nextId (s : State) (c : Core) : (s.setCore c).nextId = s.nextId := by
  unfold setCore; split <;> rfl
@[simp] theorem setCore_moves (s : State) (c : Core) : (s.setCore c).moves = s.moves := by
  unfold setCore; split <;> rfl
@[simp] theorem setCore_parts (s : State) (c : Core) : (s.setCore c).parts = s.parts := by
  unfold setCore; split <;> rfl
@[simp] theorem setCore_sleepers (s : State) (c : Core) : (s.setCore c).sleepers = s.sleepers := by
  unfold setCore; split <;> rfl
@[simp] theorem setCore_tickets (s : State) (c : Core) : (s.setCore c).tickets = s.tickets := by
  unfold setCore; split <;> rfl
@[simp] theorem setCore_dir (s : State) (c : Core) : (s.setCore c).dir = s.dir := by
  unfold setCore; split <;> rfl
@[simp] theorem setCore_saved (s : State) (c : Core) : (s.setCore c).saved = s.saved := by
  unfold setCore; split <;> rfl
@[simp] theorem setCore_admissions (s : State) (c : Core) : (s.setCore c).admissions = s.admissions := by
  unfold setCore; split <;> rfl
@[simp] theorem setCore_vkinj (s : State) (c : Core) : (s.setCore c).vkinj = s.vkinj := by
  unfold setCore; split <;> rfl
@[simp] theorem setCore_rails (s : State) (c : Core) : (s.setCore c).rails = s.rails := by
  unfold setCore; split <;> rfl
@[simp] theorem setCore_answer (s : State) (c : Core) : (s.setCore c).answer = s.answer := by
  unfold setCore; split <;> rfl
@[simp] theorem setCore_blockMoves (s : State) (c : Core) : (s.setCore c).blockMoves = s.blockMoves := by
  unfold setCore; split <;> rfl
@[simp] theorem setCore_blockQueue (s : State) (c : Core) : (s.setCore c).blockQueue = s.blockQueue := by
  unfold setCore; split <;> rfl
@[simp] theorem setCore_keySlots (s : State) (c : Core) : (s.setCore c).keySlots = s.keySlots := by
  unfold setCore; split <;> rfl
@[simp] theorem setCore_history (s : State) (c : Core) : (s.setCore c).history = s.history := by
  unfold setCore; split <;> rfl
@[simp] theorem setCore_samples (s : State) (c : Core) : (s.setCore c).samples = s.samples := by
  unfold setCore; split <;> rfl
@[simp] theorem setCore_powered (s : State) (c : Core) : (s.setCore c).powered = s.powered := by
  unfold setCore; split <;> rfl

/-! ### modCore -/

@[simp] theorem modCore_mem (s : State) (n : Nat) (f : Core → Core) : (s.modCore n f).mem = s.mem := setCore_mem s _
@[simp] theorem modCore_tstamp (s : State) (n : Nat) (f : Core → Core) : (s.modCore n f).tstamp = s.tstamp := setCore_tstamp s _
@[simp] theorem modCore_threads (s : State) (n : Nat) (f : Core → Core) : (s.modCore n f).threads = s.threads := setCore_threads s _
@[simp] theorem modCore_bundles (s : State) (n : Nat) (f : Core → Core) : (s.modCore n f).bundles = s.bundles := setCore_bundles s _
@[simp] theorem modCore_teams (s : State) (n : Nat) (f : Core → Core) : (s.modCore n f).teams = s.teams := setCore_teams s _
@[simp] theorem modCore_ctxs (s : State) (n : Nat) (f : Core → Core) : (s.modCore n f).ctxs = s.ctxs := setCore_ctxs s _
@[simp] theorem modCore_cmds (s : State) (n : Nat) (f : Core → Core) : (s.modCore n f).cmds = s.cmds := setCore_cmds s _
@[simp] theorem modCore_grids (s : State) (n : Nat) (f : Core → Core) : (s.modCore n f).grids = s.grids := setCore_grids s _
@[simp] theorem modCore_hazels (s : State) (n : Nat) (f : Core → Core) : (s.modCore n f).hazels = s.hazels := setCore_hazels s _
@[simp] theorem modCore_reports (s : State) (n : Nat) (f : Core → Core) : (s.modCore n f).reports = s.reports := setCore_reports s _
@[simp] theorem modCore_keystore (s : State) (n : Nat) (f : Core → Core) : (s.modCore n f).keystore = s.keystore := setCore_keystore s _
@[simp] theorem modCore_epochOpen (s : State) (n : Nat) (f : Core → Core) : (s.modCore n f).epochOpen = s.epochOpen := setCore_epochOpen s _
@[simp] theorem modCore_focus (s : State) (n : Nat) (f : Core → Core) : (s.modCore n f).focus = s.focus := setCore_focus s _
@[simp] theorem modCore_schedule (s : State) (n : Nat) (f : Core → Core) : (s.modCore n f).schedule = s.schedule := setCore_schedule s _
@[simp] theorem modCore_fresh (s : State) (n : Nat) (f : Core → Core) : (s.modCore n f).fresh = s.fresh := setCore_fresh s _
@[simp] theorem modCore_nextId (s : State) (n : Nat) (f : Core → Core) : (s.modCore n f).nextId = s.nextId := setCore_nextId s _
@[simp] theorem modCore_moves (s : State) (n : Nat) (f : Core → Core) : (s.modCore n f).moves = s.moves := setCore_moves s _
@[simp] theorem modCore_parts (s : State) (n : Nat) (f : Core → Core) : (s.modCore n f).parts = s.parts := setCore_parts s _
@[simp] theorem modCore_sleepers (s : State) (n : Nat) (f : Core → Core) : (s.modCore n f).sleepers = s.sleepers := setCore_sleepers s _
@[simp] theorem modCore_tickets (s : State) (n : Nat) (f : Core → Core) : (s.modCore n f).tickets = s.tickets := setCore_tickets s _
@[simp] theorem modCore_dir (s : State) (n : Nat) (f : Core → Core) : (s.modCore n f).dir = s.dir := setCore_dir s _
@[simp] theorem modCore_saved (s : State) (n : Nat) (f : Core → Core) : (s.modCore n f).saved = s.saved := setCore_saved s _
@[simp] theorem modCore_admissions (s : State) (n : Nat) (f : Core → Core) : (s.modCore n f).admissions = s.admissions := setCore_admissions s _
@[simp] theorem modCore_vkinj (s : State) (n : Nat) (f : Core → Core) : (s.modCore n f).vkinj = s.vkinj := setCore_vkinj s _
@[simp] theorem modCore_rails (s : State) (n : Nat) (f : Core → Core) : (s.modCore n f).rails = s.rails := setCore_rails s _
@[simp] theorem modCore_answer (s : State) (n : Nat) (f : Core → Core) : (s.modCore n f).answer = s.answer := setCore_answer s _
@[simp] theorem modCore_blockMoves (s : State) (n : Nat) (f : Core → Core) : (s.modCore n f).blockMoves = s.blockMoves := setCore_blockMoves s _
@[simp] theorem modCore_blockQueue (s : State) (n : Nat) (f : Core → Core) : (s.modCore n f).blockQueue = s.blockQueue := setCore_blockQueue s _
@[simp] theorem modCore_keySlots (s : State) (n : Nat) (f : Core → Core) : (s.modCore n f).keySlots = s.keySlots := setCore_keySlots s _
@[simp] theorem modCore_history (s : State) (n : Nat) (f : Core → Core) : (s.modCore n f).history = s.history := setCore_history s _
@[simp] theorem modCore_samples (s : State) (n : Nat) (f : Core → Core) : (s.modCore n f).samples = s.samples := setCore_samples s _
@[simp] theorem modCore_powered (s : State) (n : Nat) (f : Core → Core) : (s.modCore n f).powered = s.powered := setCore_powered s _

end Sys2Proof.Machine.State
end

