-- ==== Sys2Proof/Laws/Lanes.lean ====
section
/-! SUPPORT. What the operations on the threads of a bundle do: register writes, and instructions that act on each thread alone. -/

namespace Sys2Proof.Machine

/-! ### Registers -/

theorem RegName.covers_self (r : RegName) : r.covers r = true := by cases r <;> simp [RegName.covers]

/-- A write of one name reaches another exactly when they are equal, both name MODE, or the write is of all predicates. -/
theorem RegName.covers_iff (a b : RegName) :
    a.covers b = true ↔ a = b ∨ (a = .mode ∧ b = .fflags) ∨ (a = .fflags ∧ b = .mode) ∨ (a = .preds ∧ ∃ i, b = .p i) := by
  cases a <;> cases b <;> simp [RegName.covers]

/-- Only a write of all predicates gives another name a value of its own. -/
theorem RegName.after_eq (n r : RegName) (h : n ≠ .preds) (old v : Word) : n.after r old v = n.held old v := by
  cases n <;> first | rfl | exact absurd rfl h

/-- The predicates after a write of them all. -/
theorem Regs.set_preds_pred (r : Regs) (v : Word) (i : Fin 8) :
    (r.set .preds v).pred i = decide (i.val = 0 ∨ v.getLsbD i.val = true) := by
  by_cases h : i.val = 0 <;> simp [Regs.set, Regs.pred, h]

/-- The predicate byte after one predicate is set. -/
theorem pred_bit_update (p : Byte) (i j : Fin 8) (v : Bool) :
    ((p &&& ~~~((1 : Byte) <<< i.val)) ||| ((if v then 1 else 0) <<< i.val)).getLsbD j.val
      = if i = j then v else p.getLsbD j.val := by
  have one : ∀ i j : Fin 8, ((1 : Byte) <<< i.val).getLsbD j.val = decide (i = j) := by decide
  have some : ∀ (i j : Fin 8) (v : Bool), (((if v then 1 else 0) <<< i.val : Nat) : Byte).getLsbD j.val = (v && decide (i = j)) := by
    decide
  rw [BitVec.getLsbD_or, BitVec.getLsbD_and, BitVec.getLsbD_not, one, some, decide_eq_true j.isLt]
  by_cases e : i = j <;> simp [e]

theorem Regs.setPred_pred (r : Regs) (i j : Fin 8) (v : Bool) :
    (r.setPred i v).pred j = if i.val ≠ 0 ∧ i = j then v else r.pred j := by
  by_cases hi : i.val = 0
  · simp [Regs.setPred, hi]
  · by_cases hj : j.val = 0
    · have : i ≠ j := fun h => hi (h ▸ hj)
      simp [Regs.pred, hj, this]
    · have := pred_bit_update r.p i j v
      simp only [Regs.setPred, hi, if_false, Regs.pred, this]
      by_cases e : i = j
      · subst e; simp [hi]
      · simp [e]

/-- What each register reads as after one is written. -/
theorem Regs.get_set (r : Regs) (n m : RegName) (v : Word) (hm : m ≠ .preds) :
    (r.set n v).get m = if n.covers m then n.after m (r.get n) v else r.get m := by
  cases n with
  | g i =>
    by_cases hi : i.val = 0
    · cases m <;> simp [Regs.set, hi, RegName.covers, RegName.after, RegName.held]
      rename_i j; intro e; subst e; rfl
    · cases m with
      | g j =>
        by_cases e : i = j
        · subst e; simp [Regs.set, Regs.get, Regs.gval, hi, RegName.covers, RegName.after, RegName.held]
        · have e' : i.val ≠ j.val := fun h => e (Fin.ext h)
          simp [Regs.set, Regs.get, Regs.gval, hi, RegName.covers, e, Vector.getElem_set_ne _ _ e']
      | _ => simp [Regs.set, Regs.get, hi, RegName.covers, Regs.fval, Regs.pred]
  | f i =>
    cases m with
    | f j =>
      by_cases e : i = j
      · subst e; simp [Regs.set, Regs.get, Regs.fval, RegName.covers, RegName.after, RegName.held]
      · have e' : i.val ≠ j.val := fun h => e (Fin.ext h)
        simp [Regs.set, Regs.get, Regs.fval, RegName.covers, e, Vector.getElem_set_ne _ _ e']
    | _ => simp [Regs.set, Regs.get, RegName.covers, Regs.gval, Regs.pred]
  | p i =>
    cases m with
    | preds => exact absurd rfl hm
    | p j =>
      simp only [Regs.set, Regs.get, Regs.setPred_pred, RegName.covers, RegName.after, RegName.held, beq_iff_eq, RegName.p.injEq]
      by_cases hi : i.val = 0
      · by_cases e : i = j
        · subst e; simp [hi]
        · simp [hi, e]
      · by_cases e : i = j
        · subst e
          by_cases hv : v = 0 <;> simp [hi, hv, Regs.get.Word.ofBool']
        · simp [hi, e]
    | _ => by_cases hi : i.val = 0 <;> simp [Regs.set, Regs.get, Regs.setPred, RegName.covers, Regs.gval, Regs.fval, hi]
  | preds =>
    cases m with
    | preds => exact absurd rfl hm
    | p j =>
      simp only [Regs.get, Regs.set_preds_pred, RegName.covers, RegName.after, if_true, Regs.get.Word.ofBool', decide_eq_true_eq]
    | _ => simp [Regs.set, Regs.get, RegName.covers, Regs.gval, Regs.fval]
  | cause =>
    cases m with
    | cause =>
      simp only [Regs.set, Regs.get, RegName.covers_self, RegName.after, RegName.held, if_true]
      ext k hk
      have hm : ∀ k : Fin 64, (255#64).getLsbD k.val = decide (k.val < 8) := by decide
      have := hm ⟨k, hk⟩
      simp only [BitVec.getLsbD_eq_getElem hk] at this
      by_cases h8 : k < 8 <;> simp [this, h8, BitVec.getLsbD_eq_getElem hk]
    | _ => simp [Regs.set, Regs.get, RegName.covers, Regs.gval, Regs.fval, Regs.pred]
  | _ => cases m <;> simp [Regs.set, Regs.get, RegName.covers, RegName.after, RegName.held, Regs.gval, Regs.fval, Regs.pred]

/-! ### Writes of one thread -/

/-- One write of a register. -/
theorem Thread.put_writes (x : Thread) (n : RegName) (v pc : Word) (lat : Nat) :
    x.Writes lat [(n, v)] { x.put n v lat with pc := pc } := by
  refine ⟨rfl, fun r hr => ?_, rfl⟩
  by_cases h : n.covers r = true <;> simp [Thread.put, Regs.get_set _ _ _ _ hr, h]

/-- Two writes of different registers, neither of all predicates, the first one first. -/
theorem Thread.put_put_writes (x : Thread) (n m : RegName) (v w pc : Word) (lat : Nat) (hn : n ≠ .preds) (hm' : m ≠ .preds)
    (hnm : n.covers m = false) (hmn : m.covers n = false) :
    x.Writes lat [(n, v), (m, w)] { (x.put n v lat).put m w lat with pc := pc } := by
  have hm : (x.regs.set n v).get m = x.regs.get m := by simp [Regs.get_set _ _ _ _ hm', hnm]
  refine ⟨rfl, fun r hr => ?_, by simp [Thread.put, hm]; rfl⟩
  by_cases h : m.covers r = true
  · have hr' : n.covers r = false := by
      rw [Bool.eq_false_iff]
      intro h'
      have a := (RegName.covers_iff _ _).1 h
      have b := (RegName.covers_iff _ _).1 h'
      have c := mt (RegName.covers_iff n m).2 (by simp [hnm])
      rcases a with rfl | ⟨rfl, rfl⟩ | ⟨rfl, rfl⟩ | ⟨rfl, _⟩ <;> simp_all
    simp [Thread.put, Regs.get_set _ _ _ _ hr, h, hr', hm, RegName.after_eq _ _ hm']
  · by_cases h' : n.covers r = true <;> simp [Thread.put, Regs.get_set _ _ _ _ hr, h, h']

/-- A write of a register other than MODE with the flags an operation raises. -/
theorem Thread.put_flags_writes (x : Thread) (n : RegName) (v pc : Word) (fl : BitVec 5) (lat : Nat)
    (hn : n ≠ .mode) (hf : n ≠ .fflags) (hp : n ≠ .preds) :
    x.Writes lat ((n, v) :: x.flagWrites fl) { (x.put n v lat).raiseFlags fl lat with pc := pc } := by
  by_cases h : fl = 0
  · rw [Thread.flagWrites, if_pos h, Thread.raiseFlags, if_pos h]
    exact Thread.put_writes x n v pc lat
  · have h1 : n.covers .mode = false := by cases n <;> simp_all [RegName.covers]
    have h2 : RegName.mode.covers n = false := by cases n <;> simp_all [RegName.covers]
    have hm : (x.put n v lat).regs.mode = x.regs.mode := by
      have := Regs.get_set x.regs n .mode v (by simp)
      rw [h1] at this; exact this
    have := Thread.put_put_writes x n .mode v (x.regs.mode ||| fl.setWidth 64) pc lat hp (by simp) h1 h2
    rw [Thread.flagWrites, if_neg h, Thread.raiseFlags, if_neg h, hm]
    exact this

/-! ### Instructions that act on each thread alone -/

/-- `lanewise` changes the threads of the bundle alone. -/
theorem State.lanewise_lanes (s : State) (n : Nat) (h : Hdr) (f : Thread → Thread) (eff : Thread → Thread → Prop)
    (he : ∀ x, s.inFocus x = true → x.guard h = true → eff x { f x with pc := x.pc + BitVec.ofNat 64 (4 * n) }) :
    s.Lanes (s.lanewise n h f) n h eff := by
  refine ⟨rfl, by simp [State.lanewise, State.mapFocus, updWhere], fun k x y hx hy => ?_⟩
  simp only [State.lanewise, State.mapFocus, updWhere, List.getElem?_map, hx, Option.map_some, Option.some.injEq] at hy
  subst hy
  by_cases hb : s.inFocus x = true
  · by_cases hg : x.guard h = true
    · simp [hb, hg, he x hb hg]
    · simp [hb, hg]
  · simp [hb]

/-- A form of row 0 or 1 runs in every state. -/
theorem gBinary_runs (mk : Hdr → Fin 32 → Fin 32 → Src2 → Instr) (lat : Nat) (f v : Word → Word → Word)
    (hx : ∀ h d a b s, exec (mk h d a b) s = gBinary s h d a b lat f) (hv : ∀ x y, f x y = v x y) : BinaryG mk lat v := by
  obtain rfl : f = v := funext fun x => funext (hv x)
  intro h d a b s
  exact ⟨_, hx h d a b s, State.lanewise_lanes s _ h _ _ fun x _ _ => Thread.put_writes x (.g d) _ _ lat⟩

/-- The same for results given bit by bit. -/
theorem gBinary_bits (mk : Hdr → Fin 32 → Fin 32 → Src2 → Instr) (f : Word → Word → Word) (bit : Word → Word → Word → Nat → Bool)
    (hx : ∀ h d a b s, exec (mk h d a b) s = gBinary s h d a b 4 f)
    (hv : ∀ o x y i, i < 64 → (f x y).getLsbD i = bit o x y i) : BinaryBits mk bit := by
  intro h d a b s
  exact ⟨_, hx h d a b s, State.lanewise_lanes s _ h _ _ fun x _ _ => ⟨_, Thread.put_writes x (.g d) _ _ 4, hv _ _ _⟩⟩

/-- The unary forms of row 1. -/
theorem gUnary_runs (mk : Hdr → Fin 32 → Fin 32 → Instr) (f : Word → Word) (ok : Word → Word → Prop)
    (hx : ∀ h d a s, exec (mk h d a) s = gUnary s h d a f) (hv : ∀ x, ok x (f x)) : UnaryG mk ok := by
  intro h d a s
  exact ⟨_, hx h d a s, State.lanewise_lanes s _ h _ _ fun x _ _ => ⟨_, Thread.put_writes x (.g d) _ _ 4, hv _⟩⟩

end Sys2Proof.Machine
end

