-- ==== Sys2Proof/Laws/Memory.lean ====
section
/-! SUPPORT. Read after write, and the canonical form of a memory, which every memory operation keeps. -/

namespace Sys2Proof.Machine

/-! ### Association lists -/

/-- What a key has after another, or the same, is set. -/
theorem assocD_assocSet {α : Type} [DecidableEq α] (d : α) (k j : Nat) (v : α) (l : List (Nat × α)) :
    assocD d j (assocSet d k v l) = if j = k then v else assocD d j l := by
  induction l with
  | nil => grind [assocSet, assocD]
  | cons c rest ih => grind [assocSet, assocD]

namespace Memory

theorem read_write (m : List Host.Cell) (a b : Nat) (v : Byte) : read (write m a v) b = if b = a then v else read m b :=
  assocD_assocSet _ _ _ _ _

/-- Setting a byte keeps the canonical form. -/
theorem wfFrom_write (lo a : Nat) (v : Byte) (m : List Host.Cell) (hl : lo ≤ a) (h : wfFrom lo m = true) :
    wfFrom lo (write m a v) = true := by
  induction m generalizing lo with
  | nil => by_cases e : v = unlisted <;> simp_all [write, assocSet, wfFrom]
  | cons c rest ih =>
    obtain ⟨k, w⟩ := c
    simp only [wfFrom, Bool.and_eq_true, decide_eq_true_eq, bne_iff_ne] at h
    obtain ⟨⟨h1, h2⟩, h3⟩ := h
    have mono : ∀ (l : List Host.Cell) {p q : Nat}, p ≤ q → wfFrom q l = true → wfFrom p l = true := by
      intro l p q hpq hq
      cases l with
      | nil => rfl
      | cons c r => simp only [wfFrom, Bool.and_eq_true, decide_eq_true_eq] at hq ⊢; exact ⟨⟨by omega, hq.1.2⟩, hq.2⟩
    have clean : ∀ (l : List Host.Cell) {p : Nat}, a < p → wfFrom p l = true → assocSet unlisted a unlisted l = l := by
      intro l
      induction l with
      | nil => intros; rfl
      | cons c r ihr =>
        intro p hp hw
        simp only [wfFrom, Bool.and_eq_true, decide_eq_true_eq] at hw
        have : a ≠ c.1 := by omega
        simp only [assocSet, if_true, if_neg this]
        rw [ihr (p := c.1 + 1) (by omega) hw.2]
    simp only [write, assocSet]
    split
    · next e =>
      subst e
      split
      · next e => subst e; rw [clean rest (Nat.lt_succ_self _) h3]; exact mono rest (by omega) h3
      · next e =>
        by_cases hk : a < k
        · rw [clean rest (p := k + 1) (by omega) h3]
          simp [wfFrom, h1, h2, h3]
        · have := ih (k + 1) (by omega) h3
          simp only [write] at this
          simp [wfFrom, h1, h2, this]
    · next e =>
      split
      · next hk =>
        have : a + 1 ≤ k := hk
        simp [wfFrom, hl, h2, h3, this, e]
      · split
        · next e' => subst e'; simp [wfFrom, h1, h3, e]
        · next hk e' =>
          have := ih (k + 1) (by omega) h3
          simp only [write] at this
          simp [wfFrom, h1, h2, this]

theorem wf_write (m : List Host.Cell) (a : Nat) (v : Byte) (h : wf m = true) : wf (write m a v) = true :=
  wfFrom_write 0 a v m (Nat.zero_le a) h

theorem wf_writeLE (m : List Host.Cell) (a n v : Nat) (h : wf m = true) : wf (writeLE m a n v) = true := by
  induction n generalizing m a v with
  | zero => exact h
  | succ n ih => exact ih _ _ _ (wf_write _ _ _ h)

theorem wf_writeMask (m : List Host.Cell) (a mask n v : Nat) (h : wf m = true) : wf (writeMask m a mask n v) = true := by
  induction n generalizing m a mask v with
  | zero => exact h
  | succ n ih =>
    simp only [writeMask]
    split
    · exact ih _ _ _ _ (wf_write _ _ _ h)
    · exact ih _ _ _ _ h

theorem wf_writeBytes (m : List Host.Cell) (a : Nat) (l : List Byte) (h : wf m = true) : wf (writeBytes m a l) = true := by
  induction l generalizing m a with
  | nil => exact h
  | cons b r ih => exact ih _ _ (wf_write _ _ _ h)

/-- Taking cells away keeps the canonical form. -/
theorem wfFrom_filter (p : Host.Cell → Bool) (lo : Nat) (m : List Host.Cell) (h : wfFrom lo m = true) :
    wfFrom lo (m.filter p) = true := by
  induction m generalizing lo with
  | nil => rfl
  | cons c r ih =>
    simp only [wfFrom, Bool.and_eq_true, decide_eq_true_eq, bne_iff_ne] at h
    by_cases hp : p c = true
    · simp only [List.filter_cons, hp, if_true, wfFrom, Bool.and_eq_true, decide_eq_true_eq, bne_iff_ne]
      exact ⟨h.1, ih _ h.2⟩
    · have := ih _ h.2
      simp only [List.filter_cons, hp]
      cases hr : r.filter p with
      | nil => simp [wfFrom]
      | cons c' r' =>
        rw [hr] at this
        simp only [wfFrom, Bool.and_eq_true, decide_eq_true_eq] at this ⊢
        simp only [Bool.false_eq_true, if_false, wfFrom, Bool.and_eq_true, decide_eq_true_eq]
        exact ⟨⟨by omega, this.1.2⟩, this.2⟩

theorem wf_filter (p : Host.Cell → Bool) (m : List Host.Cell) (h : wf m = true) : wf (m.filter p) = true := wfFrom_filter p 0 m h

/-- Bytes outside a written range stay. -/
theorem read_writeLE_out (m : List Host.Cell) (a n v b : Nat) (h : b < a ∨ a + n ≤ b) : read (writeLE m a n v) b = read m b := by
  induction n generalizing m a v with
  | zero => rfl
  | succ n ih =>
    rw [writeLE, ih _ _ _ (by omega), read_write, if_neg (by omega)]

/-- Byte `i` of a written value. -/
theorem read_writeLE_in (m : List Host.Cell) (a n v i : Nat) (h : i < n) :
    read (writeLE m a n v) (a + i) = BitVec.ofNat 8 (v / 256 ^ i) := by
  induction n generalizing m a v i with
  | zero => omega
  | succ n ih =>
    cases i with
    | zero => rw [writeLE, read_writeLE_out _ _ _ _ _ (by omega), read_write]; simp
    | succ i =>
      have e : a + (i + 1) = a + 1 + i := by omega
      rw [writeLE, e, ih _ _ _ _ (by omega), Nat.div_div_eq_div_mul, Nat.pow_succ, Nat.mul_comm]

/-- A little-endian read of what was written. -/
theorem readLE_writeLE (m : List Host.Cell) (a n v : Nat) : readLE (writeLE m a n v) a n = v % 256 ^ n := by
  induction n generalizing m a v with
  | zero => simp [readLE, Nat.mod_one]
  | succ n ih =>
    have hb : read (writeLE m a (n + 1) v) a = BitVec.ofNat 8 v := by
      have := read_writeLE_in m a (n + 1) v 0 (by omega)
      simpa using this
    have e : (256 : Nat) ^ (n + 1) = 256 * 256 ^ n := by rw [Nat.pow_succ, Nat.mul_comm]
    rw [readLE, hb, writeLE, ih, BitVec.toNat_ofNat, e, Nat.mod_mul]

/-- A read of a range that a write does not touch. -/
theorem readLE_writeLE_out (m : List Host.Cell) (a n v b k : Nat) (h : b + k ≤ a ∨ a + n ≤ b) :
    readLE (writeLE m a n v) b k = readLE m b k := by
  induction k generalizing b with
  | zero => rfl
  | succ k ih => rw [readLE, readLE, read_writeLE_out _ _ _ _ _ (by omega), ih _ (by omega)]

/-- What the bytes under a mask hold after a masked write. -/
theorem read_writeMask (m : List Host.Cell) (a mask n v i : Nat) :
    read (writeMask m a mask n v) i
      = if a ≤ i ∧ i < a + n ∧ mask.testBit (i - a) = true then BitVec.ofNat 8 (v / 256 ^ (i - a)) else read m i := by
  induction n generalizing m a mask v with
  | zero => simp [writeMask]; omega
  | succ n ih =>
    rw [writeMask, ih]
    by_cases h0 : i = a
    · subst h0
      have e1 : ¬(i + 1 ≤ i ∧ i < i + 1 + n ∧ (mask / 2).testBit (i - (i + 1)) = true) := by omega
      rw [if_neg e1]
      by_cases hm : mask % 2 = 1
      · simp [hm, read_write]
      · simp [hm]
    · have hr : read (if mask % 2 = 1 then write m a (BitVec.ofNat 8 v) else m) i = read m i := by
        split
        · rw [read_write, if_neg h0]
        · rfl
      rw [hr]
      by_cases hi : a + 1 ≤ i
      · have e : i - a = (i - (a + 1)) + 1 := by omega
        rw [e, Nat.testBit_succ, Nat.pow_succ, Nat.mul_comm, ← Nat.div_div_eq_div_mul]
        have : (a + 1 ≤ i ∧ i < a + 1 + n) ↔ (a ≤ i ∧ i < a + (n + 1)) := by omega
        by_cases hx : a ≤ i ∧ i < a + (n + 1)
        · have := this.2 hx
          simp [this.1, this.2, hx.1, hx.2]
        · have h1 : ¬(a + 1 ≤ i ∧ i < a + 1 + n ∧ (mask / 2).testBit (i - (a + 1)) = true) := fun h => hx ⟨by omega, by omega⟩
          have h2 : ¬(a ≤ i ∧ i < a + (n + 1) ∧ (mask / 2).testBit (i - (a + 1)) = true) := fun h => hx ⟨h.1, h.2.1⟩
          rw [if_neg h1, if_neg h2]
      · have h1 : ¬(a + 1 ≤ i ∧ i < a + 1 + n ∧ (mask / 2).testBit (i - (a + 1)) = true) := by omega
        have h2 : ¬(a ≤ i ∧ i < a + (n + 1) ∧ mask.testBit (i - a) = true) := by omega
        rw [if_neg h1, if_neg h2]

end Memory

end Sys2Proof.Machine
end

