-- ==== Sys2Proof/Laws/PerInstr.lean ====
section
/-! SUPPORT. What the fields of every instruction are: its header is that of its word, its word asks for at most two extension
words, and a device event has no word. -/

namespace Sys2Proof.Laws.Fields

/-- An instruction with a header has fields with that header and an L of at most 2 (R41, R42); a device event has neither. -/
def Statement (i : Instr) : Prop :=
  match i.toRaw with
  | some r => i.hdr? = some r.hdr ∧ r.l.val ≤ 2
  | none => i.hdr? = none

theorem add (h : Hdr) (d a : Fin 32) (b : Src2) : Statement (.add h d a b) := by cases b <;> exact ⟨rfl, Nat.le_of_ble_eq_true rfl⟩
theorem sub (h : Hdr) (d a : Fin 32) (b : Src2) : Statement (.sub h d a b) := by cases b <;> exact ⟨rfl, Nat.le_of_ble_eq_true rfl⟩
theorem addw (h : Hdr) (d a : Fin 32) (b : Src2) : Statement (.addw h d a b) := by cases b <;> exact ⟨rfl, Nat.le_of_ble_eq_true rfl⟩
theorem subw (h : Hdr) (d a : Fin 32) (b : Src2) : Statement (.subw h d a b) := by cases b <;> exact ⟨rfl, Nat.le_of_ble_eq_true rfl⟩
theorem mul (h : Hdr) (d a : Fin 32) (b : Src2) : Statement (.mul h d a b) := by cases b <;> exact ⟨rfl, Nat.le_of_ble_eq_true rfl⟩
theorem mulw (h : Hdr) (d a : Fin 32) (b : Src2) : Statement (.mulw h d a b) := by cases b <;> exact ⟨rfl, Nat.le_of_ble_eq_true rfl⟩
theorem mulh (h : Hdr) (d a : Fin 32) (b : Src2) : Statement (.mulh h d a b) := by cases b <;> exact ⟨rfl, Nat.le_of_ble_eq_true rfl⟩
theorem mulhz (h : Hdr) (d a : Fin 32) (b : Src2) : Statement (.mulhz h d a b) := by cases b <;> exact ⟨rfl, Nat.le_of_ble_eq_true rfl⟩
theorem div (h : Hdr) (d a : Fin 32) (b : Src2) : Statement (.div h d a b) := by cases b <;> exact ⟨rfl, Nat.le_of_ble_eq_true rfl⟩
theorem divz (h : Hdr) (d a : Fin 32) (b : Src2) : Statement (.divz h d a b) := by cases b <;> exact ⟨rfl, Nat.le_of_ble_eq_true rfl⟩
theorem rem (h : Hdr) (d a : Fin 32) (b : Src2) : Statement (.rem h d a b) := by cases b <;> exact ⟨rfl, Nat.le_of_ble_eq_true rfl⟩
theorem remz (h : Hdr) (d a : Fin 32) (b : Src2) : Statement (.remz h d a b) := by cases b <;> exact ⟨rfl, Nat.le_of_ble_eq_true rfl⟩
theorem min (h : Hdr) (d a : Fin 32) (b : Src2) : Statement (.min h d a b) := by cases b <;> exact ⟨rfl, Nat.le_of_ble_eq_true rfl⟩
theorem max (h : Hdr) (d a : Fin 32) (b : Src2) : Statement (.max h d a b) := by cases b <;> exact ⟨rfl, Nat.le_of_ble_eq_true rfl⟩
theorem minz (h : Hdr) (d a : Fin 32) (b : Src2) : Statement (.minz h d a b) := by cases b <;> exact ⟨rfl, Nat.le_of_ble_eq_true rfl⟩
theorem maxz (h : Hdr) (d a : Fin 32) (b : Src2) : Statement (.maxz h d a b) := by cases b <;> exact ⟨rfl, Nat.le_of_ble_eq_true rfl⟩
theorem and (h : Hdr) (d a : Fin 32) (b : Src2) : Statement (.and h d a b) := by cases b <;> exact ⟨rfl, Nat.le_of_ble_eq_true rfl⟩
theorem or (h : Hdr) (d a : Fin 32) (b : Src2) : Statement (.or h d a b) := by cases b <;> exact ⟨rfl, Nat.le_of_ble_eq_true rfl⟩
theorem xor (h : Hdr) (d a : Fin 32) (b : Src2) : Statement (.xor h d a b) := by cases b <;> exact ⟨rfl, Nat.le_of_ble_eq_true rfl⟩
theorem andn (h : Hdr) (d a : Fin 32) (b : Src2) : Statement (.andn h d a b) := by cases b <;> exact ⟨rfl, Nat.le_of_ble_eq_true rfl⟩
theorem sll (h : Hdr) (d a : Fin 32) (b : Src2) : Statement (.sll h d a b) := by cases b <;> exact ⟨rfl, Nat.le_of_ble_eq_true rfl⟩
theorem srl (h : Hdr) (d a : Fin 32) (b : Src2) : Statement (.srl h d a b) := by cases b <;> exact ⟨rfl, Nat.le_of_ble_eq_true rfl⟩
theorem sra (h : Hdr) (d a : Fin 32) (b : Src2) : Statement (.sra h d a b) := by cases b <;> exact ⟨rfl, Nat.le_of_ble_eq_true rfl⟩
theorem rot (h : Hdr) (d a : Fin 32) (b : Src2) : Statement (.rot h d a b) := by cases b <;> exact ⟨rfl, Nat.le_of_ble_eq_true rfl⟩
theorem clz (h : Hdr) (d a : Fin 32) : Statement (.clz h d a) := ⟨rfl, Nat.le_of_ble_eq_true rfl⟩
theorem ctz (h : Hdr) (d a : Fin 32) : Statement (.ctz h d a) := ⟨rfl, Nat.le_of_ble_eq_true rfl⟩
theorem popc (h : Hdr) (d a : Fin 32) : Statement (.popc h d a) := ⟨rfl, Nat.le_of_ble_eq_true rfl⟩
theorem brev (h : Hdr) (d a : Fin 32) : Statement (.brev h d a) := ⟨rfl, Nat.le_of_ble_eq_true rfl⟩
theorem bfx (h : Hdr) (d a : Fin 32) (b : Src2) : Statement (.bfx h d a b) := by cases b <;> exact ⟨rfl, Nat.le_of_ble_eq_true rfl⟩
theorem bfi (h : Hdr) (d a : Fin 32) (b : Src2) : Statement (.bfi h d a b) := by cases b <;> exact ⟨rfl, Nat.le_of_ble_eq_true rfl⟩
theorem clmul (h : Hdr) (d a : Fin 32) (b : Src2) : Statement (.clmul h d a b) := by cases b <;> exact ⟨rfl, Nat.le_of_ble_eq_true rfl⟩
theorem clmulh (h : Hdr) (d a : Fin 32) (b : Src2) : Statement (.clmulh h d a b) := by cases b <;> exact ⟨rfl, Nat.le_of_ble_eq_true rfl⟩
theorem icmp (h : Hdr) (cond : Fin 4) (pd : Fin 8) (a : Fin 32) (b : Src2) : Statement (.icmp h cond pd a b) := by cases b <;> exact ⟨rfl, Nat.le_of_ble_eq_true rfl⟩
theorem sel (h : Hdr) (d a : Fin 32) (b : Src2) : Statement (.sel h d a b) := by cases b <;> exact ⟨rfl, Nat.le_of_ble_eq_true rfl⟩
theorem sh1add (h : Hdr) (d a : Fin 32) (b : Src2) : Statement (.sh1add h d a b) := by cases b <;> exact ⟨rfl, Nat.le_of_ble_eq_true rfl⟩
theorem sh2add (h : Hdr) (d a : Fin 32) (b : Src2) : Statement (.sh2add h d a b) := by cases b <;> exact ⟨rfl, Nat.le_of_ble_eq_true rfl⟩
theorem sh3add (h : Hdr) (d a : Fin 32) (b : Src2) : Statement (.sh3add h d a b) := by cases b <;> exact ⟨rfl, Nat.le_of_ble_eq_true rfl⟩
theorem sh4add (h : Hdr) (d a : Fin 32) (b : Src2) : Statement (.sh4add h d a b) := by cases b <;> exact ⟨rfl, Nat.le_of_ble_eq_true rfl⟩
theorem plog (h : Hdr) (fn : Fin 4) (pd : Fin 8) (ia : Bool) (pa : Fin 8) (ib : Bool) (pb : Fin 8) : Statement (.plog h fn pd ia pa ib pb) := ⟨rfl, Nat.le_of_ble_eq_true rfl⟩
theorem pmovPg (h : Hdr) (d : Fin 32) : Statement (.pmovPg h d) := ⟨rfl, Nat.le_of_ble_eq_true rfl⟩
theorem pmovGp (h : Hdr) (a : Fin 32) : Statement (.pmovGp h a) := ⟨rfl, Nat.le_of_ble_eq_true rfl⟩
theorem gets (h : Hdr) (d : Fin 32) (sr : Fin 32) : Statement (.gets h d sr) := ⟨rfl, Nat.le_of_ble_eq_true rfl⟩
theorem sets (h : Hdr) (sr : Fin 32) (b : Src2) : Statement (.sets h sr b) := by cases b <;> exact ⟨rfl, Nat.le_of_ble_eq_true rfl⟩
theorem entryw (h : Hdr) : Statement (.entryw h) := ⟨rfl, Nat.le_of_ble_eq_true rfl⟩
theorem yield (h : Hdr) (b : Src2) : Statement (.yield h b) := by cases b <;> exact ⟨rfl, Nat.le_of_ble_eq_true rfl⟩
theorem hresumeRetry (h : Hdr) (a : Fin 32) : Statement (.hresumeRetry h a) := ⟨rfl, Nat.le_of_ble_eq_true rfl⟩
theorem hresumeKill (h : Hdr) (a : Fin 32) : Statement (.hresumeKill h a) := ⟨rfl, Nat.le_of_ble_eq_true rfl⟩
theorem hresumeTerm (h : Hdr) (a : Fin 32) : Statement (.hresumeTerm h a) := ⟨rfl, Nat.le_of_ble_eq_true rfl⟩
theorem nop (h : Hdr) : Statement (.nop h) := ⟨rfl, Nat.le_of_ble_eq_true rfl⟩
theorem faddS (h : Hdr) (d a : Fin 32) (b : Src2) : Statement (.faddS h d a b) := by cases b <;> exact ⟨rfl, Nat.le_of_ble_eq_true rfl⟩
theorem fsubS (h : Hdr) (d a : Fin 32) (b : Src2) : Statement (.fsubS h d a b) := by cases b <;> exact ⟨rfl, Nat.le_of_ble_eq_true rfl⟩
theorem fmulS (h : Hdr) (d a : Fin 32) (b : Src2) : Statement (.fmulS h d a b) := by cases b <;> exact ⟨rfl, Nat.le_of_ble_eq_true rfl⟩
theorem ffmaS (h : Hdr) (d a : Fin 32) (b : Src2) : Statement (.ffmaS h d a b) := by cases b <;> exact ⟨rfl, Nat.le_of_ble_eq_true rfl⟩
theorem fminS (h : Hdr) (d a : Fin 32) (b : Src2) : Statement (.fminS h d a b) := by cases b <;> exact ⟨rfl, Nat.le_of_ble_eq_true rfl⟩
theorem fmaxS (h : Hdr) (d a : Fin 32) (b : Src2) : Statement (.fmaxS h d a b) := by cases b <;> exact ⟨rfl, Nat.le_of_ble_eq_true rfl⟩
theorem fdivS (h : Hdr) (d a : Fin 32) (b : Src2) : Statement (.fdivS h d a b) := by cases b <;> exact ⟨rfl, Nat.le_of_ble_eq_true rfl⟩
theorem fsqrtS (h : Hdr) (d a : Fin 32) : Statement (.fsqrtS h d a) := ⟨rfl, Nat.le_of_ble_eq_true rfl⟩
theorem faddD (h : Hdr) (d a : Fin 32) (b : Src2) : Statement (.faddD h d a b) := by cases b <;> exact ⟨rfl, Nat.le_of_ble_eq_true rfl⟩
theorem fsubD (h : Hdr) (d a : Fin 32) (b : Src2) : Statement (.fsubD h d a b) := by cases b <;> exact ⟨rfl, Nat.le_of_ble_eq_true rfl⟩
theorem fmulD (h : Hdr) (d a : Fin 32) (b : Src2) : Statement (.fmulD h d a b) := by cases b <;> exact ⟨rfl, Nat.le_of_ble_eq_true rfl⟩
theorem ffmaD (h : Hdr) (d a : Fin 32) (b : Src2) : Statement (.ffmaD h d a b) := by cases b <;> exact ⟨rfl, Nat.le_of_ble_eq_true rfl⟩
theorem fminD (h : Hdr) (d a : Fin 32) (b : Src2) : Statement (.fminD h d a b) := by cases b <;> exact ⟨rfl, Nat.le_of_ble_eq_true rfl⟩
theorem fmaxD (h : Hdr) (d a : Fin 32) (b : Src2) : Statement (.fmaxD h d a b) := by cases b <;> exact ⟨rfl, Nat.le_of_ble_eq_true rfl⟩
theorem fdivD (h : Hdr) (d a : Fin 32) (b : Src2) : Statement (.fdivD h d a b) := by cases b <;> exact ⟨rfl, Nat.le_of_ble_eq_true rfl⟩
theorem fsqrtD (h : Hdr) (d a : Fin 32) : Statement (.fsqrtD h d a) := ⟨rfl, Nat.le_of_ble_eq_true rfl⟩
theorem fcmpS (h : Hdr) (cond : Fin 4) (pd : Fin 8) (a : Fin 32) (b : Src2) : Statement (.fcmpS h cond pd a b) := by cases b <;> exact ⟨rfl, Nat.le_of_ble_eq_true rfl⟩
theorem fcmpD (h : Hdr) (cond : Fin 4) (pd : Fin 8) (a : Fin 32) (b : Src2) : Statement (.fcmpD h cond pd a b) := by cases b <;> exact ⟨rfl, Nat.le_of_ble_eq_true rfl⟩
theorem fcvt (h : Hdr) (d a : Fin 32) (code : Fin 32) : Statement (.fcvt h d a code) := ⟨rfl, Nat.le_of_ble_eq_true rfl⟩
theorem funaryS (h : Hdr) (d a : Fin 32) (code : Fin 32) : Statement (.funaryS h d a code) := ⟨rfl, Nat.le_of_ble_eq_true rfl⟩
theorem funaryD (h : Hdr) (d a : Fin 32) (code : Fin 32) : Statement (.funaryD h d a code) := ⟨rfl, Nat.le_of_ble_eq_true rfl⟩
theorem fmv (h : Hdr) (d a : Fin 32) (code : Fin 32) : Statement (.fmv h d a code) := ⟨rfl, Nat.le_of_ble_eq_true rfl⟩
theorem pfmaH (h : Hdr) (d a : Fin 32) (b : Src2) : Statement (.pfmaH h d a b) := by cases b <;> exact ⟨rfl, Nat.le_of_ble_eq_true rfl⟩
theorem pfmaB (h : Hdr) (d a : Fin 32) (b : Src2) : Statement (.pfmaB h d a b) := by cases b <;> exact ⟨rfl, Nat.le_of_ble_eq_true rfl⟩
theorem fdotH (h : Hdr) (d a : Fin 32) (b : Src2) : Statement (.fdotH h d a b) := by cases b <;> exact ⟨rfl, Nat.le_of_ble_eq_true rfl⟩
theorem fdotB (h : Hdr) (d a : Fin 32) (b : Src2) : Statement (.fdotB h d a b) := by cases b <;> exact ⟨rfl, Nat.le_of_ble_eq_true rfl⟩
theorem idotB (h : Hdr) (d a : Fin 32) (b : Src2) : Statement (.idotB h d a b) := by cases b <;> exact ⟨rfl, Nat.le_of_ble_eq_true rfl⟩
theorem paddH (h : Hdr) (d a : Fin 32) (b : Src2) : Statement (.paddH h d a b) := by cases b <;> exact ⟨rfl, Nat.le_of_ble_eq_true rfl⟩
theorem pmulH (h : Hdr) (d a : Fin 32) (b : Src2) : Statement (.pmulH h d a b) := by cases b <;> exact ⟨rfl, Nat.le_of_ble_eq_true rfl⟩
theorem pshuf (h : Hdr) (d a : Fin 32) (b : Src2) : Statement (.pshuf h d a b) := by cases b <;> exact ⟨rfl, Nat.le_of_ble_eq_true rfl⟩
theorem ld (h : Hdr) (d a b : Fin 32) (e : Exts) : Statement (.ld h d a b e) := by cases e <;> exact ⟨rfl, Nat.le_of_ble_eq_true rfl⟩
theorem st (h : Hdr) (d a b : Fin 32) (e : Exts) : Statement (.st h d a b e) := by cases e <;> exact ⟨rfl, Nat.le_of_ble_eq_true rfl⟩
theorem lda (h : Hdr) (d a b : Fin 32) (e : Exts) : Statement (.lda h d a b e) := by cases e <;> exact ⟨rfl, Nat.le_of_ble_eq_true rfl⟩
theorem stl (h : Hdr) (d a b : Fin 32) (e : Exts) : Statement (.stl h d a b e) := by cases e <;> exact ⟨rfl, Nat.le_of_ble_eq_true rfl⟩
theorem ldnr (h : Hdr) (d a b : Fin 32) (e : Exts) : Statement (.ldnr h d a b e) := by cases e <;> exact ⟨rfl, Nat.le_of_ble_eq_true rfl⟩
theorem ldf (h : Hdr) (d a b : Fin 32) (e : Exts) : Statement (.ldf h d a b e) := by cases e <;> exact ⟨rfl, Nat.le_of_ble_eq_true rfl⟩
theorem stf (h : Hdr) (d a b : Fin 32) (e : Exts) : Statement (.stf h d a b e) := by cases e <;> exact ⟨rfl, Nat.le_of_ble_eq_true rfl⟩
theorem pref (h : Hdr) (a b : Fin 32) (e : Exts) : Statement (.pref h a b e) := by cases e <;> exact ⟨rfl, Nat.le_of_ble_eq_true rfl⟩
theorem pgreq (h : Hdr) (d a : Fin 32) (e : Exts) : Statement (.pgreq h d a e) := by cases e <;> exact ⟨rfl, Nat.le_of_ble_eq_true rfl⟩
theorem atom (h : Hdr) (d a b : Fin 32) (e : Exts) : Statement (.atom h d a b e) := by cases e <;> exact ⟨rfl, Nat.le_of_ble_eq_true rfl⟩
theorem cas (h : Hdr) (d a b : Fin 32) (e : Exts) : Statement (.cas h d a b e) := by cases e <;> exact ⟨rfl, Nat.le_of_ble_eq_true rfl⟩
theorem fence (h : Hdr) (b : Fin 32) : Statement (.fence h b) := ⟨rfl, Nat.le_of_ble_eq_true rfl⟩
theorem pfenceCore (h : Hdr) : Statement (.pfenceCore h) := ⟨rfl, Nat.le_of_ble_eq_true rfl⟩
theorem pfenceModule (h : Hdr) : Statement (.pfenceModule h) := ⟨rfl, Nat.le_of_ble_eq_true rfl⟩
theorem waitc (h : Hdr) (cond : Fin 4) (pd : Fin 8) (a b : Fin 32) (e : Exts) : Statement (.waitc h cond pd a b e) := by cases e <;> exact ⟨rfl, Nat.le_of_ble_eq_true rfl⟩
theorem tlbiPage (h : Hdr) (d a : Fin 32) : Statement (.tlbiPage h d a) := ⟨rfl, Nat.le_of_ble_eq_true rfl⟩
theorem tlbiCtx (h : Hdr) (d : Fin 32) : Statement (.tlbiCtx h d) := ⟨rfl, Nat.le_of_ble_eq_true rfl⟩
theorem tlbiPart (h : Hdr) (d : Fin 32) : Statement (.tlbiPart h d) := ⟨rfl, Nat.le_of_ble_eq_true rfl⟩
theorem next (h : Hdr) (e1 : Ext) : Statement (.next h e1) := ⟨rfl, Nat.le_of_ble_eq_true rfl⟩
theorem nextp (h : Hdr) (e1 e2 : Ext) : Statement (.nextp h e1 e2) := ⟨rfl, Nat.le_of_ble_eq_true rfl⟩
theorem nextg (h : Hdr) (a : Fin 32) : Statement (.nextg h a) := ⟨rfl, Nat.le_of_ble_eq_true rfl⟩
theorem call (h : Hdr) (e1 : Ext) : Statement (.call h e1) := ⟨rfl, Nat.le_of_ble_eq_true rfl⟩
theorem callg (h : Hdr) (a : Fin 32) : Statement (.callg h a) := ⟨rfl, Nat.le_of_ble_eq_true rfl⟩
theorem ret (h : Hdr) (a : Fin 32) : Statement (.ret h a) := ⟨rfl, Nat.le_of_ble_eq_true rfl⟩
theorem exit (h : Hdr) : Statement (.exit h) := ⟨rfl, Nat.le_of_ble_eq_true rfl⟩
theorem region (h : Hdr) (e1 e2 : Ext) : Statement (.region h e1 e2) := ⟨rfl, Nat.le_of_ble_eq_true rfl⟩
theorem gsync (h : Hdr) (m : RegOrExt) : Statement (.gsync h m) := by cases m <;> exact ⟨rfl, Nat.le_of_ble_eq_true rfl⟩
theorem vote (h : Hdr) (d : Fin 32) (inv : Bool) (pa : Fin 8) (code : Fin 32) : Statement (.vote h d inv pa code) := ⟨rfl, Nat.le_of_ble_eq_true rfl⟩
theorem shfl (h : Hdr) (d a b : Fin 32) : Statement (.shfl h d a b) := ⟨rfl, Nat.le_of_ble_eq_true rfl⟩
theorem barSync (h : Hdr) (a b : Fin 32) : Statement (.barSync h a b) := ⟨rfl, Nat.le_of_ble_eq_true rfl⟩
theorem barArr (h : Hdr) (a b : Fin 32) : Statement (.barArr h a b) := ⟨rfl, Nat.le_of_ble_eq_true rfl⟩
theorem recd (h : Hdr) (d a : Fin 32) : Statement (.recd h d a) := ⟨rfl, Nat.le_of_ble_eq_true rfl⟩
theorem sysc (h : Hdr) (a : Fin 32) : Statement (.sysc h a) := ⟨rfl, Nat.le_of_ble_eq_true rfl⟩
theorem trap (h : Hdr) (e : Exts) : Statement (.trap h e) := by cases e <;> exact ⟨rfl, Nat.le_of_ble_eq_true rfl⟩
theorem brk (h : Hdr) (e : Exts) : Statement (.brk h e) := by cases e <;> exact ⟨rfl, Nat.le_of_ble_eq_true rfl⟩
theorem mma (h : Hdr) (d a b : Fin 32) : Statement (.mma h d a b) := ⟨rfl, Nat.le_of_ble_eq_true rfl⟩
theorem mmas (h : Hdr) (d a b : Fin 32) : Statement (.mmas h d a b) := ⟨rfl, Nat.le_of_ble_eq_true rfl⟩
theorem mmat (h : Hdr) (d a b : Fin 32) : Statement (.mmat h d a b) := ⟨rfl, Nat.le_of_ble_eq_true rfl⟩
theorem accz (h : Hdr) (d : Fin 32) : Statement (.accz h d) := ⟨rfl, Nat.le_of_ble_eq_true rfl⟩
theorem accrd (h : Hdr) (d a b : Fin 32) : Statement (.accrd h d a b) := ⟨rfl, Nat.le_of_ble_eq_true rfl⟩
theorem accwr (h : Hdr) (d a b : Fin 32) : Statement (.accwr h d a b) := ⟨rfl, Nat.le_of_ble_eq_true rfl⟩
theorem acccvt (h : Hdr) (a b : Fin 32) : Statement (.acccvt h a b) := ⟨rfl, Nat.le_of_ble_eq_true rfl⟩
theorem txf (h : Hdr) (a : Fin 32) : Statement (.txf h a) := ⟨rfl, Nat.le_of_ble_eq_true rfl⟩
theorem txw (h : Hdr) (m : RegOrExt) : Statement (.txw h m) := by cases m <;> exact ⟨rfl, Nat.le_of_ble_eq_true rfl⟩
theorem scfg (h : Hdr) (q : Fin 8) (a : Fin 32) : Statement (.scfg h q a) := ⟨rfl, Nat.le_of_ble_eq_true rfl⟩
theorem qpop (h : Hdr) (d : Fin 32) (isF : Bool) (q : Fin 8) (pv : Fin 8) : Statement (.qpop h d isF q pv) := ⟨rfl, Nat.le_of_ble_eq_true rfl⟩
theorem qpush (h : Hdr) (q : Fin 8) (a : Fin 32) (isF : Bool) : Statement (.qpush h q a isF) := ⟨rfl, Nat.le_of_ble_eq_true rfl⟩
theorem sctlStart (h : Hdr) (q : Fin 8) : Statement (.sctlStart h q) := ⟨rfl, Nat.le_of_ble_eq_true rfl⟩
theorem sctlStop (h : Hdr) (q : Fin 8) : Statement (.sctlStop h q) := ⟨rfl, Nat.le_of_ble_eq_true rfl⟩
theorem sctlDrain (h : Hdr) (q : Fin 8) : Statement (.sctlDrain h q) := ⟨rfl, Nat.le_of_ble_eq_true rfl⟩
theorem yieldEnd (bundle : Nat) : Statement (.yieldEnd bundle) := rfl
theorem txwCompletion (bundle : Nat) : Statement (.txwCompletion bundle) := rfl
theorem streamReadAhead (team : Nat) (q : Fin 8) : Statement (.streamReadAhead team q) := rfl
theorem load (t : ThreadId) (k : Nat) : Statement (.load t k) := rfl
theorem store (t : ThreadId) (k : Nat) : Statement (.store t k) := rfl
theorem rmw (iid : Nat) : Statement (.rmw iid) := rfl
theorem fencePerform (t : ThreadId) (k : Nat) : Statement (.fencePerform t k) := rfl
theorem drain (core : Nat) (entry : Nat) : Statement (.drain core entry) := rfl
theorem publish (core : Nat) : Statement (.publish core) := rfl
theorem durable (t : ThreadId) : Statement (.durable t) := rfl
theorem wake (t : ThreadId) : Statement (.wake t) := rfl
theorem expire (t : ThreadId) : Statement (.expire t) := rfl
theorem enqueue (cmd : Nat) : Statement (.enqueue cmd) := rfl
theorem granuleWrite (cmd : Nat) (target : Nat) : Statement (.granuleWrite cmd target) := rfl
theorem sectorWrite (cmd : Nat) : Statement (.sectorWrite cmd) := rfl
theorem completion (cmd : Nat) : Statement (.completion cmd) := rfl
theorem walk (core : Nat) (ctx : Nat) (va : Word) (kind : TlbKind) (lane : Option Nat) (write : Bool) : Statement (.walk core ctx va kind lane write) := rfl
theorem faultQueueEntry (report : Nat) : Statement (.faultQueueEntry report) := rfl
theorem issue (core : Nat) (lg : Fin 4) : Statement (.issue core lg) := rfl
theorem mergeWindow (bundle : Nat) : Statement (.mergeWindow bundle) := rfl
theorem runaheadEntry (bundle : Nat) : Statement (.runaheadEntry bundle) := rfl
theorem runaheadRestore (bundle : Nat) : Statement (.runaheadRestore bundle) := rfl
theorem wideningCall (hazel : Nat) (target : Word) (link : Fin 32) : Statement (.wideningCall hazel target link) := rfl
theorem launchForm (ctx : Nat) (qcb : Word) : Statement (.launchForm ctx qcb) := rfl
theorem dispatch (part : Nat) : Statement (.dispatch part) := rfl
theorem teamRelease (team : Nat) : Statement (.teamRelease team) := rfl
theorem arrival (t : ThreadId) : Statement (.arrival t) := rfl
theorem hazelReturn (t : ThreadId) (jalr target : Word) (img : Image) : Statement (.hazelReturn t jalr target img) := rfl
theorem nestedCrossing (t : ThreadId) (jal target : Word) (link : Fin 32) (img : Image) : Statement (.nestedCrossing t jal target link img) := rfl
theorem hazelException (t : ThreadId) (exc : HazelExc) (pc tval : Word) (size acc : Nat) (img : Image) : Statement (.hazelException t exc pc tval size acc img) := rfl
theorem serviceReply (ctx : Nat) : Statement (.serviceReply ctx) := rfl
theorem hostRecord (link : Fin 2) (window : Nat) (off size : Nat) (record : List Word) : Statement (.hostRecord link window off size record) := rfl
theorem launchPacket (p : LaunchPacket) : Statement (.launchPacket p) := rfl
theorem hostAccess (link : Fin 2) (x : OuterAccess) : Statement (.hostAccess link x) := rfl
theorem accountingPeriod : Statement .accountingPeriod := rfl
theorem moveRequest (iod : Fin 2) : Statement (.moveRequest iod) := rfl
theorem moveRelease (move : Nat) : Statement (.moveRelease move) := rfl
theorem peerTimeout (move : Nat) : Statement (.peerTimeout move) := rfl
theorem pinEnd (ctx : Nat) (vpage : Word) : Statement (.pinEnd ctx vpage) := rfl
theorem vkpcu (hazelCore : Nat) (machine : Bool) (v : Option Word) : Statement (.vkpcu hazelCore machine v) := rfl
theorem vkblk (hazelCore : Nat) (machine : Bool) (v : Option Word) : Statement (.vkblk hazelCore machine v) := rfl
theorem vkqwin (hazelCore : Nat) (machine : Bool) (v : Option Word) : Statement (.vkqwin hazelCore machine v) := rfl
theorem vkinj (hazelCore : Nat) (machine : Bool) (v : Option Word) : Statement (.vkinj hazelCore machine v) := rfl
theorem vkhome (hazelCore : Nat) (v : Option Word) : Statement (.vkhome hazelCore v) := rfl
theorem injectedRailEvent (hazelCore : Nat) (stages : List (ThreadId × Nat)) : Statement (.injectedRailEvent hazelCore stages) := rfl
theorem unplannedLoss (core : Nat) (hard : Bool) (stages : List (ThreadId × Nat)) : Statement (.unplannedLoss core hard stages) := rfl
theorem correctableError (core : Nat) : Statement (.correctableError core) := rfl
theorem pewterError (w : PewterWhere) : Statement (.pewterError w) := rfl
theorem plannedGating (core : Nat) : Statement (.plannedGating core) := rfl
theorem gatedCoreWake (core : Nat) : Statement (.gatedCoreWake core) := rfl
theorem nearThresholdEntry (core : Nat) (lg : Fin 4) : Statement (.nearThresholdEntry core lg) := rfl
theorem nominalReturn (core : Nat) (lg : Fin 4) : Statement (.nominalReturn core lg) := rfl
theorem railHoldExpiry (quad : Nat) : Statement (.railHoldExpiry quad) := rfl
theorem railSettled (quad : Nat) : Statement (.railSettled quad) := rfl
theorem clockMask (core : Nat) (mask : BitVec 32) : Statement (.clockMask core mask) := rfl
theorem ptpSync (ahead : Bool) : Statement (.ptpSync ahead) := rfl
theorem run (ctx : Nat) : Statement (.run ctx) := rfl
theorem runStart (ctx : Nat) : Statement (.runStart ctx) := rfl
theorem save (ctx : Nat) : Statement (.save ctx) := rfl
theorem saveStop (ctx : Nat) : Statement (.saveStop ctx) := rfl
theorem terminate (ctx : Nat) : Statement (.terminate ctx) := rfl
theorem rearm (ctx : Nat) : Statement (.rearm ctx) := rfl
theorem partitionTableUpdate (p : PartDesc) : Statement (.partitionTableUpdate p) := rfl
theorem blockMoveRequest : Statement .blockMoveRequest := rfl
theorem removeAcknowledgment (block : Nat) : Statement (.removeAcknowledgment block) := rfl
theorem removeDeadline (block : Nat) : Statement (.removeDeadline block) := rfl
theorem scrubComplete (block : Nat) (error : Bool) : Statement (.scrubComplete block error) := rfl
theorem addAcknowledgment (block : Nat) : Statement (.addAcknowledgment block) := rfl
theorem epoch : Statement .epoch := rfl
theorem epochComplete : Statement .epochComplete := rfl
theorem modulePowerLoss : Statement .modulePowerLoss := rfl
theorem powerRestore : Statement .powerRestore := rfl
theorem spdmRequest (m : SpdmMsg) : Statement (.spdmRequest m) := rfl
theorem bootStage (signatureGood : Bool) : Statement (.bootStage signatureGood) := rfl
theorem hazelAccess (hazelCore : Nat) (x : HazelOp) : Statement (.hazelAccess hazelCore x) := rfl
theorem peerModuleAccess (module : Nat) (x : OuterAccess) : Statement (.peerModuleAccess module x) := rfl
theorem frozenGroupRestart (t : ThreadId) (pcs : List (ThreadId × Option Word)) : Statement (.frozenGroupRestart t pcs) := rfl
theorem frozenSourceClear (module : Nat) : Statement (.frozenSourceClear module) := rfl
theorem waiterReread (t : ThreadId) : Statement (.waiterReread t) := rfl
theorem interlockedResultWrite (t : ThreadId) (k : Nat) : Statement (.interlockedResultWrite t k) := rfl

end Sys2Proof.Laws.Fields
end

