-- ==== Sys2Proof/Laws/Placement.lean ====
section
/-! SUPPORT. What the search for rows and tiles of a new team gives (R317). -/

namespace Sys2Proof.Machine

/-- Units are given exactly where so many are free, wherever they lie. -/
theorem placeUnits_isSome (all : List (Nat × Nat)) (used lo n total need : Nat) :
    (placeUnits all used lo n total need).isSome = true ↔ need = 0 ∨ used + need ≤ n := by
  unfold placeUnits
  by_cases h : need = 0
  · simp [h]
  · by_cases h' : n < used + need
    · simp [h, h']
    · simp [h, h', Nat.le_of_not_lt h']

/-- The start of the names past a core's units lies past them, and past the end of every range in use. -/
theorem le_namesFrom (all : List (Nat × Nat)) (total : Nat) :
    total ≤ all.foldl (fun m u => Nat.max m (u.1 + u.2)) total
      ∧ ∀ u ∈ all, u.1 + u.2 ≤ all.foldl (fun m u => Nat.max m (u.1 + u.2)) total := by
  induction all generalizing total with
  | nil => simp
  | cons v rest ih =>
    obtain ⟨h1, h2⟩ := ih (Nat.max total (v.1 + v.2))
    refine ⟨Nat.le_trans (Nat.le_max_left _ _) h1, fun u hu => ?_⟩
    rcases List.mem_cons.mp hu with rfl | hu
    · exact Nat.le_trans (Nat.le_max_right _ _) h1
    · exact h2 u hu

end Sys2Proof.Machine
end

