-- ==== Sys2Proof/Tests/Loader.lean ====
section
/-! SUPPORT. Tests of the loader: the translation of `pdot` and the load at a non-preferred base, with the words, values and verdicts of
the reference's own tables. -/

namespace Sys2Proof.Tests

section

set_option Elab.async false

open Sys2Proof.Machine

/-- The budget and the records of `pdot`, and the native code of its listing. -/
def pdotKernel : Kernel := { Kernel.reset with gregs := 16, fregs := 8, widen := true, node := false }
def pdot : List PRec :=
  [PRec.ofWords 0x40200028 0, PRec.ofWords 0x40218081 0xFFFFFFFF00000000, PRec.ofWords 0x400B402040220023 0,
   PRec.ofWords 0x400C402040230023 0, PRec.ofWords 0x0007402280200050 0, PRec.ofWords 0x0007402380210050 0,
   PRec.ofWords 0x0000402180220045 0, PRec.ofWords 0x8021802080220048 0, PRec.ofWords 0x8068 0xFFFFFFFF,
   PRec.ofWords 0x0000802280230082 0, PRec.ofWords 0x0002400D80230051 0, PRec.ofWords 0x66 0]
def pdotCode : List (BitVec 32) :=
  [0x01500000, 0x01414000, 0x38018000, 0x00000000, 0xFFFFFFFF, 0x02898830, 0x31198AB0, 0x06898830, 0x00000008, 0x01198AC0, 0x06814830,
   0x00000008, 0x12802A70, 0x02806C70, 0x02814830, 0x52288A00, 0x02408010, 0x07400000, 0xFFFFFFFF, 0x3141C000, 0x022A0410, 0x44924E00,
   0x00000001, 0x03521090, 0x5229D000, 0x51800470, 0x022A0010, 0x44924E00, 0x00000002, 0x03521090, 0x5229D000, 0x51800070, 0x022A0010,
   0x44924E00, 0x00000004, 0x03521090, 0x5229D000, 0x51800070, 0x022A0010, 0x44924E00, 0x00000008, 0x03521090, 0x5229D000, 0x51800070,
   0x022A0010, 0x44924E00, 0x00000010, 0x03521090, 0x5229D000, 0x51800070, 0x02883A20, 0x03300000, 0x01780000, 0x01780000]

theorem test_translate_pdot : (translate pdotKernel pdot 0x60000 0).map (fun x => (x.words, x.spill)) = some (pdotCode, 16) := by decide +kernel

/-- A record of a reserved operation, and a budget with two candidates, are refused. -/
theorem test_translate_refused : translate pdotKernel [PRec.ofWords 0x85 0] 0x60000 0 = none
    ∧ translate { pdotKernel with gregs := 7 } pdot 0x60000 0 = none := by decide +kernel

/-- A guarded `add` into a virtual register: its pool register is zeroed first, and the add carries the guard (R281). -/
theorem test_translate_guarded : (translate pdotKernel [PRec.ofWords 0x400B400A40200900 0, PRec.ofWords 0x66 0] 0x60000 0).map (fun x => x.words.take 3)
    = some [0x01500000, 0x00014000, 0x000154B9] := by decide +kernel

/-- `next` over one record: its target is the packet where that record's segment begins (R283, R168). -/
theorem test_translate_next : (translate { pdotKernel with widen := false } [PRec.ofWords 0x8060 32, PRec.ofWords 0x66 0, PRec.ofWords 0x66 0] 0x60000 0).map
      (fun x => (x.words.take 2, x.words.length, x.starts)) = some ([0x07000000, 24], 9, [(0, 0), (1, 12), (2, 24)]) := by decide +kernel

/-- A class-0 operand in an f register field, and one that would name g7 as a branch register, are refused; `cas.d.clu`, whose B field is 9, is
not (R281). -/
theorem test_records_fields : (PRec.ofWords 0x8021802000000030 0).ok pdotKernel = false ∧ (PRec.ofWords 0x0000000700000065 0).ok pdotKernel = false
    ∧ (PRec.ofWords 0x000940214008005A 0).ok pdotKernel = true := by decide +kernel

/-- The object of "A load at a non-preferred base", with and without the call of `hlog`. -/
def loadText : List Nat :=
  [0x38014000, 0, 0, 0x02818A30, 0x02899430, 0x03300000, 0x02828630, 0x07180000, 0, 0x07180000, 0, 0x01780000, 0x0B380000, 0xC00, 0,
   0x03300000, 0x01780000, 0x01780000]
def loadDesc (onchip : Nat) : List Byte :=
  bytesLE 8 0 ++ bytesLE 8 0x0001104000004000 ++ bytesLE 4 256 ++ List.replicate 20 0 ++ bytesLE 4 onchip ++ bytesLE 4 1 ++ List.replicate 80 0
/-- An Elf64_Rela record. -/
def relaBytes (offset sym type addend : Nat) : List Byte := bytesLE 8 offset ++ bytesLE 8 (sym * 2 ^ 32 + type) ++ bytesLE 8 addend
def loadObj (hlog : Bool) : CodeObject :=
  { header := ⟨2, 1, 0, 3, 0x5E3A, 1, 1⟩
    segments := [⟨0x20000, 0x4000020000, 0x48, 0x10000, 5 + 2 * 2 ^ 28⟩, ⟨0x30000, 0x4000030000, 0x140, 0x10000, 4⟩,
      ⟨0x40000, 0x4000040000, 8, 0x10000, 6⟩]
    sections := [⟨".text.vni", 1, true, false, 0x4000020000, 0x48, 0, loadText.flatMap (bytesLE 4)⟩,
      ⟨".const", 1, true, false, 0x4000030000, 64, 0, ([1, 2, 3, 4, 5, 6, 7, 8] : List Nat).flatMap (bytesLE 8)⟩,
      ⟨".kdesc", 1, true, false, 0x4000030040, 256, 128, loadDesc 0 ++ loadDesc 16⟩,
      ⟨".got", 1, true, true, 0x4000040000, 8, 8, List.replicate 8 0⟩,
      ⟨".onchip", 0x70000001, false, false, 0, 32, 0, bytesLE 16 0 ++ bytesLE 4 1 ++ bytesLE 12 0⟩,
      ⟨".strtab", 3, false, false, 0, 8, 0, bytesLE 8 0⟩,
      ⟨".rela.text.vni", 4, false, false, 0, 72, 24, relaBytes 0x4000020004 1 7 16 ++ relaBytes 0x4000020020 2 5 0
        ++ (if hlog then relaBytes 0x4000020028 3 5 0 else [])⟩,
      ⟨".rela.kdesc", 4, false, false, 0, 48, 24, relaBytes 0x4000030040 0 4 0x4000020000 ++ relaBytes 0x40000300C0 0 4 0x4000020018⟩,
      ⟨".rela.got", 4, false, false, 0, 24, 24, relaBytes 0x4000040000 1 1 0⟩]
    syms := [⟨"", none, 0, false, false⟩, ⟨"ctab", some ".const", 0x4000030000, false, false⟩, ⟨"vsqrt", none, 0, true, true⟩,
      ⟨"hlog", none, 0, true, true⟩] }
def loadExports : Exports := [("vsqrt", 0x4001000010), ("hlog", 0x4001100042)]

theorem test_relocations : (loadObj true).relas.map (applyRela (loadObj true) loadExports 0x90000)
    = [⟨0x40000B0004, 0x40000C0010, some 8⟩, ⟨0x40000B0020, 0xF4FFF8, some 4⟩, ⟨0x40000B0028, 0x105001E, none⟩,
       ⟨0x40000C0040, 0x40000B0000, some 8⟩, ⟨0x40000C00C0, 0x40000B0018, some 8⟩, ⟨0x40000D0000, 0x40000C0000, some 8⟩]
    ∧ rejected (loadObj true) loadExports 0x90000 = [(2, ".text.vni", 0x40000B0028, 0x105001E)] := by decide +kernel

/-- The descriptors as relocated: both kernels, accepted with their on-chip records. -/
def loadDescs : List (List Byte) := ((loadObj false).sectionOf? ".kdesc").toList.flatMap fun x => chunks 128 (relocated (loadObj false) loadExports 0x90000 x)
theorem test_load_descriptors : (loadDescs.map fun b => let k := (KDesc.read b 0 0).kernel; [k.entry.toNat, k.gregs, k.fregs, k.groups, k.ca, k.cb, k.stack])
      = [[0x40000B0000, 16, 0, 1, 1, 1, 256], [0x40000B0018, 16, 0, 1, 1, 1, 256]]
    ∧ (loadDescs.all fun b => reservedZero b && (KDesc.read b 0 0).kernel.ok 0 && entryHome (loadObj false) 0x90000 true (fieldAt b 0 8) == some false) = true
    ∧ (loadObj false).gp 0x90000 = 0x40000D0000 := by decide +kernel

/-- The object with the call is rejected with status 3; one with another e_machine with status 1. -/
theorem test_load_rejected : (match loadObject State.reset Context.reset PartDesc.whole loadExports (loadObj true) ⟨0, [], 0, []⟩ with
    | .ok _ => 0 | .error e => e.status) = 3
    ∧ (match loadObject State.reset Context.reset PartDesc.whole loadExports
          { loadObj false with header := ⟨2, 1, 0, 3, 0, 1, 1⟩ } ⟨0, [], 0, []⟩ with
      | .ok _ => 0 | .error e => e.status) = 1 := by decide +kernel

end

end Sys2Proof.Tests
end

