-- ==== Sys2Proof/Tests/Slice0.lean ====
section
/-! SUPPORT. Tests of the model: a term that each check of WellFormed refuses, the words of every instruction of the opcode map, and
single instructions on small states. Expected results come from the tables and examples of the reference, or from calculation by hand. -/

namespace Sys2Proof.Tests

section

-- One theorem after another: each evaluation has the memory of the process to itself.
set_option Elab.async false

open Sys2Proof.Machine

/-! ### WellFormed refuses -/

/-- The header of the tests: no chain, no stall, no guard. -/
abbrev h0 : Hdr := ⟨false, 0, false, 0⟩

/-- Guards (R46, R47): P = 0 with N = 1 in any instruction, and any guard on a segment end or `entryw`. -/
theorem test_wf_guard : [Instr.add ⟨false, 0, true, 0⟩ 1 2 (.reg 3), .exit ⟨false, 0, false, 1⟩, .next ⟨false, 0, false, 1⟩ 0,
    .region ⟨false, 0, false, 3⟩ 0 0, .entryw ⟨false, 0, false, 1⟩].all (fun i => !i.wf) = true := by decide +kernel

/-- The chain bit (R52, R186): not on a commit instruction, as its word; on a segment end it breaks the limits of its chain. -/
theorem test_wf_chain : ([Instr.atom ⟨true, 0, false, 0⟩ 1 2 0 .none, .txf ⟨true, 0, false, 0⟩ 1,
      .ldf ⟨true, 0, false, 0⟩ 2 3 0b01011 .none].all (fun i => !i.wf)
    && [Instr.exit ⟨true, 0, false, 0⟩, .nextp ⟨true, 0, false, 1⟩ 0 0].all fun i => i.wf && !chainOk [⟨0, i, 1⟩]) = true := by
  decide +kernel

/-- Fields of rows 2 to 4 (R26, R110, R119, R123, R126). -/
theorem test_wf_rows_2_4 : [Instr.plog h0 3 1 false 1 false 1, .gets h0 1 20, .gets h0 1 27, .sets h0 14 (.reg 1), .fcvt h0 1 2 26,
    .funaryS h0 1 2 10, .funaryD h0 1 2 10, .fmv h0 1 2 3].all (fun i => !i.wf) = true := by decide +kernel

/-- Extension words of row 5, `trap` and `brk` (R45): at most one. -/
theorem test_wf_two_extension_words : [Instr.ld h0 1 2 0 (.two 0 0), .st h0 1 2 0 (.two 0 0), .lda h0 1 2 0 (.two 0 0), .stl h0 1 2 0 (.two 0 0),
    .ldnr h0 1 2 0 (.two 0 0), .ldf h0 1 2 3 (.two 0 0), .stf h0 1 2 3 (.two 0 0), .pref h0 2 0 (.two 0 0), .pgreq h0 1 2 (.two 0 0),
    .atom h0 1 2 0 (.two 0 0), .cas h0 2 2 0 (.two 0 0), .trap h0 (.two 0 0), .brk h0 (.two 0 0)].all (fun i => !i.wf) = true := by
  decide +kernel

/-- Sizes, pairs and codes of row 5 (R135, R141-R156). -/
theorem test_wf_row_5 : [Instr.ld h0 1 16 0 .none, .ld h0 1 2 4 .none, .st h0 1 2 5 .none, .st h0 1 2 4 .none, .lda h0 1 2 4 .none,
    .stl h0 1 2 6 .none, .stl h0 1 2 4 .none, .ldnr h0 1 2 4 .none, .ldf h0 1 2 2 .none, .ldf h0 1 2 0b10011 .none, .ldf h0 1 2 4 .none,
    .stf h0 1 2 2 .none, .stf h0 1 2 4 .none, .pref h0 2 3 .none, .cas h0 1 2 0 .none, .cas h0 2 2 2 .none, .fence h0 24].all
    (fun i => !i.wf) = true := by decide +kernel

/-- Row 6 (R45, R183, R190, R192, R195): offsets that are multiples of 12, the masks of `region`, and the limits of the others. -/
theorem test_wf_row_6 : [Instr.next h0 8, .call h0 13, .nextp h0 12 11, .nextp h0 11 12, .region h0 1 0, .region h0 0x1FFFE 1, .vote h0 1 false 1 4,
    .barSync h0 16 1, .barArr h0 16 1, .recd h0 4 1].all (fun i => !i.wf) = true := by decide +kernel

/-- At the limits the words are legal. -/
theorem test_wf_limits : [Instr.next h0 0xFFFFFFF4, .region h0 0x1FFFE 0, .gets h0 1 26, .gets h0 1 19, .sets h0 24 (.reg 1), .fcvt h0 1 2 25,
    .funaryS h0 1 2 9, .fmv h0 1 2 2, .ld h0 2 16 4 .none, .ld h0 1 31 7 (.one 0), .fence h0 23, .barSync h0 15 31, .recd h0 24 1,
    .nextp ⟨false, 0, true, 1⟩ 12 0].all (fun i => i.wf) = true := by decide +kernel

/-! ### Words -/

/-- The words are read as an instruction of `n` words, and its encoding is those words. -/
def reads (ws : List (BitVec 32)) (i : Instr) (n : Nat) : Bool :=
  (match decodeWords ws with | .ok r => decide (r = (i, n)) | .error _ => false) && encode i == ws

/-- Headers of the words below: S = 1 with the guard p2, and S = 1 alone. -/
abbrev hg : Hdr := ⟨false, 1, false, 2⟩
abbrev hn : Hdr := ⟨false, 1, false, 0⟩

/-- Row 0 of the map of R60 (R103, R104): word by word C, S, L, OP, D, A, B, N, P (R41). -/
theorem test_decode_row0 : (
    reads [0b0_001_00_0000000_00011_00101_10001_0_010] (.add hg 3 5 (.reg 17)) 1
    && reads [0b0_001_00_0000001_00011_00101_10001_0_010] (.sub hg 3 5 (.reg 17)) 1
    && reads [0b0_001_01_0000010_00011_00101_00000_0_010, 0xFFFFFFF0] (.addw hg 3 5 (.imm 0xFFFFFFF0)) 2
    && reads [0b0_001_00_0000011_00011_00101_10001_0_010] (.subw hg 3 5 (.reg 17)) 1
    && reads [0b0_001_00_0000100_00011_00101_10001_0_010] (.mul hg 3 5 (.reg 17)) 1
    && reads [0b0_001_10_0000101_00011_00101_00000_0_010, 0x00000011, 0x00000022] (.mulw hg 3 5 (.imm64 0x11 0x22)) 3
    && reads [0b0_001_00_0000110_00011_00101_10001_0_010] (.mulh hg 3 5 (.reg 17)) 1
    && reads [0b0_001_00_0000111_00011_00101_10001_0_010] (.mulhz hg 3 5 (.reg 17)) 1
    && reads [0b0_001_00_0001000_00011_00101_10001_0_010] (.div hg 3 5 (.reg 17)) 1
    && reads [0b0_001_00_0001001_00011_00101_10001_0_010] (.divz hg 3 5 (.reg 17)) 1
    && reads [0b0_001_01_0001010_00011_00101_00000_0_010, 0xFFFFFFF0] (.rem hg 3 5 (.imm 0xFFFFFFF0)) 2
    && reads [0b0_001_00_0001011_00011_00101_10001_0_010] (.remz hg 3 5 (.reg 17)) 1
    && reads [0b0_001_00_0001100_00011_00101_10001_0_010] (.min hg 3 5 (.reg 17)) 1
    && reads [0b0_001_10_0001101_00011_00101_00000_0_010, 0x00000011, 0x00000022] (.max hg 3 5 (.imm64 0x11 0x22)) 3
    && reads [0b0_001_00_0001110_00011_00101_10001_0_010] (.minz hg 3 5 (.reg 17)) 1
    && reads [0b0_001_00_0001111_00011_00101_10001_0_010] (.maxz hg 3 5 (.reg 17)) 1) = true := by decide +kernel

/-- Row 1 of the map of R60 (R105, R106): word by word C, S, L, OP, D, A, B, N, P (R41). -/
theorem test_decode_row1 : (
    reads [0b0_001_00_0010000_00011_00101_10001_0_010] (.and hg 3 5 (.reg 17)) 1
    && reads [0b0_001_00_0010001_00011_00101_10001_0_010] (.or hg 3 5 (.reg 17)) 1
    && reads [0b0_001_01_0010010_00011_00101_00000_0_010, 0xFFFFFFF0] (.xor hg 3 5 (.imm 0xFFFFFFF0)) 2
    && reads [0b0_001_00_0010011_00011_00101_10001_0_010] (.andn hg 3 5 (.reg 17)) 1
    && reads [0b0_001_00_0010100_00011_00101_10001_0_010] (.sll hg 3 5 (.reg 17)) 1
    && reads [0b0_001_10_0010101_00011_00101_00000_0_010, 0x00000011, 0x00000022] (.srl hg 3 5 (.imm64 0x11 0x22)) 3
    && reads [0b0_001_00_0010110_00011_00101_10001_0_010] (.sra hg 3 5 (.reg 17)) 1
    && reads [0b0_001_00_0010111_00011_00101_10001_0_010] (.rot hg 3 5 (.reg 17)) 1
    && reads [0b0_001_00_0011000_00011_00101_00000_0_010] (.clz hg 3 5) 1
    && reads [0b0_001_00_0011001_00011_00101_00000_0_010] (.ctz hg 3 5) 1
    && reads [0b0_001_00_0011010_00011_00101_00000_0_010] (.popc hg 3 5) 1
    && reads [0b0_001_00_0011011_00011_00101_00000_0_010] (.brev hg 3 5) 1
    && reads [0b0_001_00_0011100_00011_00101_10001_0_010] (.bfx hg 3 5 (.reg 17)) 1
    && reads [0b0_001_00_0011101_00011_00101_10001_0_010] (.bfi hg 3 5 (.reg 17)) 1
    && reads [0b0_001_01_0011110_00011_00101_00000_0_010, 0xFFFFFFF0] (.clmul hg 3 5 (.imm 0xFFFFFFF0)) 2
    && reads [0b0_001_00_0011111_00011_00101_10001_0_010] (.clmulh hg 3 5 (.reg 17)) 1) = true := by decide +kernel

/-- Row 2 of the map of R60 (R61, R107-R113, R180, R202, R203): word by word C, S, L, OP, D, A, B, N, P (R41). -/
theorem test_decode_row2 : (
    reads [0b0_001_00_0100000_10101_00111_10001_0_010] (.icmp hg 2 5 7 (.reg 17)) 1
    && reads [0b0_001_00_0100001_00011_00101_10001_0_010] (.sel hg 3 5 (.reg 17)) 1
    && reads [0b0_001_10_0100010_00011_00101_00000_0_010, 0x00000011, 0x00000022] (.sh1add hg 3 5 (.imm64 0x11 0x22)) 3
    && reads [0b0_001_00_0100011_00011_00101_10001_0_010] (.sh2add hg 3 5 (.reg 17)) 1
    && reads [0b0_001_00_0100100_00011_00101_10001_0_010] (.sh3add hg 3 5 (.reg 17)) 1
    && reads [0b0_001_00_0100101_00011_00101_10001_0_010] (.sh4add hg 3 5 (.reg 17)) 1
    && reads [0b0_001_00_0100110_01011_01100_00110_0_010] (.plog hg 1 3 true 4 false 6) 1
    && reads [0b0_001_00_0100111_00011_00000_00000_0_010] (.pmovPg hg 3) 1
    && reads [0b0_001_00_0100111_00000_00101_00001_0_010] (.pmovGp hg 5) 1
    && reads [0b0_001_00_0101000_00011_01110_00000_0_010] (.gets hg 3 14) 1
    && reads [0b0_001_00_0101001_01111_00000_10001_0_010] (.sets hg 15 (.reg 17)) 1
    && reads [0b0_001_00_0101010_00000_00000_00000_0_000] (.entryw hn) 1
    && reads [0b0_001_00_0101011_00000_00000_10001_0_010] (.yield hg (.reg 17)) 1
    && reads [0b0_001_00_0101100_00000_00101_00000_0_010] (.hresumeRetry hg 5) 1
    && reads [0b0_001_00_0101100_00001_00101_00000_0_010] (.hresumeKill hg 5) 1
    && reads [0b0_001_00_0101100_00010_00101_00000_0_010] (.hresumeTerm hg 5) 1
    && reads [0b0_001_00_0101111_00000_00000_00000_0_010] (.nop hg) 1) = true := by decide +kernel

/-- Row 3 of the map of R60 (R114): word by word C, S, L, OP, D, A, B, N, P (R41). -/
theorem test_decode_row3 : (
    reads [0b0_001_00_0110000_00011_00101_10001_0_010] (.faddS hg 3 5 (.reg 17)) 1
    && reads [0b0_001_01_0110001_00011_00101_00000_0_010, 0xFFFFFFF0] (.fsubS hg 3 5 (.imm 0xFFFFFFF0)) 2
    && reads [0b0_001_00_0110010_00011_00101_10001_0_010] (.fmulS hg 3 5 (.reg 17)) 1
    && reads [0b0_001_00_0110011_00011_00101_10001_0_010] (.ffmaS hg 3 5 (.reg 17)) 1
    && reads [0b0_001_10_0110100_00011_00101_00000_0_010, 0x00000011, 0x00000022] (.fminS hg 3 5 (.imm64 0x11 0x22)) 3
    && reads [0b0_001_00_0110101_00011_00101_10001_0_010] (.fmaxS hg 3 5 (.reg 17)) 1
    && reads [0b0_001_00_0110110_00011_00101_10001_0_010] (.fdivS hg 3 5 (.reg 17)) 1
    && reads [0b0_001_00_0110111_00011_00101_00000_0_010] (.fsqrtS hg 3 5) 1
    && reads [0b0_001_00_0111000_00011_00101_10001_0_010] (.faddD hg 3 5 (.reg 17)) 1
    && reads [0b0_001_00_0111001_00011_00101_10001_0_010] (.fsubD hg 3 5 (.reg 17)) 1
    && reads [0b0_001_01_0111010_00011_00101_00000_0_010, 0xFFFFFFF0] (.fmulD hg 3 5 (.imm 0xFFFFFFF0)) 2
    && reads [0b0_001_00_0111011_00011_00101_10001_0_010] (.ffmaD hg 3 5 (.reg 17)) 1
    && reads [0b0_001_00_0111100_00011_00101_10001_0_010] (.fminD hg 3 5 (.reg 17)) 1
    && reads [0b0_001_10_0111101_00011_00101_00000_0_010, 0x00000011, 0x00000022] (.fmaxD hg 3 5 (.imm64 0x11 0x22)) 3
    && reads [0b0_001_00_0111110_00011_00101_10001_0_010] (.fdivD hg 3 5 (.reg 17)) 1
    && reads [0b0_001_00_0111111_00011_00101_00000_0_010] (.fsqrtD hg 3 5) 1) = true := by decide +kernel

/-- Row 4 of the map of R60 (R117-R131): word by word C, S, L, OP, D, A, B, N, P (R41). -/
theorem test_decode_row4 : (
    reads [0b0_001_00_1000000_10101_00111_10001_0_010] (.fcmpS hg 2 5 7 (.reg 17)) 1
    && reads [0b0_001_00_1000001_10101_00111_10001_0_010] (.fcmpD hg 2 5 7 (.reg 17)) 1
    && reads [0b0_001_00_1000010_00011_00101_11001_0_010] (.fcvt hg 3 5 25) 1
    && reads [0b0_001_00_1000011_00011_00101_01001_0_010] (.funaryS hg 3 5 9) 1
    && reads [0b0_001_00_1000100_00011_00101_01001_0_010] (.funaryD hg 3 5 9) 1
    && reads [0b0_001_00_1000101_00011_00101_00010_0_010] (.fmv hg 3 5 2) 1
    && reads [0b0_001_00_1000110_00011_00101_10001_0_010] (.pfmaH hg 3 5 (.reg 17)) 1
    && reads [0b0_001_00_1000111_00011_00101_10001_0_010] (.pfmaB hg 3 5 (.reg 17)) 1
    && reads [0b0_001_00_1001000_00011_00101_10001_0_010] (.fdotH hg 3 5 (.reg 17)) 1
    && reads [0b0_001_01_1001001_00011_00101_00000_0_010, 0xFFFFFFF0] (.fdotB hg 3 5 (.imm 0xFFFFFFF0)) 2
    && reads [0b0_001_00_1001010_00011_00101_10001_0_010] (.idotB hg 3 5 (.reg 17)) 1
    && reads [0b0_001_00_1001011_00011_00101_10001_0_010] (.paddH hg 3 5 (.reg 17)) 1
    && reads [0b0_001_10_1001100_00011_00101_00000_0_010, 0x00000011, 0x00000022] (.pmulH hg 3 5 (.imm64 0x11 0x22)) 3
    && reads [0b0_001_00_1001101_00011_00101_10001_0_010] (.pshuf hg 3 5 (.reg 17)) 1) = true := by decide +kernel

/-- Row 5 of the map of R60 (R133-R160): word by word C, S, L, OP, D, A, B, N, P (R41). -/
theorem test_decode_row5 : (
    reads [0b0_001_01_1010000_00011_00101_00010_0_010, 0x00000040] (.ld hg 3 5 2 (.one 0x40)) 2
    && reads [0b0_001_00_1010001_00011_00101_00010_0_010] (.st hg 3 5 2 .none) 1
    && reads [0b0_001_01_1010010_00011_00101_00010_0_010, 0x00000040] (.lda hg 3 5 2 (.one 0x40)) 2
    && reads [0b0_001_01_1010011_00011_00101_00010_0_010, 0x00000040] (.stl hg 3 5 2 (.one 0x40)) 2
    && reads [0b0_001_00_1010100_00011_00101_00010_0_010] (.ldnr hg 3 5 2 .none) 1
    && reads [0b0_001_00_1010101_00100_00101_01100_0_010] (.ldf hg 4 5 0b01100 .none) 1
    && reads [0b0_001_00_1010110_00011_00101_01011_0_010] (.stf hg 3 5 0b01011 .none) 1
    && reads [0b0_001_00_1010111_00000_00101_00010_0_010] (.pref hg 5 2 .none) 1
    && reads [0b0_001_00_1011000_00011_00101_00000_0_010] (.pgreq hg 3 5 .none) 1
    && reads [0b0_001_01_1011001_00011_00101_00010_0_010, 0x00000040] (.atom hg 3 5 2 (.one 0x40)) 2
    && reads [0b0_001_00_1011010_00100_00101_11001_0_010] (.cas hg 4 5 0b11001 .none) 1
    && reads [0b0_001_00_1011011_00000_00000_10111_0_010] (.fence hg 0b10111) 1
    && reads [0b0_001_00_1011100_00000_00000_00000_0_010] (.pfenceCore hg) 1
    && reads [0b0_001_00_1011100_00000_00000_00001_0_010] (.pfenceModule hg) 1
    && reads [0b0_001_10_1011101_10101_00111_10001_0_010, 0x00000001, 0x00000002] (.waitc hg 2 5 7 17 (.two 1 2)) 3
    && reads [0b0_001_00_1011110_00011_00101_00000_0_010] (.tlbiPage hg 3 5) 1
    && reads [0b0_001_00_1011110_00011_00000_00001_0_010] (.tlbiCtx hg 3) 1
    && reads [0b0_001_00_1011110_00011_00000_00010_0_010] (.tlbiPart hg 3) 1) = true := by decide +kernel

/-- Row 6 of the map of R60 (R168-R201): word by word C, S, L, OP, D, A, B, N, P (R41). -/
theorem test_decode_row6 : (
    reads [0b0_001_01_1100000_00000_00000_00000_0_000, 0xFFFFFFF4] (.next hn 0xFFFFFFF4) 2
    && reads [0b0_001_10_1100001_00000_00000_00000_0_010, 0x0000000C, 0x00000018] (.nextp hg 12 24) 3
    && reads [0b0_001_00_1100010_00000_00101_00000_0_000] (.nextg hn 5) 1
    && reads [0b0_001_01_1100011_00000_00000_00000_0_000, 0xFFFFFFF4] (.call hn 0xFFFFFFF4) 2
    && reads [0b0_001_00_1100100_00000_00101_00000_0_000] (.callg hn 5) 1
    && reads [0b0_001_00_1100101_00000_00101_00000_0_000] (.ret hn 5) 1
    && reads [0b0_001_00_1100110_00000_00000_00000_0_000] (.exit hn) 1
    && reads [0b0_001_10_1100111_00000_00000_00000_0_000, 0x0003FC00, 0x80000001] (.region hn 0x3FC00 0x80000001) 3
    && reads [0b0_001_00_1101000_00000_00101_00000_0_010] (.gsync hg (.reg 5)) 1
    && reads [0b0_001_01_1101000_00000_00000_00000_0_010, 0x0000FFFF] (.gsync hg (.ext 0xFFFF)) 2
    && reads [0b0_001_00_1101001_00011_01100_00011_0_010] (.vote hg 3 true 4 3) 1
    && reads [0b0_001_00_1101010_00011_00101_10001_0_010] (.shfl hg 3 5 17) 1
    && reads [0b0_001_00_1101011_00000_01111_10001_0_010] (.barSync hg 15 17) 1
    && reads [0b0_001_00_1101011_00001_01111_10001_0_010] (.barArr hg 15 17) 1
    && reads [0b0_001_00_1101100_01000_00101_00000_0_010] (.recd hg 8 5) 1
    && reads [0b0_001_00_1101101_00000_00101_00000_0_010] (.sysc hg 5) 1
    && reads [0b0_001_01_1101110_00000_00000_00000_0_010, 0x00000007] (.trap hg (.one 7)) 2
    && reads [0b0_001_01_1101111_00000_00000_00000_0_010, 0x00000007] (.brk hg (.one 7)) 2) = true := by decide +kernel

/-- Row 7 of the map of R60 (R211-R243): word by word C, S, L, OP, D, A, B, N, P (R41). -/
theorem test_decode_row7 : (
    reads [0b0_001_00_1110000_00011_00101_10001_0_010] (.mma hg 3 5 17) 1
    && reads [0b0_001_00_1110001_00011_00101_10001_0_010] (.mmas hg 3 5 17) 1
    && reads [0b0_001_00_1110010_00011_00101_10001_0_010] (.mmat hg 3 5 17) 1
    && reads [0b0_001_00_1110011_00011_00000_00000_0_010] (.accz hg 3) 1
    && reads [0b0_001_00_1110100_00011_00101_10001_0_010] (.accrd hg 3 5 17) 1
    && reads [0b0_001_00_1110101_00011_00101_10001_0_010] (.accwr hg 3 5 17) 1
    && reads [0b0_001_00_1110110_00000_00101_10001_0_010] (.acccvt hg 5 17) 1
    && reads [0b0_001_00_1110111_00000_00101_00000_0_010] (.txf hg 5) 1
    && reads [0b0_001_00_1111000_00000_00101_00000_0_010] (.txw hg (.reg 5)) 1
    && reads [0b0_001_01_1111000_00000_00000_00000_0_010, 0x00000004] (.txw hg (.ext 4)) 2
    && reads [0b0_001_00_1111001_00111_00101_00000_0_010] (.scfg hg 7 5) 1
    && reads [0b0_001_00_1111010_00011_10111_00110_0_010] (.qpop hg 3 true 7 6) 1
    && reads [0b0_001_00_1111011_00111_00101_00001_0_010] (.qpush hg 7 5 true) 1
    && reads [0b0_001_00_1111100_00111_00000_00000_0_010] (.sctlStart hg 7) 1
    && reads [0b0_001_00_1111100_00111_00000_00001_0_010] (.sctlStop hg 7) 1
    && reads [0b0_001_00_1111100_00111_00000_00010_0_010] (.sctlDrain hg 7) 1) = true := by decide +kernel
/-- Words of the reference (R104, R105, R110, R114, R123, R129): `mulhz`, `clz`, `plog.or`, `ffma.s`, `funary.s.rcp`, `fdot.h`. -/
theorem test_decode_reference_words : (reads [0x003B1AE0] (.mulhz h0 12 13 (.reg 14)) 1 && reads [0x00C18E00] (.clz h0 6 7) 1
    && reads [0x0132C2A0] (.plog h0 1 3 false 1 true 2) 1 && reads [0x01984430] (.ffmaS h0 1 2 (.reg 3)) 1
    && reads [0x02188630] (.funaryS h0 2 3 3) 1 && reads [0x024296C0] (.fdotH h0 10 11 (.reg 12)) 1) = true := by decide +kernel

/-- Words that are no instruction (R43, R60, R62): L = 3, unassigned codes, a sub-code without a meaning, and non-zero unused fields. -/
theorem test_decode_refuses : [[0x0C000000], [0x01680000], [0x01700000], [0x02700000], [0x02780000], [0x02F80000], [0x03E80000], [0x03F00000],
    [0x03F80000], [0x01380020], [0x0160C000], [0x03E00030], [0x00C18E10], [0x04C18E00, 0], [0x04000010, 1], [0x01778010], [0x00000008],
    [0x04000000]].all (fun (ws : List (BitVec 32)) => match decodeWords ws with | .ok _ => false | .error _ => true) = true := by
  decide +kernel

/-! ### Single instructions -/

/-- The state of launch with these registers. -/
def withRegs (l : List (RegName × Word)) : State :=
  { State.reset with threads := State.reset.threads.map fun (t : Thread) => { t with regs := l.foldl (fun r e => r.set e.1 e.2) t.regs } }

/-- The first thread's registers after one instruction. -/
def after (i : Instr) (l : List (RegName × Word)) : Option Regs :=
  match exec i (withRegs l) with
  | .next t => t.threads.head?.map (·.regs)
  | _ => none

/-- One register after one instruction. -/
def gives (i : Instr) (l : List (RegName × Word)) (r : RegName) (v : Word) : Bool := (after i l).map (fun x => x.get r) == some v

/-- The result that one instruction leaves owed. -/
def owes (i : Instr) (l : List (RegName × Word)) (r : PendRes) : Bool :=
  match exec i (withRegs l) with
  | .next t => (t.threads.head?.map (·.results)) == some [r] && (t.threads.head?.map (·.regs)) == ((withRegs l).threads.head?.map (·.regs))
  | _ => false

/-- The causes of the traps on their way after one instruction. -/
def traps (i : Instr) (l : List (RegName × Word)) (c : List Cause) : Bool :=
  match exec i (withRegs l) with | .next t => t.reports.map (·.cause) == c && t.bundles == [] | _ => false

/-- R103: sums and differences wrap. -/
theorem test_add_sub : (gives (.add h0 3 1 (.reg 2)) [(.g 1, 0xFFFFFFFFFFFFFFFF), (.g 2, 2)] (.g 3) 1
    && gives (.sub h0 3 1 (.imm 1)) [(.g 1, 0)] (.g 3) 0xFFFFFFFFFFFFFFFF
    && gives (.addw h0 3 1 (.reg 2)) [(.g 1, 0x7FFFFFFF), (.g 2, 1)] (.g 3) 0xFFFFFFFF80000000
    && gives (.subw h0 1 1 (.reg 1)) [(.g 1, 5)] (.g 1) 0) = true := by decide +kernel

/-- R23: g0 stays zero and p0 true. -/
theorem test_discarded : (gives (.add h0 0 1 (.reg 1)) [(.g 1, 5)] (.g 0) 0
    && gives (.icmp h0 0 0 1 (.imm 1)) [(.g 1, 5)] (.p 0) 1) = true := by decide +kernel

/-- R44: an extension word is sign-extended, two are one 64-bit number. -/
theorem test_immediates : (gives (.add h0 3 0 (.imm 0xFFFFFFF0)) [] (.g 3) 0xFFFFFFFFFFFFFFF0
    && gives (.add h0 3 0 (.imm64 0x11 0x22)) [] (.g 3) 0x0000002200000011) = true := by decide +kernel

/-- R103: low and high products. -/
theorem test_products : (gives (.mul h0 3 1 (.reg 2)) [(.g 1, 0x8000000000000001), (.g 2, 2)] (.g 3) 2
    && gives (.mulh h0 3 1 (.reg 2)) [(.g 1, 0xFFFFFFFFFFFFFFFF), (.g 2, 2)] (.g 3) 0xFFFFFFFFFFFFFFFF
    && gives (.mulhz h0 3 1 (.reg 2)) [(.g 1, 0xFFFFFFFFFFFFFFFF), (.g 2, 2)] (.g 3) 1
    && gives (.mulw h0 3 1 (.reg 2)) [(.g 1, 0x10000), (.g 2, 0x8000)] (.g 3) 0xFFFFFFFF80000000) = true := by decide +kernel

/-- R103. -/
theorem test_min_max : (gives (.min h0 3 1 (.reg 2)) [(.g 1, 0xFFFFFFFFFFFFFFFF), (.g 2, 2)] (.g 3) 0xFFFFFFFFFFFFFFFF
    && gives (.max h0 3 1 (.reg 2)) [(.g 1, 0xFFFFFFFFFFFFFFFF), (.g 2, 2)] (.g 3) 2
    && gives (.minz h0 3 1 (.reg 2)) [(.g 1, 0xFFFFFFFFFFFFFFFF), (.g 2, 2)] (.g 3) 2
    && gives (.maxz h0 3 1 (.reg 2)) [(.g 1, 0xFFFFFFFFFFFFFFFF), (.g 2, 2)] (.g 3) 0xFFFFFFFFFFFFFFFF) = true := by decide +kernel

/-- R104: the table of zero divisors and of the overflow. -/
theorem test_division : (owes (.div h0 3 1 (.reg 2)) [(.g 1, 7)] ⟨.g 3, 0xFFFFFFFFFFFFFFFF, 0⟩
    && owes (.rem h0 3 1 (.reg 2)) [(.g 1, 7)] ⟨.g 3, 7, 0⟩
    && owes (.div h0 3 1 (.imm 0xFFFFFFFF)) [(.g 1, 0x8000000000000000)] ⟨.g 3, 0x8000000000000000, 0⟩
    && owes (.rem h0 3 1 (.imm 0xFFFFFFFF)) [(.g 1, 0x8000000000000000)] ⟨.g 3, 0, 0⟩
    && owes (.div h0 3 1 (.imm 2)) [(.g 1, 0xFFFFFFFFFFFFFFF9)] ⟨.g 3, 0xFFFFFFFFFFFFFFFD, 0⟩
    && owes (.rem h0 3 1 (.imm 2)) [(.g 1, 0xFFFFFFFFFFFFFFF9)] ⟨.g 3, 0xFFFFFFFFFFFFFFFF, 0⟩
    && owes (.divz h0 3 1 (.reg 2)) [(.g 1, 7)] ⟨.g 3, 0xFFFFFFFFFFFFFFFF, 0⟩
    && owes (.remz h0 3 1 (.imm 4)) [(.g 1, 7)] ⟨.g 3, 3, 0⟩) = true := by decide +kernel

/-- R105. -/
theorem test_logic : (gives (.and h0 3 1 (.imm 0xF0)) [(.g 1, 0x3C)] (.g 3) 0x30
    && gives (.or h0 3 1 (.imm 0xF0)) [(.g 1, 0x3C)] (.g 3) 0xFC
    && gives (.xor h0 3 1 (.imm 0xF0)) [(.g 1, 0x3C)] (.g 3) 0xCC
    && gives (.andn h0 3 1 (.imm 0xF0)) [(.g 1, 0x3C)] (.g 3) 0x0C) = true := by decide +kernel

/-- R105: the count is src2[5:0]. -/
theorem test_shifts : (gives (.sll h0 3 1 (.imm 65)) [(.g 1, 1)] (.g 3) 2
    && gives (.srl h0 3 1 (.imm 63)) [(.g 1, 0x8000000000000000)] (.g 3) 1
    && gives (.sra h0 3 1 (.imm 63)) [(.g 1, 0x8000000000000000)] (.g 3) 0xFFFFFFFFFFFFFFFF
    && gives (.rot h0 3 1 (.imm 4)) [(.g 1, 0x12)] (.g 3) 0x2000000000000001) = true := by decide +kernel

/-- R105: 64 for zero. -/
theorem test_counts : (gives (.clz h0 3 1) [] (.g 3) 64
    && gives (.ctz h0 3 1) [] (.g 3) 64
    && gives (.clz h0 3 1) [(.g 1, 1)] (.g 3) 63
    && gives (.ctz h0 3 1) [(.g 1, 0x8000000000000000)] (.g 3) 63
    && gives (.popc h0 3 1) [(.g 1, 0xFFFFFFFFFFFFFFFF)] (.g 3) 64
    && gives (.brev h0 3 1) [(.g 1, 1)] (.g 3) 0x8000000000000000) = true := by decide +kernel

/-- R106: POS 4 and LEN 8 with sign; LEN past the top is cut. -/
theorem test_fields : (gives (.bfx h0 3 1 (.imm 0x8804)) [(.g 1, 0x0F80)] (.g 3) 0xFFFFFFFFFFFFFFF8
    && gives (.bfx h0 3 1 (.imm 0x083C)) [(.g 1, 0xA000000000000000)] (.g 3) 0xA
    && gives (.bfi h0 3 1 (.imm 0x0804)) [(.g 1, 0xAB), (.g 3, 0xFFFFFFFFFFFFFFFF)] (.g 3) 0xFFFFFFFFFFFFFABF) = true := by decide +kernel

/-- R105: 3 times 3 is 5 without carries. -/
theorem test_carryless : (gives (.clmul h0 3 1 (.imm 3)) [(.g 1, 3)] (.g 3) 5
    && gives (.clmulh h0 3 1 (.imm 2)) [(.g 1, 0x8000000000000000)] (.g 3) 1) = true := by decide +kernel

/-- R107: equal, below signed and unsigned, a common bit. -/
theorem test_icmp : (gives (.icmp h0 0 1 1 (.imm 5)) [(.g 1, 5)] (.p 1) 1
    && gives (.icmp h0 1 1 1 (.imm 0)) [(.g 1, 0xFFFFFFFFFFFFFFFF)] (.p 1) 1
    && gives (.icmp h0 2 1 1 (.imm 0)) [(.g 1, 0xFFFFFFFFFFFFFFFF)] (.p 1) 0
    && gives (.icmp h0 3 1 1 (.imm 6)) [(.g 1, 9)] (.p 1) 0) = true := by decide +kernel

/-- R108: the guard selects. -/
theorem test_sel : (gives (.sel ⟨false, 0, false, 2⟩ 3 1 (.imm 10)) [(.g 1, 5), (.p 2, 1)] (.g 3) 5
    && gives (.sel ⟨false, 0, false, 2⟩ 3 1 (.imm 10)) [(.g 1, 5)] (.g 3) 10
    && gives (.sel ⟨false, 0, true, 2⟩ 3 1 (.imm 10)) [(.g 1, 5)] (.g 3) 5) = true := by decide +kernel

/-- R109. -/
theorem test_shadd : (gives (.sh1add h0 3 1 (.imm 1)) [(.g 1, 5)] (.g 3) 11
    && gives (.sh2add h0 3 1 (.imm 1)) [(.g 1, 5)] (.g 3) 21
    && gives (.sh3add h0 3 1 (.imm 1)) [(.g 1, 5)] (.g 3) 41
    && gives (.sh4add h0 3 1 (.imm 1)) [(.g 1, 5)] (.g 3) 81) = true := by decide +kernel

/-- R110: and, or, xor, with inversion. -/
theorem test_plog : (gives (.plog h0 0 3 false 1 true 2) [(.p 1, 1)] (.p 3) 1
    && gives (.plog h0 1 3 false 1 false 2) [] (.p 3) 0
    && gives (.plog h0 2 3 false 1 false 2) [(.p 1, 1), (.p 2, 1)] (.p 3) 0) = true := by decide +kernel

/-- R111: bit 0 of the gathered byte is set; p0 is not written. -/
theorem test_pmov : (gives (.pmovPg h0 3) [(.p 1, 1), (.p 7, 1)] (.g 3) 0x83
    && gives (.pmovGp h0 1) [(.g 1, 0x80)] (.p 7) 1
    && gives (.pmovGp h0 1) [(.g 1, 0)] (.p 0) 1) = true := by decide +kernel

/-- R26, R28: the shape registers of the state of launch, TSTAMP and MODE. -/
theorem test_gets : (gives (.gets h0 3 8) [] (.g 3) 0x11
    && gives (.gets h0 3 12) [] (.g 3) 0x100010001
    && gives (.gets h0 3 14) [] (.g 3) 0
    && gives (.gets h0 3 15) [] (.g 3) 0x200) = true := by decide +kernel

/-- R27, R113: SCHK; reserved bits, FRM 5 and NTHINT 3 are illegal, CAUSE is reserved to H. -/
theorem test_sets : (gives (.sets h0 15 (.imm 0x100)) [] (.mode) 0x100
    && traps (.sets h0 15 (.imm 0x1000)) [] [.illegal]
    && traps (.sets h0 15 (.imm 0xA0)) [] [.illegal]
    && traps (.sets h0 15 (.imm 0xC00)) [] [.illegal]
    && traps (.sets h0 24 (.imm 1)) [] [.privilege]) = true := by decide +kernel

/-- R25, R114: 1 + 1; a value that is not boxed reads as the canonical NaN. -/
theorem test_fadd : (gives (.faddS h0 3 1 (.reg 1)) [(.f 1, 0xFFFFFFFF3F800000)] (.f 3) 0xFFFFFFFF40000000
    && gives (.faddS h0 3 1 (.reg 1)) [(.f 1, 0x3F800000)] (.f 3) 0xFFFFFFFF7FC00000
    && gives (.faddD h0 3 1 (.reg 1)) [(.f 1, 0x3FF0000000000000)] (.f 3) 0x4000000000000000) = true := by decide +kernel

/-- R114, R115: exact zero is +0 under RNE and −0 under RDN; overflow raises OF and NX. -/
theorem test_fsub_fmul : (gives (.fsubS h0 3 1 (.reg 1)) [(.f 1, 0xFFFFFFFF3F800000)] (.f 3) 0xFFFFFFFF00000000
    && gives (.fsubS h0 3 1 (.reg 1)) [(.f 1, 0xFFFFFFFF3F800000), (.mode, 0x240)] (.f 3) 0xFFFFFFFF80000000
    && gives (.fmulS h0 3 1 (.reg 1)) [(.f 1, 0xFFFFFFFF7F000000)] (.f 3) 0xFFFFFFFF7F800000
    && gives (.fmulS h0 3 1 (.reg 1)) [(.f 1, 0xFFFFFFFF7F000000)] (.mode) 0x205) = true := by decide +kernel

/-- R114: 1 × 1 + 1, and 0 × ∞ is invalid. -/
theorem test_ffma : (gives (.ffmaS h0 1 1 (.reg 1)) [(.f 1, 0xFFFFFFFF3F800000)] (.f 1) 0xFFFFFFFF40000000
    && gives (.ffmaD h0 3 1 (.reg 2)) [(.f 1, 0x7FF0000000000000)] (.f 3) 0x7FF8000000000000
    && gives (.ffmaD h0 3 1 (.reg 2)) [(.f 1, 0x7FF0000000000000)] (.mode) 0x210) = true := by decide +kernel

/-- R55, R114, R115: results are owed; division by zero raises DZ, the root of −1 NV. -/
theorem test_fdiv_fsqrt : (owes (.fdivS h0 3 1 (.reg 2)) [(.f 1, 0xFFFFFFFF3F800000), (.f 2, 0xFFFFFFFF00000000)] ⟨.f 3, 0xFFFFFFFF7F800000, 8⟩
    && owes (.fsqrtS h0 3 1) [(.f 1, 0xFFFFFFFFBF800000)] ⟨.f 3, 0xFFFFFFFF7FC00000, 16⟩
    && owes (.fdivD h0 3 1 (.reg 1)) [(.f 1, 0x4008000000000000)] ⟨.f 3, 0x3FF0000000000000, 0⟩
    && owes (.fsqrtD h0 3 1) [(.f 1, 0x4010000000000000)] ⟨.f 3, 0x4000000000000000, 0⟩) = true := by decide +kernel

/-- R116: −0 is below +0, and the number wins over a quiet NaN. -/
theorem test_fmin_fmax : (gives (.fminS h0 3 1 (.reg 2)) [(.f 1, 0xFFFFFFFF00000000), (.f 2, 0xFFFFFFFF80000000)] (.f 3) 0xFFFFFFFF80000000
    && gives (.fmaxD h0 3 1 (.reg 2)) [(.f 1, 0x7FF8000000000000), (.f 2, 0xBFF0000000000000)] (.f 3) 0xBFF0000000000000) = true := by decide +kernel

/-- R117: `.lt` with a quiet NaN is false and raises NV; `.un` is true. -/
theorem test_fcmp : (gives (.fcmpS h0 1 1 1 (.reg 2)) [(.f 1, 0xFFFFFFFF7FC00000), (.f 2, 0xFFFFFFFF3F800000)] (.p 1) 0
    && gives (.fcmpS h0 1 1 1 (.reg 2)) [(.f 1, 0xFFFFFFFF7FC00000), (.f 2, 0xFFFFFFFF3F800000)] (.mode) 0x210
    && gives (.fcmpD h0 3 1 1 (.reg 2)) [(.f 1, 0x7FF8000000000000)] (.p 1) 1
    && gives (.fcmpD h0 2 1 1 (.reg 1)) [(.f 1, 0x3FF0000000000000)] (.p 1) 1) = true := by decide +kernel

/-- R126: all 64 bits move. -/
theorem test_fmv : (gives (.fmv h0 3 1 0) [(.g 1, 0x12)] (.f 3) 0x12
    && gives (.fmv h0 3 1 1) [(.f 1, 0x12)] (.g 3) 0x12
    && gives (.fmv h0 3 1 2) [(.f 1, 0x12)] (.f 3) 0x12) = true := by decide +kernel

/-- R122, R123: negation, magnitude, class of +∞; the reciprocal of 0 is ∞ with DZ. -/
theorem test_funary : (gives (.funaryS h0 3 1 0) [(.f 1, 0xFFFFFFFF3F800000)] (.f 3) 0xFFFFFFFFBF800000
    && gives (.funaryD h0 3 1 1) [(.f 1, 0xBFF0000000000000)] (.f 3) 0x3FF0000000000000
    && gives (.funaryS h0 3 1 2) [(.f 1, 0xFFFFFFFF7F800000)] (.g 3) 0x80
    && gives (.funaryS h0 3 1 3) [(.f 1, 0xFFFFFFFF00000000)] (.mode) 0x208) = true := by decide +kernel

/-- R127-R131: four halves of 1.0 add to 2.0; `idot.b` saturates; `pshuf` selects bytes. -/
theorem test_packed : (gives (.paddH h0 3 1 (.reg 1)) [(.f 1, 0x3C003C003C003C00)] (.f 3) 0x4000400040004000
    && gives (.pmulH h0 3 1 (.reg 1)) [(.f 1, 0x4000400040004000)] (.f 3) 0x4400440044004400
    && gives (.pfmaH h0 3 1 (.reg 1)) [(.f 1, 0x3C003C003C003C00), (.f 3, 0x3C003C003C003C00)] (.f 3) 0x4000400040004000
    && gives (.idotB h0 3 1 (.reg 1)) [(.f 1, 0x0101010101010101), (.g 3, 0x7FFFFFFF)] (.g 3) 0x7FFFFFFF
    && gives (.pshuf h0 3 1 (.reg 2)) [(.f 1, 0x8877665544332211), (.f 2, 0x01234567)] (.f 3) 0x1122334455667788) = true := by decide +kernel

/-- R46: a false guard writes nothing, and the address advances. -/
theorem test_nop_guard : (gives (.add ⟨false, 0, false, 1⟩ 3 0 (.imm 5)) [(.g 3, 7)] (.g 3) 7
    && (match exec (.add ⟨false, 0, false, 1⟩ 3 0 (.imm 5)) State.reset with | .next t => t.threads.map (·.pc) == [8] | _ => false)
    && (match exec (.nop h0) State.reset with | .next t => t.threads.map (·.pc) == [4] | _ => false)) = true := by decide +kernel

/-- R39, R138, R201: alignment before translation, a non-canonical address, a software trap, `tlbi` at U. -/
theorem test_traps : (traps (.ld h0 3 1 3 .none) [(.g 1, 4)] [.alignment]
    && traps (.ld h0 3 1 3 .none) [(.g 1, 0x8000000000000004)] [.access]
    && traps (.trap h0 (.one 7)) [] [.softTrap]
    && traps (.tlbiCtx h0 1) [] [.privilege]
    && traps (.lda h0 3 1 3 .none) [] [.notResident]) = true := by decide +kernel

/-- R189-R191: not in a converged bundle, a convergence trap. -/
theorem test_vote_shfl : (traps (.vote h0 3 false 0 0) [] [.convergence]
    && traps (.shfl h0 3 1 2) [] [.convergence]) = true := by decide +kernel

/-- R182: the thread ends and its bundle is gone. -/
theorem test_exit : ((match exec (.exit h0) State.reset with | .next t => t.threads.map (·.status) == [.ended false] && t.bundles == [] && t.focus == none | _ => false)) = true := by decide +kernel

/-- R168, R170, R173: the offset counts from the packet; the link is the next packet boundary. -/
theorem test_transfers : ((match exec (.next h0 24) State.reset with | .next t => t.threads.map (·.pc) == [24] | _ => false)
    && (match exec (.nextp ⟨false, 0, true, 1⟩ 12 36) State.reset with | .next t => t.threads.map (·.pc) == [12] | _ => false)) = true := by decide +kernel

/-- R183, R352: RSERIAL advances, and a checkpoint with the live-in registers is being written. -/
theorem test_region : ((match exec (.region h0 0x400 0) (withRegs [(.g 10, 9)]) with | .next t => t.threads.map (fun x => (x.rserial, x.pc, x.stage.map (·.live))) == [(1, 12, some [9])] | _ => false)) = true := by decide +kernel

/-- R188, R189: a thread that names itself alone converges at once. -/
theorem test_gsync : ((match exec (.gsync h0 (.ext 1)) State.reset with | .next t => t.bundles.map (fun b => (b.hold, b.conv)) == [(.none, some 1)] | _ => false)
    && traps (.gsync h0 (.ext 2)) [] [.illegal]) = true := by decide +kernel

/-- R193: the one live thread completes a barrier for 0; two of a one-group team cannot meet 33. -/
theorem test_barrier : ((match exec (.barSync h0 1 0) State.reset with | .next t => t.teams.map (fun m => m.bars[1]?) == [some ⟨1, 0, none⟩] && t.bundles.map (·.hold) == [.none] | _ => false)
    && traps (.barArr h0 1 2) [(.g 2, 33)] [.barrier]) = true := by decide +kernel

/-- R244: an `st` and an `ld` to the aperture stand on the pending list, with their place and data. -/
theorem test_loads_issue : ((match exec (.fence h0 0b10111) State.reset with | .next t => t.threads.map (fun x => x.pending.map (·.kind)) == [[.fence 3 .sys]] | _ => false)
    && (match exec (.pfenceModule h0) State.reset with | .next t => t.threads.map (fun x => x.pending.map (·.kind)) == [[.pfence true]] | _ => false)
    && (match exec (.fence h0 0b00011) State.reset with | .next t => t.threads.map (·.pending) == [[]] | _ => false)) = true := by decide +kernel

/-- R202: at most 4095 cycles, from the next one. -/
theorem test_yield : ((match exec (.yield h0 (.imm 5000)) State.reset with | .next t => t.bundles.map (·.hold) == [.yield 4096] | _ => false)) = true := by decide +kernel

/-- R9, R388: with nothing ready a cycle passes; a correction moves the count by one. -/
theorem test_tstamp : ((match exec (.issue 0 1) State.reset with | .next t => t.tstamp == 1 | _ => false)
    && (match exec (.ptpSync true) { State.reset with tstamp := 1024 } with | .next t => t.tstamp == 1025 | _ => false)
    && (match exec (.ptpSync false) { State.reset with tstamp := 1024 } with | .next t => t.tstamp == 1024 | _ => false)) = true := by decide +kernel

/-- R309, R382: reserved bits raise an illegal-instruction exception at the hazel core. -/
theorem test_csr : ((match exec (.vkblk 3 true (some 0x1001)) State.reset with | .next t => t.hazelTraps == [(3, 2)] && t.vkblk == 0 | _ => false)
    && (match exec (.vkblk 3 true (some 0x1000)) State.reset with | .next t => t.vkblk == 0x1000 | _ => false)
    && (match exec (.vkhome 3 (some 0)) State.reset with | .next t => t.hazelTraps == [(3, 2)] | _ => false)) = true := by decide +kernel

/-- R262, R376, R399: power is lost and restored from the last epoch; a bad signature ends the boot in recovery. -/
theorem test_module : ((match exec .modulePowerLoss (State.reset.writeM 64 8 7) with | .next t => (match exec .powerRestore t with | .next u => u.readM 64 8 == 7 && u.threads == [] && u.ctxs.map (·.st) == [.lost] | _ => false) | _ => false)
    && (match exec (.bootStage false) State.reset with | .next t => t.recovery | _ => false)) = true := by decide +kernel

/-- R291: a host's write to no range of the map changes nothing. -/
theorem test_outside : (match exec (.hostAccess 0 ⟨0xFF00000000000000, 8, some 7⟩) State.reset with | .next t => t.mem == [] && t.nextId == State.reset.nextId | _ => false) = true := by decide +kernel

end

end Sys2Proof.Tests
end

