-- ==== Sys2Proof/Tests/Witness.lean ====
section
/-! SUPPORT. Witnesses: for each statement of Certificates, concrete states and operands that meet its hypotheses, clause by clause. -/

namespace Sys2Proof.Tests

section

-- One theorem after another: each evaluation has the memory of the process to itself.
set_option Elab.async false

open Sys2Proof.Machine

/-! ### States -/

/-- The state of launch, its thread without a checkpoint (so that threads compare quickly). -/
def plain : State := { State.reset with threads := State.reset.threads.map fun (t : Thread) => { t with slot0 := CkSlot.zero } }

/-- With the page at virtual 0 mapped to physical 0x200000, for U. -/
def user : State := plain.mapPage 0 true

/-- Changes the one team's kernel, context, thread, bundle or core. -/
def kern (s : State) (f : Kernel → Kernel) : State := { s with teams := s.teams.map fun (m : Team) => { m with kernel := f m.kernel } }
def team (s : State) (f : Team → Team) : State := { s with teams := s.teams.map f }
def ctxt (s : State) (f : Context → Context) : State := { s with ctxs := s.ctxs.map f }
def thr (s : State) (f : Thread → Thread) : State := { s with threads := s.threads.map f }
def bun (s : State) (f : Bundle → Bundle) : State := { s with bundles := s.bundles.map f }
def cor (s : State) (f : Core → Core) : State := { s with cores := s.cores.map f }
def regs (s : State) (l : List (RegName × Word)) : State := thr s fun t => { t with regs := l.foldl (fun r e => r.set e.1 e.2) t.regs }

/-- The same at H, with the page mapped for H. -/
def handler : State := ctxt (kern (plain.mapPage 0 false) fun k => { k with hlevel := true }) fun c => { c with handler := true }

/-- The thread and the bundle of these states. -/
def t0 (s : State) : Thread := (s.threads.head?).getD (Thread.launch ⟨0, 0, 0⟩ 0 0 0 Regs.launch)
def id0 : ThreadId := ⟨0, 0, 0⟩
def b0 (s : State) : Bundle := (s.bundles.head?).getD Bundle.reset

theorem ok_of {c : CheckRes} (h : (match c with | .ok .. => true | _ => false) = true) : ∃ loc eff, c = .ok loc eff := by
  cases c with
  | ok l e => exact ⟨l, e, rfl⟩
  | fault c => cases h

theorem fault_of {c : CheckRes} (h : (match c with | .fault _ => true | _ => false) = true) : ∃ k, c = .fault k := by
  cases c with
  | ok l e => cases h
  | fault c => exact ⟨c, rfl⟩

/-- The bundle of `s` issues at a level. -/
theorem issues_of {s : State} {hl : Bool} (h : (s.focusBundle = some (b0 s) ∧ (b0 s).ra = none) ∧ s.focusThreads = [t0 s] ∧ s.hlevel (t0 s) = hl) :
    s.IssuesAt (b0 s) hl := ⟨h.1.1, h.1.2, t0 s, [], h.2.1, h.2.2⟩

/-! ### Encoding and the step -/

theorem test_hyp_DecodeEncode : (Instr.add h0 1 2 (.reg 3)).hdr?.isSome ∧ (Instr.add h0 1 2 (.reg 3)).wf = true
    ∧ (Instr.region h0 0 0x0000FFFF).hdr?.isSome ∧ (Instr.region h0 0 0x0000FFFF).wf = true := by decide +kernel

theorem test_hyp_EncodeDecode : decodeWords [0] = .ok (.add h0 0 0 (.reg 0), 1) ∧ decodeWords (0x05280000 :: [7]) = .ok (.sh4add h0 0 0 (.imm 7), 2) :=
  ⟨rfl, rfl⟩

/-- The state of launch with `add g3, g0, #5` where it fetches. -/
def addAt : State := plain.withFetchWord 64 0x50400C000
def addI : Instr := .add h0 3 0 (.imm 5)
def addEffs : List (XEff × IcLine) := match fetchWords addAt (t0 addAt) 2 0 0 with | .ok _ e => e | .fault .. => []

theorem test_hyp_StepRunsDecoded_instruction : addAt.focusBundle = some (b0 addAt) ∧ addAt.bundleThreads (b0 addAt) = [t0 addAt]
    ∧ addAt.mayIssue (b0 addAt) = true ∧ (b0 addAt).ra = none ∧ (b0 addAt).mid = none ∧ fetchHolders addAt (t0 addAt) (t0 addAt).pc = [] ∧ addI.hdr? = some h0
    ∧ h0.c = false ∧ addI.isCommit = false ∧ addI.wf = true ∧ addI.words = 2
    ∧ fetchWords addAt (t0 addAt) 2 (t0 addAt).pc 0 = .ok (encode addI) addEffs ∧ tileIllegal addAt (t0 addAt) addI = false
    ∧ interlocked addAt [t0 addAt] [⟨(t0 addAt).pc, addI, 2⟩] = false ∧ chainWaits addAt (b0 addAt) [⟨(t0 addAt).pc, addI, 2⟩] = false
    ∧ (∀ e ∈ addEffs, addAt.xWaits e.1 = false) ∧ budgetStall addAt [t0 addAt] [⟨(t0 addAt).pc, addI, 2⟩] = false
    ∧ scoreboardTraps ((addAt.fetched 0 addEffs).withSnap (b0 addAt)) (b0 addAt) [⟨(t0 addAt).pc, addI, 2⟩] (t0 addAt).pc = [] := by
  decide +kernel

/-- A chain of an `add` and an `fadd.s`, the second of which reads what the first found: g3 and f1. -/
def chainIs : List Instr := [.add ⟨true, 0, false, 0⟩ 3 0 (.reg 0), .faddS h0 1 2 (.reg 2)]
def chained : State := plain.withFetchWord 64 ((chainIs.flatMap encode).foldr (fun w a => w.toNat + 2 ^ 32 * a) 0)
def chainEffs : List (XEff × IcLine) := ((chained.fetchesAs (t0 chained) chainIs 0 0)).getD []

theorem test_hyp_StepRunsDecoded_chain : chained.focusBundle = some (b0 chained) ∧ chained.bundleThreads (b0 chained) = [t0 chained]
    ∧ chained.mayIssue (b0 chained) = true ∧ (b0 chained).ra = none ∧ (b0 chained).mid = none ∧ (t0 chained).pc = 0
    ∧ fetchHolders chained (t0 chained) 0 = [] ∧ (chainIs.all fun i => i.wf && !i.isCommit && !tileIllegal chained (t0 chained) i) = true
    ∧ chained.fetchesAs (t0 chained) chainIs 0 0 = some chainEffs ∧ (chainEffs.all fun e => !chained.xWaits e.1) = true
    ∧ chainOk (membersFrom 0 chainIs) = true ∧ runOrder (membersFrom 0 chainIs) = membersFrom 0 chainIs := by decide +kernel

theorem test_hyp_StepRunsDecoded_chain_free : interlocked chained [t0 chained] (membersFrom 0 chainIs) = false
    ∧ chainWaits chained (b0 chained) (membersFrom 0 chainIs) = false ∧ budgetStall chained [t0 chained] (membersFrom 0 chainIs) = false
    ∧ chainStop ((chained.fetched 0 chainEffs).withSnap (b0 chained)) (b0 chained) (membersFrom 0 chainIs) = none := by decide +kernel

/-- Each member goes through, and the step leaves the bundle past both. -/
theorem test_chain_step : (match exec (.add ⟨true, 0, false, 0⟩ 3 0 (.reg 0)) (((chained.fetched 0 chainEffs).withSnap (b0 chained)).atPc (b0 chained) 0) with
      | .next t => came t (b0 chained) 0 == .through && (match exec (.faddS h0 1 2 (.reg 2)) (t.atPc (b0 chained) 4) with
        | .next u => came u (b0 chained) 4 == .through && (u.bundle? (b0 chained).id).isSome && pipeOf (.faddS h0 1 2 (.reg 2)) == .f
        | _ => false)
      | _ => false) = true
    ∧ (match step chained with | .next t => t.threads.map (·.pc) == [8] | _ => false) = true := by decide +kernel

/-- A chain of three: an `add`, an `fadd.s` and a `fence`. -/
def tripleIs : List Instr := [.add ⟨true, 0, false, 0⟩ 3 0 (.reg 0), .faddS ⟨true, 0, false, 0⟩ 1 2 (.reg 2), .fence h0 0]
def tripled : State := plain.withFetchWord 96 ((tripleIs.flatMap encode).foldr (fun w a => w.toNat + 2 ^ 32 * a) 0)
def tripleEffs : List (XEff × IcLine) := ((tripled.fetchesAs (t0 tripled) tripleIs 0 0)).getD []
theorem test_hyp_StepRunsDecoded_triple : tripled.fetchesAs (t0 tripled) tripleIs 0 0 = some tripleEffs ∧ chainOk (membersFrom 0 tripleIs) = true
    ∧ runOrder (membersFrom 0 tripleIs) = membersFrom 0 tripleIs ∧ chainWaits tripled (b0 tripled) (membersFrom 0 tripleIs) = false
    ∧ interlocked tripled [t0 tripled] (membersFrom 0 tripleIs) = false ∧ budgetStall tripled [t0 tripled] (membersFrom 0 tripleIs) = false
    ∧ chainStop ((tripled.fetched 0 tripleEffs).withSnap (b0 tripled)) (b0 tripled) (membersFrom 0 tripleIs) = none
    ∧ (match step tripled with | .next t => t.threads.map (·.pc) == [12] | _ => false) = true := by decide +kernel

/-- A `sel` with P = 0 and N = 1 stands at the PC. -/
def selN : Instr := .sel ⟨false, 0, true, 0⟩ 7 5 (.reg 6)
def selAt : State := plain.withFetchWord 32 ((encode selN).foldr (fun w a => w.toNat + 2 ^ 32 * a) 0)
theorem test_hyp_RowTwo_sel : (match fetchWords selAt (t0 selAt) selN.words 0 0 with | .ok ws _ => ws == encode selN | .fault .. => false) = true
    ∧ (chainAt selAt (t0 selAt) 0).trap = some ⟨.illegal, 0, 0, false⟩ ∧ (match decodeWords (encode selN) with | .error _ => true | .ok _ => false) = true := by
  decide +kernel

/-- The first step runs the instruction: g3 is 5. -/
theorem test_first_step : (match step addAt with | .next t => t.threads.map (fun x => (x.regs.gval 3, x.pc)) == [(5, 8)] | _ => false) = true := by
  decide +kernel

theorem test_hyp_StepRunsDecoded_event : ({ State.reset with focus := none, schedule := [.epoch, .publish 0] } : State).focusBundle = none
    ∧ ({ State.reset with focus := none, schedule := [.epoch, .publish 0] } : State).schedule = .epoch :: [.publish 0] := by decide +kernel

def fetched0 : Option (Nat × XEff × BitVec 32 × IcLine) :=
  match addAt.xlate .fetch 0 none (addAt.ctxOf (t0 addAt)) (addAt.hlevel (t0 addAt)) 4 .fetch (Config.freeBit (addAt.fresh + 0)), fetchWord addAt (t0 addAt) 4 0 with
  | .ok pa e, .ok w _ l => some (pa, e, w, l)
  | _, _ => none

theorem test_hyp_StepRunsDecoded_fetch : ∃ pa e w e' l, (addAt.ctxOf (t0 addAt)).enc = false
    ∧ (∀ y ∈ (addAt.core (t0 addAt).id.core).icache, y.line ≠ lineOf pa) ∧ pa % 4 = 0
    ∧ addAt.xlate .fetch 0 none (addAt.ctxOf (t0 addAt)) (addAt.hlevel (t0 addAt)) 4 .fetch (Config.freeBit (addAt.fresh + 0)) = .ok pa e
    ∧ canonical 4 = true ∧ fetchWord addAt (t0 addAt) 4 0 = .ok w e' l := by
  refine ⟨(fetched0.get (by decide +kernel)).1, (fetched0.get (by decide +kernel)).2.1, (fetched0.get (by decide +kernel)).2.2.1,
    (fetched0.get (by decide +kernel)).2.1, (fetched0.get (by decide +kernel)).2.2.2, ?_⟩
  decide +kernel

/-! ### Registers, special registers, traps -/

/-- Forms that run from every state need no witness beyond a state in which a thread executes them. -/
theorem test_hyp_executing : user.executing h0 = [t0 user] ∧ user.executing ⟨false, 0, false, 1⟩ = [] ∧ (t0 user).view.frm < 5 := by
  decide +kernel

theorem test_hyp_RowTwo_plog : (2 : Fin 4) ≠ 3 := by decide

theorem test_hyp_SpecialReads : WellFormed.specialNumber 14 = true ∧ WellFormed.specialNumber 26 = true
    ∧ (∀ x ∈ handler.executing h0, handler.hlevel x = true) ∧ handler.executing h0 ≠ []
    ∧ (user.teamOf (t0 user)).kernel.ca < 16 ∧ (user.teamOf (t0 user)).kernel.cb < 16 ∧ (user.teamOf (t0 user)).gdim.1 < 2 ^ 16
    ∧ (user.teamOf (t0 user)).gdim.2.1 < 2 ^ 16 ∧ (user.teamOf (t0 user)).gdim.2.2 < 2 ^ 16 := by decide +kernel

theorem test_hyp_SetsSpecial : WellFormed.specialWritable 15 = true ∧ WellFormed.specialWritable 24 = true ∧ WellFormed.specialWritable 26 = true
    ∧ (∀ x ∈ handler.executing h0, handler.hlevel x = true) ∧ (∀ x ∈ handler.executing h0, ((Src2.imm 0x89F).g x.view).extractLsb' 12 52 = 0
      ∧ (((Src2.imm 0x89F).g x.view).extractLsb' 5 3).toNat ≤ 4 ∧ ((Src2.imm 0x89F).g x.view).extractLsb' 10 2 ≠ 3)
    ∧ (∀ x ∈ handler.executing h0, ((Src2.imm 0xFF).g x.view).extractLsb' 8 56 = 0) := by decide +kernel

theorem user_issues : user.IssuesAt (b0 user) false := issues_of (by decide +kernel)
theorem handler_issues : handler.IssuesAt (b0 handler) true := issues_of (by decide +kernel)

theorem test_hyp_TakingTraps : user.IssuesAt (b0 user) false ∧ (∀ p ∈ [(⟨id0, .illegal, 0, 0, 0, false⟩ : Trap)], ∃ x ∈ user.focusThreads, x.id = p.thread)
    ∧ handler.focusBundle = some (b0 handler) ∧ (b0 handler).ra = none ∧ handler.focusThreads = [t0 handler] ∧ handler.hlevel (t0 handler) = true :=
  ⟨user_issues, by decide +kernel, by decide +kernel⟩

theorem test_hyp_FormsThatTrap : user.IssuesAt (b0 user) false ∧ (∀ x ∈ user.executing h0, user.hlevel x = false) ∧ user.executing h0 ≠ []
    ∧ (24 ≤ (26 : Fin 32).val ∧ (26 : Fin 32).val ≤ 26) := ⟨user_issues, by decide +kernel⟩

def badFrm : State := regs user [(.mode, 0x2A0)]
theorem test_hyp_FormsThatTrap_rounding : badFrm.IssuesAt (b0 badFrm) false ∧ ∃ x ∈ badFrm.executing h0, 5 ≤ x.view.frm :=
  ⟨issues_of (by decide +kernel), by decide +kernel⟩

/-! ### Rows 3 and 4 -/

theorem test_hyp_ScalarUnrounded : (25 : Fin 32).val ≤ 25 ∧ (∀ x ∈ user.executing h0, x.view.frm < 5) ∧ (23 : Fin 32).val ∈ [1, 3, 5, 23]
    ∧ (9 : Fin 32).val ≤ 9 ∧ (badFrm.executing h0).length = 1 := by decide +kernel

theorem test_hyp_RoundingResults : Fmt.fp32 ∈ [Fmt.fp64, .fp32, .bf16, .fp16, .e4m3, .e5m2, .e3m2, .e2m3, .e2m1] ∧ 0x7F800000 < 2 ^ Fmt.fp32.bits
    ∧ (Fmt.fp32.decode 0x7F800000).isNan = false ∧ (Fmt.fp32.decode 0x7F7FFFFF).isNan = false ∧ (Fmt.fp32.decode 0x7F7FFFFF).isInf = false
    ∧ Fmt.fp16 ∈ [Fmt.fp64, .fp32, .bf16, .fp16] ∧ ((Fmt.fp16.decode 0x7C01).isNan || (Fmt.fp16.decode 0).isNan) = true := by decide +kernel

/-- Finite operands 1 and 1, and -1: a sum, a product, a quotient and a root as the clauses take them, and an exact zero sum. -/
theorem test_hyp_RoundingResults_finite : Fmt.fp32.decode 0x3F800000 = .fin false (2 ^ 23) (-23) ∧ Fmt.fp32.decode 0xBF800000 = .fin true (2 ^ 23) (-23)
    ∧ Fmt.fp32.decode 0 = .fin false 0 (-149)
    ∧ (FV.fin false 1 1).scaled (-23) = (Fmt.fp32.decode 0x3F800000).scaled (-23) + (Fmt.fp32.decode 0x3F800000).scaled (-23)
    ∧ (FV.fin false 1 1).scaled (-23) = (Fmt.fp32.decode 0x3F800000).scaled (-23) - (Fmt.fp32.decode 0xBF800000).scaled (-23)
    ∧ (FV.fin true 1 0).scaled (2 * (-23)) = (Fmt.fp32.decode 0x3F800000).scaled (-23) * (Fmt.fp32.decode 0xBF800000).scaled (-23)
    ∧ (FV.fin false 1 1).scaled (2 * (-23)) = (Fmt.fp32.decode 0x3F800000).scaled (-23) * (Fmt.fp32.decode 0x3F800000).scaled (-23)
        + (Fmt.fp32.decode 0x3F800000).scaled (2 * (-23))
    ∧ (Fmt.fp32.decode 0x3F800000).scaled (-23) + (Fmt.fp32.decode 0xBF800000).scaled (-23) = 0
    ∧ (Fmt.fp32.decode 0x3F800000).scaled (-149) * (Fmt.fp32.decode 0).scaled (-149) = 0
    ∧ 2 ^ (Fmt.fp32.mbits + 3) ≤ 2 ^ 26 ∧ 2 ^ 26 * (2 ^ 23 * 2 ^ ((-23 : Int) - (-23)).toNat * 2 ^ (-26 : Int).toNat)
        ≤ 2 ^ 23 * 2 ^ ((-23 : Int) - (-23)).toNat * 2 ^ (-(-26 : Int)).toNat
    ∧ (2 ^ 26) ^ 2 * 2 ^ (2 * (-26 : Int) - (-23)).toNat = 2 ^ 23 * 2 ^ ((-23 : Int) - 2 * (-26)).toNat := by decide +kernel

/-! ### Row 5 -/

/-- The state of launch at U with one scratchpad row, every granule FULL or EMPTY, g1 at virtual 0x1000 and g2 at aperture 0. -/
def mem0 : State := regs (kern user fun k => { k with srows := 1 }) [(.g 1, 0x1000), (.g 2, apertureAddr 0)]

/-- The hypotheses of the form at place `i` of `memForms`. -/
def formMeets (i : Nat) (d a b : Fin 32) : Bool :=
  match (memForms mem0 h0 d a b .none 0 1)[i]? with
  | none => false
  | some p => p.1.instr.wf && (mem0.executing h0).all (fun x => decide ((x.pending.filter State.isLoad).length < 4))
      && (mem0.walkHolders ((mem0.performs h0 p.1).map fun x => (x, (p.1.req x).probe.ea)) == [])
      && (mem0.performs h0 p.1).all (fun x => (match mem0.checked p.1 x with | .ok .. => true | _ => false) && !(mem0.checked p.1 x).waits mem0) && mem0.performs h0 p.1 != []

theorem test_hyp_MemoryIssue : (mem0.threads.map (·.id)).Nodup ∧ mem0.saved = []
    ∧ (formMeets 0 3 1 3 && formMeets 1 4 1 4 && formMeets 2 3 1 7 && formMeets 3 3 1 0 && formMeets 4 4 2 0b01100 && formMeets 5 3 2 0b01011
      && formMeets 6 3 1 31 && formMeets 7 4 1 0b11001 && formMeets 8 3 1 3 && formMeets 0 3 2 3) = true := by decide +kernel

def mis0 : State := regs mem0 [(.g 1, 0x1001)]
theorem test_hyp_MemoryChecks : mis0.IssuesAt (b0 mis0) false ∧ ∃ p, (memForms mis0 h0 3 1 3 .none 0 1)[0]? = some p
    ∧ mis0.walkHolders ((mis0.performs h0 p.1).map fun x => (x, (p.1.req x).probe.ea)) = []
    ∧ (∀ x ∈ mis0.performs h0 p.1, (mis0.usedBy p.1 x).all (fun e => !mis0.xWaits e) = true)
    ∧ ∃ x ∈ mis0.performs h0 p.1, ∃ c, mis0.checked p.1 x = .fault c :=
  ⟨issues_of (by decide +kernel), _, rfl, by decide +kernel, by decide +kernel, t0 mis0, by decide +kernel, fault_of (by decide +kernel)⟩

theorem test_hyp_MemoryChecks_order : canonical 0x0100000000000001 = false ∧ (canonical 0x1001 = true ∧ (0x1001 : Word).toNat % 8 ≠ 0)
    ∧ (canonical (apertureAddr 8) = true ∧ (apertureAddr 8).toNat % 8 = 0 ∧ inAperture (apertureAddr 8) = true)
    ∧ (canonical 0x1000 = true ∧ (0x1000 : Word).toNat % 8 = 0 ∧ inAperture 0x1000 = false) := by decide +kernel

theorem test_hyp_MemoryChecks_passed (pick : Bool) : (∃ loc eff, mem0.check (t0 mem0) ⟨0x1FFFF8, 8, .write, .any, false⟩ pick = .ok loc eff)
    ∧ ∃ loc eff, mem0.check (t0 mem0) ⟨apertureAddr 0x3F8, 8, .write, .aperture, false⟩ pick = .ok loc eff :=
  ⟨ok_of (by cases pick <;> decide +kernel), ok_of (by cases pick <;> decide +kernel)⟩

theorem test_hyp_NonResident_passes : (mem0.threads.map (·.id)).Nodup ∧ (∀ x ∈ mem0.executing h0, (x.pending.filter State.isLoad).length < 4)
    ∧ mem0.walkHolders ((mem0.executing h0).map fun x => (x, effAddr (x.view.gval 1) .none)) = []
    ∧ (∀ x ∈ mem0.executing h0, mem0.check x ⟨effAddr (x.view.gval 1) .none, 8, .read, .any, true⟩ (mem0.stalePick x.id.lane) ≠ .fault .watchpoint
      ∧ (mem0.check x ⟨effAddr (x.view.gval 1) .none, 8, .read, .any, true⟩ (mem0.stalePick x.id.lane)).waits mem0 = false)
    ∧ (∀ x ∈ mem0.executing h0, mem0.check x ⟨effAddr (x.view.gval 31) (.one 0x200000), 8, .read, .any, true⟩ (mem0.stalePick x.id.lane) = .fault .notResident) := by
  decide +kernel

theorem test_hyp_NonResident_pgreq : mem0.walkHolders ((mem0.executing h0).map fun x => (x, effAddr (x.view.gval 2) .none)) = []
    ∧ (∀ x ∈ mem0.executing h0, inAperture (effAddr (x.view.gval 2) .none) = true) := by decide +kernel

/-- One access on the thread's list, and one entry of its own in the buffer of its core. -/
def acc (k : AccKind) (l : Loc) (n d : Nat) : Access := { iid := 9, iaddr := 0, va := 0, kind := k, loc := l, size := n, data := d, serial := 0, hint := .normal, begun := false, replay := false }
def pend (s : State) (k : AccKind) (l : Loc) (n d : Nat) : State := thr s fun t => { t with pending := [acc k l n d] }
def oneEntry : TbItem := .entry 5 0x10080 0xFF 0x1122334455667788 [(id0, 0)]
def buf (s : State) : State := cor s fun c => { c with tb := [oneEntry] }

theorem test_hyp_Fences_issue : ((0b00011 : Fin 32).val / 4 % 8 = 0) ∧ ¬((0b10111 : Fin 32).val / 4 % 8 = 0) := by decide

/-- The thread stands at `id0`, its access 9 is eligible. -/
def stands (s : State) (a : Access) : Bool := s.thread? id0 == some (t0 s) && s.powered? id0 == some (t0 s) && eligible (t0 s) 9 == some a

theorem test_hyp_Fences_perform : (stands (pend user (.fence 3 .sys) (.dev 0) 0 0) (acc (.fence 3 .sys) (.dev 0) 0 0)
    && stands (buf (pend user (.fence 1 .team) (.dev 0) 0 0)) (acc (.fence 1 .team) (.dev 0) 0 0)
    && stands (pend user (.pfence true) (.dev 0) 0 0) (acc (.pfence true) (.dev 0) 0 0)) = true
    ∧ ((pend user (.fence 3 .sys) (.dev 0) 0 0).core 0).tb = [] ∧ ((buf user).core 0).tb ≠ [] ∧ (t0 user).stage = none := by decide +kernel

/-- A tag-only table of few lines has room. -/
theorem room_of_few {s : State} (h : s.tagOnly.length ≤ 256) : s.tagOver = none := by
  simp only [State.tagOver, List.find?_eq_none, decide_eq_true_eq, Nat.not_lt]
  intro l _
  exact Nat.le_trans (List.length_filter_le _ _) (Nat.le_trans (List.length_filter_le _ _) h)
theorem test_hyp_Fences_room : (placeMarker (buf user) 0 true).tagOver = none := room_of_few (by decide +kernel)

/-- A full fence that has placed its marker, 8, which stands in the buffer or has gone. -/
def waiting (s : State) : State := pend s (.fence 3 .sys) (.dev 0) 0 9
theorem test_hyp_Fences_full : (stands (waiting user) (acc (.fence 3 .sys) (.dev 0) 0 9)) = true ∧ markerGone (waiting user) 0 (9 - 1) = true
    ∧ markerGone (waiting (cor user fun c => { c with tb := [oneEntry, .marker 8] })) 0 (9 - 1) = false := by decide +kernel

/-! ### Translation -/

theorem leaf_of {r : WalkRes} (h : (match r with | .leaf .. => true | _ => false) = true) : ∃ e a p nl, r = .leaf e a p nl := by
  cases r with
  | leaf e a p nl => exact ⟨e, a, p, nl, rfl⟩
  | notResident => cases h
  | format => cases h
  | access => cases h

theorem xok_of {r : XRes} (h : (match r with | .ok .. => true | _ => false) = true) : ∃ pa eff, r = .ok pa eff := by
  cases r with
  | ok pa e => exact ⟨pa, e, rfl⟩
  | fault c => cases h

/-- The context of the state of launch. -/
def c0 (s : State) : Context := (s.ctxs.head?).getD Context.reset

theorem test_hyp_TranslationTlbs_leaf : ∃ e a p nl, user.walkTables (c0 user) 0x1FFFFF = .leaf e a p nl := leaf_of (by decide +kernel)

theorem test_hyp_TranslationTlbs_translates (pick : Bool) :
    (∃ pa eff, user.xlate .access 0 (some 0) (c0 user) false 0x1000 .read pick = .ok pa eff)
    ∧ (∃ pa eff, user.xlate .access 0 (some 0) (c0 user) false 0x1000 .write pick = .ok pa eff)
    ∧ (∃ pa eff, handler.xlate .access 0 (some 0) (c0 handler) true 0x1000 .rmw pick = .ok pa eff)
    ∧ ∃ pa eff, user.xlate .fetch 0 none (c0 user) false 0x1000 .fetch pick = .ok pa eff :=
  ⟨xok_of (by cases pick <;> decide +kernel), xok_of (by cases pick <;> decide +kernel), xok_of (by cases pick <;> decide +kernel),
    xok_of (by cases pick <;> decide +kernel)⟩

theorem test_hyp_TranslationTlbs_walk : user.ctx? 0 = some (c0 user) ∧ canonical 0x0100000000000000 = false ∧ canonical 0x200000 = true
    ∧ heldBy user none (user.walkLines (c0 user) 0x200000) = [] ∧ heldBy user none (user.walkLines (c0 user) 0x1000) = []
    ∧ (∀ pick, user.walkFor 0 (c0 user) 0x200000 pick = .notResident)
    ∧ user.moves = [] := by decide +kernel

theorem test_hyp_TranslationTlbs_walk_leaf : ∃ e a p nl, ∀ pick, user.walkFor 0 (c0 user) 0x1000 pick = .leaf e a p nl := by
  obtain ⟨e, a, p, nl, h⟩ := leaf_of (r := user.walkFor 0 (c0 user) 0x1000 false) (by decide +kernel)
  exact ⟨e, a, p, nl, fun pick => by cases pick <;> rw [← h]; decide +kernel⟩

theorem test_hyp_TranslationTlbs_tlbi : (∀ x ∈ handler.executing h0, handler.hlevel x = true) ∧ handler.executing h0 ≠ []
    ∧ ∀ y ∈ handler.threads, y.pending = [] := by decide +kernel

/-! ### Accesses perform -/

def ldDst : LoadDst := ⟨false, 3, 3, none⟩
def pairDst : LoadDst := ⟨true, 4, 4, none⟩

/-- With one scratchpad row of the team, at row 0 of core 0. -/
def oneRow : State := kern user fun k => { k with srows := 1 }

/-- A load of M and one of the scratchpad. -/
def ldDev : State := pend user (.ld ldDst) (.dev 0x201000) 8 0
def ldSp : State := pend oneRow (.lda pairDst .sys) (.sp 0 16) 16 0

theorem test_hyp_LoadStorePerform_load : (stands ldDev (acc (.ld ldDst) (.dev 0x201000) 8 0) && stands ldSp (acc (.lda pairDst .sys) (.sp 0 16) 16 0)) = true
    ∧ heldBy ldDev (some 0) [lineOf 0x201000] = [] ∧ placeGone ldDev (t0 ldDev) (acc (.ld ldDst) (.dev 0x201000) 8 0) = false ∧ placeGone ldSp (t0 ldSp) (acc (.lda pairDst .sys) (.sp 0 16) 16 0) = false
    ∧ (ldSp.core 0).heldByOther id0 16 16 = false ∧ pairDst.d.val % 2 = 0 := by decide +kernel

/-- An `ldnr` through a window that leads nowhere. -/
def lost : Access := { acc (.ld { ldDst with pr := some 4 }) (.sp 0 16) 8 0 with va := 0x200000 }
def ldLost : State := thr oneRow fun t => { t with pending := [lost] }
theorem test_hyp_LoadStorePerform_lost : stands ldLost lost = true ∧ placeGone ldLost (t0 ldLost) lost = true
    ∧ heldBy ldLost (some 0) lost.lines = [] := by decide +kernel

/-- A load that a restore issues again. -/
def again : Access := { acc (.ld ldDst) (.dev 0x999000) 8 0 with va := 0x1000, replay := true }
def ldAgain : State := thr user fun t => { t with pending := [again] }
theorem test_hyp_LoadStorePerform_again : stands ldAgain again = true ∧ lanesOf ldAgain 9 = [(t0 ldAgain, again)]
    ∧ (∀ y ∈ ldAgain.threads, y.id.lane < 128) ∧ heldBy ldAgain none (ldAgain.probeLines (t0 ldAgain) again.va) = [] := by decide +kernel
theorem test_hyp_LoadStorePerform_again_check (pick : Bool) : (∃ loc eff, ldAgain.check { t0 ldAgain with pc := again.iaddr } again.probe pick = .ok loc eff)
    ∧ (ldAgain.check { t0 ldAgain with pc := again.iaddr } again.probe pick).waits ldAgain = false :=
  ⟨ok_of (by cases pick <;> decide +kernel), by cases pick <;> decide +kernel⟩

theorem test_hyp_LoadStorePerform_own : 0 < 8 ∧ 0x201018 % 32 + 8 ≤ 32 := by decide

def stDev : State := pend user .st (.dev 0x201018) 8 7
def stlSp : State := pend oneRow (.stl .team) (.sp 0 1016) 8 7

theorem test_hyp_LoadStorePerform_store : (stands stDev (acc .st (.dev 0x201018) 8 7) && stands stlSp (acc (.stl .team) (.sp 0 1016) 8 7)) = true
    ∧ (stDev.core 0).entryCount < 512 ∧ (t0 stlSp).gateOpen 0 = true
    ∧ placeGone stlSp (t0 stlSp) (acc (.stl .team) (.sp 0 1016) 8 7) = false ∧ 0x201018 % 32 + 8 ≤ 32
    ∧ placeGone stDev (t0 stDev) (acc .st (.dev 0x201018) 8 7) = false := by decide +kernel

/-- An `stl` to device memory behind the entry of a buffer: the tables of R298 have room for both lines. -/
def stlDev : State := buf (pend user (.stl .clu) (.dev 0x201018) 8 7)
theorem test_hyp_LoadStorePerform_release : stands stlDev (acc (.stl .clu) (.dev 0x201018) 8 7) = true ∧ (t0 stlDev).gateOpen 0 = true
    ∧ placeGone stlDev (t0 stlDev) (acc (.stl .clu) (.dev 0x201018) 8 7) = false ∧ Scope.clu.narrow = true := by decide +kernel
theorem test_hyp_LoadStorePerform_room : (placeMarker stlDev 0 true).tagOver = none ∧ (placeMarker stlSp 0 true).tagOver = none
    ∧ (narrowRelease ((tbStore (placeMarker stlDev 0 true) 0 (id0, 0) 0x201018 8 7).noteStore 0 0 0x201018 0 .normal) 0 0x201018).tagOver = none :=
  ⟨room_of_few (by decide +kernel), room_of_few (by decide +kernel), room_of_few (by decide +kernel)⟩

def stfSp : State := pend oneRow (.stf false) (.sp 0 16) 8 7
def stfWait (gran : List (Nat × Gran)) : State := cor (pend oneRow (.stf true) (.sp 0 16) 8 7) fun c => { c with gran := gran }
theorem test_hyp_FullEmpty_wait : ([[], [(1, Gran.full)]].all fun g => let s := stfWait g
      let a := acc (.stf true) (.sp 0 16) 8 7
      stands s a && !placeGone s (t0 s) a && (t0 s).gateOpen 0 && lowestLane s 9 id0 a) = true
    ∧ (stfWait []).granAt 0 16 = .empty ∧ (stfWait [(1, .full)]).granAt 0 16 = .full := by decide +kernel
def ldfSp : State := cor (pend oneRow (.ldf ldDst true) (.sp 0 16) 8 0) fun c => { c with gran := [(1, .full)] }

theorem test_hyp_FullEmpty : (stfSp.threads.map (·.id)).Nodup
    ∧ (stands stfSp (acc (.stf false) (.sp 0 16) 8 7) && stands ldfSp (acc (.ldf ldDst true) (.sp 0 16) 8 0)) = true
    ∧ lanesOf stfSp 9 = [(t0 stfSp, acc (.stf false) (.sp 0 16) 8 7)] ∧ (t0 stfSp).gateOpen 0 = true
    ∧ lowestLane stfSp 9 id0 (acc (.stf false) (.sp 0 16) 8 7) = true
    ∧ lanesOf ldfSp 9 = [(t0 ldfSp, acc (.ldf ldDst true) (.sp 0 16) 8 0)] ∧ ldfSp.granAt 0 16 = .full
    ∧ placeGone stfSp (t0 stfSp) (acc (.stf false) (.sp 0 16) 8 7) = false ∧ placeGone ldfSp (t0 ldfSp) (acc (.ldf ldDst true) (.sp 0 16) 8 0) = false
    ∧ (ldfSp.core 0).heldByOther id0 16 8 = false ∧ (t0 ldfSp).gateOpen 0 = true := by decide +kernel

def atomDev : State := pend user (.atom 0 3 .sys) (.dev 0x201018) 8 7
def casDev : State := pend user (.cas 4 0 7 .sys) (.dev 0x201018) 4 0

/-- The hypotheses of `Atomics` about one lane. -/
def oneLane (s : State) (a : Access) : Bool :=
  lanesOf s 9 == [(t0 s, a)] && (eligible (t0 s) 9).isSome && (t0 s).gateOpen 0 && !(s.core 0).gated && tbClear s 0 0x201018 a.size
    && a.lines == [lineOf 0x201018] && heldBy s none [lineOf 0x201018] == [] && !writeWaits s 0x201018 a.size
theorem test_hyp_Atomics : (oneLane atomDev (acc (.atom 0 3 .sys) (.dev 0x201018) 8 7) && oneLane casDev (acc (.cas 4 0 7 .sys) (.dev 0x201018) 4 0)) = true
    ∧ (0 : Fin 8).val ≠ 1 ∧ (7 : Fin 8).val ≠ 6 ∧ (∀ p ∈ lanesOf atomDev 9, p.2.loc = .dev 0x201018 ∧ p.2.size = 8 ∧ p.2.data < 2 ^ 64) := by
  decide +kernel

/-- Two lanes of one `atom` of 4 bytes, and of one `cas`, on one place. -/
def both (k : AccKind) : State :=
  let s := pend user k (.dev 0x201018) 4 7
  { s with threads := s.threads ++ [{ t0 s with id := ⟨0, 1, 0⟩ }] }
theorem test_hyp_Atomics_lanes : ([AccKind.atom 1 3 .sys, .cas 4 0 7 .sys].all fun k =>
      let ls := byLane ((lanesOf (both k) 9).filter fun p => p.2.isRmw)
      ls.length == 2 && ls.all fun p => p.2.loc == .dev 0x201018 && p.2.size == 4 && !placeGone (both k) p.1 p.2 && rmwReady (both k) 9 p.1 p.2) = true
    ∧ atomBytes 1 = 4 := by decide +kernel
theorem test_hyp_Atomics_ids (k : AccKind) : (both k).IdsDistinct :=
  ⟨(by decide : [id0, ⟨0, 1, 0⟩].Nodup), fun x h => nomatch h⟩

/-- A core whose latest release is the entry of its buffer. -/
def released : State := cor (buf user) fun c => { c with nh := [0x8040], ltr := some 5 }
theorem test_hyp_DrainPublish_ids : ((released.core 0).tb.map TbItem.id).Nodup ∧ 5 ∈ publishSet (released.core 0) := by decide +kernel

theorem test_hyp_DrainPublish : drainable (buf user) 0 5 = true ∧ ((buf user).core 0).tb.find? (fun i => i.isEntry 5) = some oneEntry
    ∧ publishable (buf user) 0 = true ∧ publishable (cor (buf user) fun c => { c with nh := [0x8040], ltr := some 5 }) 0 = true := by decide +kernel

/-! ### Completions -/

theorem xok_at {r : XRes} (h : (match r with | .ok _ e => e.pte.isNone | _ => false) = true) : ∃ pa eff, r = .ok pa eff ∧ eff.pte = none := by
  cases r with
  | ok pa e => exact ⟨pa, e, rfl, Option.isNone_iff_eq_none.1 h⟩
  | fault c => cases h

/-- `pref` and `ldnr` of g1 = 0x1000 in the one thread. -/
theorem test_hyp_Completions_issue : mem0.executing h0 = [t0 mem0] ∧ effAddr ((t0 mem0).view.gval 1) .none = 0x1000 ∧ canonical 0x1000 = true
    ∧ inAperture 0x1000 = false ∧ mem0.walkHolders [(t0 mem0, 0x1000)] = [] ∧ (t0 mem0).pending = [] ∧ mem0.moves = [] := by decide +kernel
/-- Nothing is latched. -/
theorem test_hyp_Completions_latch (pick : Bool) : (match mem0.xlate .access 0 (some 0) (mem0.ctxOf (t0 mem0)) (mem0.hlevel (t0 mem0)) 0x1000 .read pick with
    | .ok _ e => !e.latched | .fault _ => false) = true := by cases pick <;> decide +kernel
theorem test_hyp_Completions_found (pick : Bool) : (∃ loc eff, mem0.check (t0 mem0) ⟨0x1000, 8, .read, .any, true⟩ pick = .ok loc eff)
    ∧ (mem0.check (t0 mem0) ⟨0x1000, 8, .read, .any, true⟩ pick).waits mem0 = false
    ∧ ∃ pa eff, mem0.xlate .access 0 (some 0) (mem0.ctxOf (t0 mem0)) (mem0.hlevel (t0 mem0)) 0x1000 .read pick = .ok pa eff ∧ eff.pte = none :=
  ⟨ok_of (by cases pick <;> decide +kernel), by cases pick <;> decide +kernel, xok_at (by cases pick <;> decide +kernel)⟩

/-- A store to device memory; an entry to drain, alone in the buffer; the same as the latest release of its core. -/
theorem test_hyp_Completions_buffer : placeGone stDev (t0 stDev) (acc .st (.dev 0x201018) 8 7) = false ∧ stands stDev (acc .st (.dev 0x201018) 8 7) = true ∧ (stDev.core 0).entryCount < 512 ∧ 0x201018 % 32 + 8 ≤ 32
    ∧ ((buf user).core 0).tb = [] ++ oneEntry :: [] ∧ (buf user).gate (id0, 0) = true ∧ writeWaits (buf user) (32 * 0x10080) 32 = false ∧ (buf user).cores.map (·.nh) = [[]] ∧ (buf user).moves = []
    ∧ ((cor (buf user) fun c => { c with nh := [0x8040], ltr := some 5 }).core 0).ltr = some 5 := by decide +kernel

/-! ### Regions, results, waits -/

/-- The thread with a checkpoint being written, and a byte of the region held. -/
def staging : State := cor (thr user fun t => { t with stage := some CkSlot.zero }) fun c => { c with held := [(40, id0, 0)] }

theorem test_hyp_RegionsCheckpoints : user.focusBundle = some (b0 user) ∧ (user.threads.map (·.id)).Nodup
    ∧ (∀ x ∈ user.focusThreads, x.stage = none ∧ x.results = []) ∧ staging.thread? id0 = some (t0 staging) ∧ (t0 staging).stage = some CkSlot.zero
    ∧ staging.vkinj = [] := by decide +kernel

theorem test_hyp_RegionsCheckpoints_room : staging.tagOver = none := room_of_few (by decide +kernel)

def owing (d : ResDst) : State := thr user fun t => { t with results := [⟨d, 7, 1⟩] }

theorem test_hyp_ResultsWaits_results : ∀ d ∈ [ResDst.g 3, .f 31, .rows [(0, 5, 0)]],
    (owing d).thread? id0 = some (t0 (owing d)) ∧ (t0 (owing d)).results[0]? = some ⟨d, 7, 1⟩ := by decide +kernel

/-- A `waitc` for the word at 0x201000 (which is 0) to equal `cmp`. -/
def wait (cmp : Word) (dl : Option Nat) (m : MonState) : State := pend user (.waitc 0 1 cmp dl m) (.dev 0x201000) 8 0
def waitStands (cmp : Word) (dl : Option Nat) (m : MonState) : Bool :=
  stands (wait cmp dl m) (acc (.waitc 0 1 cmp dl m) (.dev 0x201000) 8 0) && !placeGone (wait cmp dl m) (t0 (wait cmp dl m)) (acc (.waitc 0 1 cmp dl m) (.dev 0x201000) 8 0)
  && (t0 (wait cmp dl m)).ra == none && (t0 (wait cmp dl m)).gateOpen 0
    && tbClear (wait cmp dl m) 0 0x201000 8 && heldBy (wait cmp dl m) none (acc (.waitc 0 1 cmp dl m) (.dev 0x201000) 8 0).lines == []

theorem test_hyp_ResultsWaits_waitc : (waitStands 0 none .check && waitStands 1 (some 0) .check && waitStands 1 (some 1) .check && waitStands 1 none .check
    && waitStands 0 none (.monitor true) && waitStands 0 none (.reread 0) && waitStands 0 (some 0) (.monitor false)) = true
    ∧ (wait 0 none .check).readM 0x201000 8 = 0 ∧ (wait 0 none .check).tstamp = 0
    ∧ (t0 (wait 0 (some 0) (.monitor false))).pending.length = 1 := by decide +kernel

/-! ### Control -/

theorem stays_of {s : State} {x : Thread} {a : Word}
    (h : (match s.walkTables (s.ctxOf x) a with | .leaf e _ _ _ => decide (e.tag = 2) | _ => false) = true) : s.StaysHere x a := by
  cases hw : s.walkTables (s.ctxOf x) a with
  | leaf e p l n => rw [hw] at h; exact ⟨e, p, l, n, hw, of_decide_eq_true h⟩
  | notResident => rw [hw] at h; cases h
  | format => rw [hw] at h; cases h
  | access => rw [hw] at h; cases h

theorem ids_of {s : State} (h : (s.threads.map (·.id)).Nodup ∧ ∀ x ∈ s.saved, (x.threads.map (·.id)).Nodup) : s.IdsDistinct := h

/-- With g1 at a packet, g2 at the last one of the page. -/
def jump : State := regs user [(.g 1, 0x900), (.g 2, 0x1FFFF8)]
def at0 (x : Thread) (e : Ext) : Word := BitVec.ofNat 64 (x.pc.toNat / 12 * 12) + e.signExtend 64

theorem test_hyp_SegmentsCalls_ids : jump.IdsDistinct := ids_of (by decide +kernel)

theorem test_hyp_SegmentsCalls : jump.focusBundle = some (b0 jump) ∧ jump.focusThreads = [t0 jump]
    ∧ at0 (t0 jump) 0 = 0 ∧ at0 (t0 jump) 0x7FFFFFFF = 0x7FFFFFFF ∧ (t0 jump).view.gval 1 = 0x900 ∧ (t0 jump).view.gval 2 = 0x1FFFF8
    ∧ ([0, 0x7FFFFFFF, 0x900, 0x1FFFF8].all fun (w : Word) => canonical w && (t0 jump).returned w == none) = true
    ∧ 0x900 % 12 = 0 ∧ 0x1FFFF8 % 12 = 0
    ∧ ([0, 0x900, 0x1FFFF8].all fun (w : Word) => jump.walkHolders (jump.focusThreads.map fun x => (x, w)) == []) = true
    ∧ heldBy jump none (jump.focusThreads.flatMap fun x => agentLines jump (jump.ctxOf x) 12 4) = [] := by
  decide +kernel

theorem test_hyp_SegmentsCalls_stays : jump.StaysHere (t0 jump) (at0 (t0 jump) 0) ∧ jump.StaysHere (t0 jump) ((t0 jump).view.gval 1)
    ∧ jump.StaysHere (t0 jump) ((t0 jump).view.gval 2) :=
  ⟨stays_of (by decide +kernel), stays_of (by decide +kernel), stays_of (by decide +kernel)⟩

/-- With a page of tag 01 at virtual 0x200000, g1 there, and a `region` at the return point. -/
def crossing : State := regs ((user.writeM 0x3008 8 (2 ^ 54 + 0x400 * 2 ^ 10 + 0xDF)).writeM 0x20000C 4 0x0B380000) [(.g 1, 0x200000)]

theorem test_hyp_CrossingsExits_call : crossing.focusBundle = some (b0 crossing) ∧ crossing.focusThreads = [t0 crossing]
    ∧ fateOf crossing (t0 crossing) (.call true) ((t0 crossing).view.gval 1)
        (BitVec.ofNat 64 ((((t0 crossing).pc + 4).toNat + 11) / 12 * 12)) = .cross
    ∧ (t0 crossing).returned ((t0 crossing).view.gval 1) = none ∧ quiet crossing (t0 crossing) = true
    ∧ crossing.walkHolders (crossing.focusThreads.map fun x => (x, (t0 crossing).view.gval 1)) = [] := by decide +kernel

/-- A direct call to the same page, and a return to it of a thread that came by a crossing from there. -/
def returning : State := thr crossing fun t => { t with cross := [false] }
theorem test_hyp_CrossingsExits_others : at0 (t0 crossing) 0x200000 = 0x200000 ∧ fateOf crossing (t0 crossing) (.call false) 0x200000 12 = .cross
    ∧ (t0 crossing).returned 0x200000 = none ∧ fateOf returning (t0 returning) .ret ((t0 returning).view.gval 1) 12 = .cross
    ∧ (t0 returning).returned ((t0 returning).view.gval 1) = none ∧ quiet returning (t0 returning) = true ∧ (t0 returning).view.gval 1 ≠ 0
    ∧ returning.focusBundle = some (b0 returning) ∧ returning.focusThreads = [t0 returning]
    ∧ returning.walkHolders (returning.focusThreads.map fun x => (x, (t0 returning).view.gval 1)) = []
    ∧ heldBy crossing none (crossing.focusThreads.flatMap fun x => agentLines crossing (crossing.ctxOf x) 12 4) = [] := by decide +kernel

theorem test_hyp_CrossingsExits_ids : returning.IdsDistinct ∧ crossing.IdsDistinct ∧ user.IdsDistinct :=
  ⟨ids_of (by decide +kernel), ids_of (by decide +kernel), ids_of (by decide +kernel)⟩

theorem test_hyp_CrossingsExits_exit : user.focusBundle = some (b0 user) ∧ (∀ x ∈ user.focusThreads, x.view.gval 1 = 0)
    ∧ user.walkHolders (user.focusThreads.map fun x => (x, 0)) = [] := by decide +kernel

/-- With these holds, and with a bundle in runahead. -/
def held (k : Hold) : State := bun user fun b => { b with hold := k }
def inRa : State := thr (bun user fun b => { b with ra := some ⟨id0, 9, 3, none, 0, []⟩ }) fun t =>
  { t with ra := some ⟨t.regs, 0, 24, [], false, []⟩ }

/-- At `add g3, g0, #5`, with RAEN set and a load to g3 outstanding. -/
def toRa : State := regs (pend addAt (.ld ldDst) (.dev 0x201000) 8 0) [(.mode, 0x200)]

theorem test_hyp_WaitsRunahead_entry : toRa.bundle? 0 = some (b0 toRa) ∧ toRa.bundleThreads (b0 toRa) = [t0 toRa] ∧ (b0 toRa).ra = none
    ∧ toRa.mayIssue (b0 toRa) = true ∧ (chainAt toRa (t0 toRa) (t0 toRa).pc).trap = none
    ∧ blockingLoad toRa [t0 toRa] (chainAt toRa (t0 toRa) (t0 toRa).pc).members = some (t0 toRa, acc (.ld ldDst) (.dev 0x201000) 8 0)
    ∧ (b0 toRa).mid = none ∧ (t0 toRa).regs.mode.getLsbD 9 = true ∧ (toRa.ctxOf (t0 toRa)).st = .running
    ∧ (toRa.bundles.filter fun c => c.core == (b0 toRa).core && c.lg == (b0 toRa).lg && c.ra.isSome).length = 0 := by decide +kernel

theorem test_hyp_WaitsRunahead_restore : inRa.bundle? 0 = some (b0 inRa) ∧ (b0 inRa).ra = some ⟨id0, 9, 3, none, 0, []⟩ ∧ (b0 inRa).id = 0
    ∧ ∀ x ∈ inRa.threads, x.id = id0 → ∀ a ∈ x.pending, a.iid ≠ 9 := by decide +kernel

theorem test_hyp_WaitsRunahead_ends : ∀ d ∈ [0, 1], (held (.yield d)).bundle? 0 = some (b0 (held (.yield d))) ∧ (b0 (held (.yield d))).hold = .yield d
    ∧ (held (.merge d)).bundle? 0 = some (b0 (held (.merge d))) ∧ (b0 (held (.merge d))).hold = .merge d ∧ user.tstamp = 0 := by decide +kernel

theorem test_hyp_WaitsRunahead_yield : user.executing h0 ≠ [] ∧ user.executing ⟨false, 0, false, 1⟩ = [] := by decide +kernel

/-- A thread alone at lane 0 whose g3 names itself (1), or does not (2), and its bundle at a `gsync` of the mask 1. -/
def sync (m : Word) : State := regs user [(.g 3, m)]
def synced : State := held (.gsync 4 [(0, 1)])

theorem test_hyp_GroupSync : user.focusBundle = some (b0 user) ∧ (∀ x ∈ (sync 1).executing h0, ((x.view.gval 3).setWidth 32).getLsbD (x.id.lane % 32) = true)
    ∧ (∃ x ∈ (sync 2).executing h0, ((x.view.gval 3).setWidth 32).getLsbD (x.id.lane % 32) = false)
    ∧ (sync 1).executing h0 ≠ [] := by decide +kernel

/-- No thread executes; another bundle waits at address 0 and names lane 0, or none does. -/
def named : State := { user with bundles := user.bundles ++ [{ b0 user with id := 7, lanes := [1], hold := .gsync 0 [(1, 3)] }] }
theorem test_hyp_GroupSync_none : named.executing ⟨false, 0, false, 1⟩ = [] ∧ named.focusThreads = [t0 user] ∧ named.focusBundle = some (b0 user)
    ∧ (t0 user).pc = 0 ∧ (b0 user).lanes = [0] ∧ (∃ c ∈ named.bundles, c.core = (b0 user).core ∧ c.slot = (b0 user).slot ∧ c.lg = (b0 user).lg
      ∧ c.hold = .gsync 0 [(1, 3)] ∧ (3 : BitVec 32).getLsbD 0 = true)
    ∧ user.focusThreads = [t0 user] ∧ ∀ c ∈ user.bundles, c.hold = .none := by decide +kernel

theorem test_hyp_GroupSync_level : (sync 2).IssuesAt (b0 (sync 2)) false := issues_of (by decide +kernel)

theorem test_hyp_GroupSync_done : b0 synced ∈ synced.bundles ∧ (b0 synced).hold = .gsync 4 [(0, 1)] ∧ (b0 synced).lanes ≠ []
    ∧ (∀ c ∈ synced.bundles, c = b0 synced)
    ∧ (∀ x ∈ synced.threads, x.alive = true → x.id.core = (b0 synced).core → x.id.slot = (b0 synced).slot → x.id.laneGroup = (b0 synced).lg →
        (1 : BitVec 32).getLsbD x.id.pos = true → x.id.lane ∈ (b0 synced).lanes) := by decide +kernel

/-- Lane 1 has reached the same `gsync`, under the mask 3. -/
def passed : State :=
  let s := held (.gsync 4 [(0, 3)])
  { s with threads := s.threads ++ [{ t0 s with id := ⟨0, 1, 0⟩, reached := [(0, 4, 1)] }] }
theorem test_hyp_GroupSync_reached : (b0 passed).hold = .gsync 4 [(0, 3)] ∧ (∀ c ∈ passed.bundles, c = b0 passed)
    ∧ (∀ x ∈ passed.threads, x.alive = true → (3 : BitVec 32).getLsbD x.id.pos = true → x.id.lane ∈ (b0 passed).lanes ∨ x.passed 4 0 = true)
    ∧ ∃ x ∈ passed.threads, x.id.lane ∉ (b0 passed).lanes := by decide +kernel

/-- The bundle converged under the mask 1, or under none. -/
def conv (m : Option (BitVec 32)) : State := bun user fun b => { b with conv := m }

theorem test_hyp_VoteShuffle : (conv (some 1)).focusBundle = some (b0 (conv (some 1))) ∧ (b0 (conv (some 1))).conv = some 1
    ∧ (∀ x ∈ (conv (some 1)).executing h0, (1 : BitVec 32).getLsbD (x.id.lane % 32) = true) ∧ (conv (some 1)).executing h0 ≠ []
    ∧ (3 : Fin 32).val ≤ 3 ∧ (b0 (conv none)).conv = none ∧ (conv none).executing h0 ≠ [] := by decide +kernel

theorem test_hyp_VoteShuffle_level : (conv none).IssuesAt (b0 (conv none)) false := issues_of (by decide +kernel)

/-- At barriers: no arrivals; g1 holds a target, at most 32 for a team of one group. -/
def atBar (target : Word) : State := regs user [(.g 1, target)]

theorem test_hyp_Barriers : (atBar 32).focusBundle = some (b0 (atBar 32)) ∧ (atBar 32).executing h0 = [t0 (atBar 32)] ∧ (t0 (atBar 32)).kept = none
    ∧ ((atBar 32).teamOf (t0 (atBar 32))).bars[(15 : Fin 32).val]? = some ⟨0, 0, none⟩ ∧ ((atBar 32).teamOf (t0 (atBar 32))).bars[(0 : Fin 32).val]? = some ⟨0, 0, none⟩
    ∧ (t0 (atBar 32)).pending = [] ∧ (t0 (atBar 32)).gateOpen (t0 (atBar 32)).rserial = true ∧ (t0 (atBar 32)).rowsDone = true
    ∧ ((t0 (atBar 32)).view.gval 1).toNat ≤ ((atBar 32).teamOf (t0 (atBar 32))).kernel.groups * 32
    ∧ ¬((t0 (atBar 33)).view.gval 1).toNat ≤ ((atBar 33).teamOf (t0 (atBar 33))).kernel.groups * 32 := by decide +kernel

/-- Its core's buffer holds an entry, and the tables of R298 have room for its line. -/
theorem test_hyp_Barriers_room : ((buf (atBar 32)).core (b0 (atBar 32)).core).tb ≠ [] ∧ (placeMarker (buf (atBar 32)) (b0 (atBar 32)).core true).tagOver = none :=
  ⟨by decide +kernel, room_of_few (by decide +kernel)⟩

theorem test_hyp_Barriers_level : (atBar 33).IssuesAt (b0 (atBar 33)) false ∧ (atBar 32).IdsDistinct := ⟨issues_of (by decide +kernel), ids_of (by decide +kernel)⟩

/-- Barrier 0 with target 0 complete (one live thread), barrier 1 short of its target; the bundle waits at barrier 0. -/
def barState : State := team (held (.barSync 0 0)) fun m => { m with bars := (m.bars.set 0 ⟨0, 1, some 0⟩).set 1 ⟨4, 1, some 2⟩ }

theorem test_hyp_Barriers_done : barState.teams.map (fun m => (m.bars[0]?, m.bars[1]?)) = [(some ⟨0, 1, some 0⟩, some ⟨4, 1, some 2⟩)]
    ∧ (barState.threads.filter fun x => x.team == 0 && x.alive).length = 1 ∧ (b0 barState).hold = .barSync 0 0
    ∧ (barState.threads.find? fun x => (b0 barState).has x.id) = some (t0 barState) := by decide +kernel

/-- `sysc`, `rec`, `brk` and `hresume` have a memory block at virtual 0x1000 with these four words. -/
def block (a b c d : Nat) (s : State) : State :=
  (((s.writeM 0x201000 8 a).writeM 0x201008 8 b).writeM 0x201010 8 c).writeM 0x201018 8 d

/-- With a debug monitor whose block has room for one event. -/
def debugged : State := ctxt (block 0 0 1 0x10000 user) fun c => { c with dbg := true, dbgBlk := 0x1000 }

theorem test_hyp_TrapBreakpoint : user.executing h0 = [t0 user] ∧ user.executing ⟨false, 0, false, 1⟩ = []
    ∧ (∀ x ∈ user.executing h0, (user.ctxOf x).dbg = false) ∧ laneOrder (debugged.executing h0) = [t0 debugged]
    ∧ (debugged.ctxOf (t0 debugged)).dbg = true ∧ ctxPa debugged (debugged.ctxOf (t0 debugged)) (debugged.ctxOf (t0 debugged)).dbgBlk = some 0x201000
    ∧ debugged.readM 0x201000 8 = 0 ∧ debugged.readM 0x201008 8 = 0 ∧ debugged.readM 0x201010 8 = 1 ∧ debugged.readM 0x201018 8 = 0x10000
    ∧ ctxPa debugged (debugged.ctxOf (t0 debugged)) 0x1040 = some 0x201040
    ∧ heldBy debugged none (debugLines debugged (debugged.ctxOf (t0 debugged)) 0x10000 0x1040) = []
    ∧ (∀ c ∈ debugged.bundles, c.ra = none) ∧ handler.executing h0 = [t0 handler] ∧ handler.focusThreads = [t0 handler] := by decide +kernel

theorem sok_of {r : Except Cause (Nat × XEff)} {pa : Nat} (h : (match r with | .ok (p, e) => p == pa && e.pte.isNone | .error _ => false) = true) :
    ∃ e, r = .ok (pa, e) ∧ e.pte = none := by
  match r, h with
  | .ok (p, e), h =>
    simp only [Bool.and_eq_true, beq_iff_eq, Option.isNone_iff_eq_none] at h
    exact ⟨e, by rw [h.1], h.2⟩

/-- A queue control block at virtual 0x1000 for records at 0x2000, with capacity 1 and TAIL 0 or 1, and g1 naming it. -/
def queued (tail : Nat) : State := regs (block 0x2000 1 tail 0 user) [(.g 1, 0x1000)]

theorem test_hyp_AppendService_rec : (queued 0).focusBundle = some (b0 (queued 0)) ∧ (queued 0).executing h0 = [t0 (queued 0)]
    ∧ (t0 (queued 0)).kept = none ∧ (t0 (queued 0)).id.lane < 128 ∧ (t0 (queued 0)).view.gval 1 = 0x1000
    ∧ (queued 0).readM 0x201000 8 = 0x2000 ∧ (queued 0).readM 0x201008 8 = 1 ∧ (queued 0).readM 0x201010 8 = 0 ∧ (queued 1).readM 0x201010 8 = 1
    ∧ (queued 0).readM 0x201018 8 = 0 ∧ quiet (queued 0) (t0 (queued 0)) = true
    ∧ heldBy (queued 0) none (recordWalks (queued 0) [t0 (queued 0)] 1) = [] ∧ heldBy (queued 1) none (recordWalks (queued 1) [t0 (queued 1)] 1) = []
    ∧ agentHolders (queued 0) ([t0 (queued 0)].map (fun _ => (0x201000, 64)) ++ [t0 (queued 0)].filterMap (recordPlace (queued 0) [t0 (queued 0)] 1)) = []
    ∧ laneOrder (((queued 0).executing h0).filter fun x => x.kept.isNone) = [t0 (queued 0)] ∧ 0x202000 ≠ 0x201000
    ∧ recordLocked (queued 0) [t0 (queued 0)] 1 = false
    ∧ (queued 1).executing h0 = [t0 (queued 1)] := by decide +kernel

theorem test_hyp_AppendService_checks : (∃ e, storeCheck (queued 0) (t0 (queued 0)) 0x1000 64 = .ok (0x201000, e) ∧ e.pte = none)
    ∧ (∃ e, storeCheck (queued 0) (t0 (queued 0)) 0x2000 64 = .ok (0x202000, e) ∧ e.pte = none)
    ∧ (∃ e, storeCheck (queued 1) (t0 (queued 1)) 0x1000 64 = .ok (0x201000, e) ∧ e.pte = none)
    ∧ ∃ e, storeCheck (queued 1) (t0 (queued 1)) 0x2000 64 = .ok (0x202000, e) ∧ e.pte = none :=
  ⟨sok_of (by decide +kernel), sok_of (by decide +kernel), sok_of (by decide +kernel), sok_of (by decide +kernel)⟩

theorem test_hyp_AppendService_level : (queued 1).IssuesAt (b0 (queued 1)) false ∧ (queued 0).IdsDistinct :=
  ⟨issues_of (by decide +kernel), ids_of (by decide +kernel)⟩

/-- The same block as the context's service queue, with slots at 0x3000, and a `region` with live-in g10-g17 after a `sysc` at 0. -/
def serving (tail : Nat) : State := (ctxt (block 0x3000 1 tail 0 user) fun c => { c with svcq := 0x1000 }).writeM 0x200008 4 0x3FC00

theorem test_hyp_AppendService_sysc : (serving 0).executing h0 = [t0 (serving 0)] ∧ (t0 (serving 0)).kept = none
    ∧ ctxPa (serving 0) ((serving 0).ctxOf (t0 (serving 0))) ((serving 0).ctxOf (t0 (serving 0))).svcq = some 0x201000
    ∧ followingMasks (serving 0) (t0 (serving 0)) = (0x3FC00, 0) ∧ (0x3FC00 : Ext) &&& 0x3FC00 = 0x3FC00
    ∧ (serving 0).readM 0x201000 8 = 0x3000 ∧ (serving 0).readM 0x201008 8 = 1 ∧ (serving 0).readM 0x201010 8 = 0 ∧ (serving 1).readM 0x201010 8 = 1
    ∧ (serving 0).readM 0x201018 8 = 0 ∧ quiet (serving 0) (t0 (serving 0)) = true
    ∧ heldBy (serving 0) none (agentLines (serving 0) (c0 (serving 0)) 0x1000 64 ++ agentLines (serving 0) (c0 (serving 0)) 8 4
        ++ agentLines (serving 0) (c0 (serving 0)) 12 4) = []
    ∧ heldBy (serving 0) none (continuationWalks (serving 0) (c0 (serving 0)) 0x3000 ++ continuationLines (serving 0) (c0 (serving 0)) 0x3000) = []
    ∧ serviceLocked (serving 0) (c0 (serving 0)) 0x201000 1 = false ∧ continuationMapped (serving 0) (c0 (serving 0)) 0x3000 = true ∧ laneOrder ((serving 0).executing h0) = [t0 (serving 0)]
    ∧ (∀ k, k < 24 → ctxPa (serving 0) ((serving 0).ctxOf (t0 (serving 0))) (0x3000 + BitVec.ofNat 64 (8 * k)) = some (0x203000 + 8 * k)) ∧ (∀ y ∈ (serving 0).threads, y.back = none)
    ∧ (serving 1).executing h0 = [t0 (serving 1)] := by decide +kernel

/-- Two threads come to a service queue with one slot left. -/
def servingTwo : State :=
  let s := { serving 0 with threads := (serving 0).threads ++ [{ t0 (serving 0) with id := ⟨0, 1, 0⟩ }] }
  { s with bundles := s.bundles.map fun (b : Bundle) => { b with lanes := [0, 1] } }
theorem test_hyp_AppendService_sysc_some : (laneOrder (servingTwo.executing h0)).length = 2 ∧ (∀ x ∈ servingTwo.executing h0, x.kept.isNone ∧ quiet servingTwo x = true)
    ∧ servingTwo.IssuesAt (b0 servingTwo) false ∧ servingTwo.readM 0x201008 8 = 1 ∧ servingTwo.readM 0x201010 8 = 0 ∧ servingTwo.readM 0x201018 8 = 0
    ∧ serviceLocked servingTwo (c0 servingTwo) 0x201000 1 = false :=
  ⟨by decide +kernel, by decide +kernel, ⟨by decide +kernel, by decide +kernel, t0 servingTwo, [{ t0 servingTwo with id := ⟨0, 1, 0⟩ }],
    by decide +kernel, by decide +kernel⟩, by decide +kernel, by decide +kernel, by decide +kernel, by decide +kernel⟩

theorem test_hyp_AppendService_sysc_level : (serving 1).IssuesAt (b0 (serving 1)) false := issues_of (by decide +kernel)

/-- A ticket at virtual 0x1000 whose word is `v`, and g1 naming it (or the doubleword after it), at H. -/
def ticketed (v : Nat) (g1 : Word) : State :=
  { regs (handler.writeM 0x201000 8 v) [(.g 1, g1)] with tickets := [⟨0, 0x201000, 0x1000, v != 0, false, 0, 0x200FC8, [], none⟩] }

theorem ticket_of {s : State} {x : Thread} {va : Word} {o : OpenTicket}
    (h : (match ticketAt s x va with | .ok (p, e) => p == o && e.pte.isNone | .error _ => false) = true) :
    ∃ e, ticketAt s x va = .ok (o, e) ∧ e.pte = none := by
  match hr : ticketAt s x va, h with
  | .ok (p, e), h =>
    simp only [Bool.and_eq_true, beq_iff_eq, Option.isNone_iff_eq_none] at h
    exact ⟨e, by rw [h.1], h.2⟩

theorem error_of {α β : Type} {r : Except α β} (h : (match r with | .ok _ => false | .error _ => true) = true) : ∃ c, r = .error c :=
  match r, h with
  | .error c, _ => ⟨c, rfl⟩

theorem test_hyp_TicketResolution : (ticketed 0 0x1000).focusBundle = some (b0 (ticketed 0 0x1000))
    ∧ (ticketed 0 0x1000).executing h0 = [t0 (ticketed 0 0x1000)] ∧ (ticketed 2 0x1000).executing h0 = [t0 (ticketed 2 0x1000)]
    ∧ (t0 (ticketed 0 0x1000)).kept = none ∧ (t0 (ticketed 0 0x1000)).id.lane < 128
    ∧ (ticketed 0 0x1000).hlevel (t0 (ticketed 0 0x1000)) = true ∧ (ticketed 0 0x1000).walkHolders [(t0 (ticketed 0 0x1000), 0x1000)] = []
    ∧ quiet (ticketed 0 0x1000) (t0 (ticketed 0 0x1000)) = true ∧ heldBy (ticketed 0 0x1000) none [lineOf 0x201000] = []
    ∧ ([Resolution.retry, .kill, .term].all fun k =>
        heldBy (ticketed 0 0x1000) none (resolveLines (ticketed 0 0x1000) ⟨0, 0x201000, 0x1000, false, false, 0, 0x200FC8, [], none⟩ k) == []) = true
    ∧ (ticketed 0 0x1000).readM 0x201000 8 % 4 = 0 ∧ (ticketed 2 0x1000).readM 0x201000 8 % 4 ≠ 0
    ∧ (b0 (ticketed 0 0x1008)).ra = none ∧ (ticketed 0 0x1000).thread? id0 = some (t0 (ticketed 0 0x1000)) := by decide +kernel

theorem test_hyp_TicketResolution_ticket : (∃ e, ticketAt (ticketed 0 0x1000) (t0 (ticketed 0 0x1000)) 0x1000 = .ok (⟨0, 0x201000, 0x1000, false, false, 0, 0x200FC8, [], none⟩, e)
      ∧ e.pte = none)
    ∧ (∃ e, ticketAt (ticketed 2 0x1000) (t0 (ticketed 2 0x1000)) 0x1000 = .ok (⟨0, 0x201000, 0x1000, true, false, 0, 0x200FC8, [], none⟩, e)
      ∧ e.pte = none)
    ∧ ∃ c, ticketAt (ticketed 0 0x1008) (t0 (ticketed 0 0x1008)) 0x1008 = .error c := by
  refine ⟨ticket_of (by decide +kernel), ticket_of (by decide +kernel), ?_⟩
  have h : (match ticketAt (ticketed 0 0x1008) (t0 (ticketed 0 0x1008)) 0x1008 with | .ok _ => false | .error _ => true) = true := by decide +kernel
  exact error_of h

theorem test_hyp_TicketResolution_ids : (ticketed 0 0x1000).IdsDistinct := ids_of (by decide +kernel)

/-! ### Row 7 -/

/-- A scratchpad with a frame A at row 0 and a frame B at rows 9 and 18. -/
def twoFrames (fa fb : Nat) : List Host.Cell :=
  Memory.writeLE (Memory.writeLE (Memory.writeLE [] 0 frameBytes fa) 9216 frameBytes fb) 18432 frameBytes fb

theorem frame_a (fa fb : Nat) : Memory.readLE (twoFrames fa fb) 0 frameBytes = fa % 256 ^ frameBytes := by
  rw [twoFrames, Memory.readLE_writeLE_out _ _ _ _ _ _ (.inl (by decide)), Memory.readLE_writeLE_out _ _ _ _ _ _ (.inl (by decide)), Memory.readLE_writeLE]

theorem frame_b (fa fb : Nat) : Memory.readLE (twoFrames fa fb) 9216 frameBytes = fb % 256 ^ frameBytes := by
  rw [twoFrames, Memory.readLE_writeLE_out _ _ _ _ _ _ (.inl (by decide)), Memory.readLE_writeLE]

theorem frame_c (fa fb : Nat) : Memory.readLE (twoFrames fa fb) 18432 frameBytes = fb % 256 ^ frameBytes := by
  rw [twoFrames, Memory.readLE_writeLE]

/-- The first bytes of a range. -/
theorem readLE_take (m : List Host.Cell) (a k n : Nat) (h : k ≤ n) : Memory.readLE m a k = Memory.readLE m a n % 256 ^ k := by
  induction k generalizing a n with
  | zero => simp [Memory.readLE, Nat.mod_one]
  | succ k ih =>
    obtain ⟨n, rfl⟩ : ∃ j, n = j + 1 := ⟨n - 1, by omega⟩
    have hb := (Memory.read m a).isLt
    have e : (256 : Nat) ^ (k + 1) = 256 * 256 ^ k := Nat.pow_succ'
    rw [Memory.readLE, Memory.readLE, ih (a + 1) n (by omega), e, Nat.mod_mul,
      show ((Memory.read m a).toNat + 256 * Memory.readLE m (a + 1) n) / 256 = Memory.readLE m (a + 1) n by omega]
    omega

/-- A thread whose g1 names row `a` of A and g2 names B, on a core with this scratchpad and these granules. -/
def onCore (sp : List Host.Cell) (gran : List (Nat × Gran)) (a : Word) : State :=
  regs (cor (kern user fun k => { k with srows := 27, acc := 4 }) fun c => { c with gran := gran, sp := sp }) [(.g 1, a), (.g 2, 9 * 2 ^ 10)]

/-- With the frames, every granule FULL. -/
def frames (fa fb : Nat) (a : Word) : State := onCore (twoFrames fa fb) ((List.range 1728).map fun k => (k, .full)) a

theorem onCore_core (sp : List Host.Cell) (gran : List (Nat × Gran)) (a : Word) :
    ((onCore sp gran a).core 0).sp = sp ∧ ((onCore sp gran a).core 0).gran = gran ∧ ((onCore sp gran a).core 0).held = [] := ⟨rfl, rfl, rfl⟩

theorem assocD_map (d v : Gran) (g : Nat) : ∀ l : List Nat, g ∈ l → assocD d g (l.map fun k => (k, v)) = v
  | k :: l, h => by
    simp only [List.map, assocD]
    split
    · rfl
    · exact assocD_map d v g l ((List.mem_cons.1 h).resolve_left fun e => by simp_all)

/-- Every granule of the frames is FULL. -/
theorem test_hyp_MatrixProducts_full (fa fb : Nat) (a : Word) : ∀ o ∈ [0, 9216, 18432], ∀ g, o ≤ 16 * g → 16 * g < o + frameBytes →
    ((frames fa fb a).core 0).granule g = .full := fun o ho g _ h => by
  rw [Core.granule, frames, (onCore_core _ _ _).2.1]
  refine assocD_map .empty .full g (List.range 1728) (List.mem_range.2 ?_)
  have : frameBytes = 9216 := rfl
  simp only [List.mem_cons, List.not_mem_nil, or_false] at ho
  omega

/-- What a product reads from frames that are whole: their bytes and their headers. -/
theorem test_hyp_MatrixProducts_bytes (fa fb : Nat) (a : Word) (ha : fa < 256 ^ frameBytes) (hb : fb < 256 ^ frameBytes) :
    let c := (frames fa fb a).core 0
    Memory.readLE c.sp 0 frameBytes = fa ∧ Memory.readLE c.sp 9216 frameBytes = fb ∧ Memory.readLE c.sp 18432 frameBytes = fb
    ∧ Memory.readLE c.sp 0 8 = fa % 256 ^ 8 ∧ Memory.readLE c.sp 9216 8 = fb % 256 ^ 8 ∧ Memory.readLE c.sp 18432 8 = fb % 256 ^ 8 := by
  intro c
  have e : c.sp = twoFrames fa fb := (onCore_core _ _ _).1
  have h8 : 8 ≤ frameBytes := by decide
  rw [e, readLE_take _ _ 8 _ h8, readLE_take _ 9216 8 _ h8, readLE_take _ 18432 8 _ h8, frame_a, frame_b, frame_c,
    Nat.mod_eq_of_lt ha, Nat.mod_eq_of_lt hb]
  exact ⟨rfl, rfl, rfl, rfl, rfl, rfl⟩

/-- Masks of four bits for row 31 of A. -/
def maskA : Nat := 0x0F0F0F0F * (1 + 2 ^ 32) * (1 + 2 ^ 64) * (1 + 2 ^ 128) * 2 ^ (8 * 9088)

/-- The frames meet what a product asks of headers and data: the product, its accumulator, the tile and the row of A. -/
def pairMeets (fa fb : Nat) (p : Product) (r : Acc) (row : Nat) : Bool :=
  let ha := frameHdr (fa % 256 ^ 8)
  let hb := frameHdr (fb % 256 ^ 8)
  decide (fa < 256 ^ frameBytes) && decide (fb < 256 ^ frameBytes) && !ha.violates && !dataViolatesA ha fa row && !hb.violates
    && !dataViolatesB hb fb && accOf p ha hb == some r

theorem test_hyp_MatrixProducts_pairs : (pairMeets 0x008 0x208 .mma .int32 63 && pairMeets 0x001 0x201 .mma .fp64 15 && pairMeets 0x109 0x309 .mma .fp32 0
    && pairMeets (0x408 + maskA) 0x208 .mmas .int32 31 && pairMeets 0x008 0x20A .mmat .int32 0) = true := by decide +kernel

/-- The operand words: row 63 of A for `mma` and `mmat`, row 31 for `mmas`; tiles 2 and 3 of four. -/
def wordsMeet (p : Product) (row : Word) : Bool :=
  let s := frames 0 0 row
  let x := t0 s
  s.executing h0 == [x] && !tileBad s 3 x && !tileBad s 2 x && productWords s p 1 2 [x] x == none && !rowsPending x && !spPending x
    && aFrame (x.view.gval 1) == 0 && aFrame (x.view.gval 2) == 9 && aRow (x.view.gval 1) == row.toNat && (s.teamOf x).rowLo == 0

theorem test_hyp_MatrixProducts : (wordsMeet .mma 63 && wordsMeet .mmas 31 && wordsMeet .mmat 63 && !wordsMeet .mmas 32) = true := by decide +kernel
/-- No granule has been fetched ahead of the product. -/
theorem test_hyp_MatrixProducts_core (fa fb : Nat) (a : Word) : (frames fa fb a).operandCore 0 = (frames fa fb a).core 0 := rfl
theorem test_hyp_MatrixProducts_held (fa fb : Nat) (a : Word) : ((frames fa fb a).core 0).held = [] := (onCore_core _ _ _).2.2

/-- A thread with four tiles and one frame of scratchpad, and a control word of `acccvt` in g2. -/
def tiles (w : Word) : State := regs (kern user fun k => { k with srows := 9, acc := 4 }) [(.g 2, w)]

/-- What `acccvt` asks. -/
def cvtMeets (w : Word) : Bool :=
  let s := tiles w
  let x := t0 s
  s.executing h0 == [x] && x.view.gval 2 == w && (cvtCtl w).ok ((s.teamOf x).kernel.srows * 1024) ((cvtCtl w).rowb + x.id.pos)
    && !tileBad s 3 x && !rowsPending x && !spPending x

/-- Kinds 3 to 9, B orientation of kinds 2 to 8, row 63, scaled KI8 and KF4. -/
theorem test_hyp_Accumulators : ([0x300000, 0x500000, 0x80003F, 0x4800000, 0x4900300, 0x4700300, 0x2200000, 0x280007F, 0x80000000 + 0x300000].map cvtMeets)
    = [true, true, true, true, true, true, true, false, true] := by decide +kernel

theorem test_hyp_Accumulators_tile : tileBad (tiles 0) 3 (t0 (tiles 0)) = false ∧ tileBad (tiles 0) 4 (t0 (tiles 0)) = true
    ∧ rowsPending (t0 (tiles 0)) = false ∧ (([t0 (tiles 0)].map (·.id.pos)).Nodup) := by decide +kernel

theorem test_hyp_Accumulators_ids : (tiles 0).IdsDistinct ∧ (frames 0 0 0).IdsDistinct := ⟨ids_of (by decide +kernel), ids_of (by decide +kernel)⟩

/-! ### Engines and queues -/

/-- Eight descriptor words at scratchpad offset 9216, g1 naming them. -/
def described (l : List Nat) : State :=
  regs (cor (kern user fun k => { k with srows := 10 }) fun c =>
    { c with sp := l.zipIdx.foldl (fun m e => Memory.writeLE m (9216 + 8 * e.2) 8 e.1) [] }) [(.g 1, 9216)]

/-- IN of one row of one FP64 element at 0x1000 into the frame at 0. -/
def inDesc : List Nat := [0, 0x1000, 8, 1 + 2 ^ 32, 0, 0, 0, 0]

theorem test_hyp_TileCommandsQueues_txf : laneOrder (((described inDesc).executing h0).filter fun x => !commanded (described inDesc) x) = [t0 (described inDesc)]
    ∧ descOffTrap (described inDesc) (t0 (described inDesc)) 9216 = none ∧ descWaits (described inDesc) (t0 (described inDesc)) 9216 = false
    ∧ descTrap (described inDesc) (t0 (described inDesc)) 9216 = none ∧ pendingCmds (described inDesc) 0 + 1 ≤ 256
    ∧ (t0 (described inDesc)).view.gval 1 = 9216 := by decide +kernel

theorem test_hyp_TileCommandsQueues_txw : (described inDesc).executing h0 = [t0 (described inDesc)]
    ∧ (∀ n ∈ [0, 1], (held (.txw n)).bundle? 0 = some (b0 (held (.txw n))) ∧ (b0 (held (.txw n))).hold = .txw n
        ∧ (teamOfBundle (held (.txw n)) (b0 (held (.txw n)))).isSome) := by decide +kernel

/-- Streams of two doublewords at 0x1000, one inbound, one outbound. -/
def streamIn : List Nat := [3, 0x1000, 2, 0, 8, 0, 0, 0]
def streamOut : List Nat := [0x13, 0x1000, 2, 0, 8, 0, 0, 0]
def streamD (l : List Nat) : List Word := l.map (BitVec.ofNat 64)

theorem test_hyp_TileCommandsQueues_scfg : (∀ x ∈ [t0 (described streamIn)], x.id.lane < 128 ∧ x.kept = none ∧ x.gateOpen x.rserial = true)
    ∧ (described streamIn).executing h0 = [t0 (described streamIn)] ∧ ((described streamIn).team? 0).isSome
    ∧ (7 : Fin 8).val < ((described streamIn).teamOf (t0 (described streamIn))).queues.length
    ∧ descOffTrap (described streamIn) (t0 (described streamIn)) 9216 = none ∧ descWaits (described streamIn) (t0 (described streamIn)) 9216 = false
    ∧ sdOk (readDesc (described streamIn) (t0 (described streamIn)) 9216) = true := by decide +kernel

/-- Queue 0 bound to a stream and started, with these elements read ahead. -/
def bound (l : List Nat) (ahead : List (Nat × Nat)) : State :=
  team (regs user [(.g 1, 7)]) fun m => { m with queues := m.queues.set 0 ⟨some (streamD l), true, 0, [], ahead, none, false⟩ }

/-- What the queue instructions read of queue 0. -/
def q0 (s : State) : Queue := (s.teamOf (t0 s)).queue 0

theorem test_hyp_TileCommandsQueues_sctl : (q0 (bound streamIn [])).desc = some (streamD streamIn) ∧ (q0 user).desc = none
    ∧ (((q0 (bound streamOut [])).desc.map sdOut).getD false = true) ∧ ((bound streamOut []).core 0).tb = []
    ∧ (∀ y ∈ (bound streamOut []).threads, y.pending = []) := by decide +kernel

theorem test_hyp_TileCommandsQueues_qpop : (bound streamIn [(0, 5), (1, 6)]).executing h0 = [t0 (bound streamIn [(0, 5), (1, 6)])]
    ∧ (q0 (bound streamIn [(0, 5), (1, 6)])).started = true ∧ (q0 (bound streamIn [(0, 5), (1, 6)])).frozen = none ∧ sdOut (streamD streamIn) = false ∧ sdF (streamD streamIn) = false
    ∧ sdTotal (streamD streamIn) = 2 ∧ (q0 (bound streamIn [(0, 5), (1, 6)])).pos = 0
    ∧ (q0 (bound streamIn [(0, 5), (1, 6)])).ahead = [(0, 5), (1, 6)] := by decide +kernel

theorem test_hyp_TileCommandsQueues_qpush : (bound streamOut []).executing h0 = [t0 (bound streamOut [])]
    ∧ sdOut (streamD streamOut) = true ∧ sdF (streamD streamOut) = false ∧ (q0 (bound streamOut [])).pos + (t0 (bound streamOut [])).id.lane % 32 < sdTotal (streamD streamOut)
    ∧ (bound streamOut []).walkHolders [(t0 (bound streamOut []), sdAddr (streamD streamOut) 0)] = [] ∧ sdAddr (streamD streamOut) 0 = 0x1000
    ∧ sdSize (streamD streamOut) = 8 := by decide +kernel

theorem test_hyp_TileCommandsQueues_qpush_check (pick : Bool) :
    (∃ loc eff, (bound streamOut []).checkVia none (t0 (bound streamOut [])) ⟨0x1000, 8, .write, .any, false⟩ pick = .ok loc eff)
    ∧ ((bound streamOut []).checkVia none (t0 (bound streamOut [])) ⟨0x1000, 8, .write, .any, false⟩ pick).waits (bound streamOut []) = false :=
  ⟨ok_of (by cases pick <;> decide +kernel), by cases pick <;> decide +kernel⟩

theorem engine_of {r : EngRes} {pa : Nat} (h : (match r with | .ok p e => p == pa && e.pte.isNone | .fault _ => false) = true) :
    ∃ e, r = .ok pa e ∧ e.pte = none := by
  match r, h with
  | .ok p e, h =>
    simp only [Bool.and_eq_true, beq_iff_eq, Option.isNone_iff_eq_none] at h
    exact ⟨e, by rw [h.1], h.2⟩

/-- The one team of a state. -/
def m0 (s : State) : Team := (s.teams.head?).getD Team.reset

theorem test_hyp_TileCommandsQueues_ahead : (bound streamIn [(0, 5)]).team? 0 = some (m0 (bound streamIn [(0, 5)]))
    ∧ (q0 (bound streamIn [(0, 5)])).stalled = false ∧ (q0 (bound streamIn [(0, 5)])).frozen = none ∧ nextAhead (q0 (bound streamIn [(0, 5)])) = 1
    ∧ sdAddr (streamD streamIn) 1 = 0x1008 ∧ engineHolders (bound streamIn [(0, 5)]) (m0 (bound streamIn [(0, 5)])) 0x1008 [] = []
    ∧ heldBy (bound streamIn [(0, 5)]) none [lineOf 0x201008] = [] ∧ (bound streamIn [(0, 5)]).moves = []
    ∧ ((bound streamIn [(0, 5)]).core 0).gated = false ∧ (m0 (bound streamIn [(0, 5)])).queues.length = 8 := by decide +kernel

theorem test_hyp_TileCommandsQueues_ahead_check :
    ∃ e, engineCheck (bound streamIn [(0, 5)]) (m0 (bound streamIn [(0, 5)])) .stream 0x1008 8 false = .ok 0x201008 e ∧ e.pte = none :=
  engine_of (by decide +kernel)

/-! ### The tile engine -/

/-- One command of the team in a phase, with its writes to come. -/
def command (ph : CmdPhase) (l : List Nat) (ts : List CmdTarget) (secs : List (Nat × Nat × Nat)) (status : Nat) : TileCmd :=
  { id := 7, team := 0, thread := id0, serial := 0, descAddr := apertureAddr 9216, desc := l.map (BitVec.ofNat 64), phase := ph, marker := none
    targets := ts, got := [], sectors := secs, status := status, fmask := 0, quiet := false }
def commanding (c : TileCmd) : State := { kern user fun k => { k with srows := 18 } with cmds := [c] }

theorem test_hyp_TileEngine_enqueue : (commanding (command .issued inDesc [] [] 0)).cmd? 7 = some (command .issued inDesc [] [] 0)
    ∧ mayEnqueue (commanding (command .issued inDesc [] [] 0)) (command .issued inDesc [] [] 0) = true
    ∧ ((commanding (command .issued inDesc [] [] 0)).core 0).tb = [] ∧ cmdStands (commanding (command .issued inDesc [] [] 0)) (command .issued inDesc [] [] 0) = false := by decide +kernel

/-- A command that copies frame 0 to frame 9216, on a core whose granules are FULL. -/
def copyDesc : List Nat := [3, 9216, 0, 0, 2 ^ 32, 0, 0, 0]
def copying (gran : List (Nat × Gran)) : State :=
  cor (commanding (command .reading copyDesc [] [] 0)) fun c => { c with gran := gran }
theorem copying_core (gran : List (Nat × Gran)) : ((copying gran).core 0).gran = gran ∧ ((copying gran).core 0).held = [] := ⟨rfl, rfl⟩

theorem test_hyp_TileEngine_copy : (copying []).team? 0 = some (m0 (copying [])) ∧ (m0 (copying [])).core = 0 ∧ (m0 (copying [])).rowLo = 0
    ∧ (tileDesc (command .reading copyDesc [] [] 0).desc).xop = 3 ∧ (tileDesc (command .reading copyDesc [] [] 0).desc).frame = 0 := by decide +kernel

theorem test_hyp_TileEngine_copy_full (g : Nat) (h : g < 576) :
    ((copying ((List.range 576).map fun k => (k, .full))).core 0).granule g ≠ .empty := by
  rw [Core.granule, (copying_core _).1, assocD_map .empty .full g (List.range 576) (List.mem_range.2 h)]
  decide

theorem reads_of {r : EngRead × List Nat} (h : (match r.1 with | .ok .. => true | _ => false) = true) : ∃ n s' vs, r = (.ok n s', vs) := by
  match r, h with
  | (.ok n s', vs), _ => exact ⟨n, s', vs, rfl⟩

theorem test_hyp_TileEngine_in : (∃ n s' vs, engineReads (commanding (command .reading inDesc [] [] 0)) (m0 user) .tile
      [] 0 (inRuns (tileDesc (command .reading inDesc [] [] 0).desc)).flatten [] = (.ok n s', vs))
    ∧ (tileDesc (command .reading inDesc [] [] 0).desc).xop = 0 := ⟨reads_of (by decide +kernel), by decide⟩

/-- A granule to write: of a frame of this team, or of one that is gone. -/
def grains (team : Nat) (pos : Option Nat) : TileCmd := command .writing inDesc [⟨pos, team, 0, [(0, some 5, .full), (575, none, .failed)]⟩] [] 0

theorem test_hyp_TileEngine_granule : (commanding (grains 0 none)).team? 0 = some (m0 (commanding (grains 0 none))) ∧ (commanding (grains 9 (some 0))).team? 9 = none
    ∧ (commanding (grains 0 (some 0))).teamExited (m0 (commanding (grains 0 (some 0)))) = false
    ∧ (thr (commanding (grains 0 (some 0))) fun t => { t with status := .ended false }).teamExited (m0 (commanding (grains 0 (some 0)))) = true := by
  decide +kernel

/-- A sector of virtual 0x1000 to write. -/
def sector : TileCmd := command .writing inDesc [] [(0x80, 0xFF, 5)] 0
theorem test_hyp_TileEngine_sector : engineHolders (commanding sector) (m0 (commanding sector)) 0x1000 [] = []
    ∧ heldBy (commanding sector) none [lineOf 0x201000] = [] ∧ writeWaits (commanding sector) 0x201000 32 = false := by decide +kernel
theorem test_hyp_TileEngine_sector_check : ∃ e, engineCheckMask (commanding sector) (m0 (commanding sector)) 0x1000 0xFF = .ok 0x201000 e ∧ e.pte = none :=
  engine_of (by decide +kernel)

/-- A command whose completion is to be counted. -/
theorem test_hyp_TileEngine_counting : (commanding (command .counting inDesc [] [] 0)).cmd? 7 = some (command .counting inDesc [] [] 0)
    ∧ cmdStands (commanding (command .counting inDesc [] [] 0)) (command .counting inDesc [] [] 0) = false := by decide +kernel

/-- Commands with nothing left to write: without a completion word (status 0 and 3), and with one at 0x1000. -/
def doneDesc : List Nat := [2 ^ 23, 0x1000, 8, 1 + 2 ^ 32, 0, 0, 0, 0x1000]
theorem test_hyp_TileEngine_completion : ([command .writing inDesc [] [] 0, command .writing inDesc [] [] 3, command .writing doneDesc [] [] 255].all
      fun c => c.drained && !c.quiet && decide (c.status < 256)) = true
    ∧ (tileDesc (command .writing inDesc [] [] 0).desc).cwen = false ∧ (tileDesc (command .writing doneDesc [] [] 255).desc).cwen = true
    ∧ (tileDesc (command .writing doneDesc [] [] 255).desc).doneAt = 0x1000
    ∧ engineHolders (commanding (command .writing doneDesc [] [] 255)) (m0 user) 0x1000 [] = []
    ∧ heldBy (commanding (command .writing doneDesc [] [] 255)) none [lineOf 0x201000] = [] := by decide +kernel
theorem test_hyp_TileEngine_completion_check :
    ∃ e, engineCheck (commanding (command .writing doneDesc [] [] 255)) (m0 (commanding (command .writing doneDesc [] [] 255))) .tile 0x1000 8 true
      = .ok 0x201000 e ∧ e.pte = none := engine_of (by decide +kernel)

/-! ### The fault queue, ISSUE, launches -/

/-- A report of this kind and cause to write, and a fault queue at virtual 0x1000 with entries at 0x2000. -/
def report (kind : Nat) (cause : Cause) : Report :=
  { id := 3, ctx := 0, kind := kind, cause := cause, nr := cause == .notResident, epc := 4, eaddr := 0x400000, who := 5, rentry := 8, serial := 1
    info := 8, stamp := 0, waiter := if kind = 0 then .thread id0 else .nobody }
def reporting (r : Report) (tail head : Nat) (tickets : List OpenTicket) : State :=
  { ctxt ((block 0x2000 1 tail head user).writeM 0x202038 8 1) fun c => { c with fqcb := 0x1000 } with reports := [r], tickets := tickets }

theorem test_hyp_FaultQueue_slot : ([report 0 .illegal, report 2 .tileStatus, report 4 .watchpoint].all fun r =>
      let s := reporting r 0 0 []
      s.reports.find? (fun q => q.id == r.id) == some r && s.ctx? 0 == some (c0 s) && reportReady s r && mergeEntry s r == none
        && ctxPa s (c0 s) (c0 s).fqcb == some 0x201000 && ctxPa s (c0 s) 0x2000 == some 0x202000 && s.readM 0x202038 8 != 0
        && heldBy s none (agentLines s (c0 s) 0x1000 64 ++ agentLines s (c0 s) 0x2000 64) == []) = true := by decide +kernel

theorem test_hyp_FaultQueue_full : reportReady (reporting (report 4 .watchpoint) 1 0 []) (report 4 .watchpoint) = true
    ∧ mergeEntry (reporting (report 4 .watchpoint) 1 0 []) (report 4 .watchpoint) = none
    ∧ (reporting (report 4 .watchpoint) 1 0 []).readM 0x201010 8 = 1 ∧ (reporting (report 4 .watchpoint) 1 0 []).readM 0x201018 8 = 0 := by decide +kernel

/-- A pending entry of the report's page. -/
def pendingEntry : OpenTicket := ⟨0, 0x202038, 0x2038, false, true, 0x400008, 0x202000, [.nobody], none⟩
theorem test_hyp_FaultQueue_merge : mergeEntry (reporting (report 0 .notResident) 1 0 [pendingEntry]) (report 0 .notResident) = some pendingEntry
    ∧ reportReady (reporting (report 0 .notResident) 1 0 [pendingEntry]) (report 0 .notResident) = true
    ∧ heldBy (reporting (report 0 .notResident) 1 0 [pendingEntry]) none [lineOf 0x202000] = [] := by decide +kernel

/-- With no bundle in issue. -/
def idle : State := { user with focus := none }
theorem test_hyp_Issue : (∃ b ∈ (idle.noteWaits 0 0).bundles, (b.core = 0 ∧ b.lg = 0) ∧ (idle.noteWaits 0 0).ready b = true)
    ∧ (∀ b ∈ (idle.noteWaits 0 1).bundles, (b.core = 0 ∧ b.lg = 1) → (idle.noteWaits 0 1).ready b = false) := by decide +kernel

/-! ### Launches -/

/-- A hazel thread at virtual 0x200000 with x10 = 0x1_0001_0001, no thread of a team. -/
def hz0 : Hazel :=
  { id := 5, ctx := 0, home := none, img := { imageOf (t0 user).regs with x := (imageOf (t0 user).regs).x.set 10 0x100010001 }, pc := 0x200000
    grid := none, ret := 0, asleep := false, exc := none, user := true, leaving := none, pass := none }

/-- An `entryw` at 0, and these kernels. -/
def widening (ks : List Kernel) : State :=
  { ctxt (user.writeM 0x200000 4 ((encode (.entryw h0)).headD 0).toNat) fun c => { c with kernels := ks } with hazels := [hz0] }
def wide : Kernel := { Kernel.reset with widen := true, node := false }

theorem test_hyp_WideningCalls : (widening [wide]).hazel? 5 = some hz0 ∧ (widening [wide]).ctx? 0 = some (c0 (widening [wide]))
    ∧ (∀ z ∈ (widening [wide]).hazels, z = hz0) ∧ (c0 (widening [wide])).st = .running
    ∧ heldBy (widening [wide]) none ((widening [wide]).walkLines (c0 (widening [wide])) 0) = []
    ∧ heldBy (widening [wide]) none ((widening [wide]).walkLines (c0 (widening [wide])) 0x400000) = []
    ∧ canonical 0x400000 = true ∧ (widening [wide]).walkTables (c0 (widening [wide])) 0x400000 = .notResident
    ∧ hz0.img.x[10] = 0x100010001 ∧ (widening [wide]).grids = [] := by decide +kernel

theorem test_hyp_WideningCalls_entry : ∃ h, instrAt (widening [wide]) (c0 (widening [wide])) 0 = some (.entryw h) := ⟨h0, by decide +kernel⟩
theorem test_hyp_WideningCalls_entry_refused : ∃ h, instrAt (widening []) (c0 (widening [])) 0 = some (.entryw h) := ⟨h0, by decide +kernel⟩
theorem test_hyp_WideningCalls_leaf : ∃ e a p nl, (widening [wide]).walkTables (c0 (widening [wide])) 0 = .leaf e a p nl := leaf_of (by decide +kernel)

theorem test_hyp_WideningCalls_page : (match (widening [wide]).walkTables (c0 (widening [wide])) 0 with | .leaf e _ _ _ => e.tag == 2 && e.x | _ => false) = true
    ∧ widens (widening [wide]) (c0 (widening [wide])) 0 0x100010001 = some wide ∧ widens (widening []) (c0 (widening [])) 0 0x100010001 = none := by
  decide +kernel

/-- A grid of two clusters whose first is to be placed, at the head of its queue. -/
def grid2 : Grid :=
  { id := 3, ctx := 0, kernel := wide, gdim := (2, 1, 1), args := [1, 2, 3, 4, 5, 6, 7, 8], nextCluster := 0, out := 0, killed := 0
    terminated := false, caller := 5 }
def placing : State := { widening [wide] with grids := [grid2], queues := [(0, [.grid 3])] }

theorem room_of {o : Option (Nat × List Room)} (h : (match o with | some (_, _ :: _) => true | _ => false) = true) : ∃ d r rs, o = some (d, r :: rs) := by
  match o, h with
  | some (d, r :: rs), _ => exact ⟨d, r, rs, rfl⟩

/-- The one partition of a state. -/
def p0 (s : State) : PartDesc := (s.parts.head?).getD PartDesc.whole

theorem test_hyp_Dispatch_grid : placing.part? 0 = some (p0 placing) ∧ (p0 placing).active = true ∧ headLaunch placing 0 = some (.grid 3)
    ∧ placing.grid? 3 = some grid2 ∧ ∀ g ∈ placing.grids, g = grid2 := by decide +kernel
theorem test_hyp_Dispatch_room : ∃ d r rs, findRoom placing (p0 placing) wide = some (d, r :: rs) := room_of (by decide +kernel)

/-- A node at virtual 0x1000 with a record at 0x2000, of threshold 1, its launch formed or not. -/
def node (formed : Bool) : Node :=
  { qcb := 0x1000, kernel := Kernel.reset, thresh := 1, maxwait := 0, fabric := false, pendingRecs := [(none, 0)], formed := formed }
def noding (formed : Bool) : State :=
  { ctxt (block 0x2000 4 1 0 user) fun c => { c with nodes := [node formed] } with queues := if formed then [(0, [.node 0 0x1000])] else [] }

theorem test_hyp_Dispatch_form : (noding false).ctx? 0 = some (c0 (noding false)) ∧ (c0 (noding false)).nodes.find? (fun m => m.qcb == 0x1000) = some (node false)
    ∧ ctxPa (noding false) (c0 (noding false)) 0x1000 = some 0x201000 ∧ pendingAt (noding false) 0x201000 = 1
    ∧ agentHolders (noding false) [(0x201000, 64)] = [] ∧ (node false).kernel.hlevel = false := by decide +kernel

/-- A record that has waited 16 cycles, of a node with MAXWAIT 1 and THRESH 2. -/
def aged : Node := { node false with thresh := 2, maxwait := 1 }
def aging : State := { ctxt (noding false) fun c => { c with nodes := [aged] } with tstamp := 16 }
theorem test_hyp_Dispatch_age : (c0 aging).nodes.find? (fun m => m.qcb == 0x1000) = some aged ∧ pendingAt aging 0x201000 = 1 ∧ aged.formed = false
    ∧ aged.pendingRecs = (none, 0) :: [] ∧ 16 * aged.maxwait ≤ aging.tstamp - 0 ∧ agentHolders aging [(0x201000, 64)] = [] := by decide +kernel

theorem test_hyp_Dispatch_node : (noding true).part? 0 = some (p0 (noding true)) ∧ headLaunch (noding true) 0 = some (.node 0 0x1000)
    ∧ (c0 (noding true)).nodes.find? (fun m => m.qcb == 0x1000) = some (node true) ∧ (noding true).readM 0x201008 8 = 4
    ∧ agentHolders (noding true) (launchLines (noding true) (c0 (noding true)) 0x201000 1) = []
    ∧ ctxPa (noding true) (c0 (noding true)) 0x2000 = some 0x202000 ∧ (noding true).readM 0x201000 8 = 0x2000 ∧ (noding true).readM 0x201018 8 = 0 := by
  decide +kernel
theorem test_hyp_Dispatch_node_room : ∃ d r rs, findRoom (noding true) (p0 (noding true)) Kernel.reset = some (d, r :: rs) := room_of (by decide +kernel)

/-- Its one thread has ended; the team belongs to a grid whose last or first cluster it is, or to a node. -/
def ended (o : Option Nat) (next : Nat) : State :=
  { thr (team (widening [wide]) fun m => { m with owner := o }) fun t => { t with status := .ended false }
    with grids := [{ grid2 with out := 1, nextCluster := next }] }

theorem test_hyp_Dispatch_release : (ended none 2).team? 0 = some (m0 (ended none 2)) ∧ releasable (ended none 2) (m0 (ended none 2)) = true
    ∧ (∀ o ∈ (m0 (ended none 2)).origins, o = none) ∧ releasable (ended (some 3) 2) (m0 (ended (some 3) 2)) = true
    ∧ releasable (ended (some 3) 1) (m0 (ended (some 3) 1)) = true ∧ (ended (some 3) 2).hazel? 5 = some hz0
    ∧ ((ended (some 3) 2).grid? 3).map (·.caller) = some 5
    ∧ releasable user (m0 user) = false := by decide +kernel

/-! ### The hazel side -/

/-- The thread is away as a hazel thread, its outermost transfer a call. -/
def hzAway (leaving : Option Bool) : Hazel := { hz0 with home := some id0, leaving := leaving }
def away (leaving : Option Bool) : State :=
  { thr (bun crossing fun b => b) fun t => { t with status := .away, cross := [true] } with hazels := [hzAway leaving], bundles := [] }

theorem test_hyp_HazelCrossings : awayThread (away none) id0 = some (hzAway none) ∧ (away none).thread? id0 = some (t0 (away none))
    ∧ (away none).ctx? 0 = some (c0 (away none)) ∧ (t0 (away none)).cross.head? = some true
    ∧ ([(0x20000C : Word), 0x200000, 0xC, 0x400000].all fun w => heldBy (away none) none (agentLines (away none) (c0 (away none)) w 4) == []
        && heldBy (away none) none ((away none).walkLines (c0 (away none)) w) == []) = true := by decide +kernel

/-- The four landings: a hazel function, an absent page, a packet of tag 10 (with a `region` there), and no packet of it. -/
theorem test_hyp_HazelCrossings_landing : landing (away none) (c0 (away none)) false 0x200000 = .ordinary
    ∧ landing (away none) (c0 (away none)) false 0x400000 = .pageFault true ∧ landing (away none) (c0 (away none)) false 0xC = .enter 0x20000C
    ∧ landing (away none) (c0 (away none)) false 0xD = .accessFault ∧ (away none).hlevel (t0 (away none)) = false
    ∧ (codeWord (away none) (c0 (away none)) 0x20000C 0xC).any isRegionWord = true ∧ (t0 (away none)).cross.length < 64 := by decide +kernel

theorem test_hyp_ArrivalsReplies_arrival : ([false, true].all fun n =>
      let s := away (some n)
      s.hazels.find? (fun h => h.home == some id0 && h.leaving.isSome) == some (hzAway (some n)) && s.thread? id0 == some (t0 s)
        && (t0 s).status == .away && (t0 s).stage == none && (s.ctxOf (t0 s)).st == .running && !(s.core 0).gated) = true := by decide +kernel

/-- A service queue at 0x1000 whose reply ring at 0x2000 holds one answer, the continuation at 0x3000. -/
def replied : State :=
  thr (ctxt (((((user.writeM 0x201020 8 0x2000).writeM 0x201028 8 1).writeM 0x201030 8 1).writeM 0x201038 8 0).writeM 0x202000 8 0x3000)
    fun c => { c with svcq := 0x1000 }) fun t => { t with status := .continuation 0x3000 }

theorem test_hyp_ArrivalsReplies_reply : replied.ctx? 0 = some (c0 replied) ∧ (c0 replied).st = .running ∧ ctxPa replied (c0 replied) (c0 replied).svcq = some 0x201000
    ∧ replied.readM 0x201028 8 = 1 ∧ replied.readM 0x201030 8 = 1 ∧ replied.readM 0x201038 8 = 0 ∧ ctxPa replied (c0 replied) 0x2000 = some 0x202000
    ∧ replied.readM 0x202000 8 = 0x3000 ∧ (∀ k, k < 24 → ctxPa (writeMaster replied 0x201038 8 1) (c0 replied) (0x3000 + BitVec.ofNat 64 (8 * k)) = some (0x203000 + 8 * k))
    ∧ heldBy replied none (agentLines replied (c0 replied) 0x1000 64 ++ agentLines replied (c0 replied) 0x2000 8 ++ continuationLines replied (c0 replied) 0x3000) = []
    ∧ replied.thread? id0 = some (t0 replied) ∧ (t0 replied).status = .continuation 0x3000 := by decide +kernel

/-! ### Links and masters -/

/-- Window 0 of link 0, its binding at physical 0x210000: none, or to the node of the block at 0x1000 (capacity 1), of source 5. -/
def windowed (isBound : Bool) (tail : Nat) : State :=
  let s := block 0x2000 1 tail 0 user
  let s := (s.writeM 0x210000 8 0x1000).writeM 0x210008 8 (if isBound then 2 ^ 63 + 5 * 2 ^ 32 else 0)
  { s with vkqwin := 0x210000 }

theorem test_hyp_RecordsPackets_window : (windowed true 0).powered = true ∧ bindingOf (windowed true 0) 0 0 = some ⟨0x1000, 5, 0⟩
    ∧ bindingOf (windowed false 0) 0 0 = none ∧ bindingOf (windowed true 0) 1 1023 = none
    ∧ heldBy (windowed true 0) none (physLines (bindingPa (windowed true 0) 0 0) 32) = []
    ∧ heldBy (windowed true 0) none (physLines (bindingPa (windowed true 0) 1 1023) 32) = []
    ∧ (windowed true 0).ctx? 0 = some (c0 (windowed true 0)) ∧ ctxPa (windowed true 0) (c0 (windowed true 0)) 0x1000 = some 0x201000
    ∧ recordSlot (windowed true 0) 0x201000 0 = 0x2000 ∧ recordSlot (windowed true 1) 0x201000 0 = 0x2000
    ∧ ctxPa (windowed true 0) (c0 (windowed true 0)) 0x2000 = some 0x202000
    ∧ heldBy (windowed true 0) none (agentLines (windowed true 0) (c0 (windowed true 0)) 0x1000 64 ++ agentLines (windowed true 0) (c0 (windowed true 0)) 0x2000 64) = []
    ∧ pendingAt (windowed true 0) 0x201000 = 0 ∧ pendingAt (windowed true 1) 0x201000 = 1 ∧ (windowed true 1).readM 0x201008 8 = 1
    ∧ (List.replicate 8 (7 : Word)).length = 8 ∧ writeWaits (windowed true 0) 0x201000 64 = false ∧ writeWaits (windowed true 0) 0x202000 64 = false := by decide +kernel

/-- A packet and the table entry that admits it, with its use of the budget; sources that are frozen. -/
def packet : LaunchPacket := ⟨0, 9, 0, 0x1000, 0, 0, List.replicate 8 7⟩
def admission (used : Nat) : Admission := ⟨0, 0, true, 0x1000, 9, 9, 1, used, 0, 0⟩
def admitting (used tail : Nat) (frozen : List Nat) : State :=
  { ctxt (block 0x2000 1 tail 0 user) fun c => { c with nodes := [{ node false with fabric := true }] }
    with admissions := [admission used], frozenSources := frozen }

theorem test_hyp_RecordsPackets_packet : (admitting 0 0 []).powered = true
    ∧ ((admitting 0 0 []).admissions.find? fun a => a.matches packet && admitsFabric (admitting 0 0 []) a) = some (admission 0)
    ∧ ((admitting 1 0 []).admissions.find? fun a => a.matches packet && admitsFabric (admitting 1 0 []) a) = some (admission 1)
    ∧ (user.admissions.find? fun a => a.matches packet && admitsFabric user a) = none
    ∧ packet.srcMod ∈ (admitting 0 0 [9]).frozenSources ∧ packet.srcMod ∉ (admitting 0 0 []).frozenSources
    ∧ (admission 0).used < (admission 0).budget ∧ (admission 1).budget ≤ (admission 1).used
    ∧ ctxPa (admitting 0 0 []) (c0 (admitting 0 0 [])) packet.node = some 0x201000 ∧ recordSlot (admitting 0 0 []) 0x201000 0 = 0x2000
    ∧ ctxPa (admitting 0 0 []) (c0 (admitting 0 0 [])) 0x2000 = some 0x202000
    ∧ heldBy (admitting 0 0 []) none (agentLines (admitting 0 0 []) (c0 (admitting 0 0 [])) 0x1000 64
        ++ agentLines (admitting 0 0 []) (c0 (admitting 0 0 [])) 0x2000 64) = []
    ∧ writeWaits (admitting 0 0 []) 0x201000 64 = false ∧ writeWaits (admitting 0 0 []) 0x202000 64 = false
    ∧ pendingAt (admitting 0 0 []) 0x201000 = 0 ∧ pendingAt (admitting 0 1 []) 0x201000 = 1 ∧ (admitting 0 1 []).readM 0x201008 8 = 1 := by
  decide +kernel

/-- The first and last bytes of near and of far memory, and an address between the regions; a core's window. -/
theorem test_hyp_OuterMasters : ([0, 0x7FFFFFFFF, 0x1000000000, 0x4FFFFFFFFF].all fun a => (physKind a == .near || physKind a == .far) && heldBy user none (physLines a 1) == []
      && !writeWaits user a 1) = true ∧ physKind 0x800000000 = .unmapped ∧ physKind 0x5000000000 = .unmapped
    ∧ physKind 0x8000000000 = .window ∧ (user.core ((0x8000000000 - 0x8000000000) / 0x1000000)).runs user = true ∧ user.hazel? 5 = none
    ∧ user.powered = true := by decide +kernel

theorem test_hyp_OuterMasters_hazel : (widening []).hazel? 5 = some hz0 ∧ (widening []).ctx? hz0.ctx = some (c0 (widening []))
    ∧ (c0 (widening [])).st = .running ∧ heldBy (widening []) none (agentLines (widening []) (c0 (widening [])) 0x1000 8) = [] ∧ canonical 0x1000 = true
    ∧ State.watched (c0 (widening [])) 0x201000 8 .write = false ∧ heldBy (widening []) none (physLines 0x201000 8) = []
    ∧ writeWaits (widening []) 0x201000 8 = false
    ∧ (match (widening []).walkTables (c0 (widening [])) 0x1000 with
       | .leaf e _ p _ => e.w && e.r && e.u && p &&& 0xC0 == 0xC0 && e.pbase + (0x1000 - e.vbase) == 0x201000 | _ => false) = true := by decide +kernel
/-- Entries within and beyond the tables of firmware. -/
theorem test_hyp_OuterMasters_tables : 4095 < tableEntries .context ∧ tableEntries .context ≤ 4096 ∧ 248 < tableBytes .context ∧ 248 % 8 = 0
    ∧ 0 < tableEntries .security ∧ 24 < tableBytes .security ∧ 1023 < tableEntries .admission ∧ 56 < tableBytes .admission
    ∧ tableBytes .admission ≤ 64 := by decide

theorem test_hyp_OuterMasters_leaf : ∃ e a p nl, (widening []).walkTables (c0 (widening [])) 0x1000 = .leaf e a p nl := leaf_of (by decide +kernel)

/-- A hazel core whose thread is away, one that is hazel-native, and one without; a written `vkinj`. -/
theorem test_hyp_CsrsPeriods_reads : (away none).hazel? 5 = some (hzAway none) ∧ (hzAway none).home = some id0 ∧ (widening []).hazel? 5 = some hz0
    ∧ user.hazel? 5 = none ∧ user.vkinj.find? (fun y => y.core == 0) = none
    ∧ ({ user with vkinj := [⟨0, 2 ^ 63⟩] } : State).vkinj.find? (fun y => y.core == 0) = some ⟨0, 2 ^ 63⟩ := by decide +kernel

/-- At the end of a period (of 2,048 cycles) and just before it, with a quota to come. -/
def period (now : Nat) : State := { user with tstamp := now, nextQuota := [(0, 0xFF, 3)] }
theorem test_hyp_CsrsPeriods : (period 2047).tstamp < (period 2047).periodStart + 2048 ∧ (period 2048).periodStart + 2048 ≤ (period 2048).tstamp
    ∧ heldBy (period 2048) none (nominationLines (period 2048) (nominations (period 2048))) = [] ∧ (period 2048).samples = []
    ∧ (period 2048).nextQuota.find? (fun y => y.1 == 0) = some (0, 0xFF, 3) := by decide +kernel

/-! ### Page moves -/

/-- Unit 0's block at 0x300000 with one request (at 0x301000) to move the page of virtual 0 (512 pages of 4 KiB) to `target`, its completion
word at 0x302000; the blocks of the partition are all. -/
def requesting (target : Nat) : State :=
  let s := (((user.writeM 0x300000 8 0x301000).writeM 0x300008 8 4).writeM 0x300010 8 1).writeM 0x300018 8 0
  let s := (((s.writeM 0x301000 8 0x1000).writeM 0x301008 8 0).writeM 0x301010 8 target).writeM 0x301028 8 0x302000
  { s with vkpcu := [(0, 0x300000)] }

theorem test_hyp_PageMoves_request : (requesting 0x600000).moves = [] ∧ (requesting 0x600001).moves = []
    ∧ ringRequest (requesting 0x600000) (ringBlock (requesting 0x600000) (assocD 0 0 (requesting 0x600000).vkpcu) (assocD 0 0 (requesting 0x600000).pcuBlock)).toNat 64
        = some 0x301000
    ∧ ringHolders (requesting 0x600000) (assocD 0 0 (requesting 0x600000).vkpcu) (assocD 0 0 (requesting 0x600000).pcuBlock) = []
    ∧ heldBy (requesting 0x600000) none (physLines 0x301000 64 ++ physLines 0 0 ++ [lineOf 0x302000]
        ++ moveLines (requesting 0x600000) (moveReq (requesting 0x600000) 0x301000)) = []
    ∧ (match moveStart (requesting 0x600000) 0 (moveReq (requesting 0x600000) 0x301000) with | .ok m => m.source == 0x200000 | .error _ => false) = true
    ∧ (match moveStart (requesting 0x600001) 0 (moveReq (requesting 0x600001) 0x301000) with | .ok _ => 0 | .error e => e) = 2 := by decide +kernel

/-- A move of the page of virtual 0 to 0x600000, not frozen, frozen, or with a peer's PTE; its leaf PTE stands at 0x3000. -/
def moving (frozen : Bool) (pte : Word) (peers : List (Nat × Word)) : Move :=
  { id := 4, iod := 0, ctx := 0, vpage := 0, size := 0x200000, source := 0x200000, target := 0x600000, done := 0x400000
    ptes := (0x3000, pte) :: peers, began := 0, frozen := frozen }
def inMove (m : Move) : State := { user with moves := [m], history := [⟨0, 0, [5], some 7⟩, ⟨0, 0x200000, [6], none⟩] }
def leafPte : Word := 2 * 2 ^ 54 + 0x200 * 2 ^ 10 + 0xDF

theorem test_hyp_PageMoves_freeze : ((inMove (moving false leafPte [])).moves.find? fun m => m.iod == 0 && !m.frozen && !m.blocked (inMove (moving false leafPte [])))
      = some (moving false leafPte [])
    ∧ user.readM 0x3000 8 = leafPte.toNat ∧ user.cores.map (·.nh) = [[]] := by decide +kernel

/-- No core holds any line. -/
theorem test_hyp_PageMoves_held (l : List Nat) : heldBy (inMove (moving true leafPte [])) none l = [] := by
  have h : (inMove (moving true leafPte [])).cores.all (fun c => c.nh == []) = true := by decide +kernel
  simp only [List.all_eq_true, beq_iff_eq] at h
  simp only [heldBy, List.map_eq_nil_iff, List.filter_eq_nil_iff]
  intro c hc
  simp [h c hc]

theorem test_hyp_PageMoves_release : (inMove (moving true leafPte [])).moves.find? (fun x => x.id == 4 && x.frozen) = some (moving true leafPte [])
    ∧ Memory.wf (inMove (moving true leafPte [])).mem = true
    ∧ writeWaits { inMove (moving true leafPte []) with moves := (inMove (moving true leafPte [])).moves.filter fun x => x.id != 4 } 0x600000 0x200000 = false ∧ 0x600000 % 0x200000 = 0 ∧ 0x200000 % 0x200000 = 0 ∧ 0x200000 + 0x200000 ≤ 0x600000
    ∧ (∀ q ∈ [0x3000, 0x400000], q + 8 ≤ 0x600000) ∧ 0x3000 + 8 ≤ 0x400000 := by decide +kernel

theorem test_hyp_PageMoves_peer_time : (moving true leafPte [(0x8000000000000, 1)]).began + 80000 ≤ ({ inMove (moving true leafPte []) with tstamp := 80000 } : State).tstamp
    ∧ (inMove (moving true leafPte [])).tstamp < (moving true leafPte []).began + 80000 := by decide +kernel
theorem test_hyp_PageMoves_peer : (inMove (moving true leafPte [(0x8000000000000, 1)])).moves.find? (fun x => x.id == 4)
    = some (moving true leafPte [(0x8000000000000, 1)]) ∧ (moving true leafPte [(0x8000000000000, 1)]).ptes.length ≠ (pagePtes 0x200000 0).length := by decide +kernel

/-! ### Losses and power -/

/-- An armed injection of hazel core 0 for the thread of `staging`'s checkpoint. -/
def injected : State := { staging with vkinj := [⟨0, 2 ^ 63⟩] }
theorem test_hyp_Losses : ((user.core 0).losses.filter fun x => user.tstamp ≤ x + 16000000).length < 2 ∧ (user.core 0).gated = false
    ∧ injected.vkinj.find? (fun v => v.core == 0 && v.fires injected) = some ⟨0, 2 ^ 63⟩ ∧ (∀ i ∈ (user.core 0).tb, i.waits user = false)
    ∧ (∀ i ∈ (injected.core 0).tb, i.waits injected = false) ∧ (Vkinj.target ⟨0, 2 ^ 63⟩).core = 0
    ∧ user.thread? id0 = some (t0 user) ∧ (t0 user).status = .live := by decide +kernel

/-- A slot that has been written whole is complete where its number fits, so an error in the other slot leaves one. -/
theorem sealed_complete (k : CkSlot) (h : k.seqh = 0) : k.sealed.complete 0 = true := by
  simp only [CkSlot.sealed, CkSlot.complete, CkSlot.body, h]
  simp

theorem test_hyp_Losses_slot (k : CkSlot) : (chooseSlot (CkSlot.launch 0 Regs.launch) k).isSome = true := by
  have h : (CkSlot.launch 0 Regs.launch).complete 0 = true := sealed_complete _ rfl
  rw [chooseSlot, h]
  split <;> simp_all
  split <;> rfl

/-- An error with no slot left, and errors in rows with an owner and without. -/
theorem test_hyp_Losses_errors : (chooseSlot { (t0 user).slot0 with seqt := (t0 user).slot0.seqh + 1 } (t0 user).slot1).isNone = true
    ∧ rowOwner user 0 0 = none ∧ (rowOwner mem0 0 0).isSome ∧ tileOwner user 0 0 = none ∧ (tileOwner (tiles 0) 0 3).isSome := by decide +kernel

/-- The core is stopping, or gated. -/
def stops (stopping gated : Bool) : State := cor user fun c => { c with stopping := stopping, gated := gated }
theorem test_hyp_GatingClocks_gating : ((stops true false).core 0).withdrawn = false ∧ ((stops false false).core 0).stopping = false
    ∧ (∀ b ∈ (stops false false).bundles, b.ra = none ∧ b.mid = none) ∧ ((stops true false).core 0).tb = [] ∧ (∀ x ∈ (stops true false).threads, x.still = true)
    ∧ ((stops true true).core 0).gated = true := by decide +kernel

/-- Lane group 0 has waited 512 cycles, or is in near-threshold mode; the rail of quad 0 at `mv`, falling or held. -/
def lgState (near : Bool) (waited : Nat) (rails : List Rail) : State :=
  { cor user fun c => { c with lgs := c.lgs.set 0 ⟨near, 0, 0, waited⟩ } with rails := rails, focus := none }
theorem test_hyp_GatingClocks_modes : (∀ w ∈ [512, 513], ((lgState false w []).core 0).lgs[0]? = some ⟨false, 0, 0, w⟩)
    ∧ nearAfter (hints (lgState false 512 []) 0 0) = some 512 ∧ ((lgState true 0 []).core 0).lgs[0]? = some ⟨true, 0, 0, 0⟩
    ∧ (∃ b ∈ (lgState true 0 []).bundles, b.core = 0 ∧ b.lg = 0 ∧ (lgState true 0 []).ready b = true) ∧ quadIndex 0 = 0
    ∧ (railOf (lgState true 0 []) 0).mv = 700 ∧ (railOf (lgState true 0 []) 0).target = 700
    ∧ (railOf (lgState true 0 [⟨0, 500, 420, none, 9⟩]) 0).target < 700 ∧ (railOf (lgState true 0 [⟨0, 500, 420, none, 9⟩]) 0).holdUntil = none
    ∧ (railOf (lgState false 0 [⟨0, 420, 420, none, 9⟩]) 0).mv = (railOf (lgState false 0 [⟨0, 420, 420, none, 9⟩]) 0).target
    ∧ (∀ b ∈ (lgState false 0 [⟨0, 420, 420, none, 9⟩]).bundles, ((lgState false 0 [⟨0, 420, 420, none, 9⟩]).laneGroup b).near = false)
    ∧ (∀ d ∈ [0, 1], (railOf (lgState true 0 [⟨0, 700, 700, some d, 0⟩]) 0).holdUntil = some d) := by decide +kernel

/-! ### Contexts -/

/-- The context in a state, its completion word at virtual 0x1000. -/
def inSt (st : CtxSt) : State := ctxt user fun c => { c with st := st, done := 0x1000 }

theorem test_hyp_ContextCommands : ([CtxSt.running, .saving, .saved, .restoring, .terminated, .stranded, .lost].all fun st =>
      (inSt st).ctx? 0 == some (c0 (inSt st)) && (c0 (inSt st)).st == st && heldBy (inSt st) none (doneLines (inSt st) (c0 (inSt st))) == []
        && ctxPa (inSt st) (c0 (inSt st)) (c0 (inSt st)).done == some 0x201000) = true := by decide +kernel

/-- A reserved value in CMD. -/
theorem test_hyp_ContextCommands_reserved : ((ctxt user fun c => { c with cmd := 5 }).ctx? 0).any (fun c => decide (4 < c.cmd)) = true := by decide +kernel

/-- The saved positions fit the whole module, and not a partition without slots; watchpoints of 8 and 4096 bytes, and one of 4. -/
def savedSt : State := { inSt .saved with threads := [], bundles := [], teams := [], saved := [⟨0, 0, user.threads, user.bundles, user.teams, [], [], [], [], [], []⟩] }
theorem test_hyp_ContextCommands_terminate : (c0 (inSt .running)).nodes = [] ∧ savedCmds (inSt .running) 0 = [] ∧ (inSt .running).cmds = []
    ∧ (inSt .running).powered = true ∧ heldBy (inSt .running) none (doneLines (inSt .running) (c0 (inSt .running)) ++ termLines (inSt .running) 0 ++ runLines (inSt .running) 0) = [] := by
  decide +kernel
theorem test_hyp_ContextCommands_fits : holdsArea savedSt (c0 savedSt) (savedOf savedSt 0) = true
    ∧ savedSt.ctx? 0 = some (c0 savedSt) ∧ (c0 savedSt).st = .saved
    ∧ (Team.within { PartDesc.whole with slotN := 0 } Team.reset) = false ∧ Team.within PartDesc.whole Team.reset = true
    ∧ watchOk (0x1000, 0xF3) = true ∧ watchOk (0x1000, 0xFC) = true ∧ watchOk (0x1000, 0xF2) = false ∧ watchOk (0x1000, 0xFD) = false := by decide +kernel

/-- Saving, running on or stopped; a barrier partly arrived, its deadline come or not. -/
def saving (stopped : Bool) (deadline arrived : Nat) : State :=
  team (ctxt user fun c => { c with st := .saving, stopped := stopped, saveDeadline := deadline, owes := true, done := 0x1000,
                                    saveArea := 0x4000 }) fun m =>
    { m with bars := m.bars.set 0 ⟨0, arrived, some 2⟩ }

theorem test_hyp_SaveRestore_stop : (c0 (saving false 5 0)).st = .saving ∧ (c0 (saving false 5 0)).stopped = false ∧ partlyArrived (saving false 5 0) 0 = false
    ∧ (c0 (saving false 0 1)).saveDeadline ≤ (saving false 0 1).tstamp ∧ (∀ b ∈ (saving false 5 0).bundles, b.ra = none ∧ b.mid = none) ∧ (saving false 5 0).powered = true
    ∧ ((saving false 5 0).core 0).gated = false := by decide +kernel

/-- A core of the context is gated. -/
theorem test_hyp_SaveRestore_gated : (((teamsOf (cor (saving false 5 0) fun c => { c with gated := true }) 0).map (·.core)).eraseDups.find? fun k =>
    ((cor (saving false 5 0) fun c => { c with gated := true }).core k).gated) = some 0 := by decide +kernel

theorem test_hyp_SaveRestore_save : (c0 (saving true 5 0)).stopped = true ∧ (∀ x ∈ (saving true 5 0).threads, x.still = true)
    ∧ ((teamsOf (saving true 5 0) 0).map (·.core)).eraseDups = [0] ∧ buffered (saving true 5 0) ((threadsOf (saving true 5 0) 0).map (·.id)) 0 = false
    ∧ ((saving true 5 0).core 0).nh = [] ∧ ((saving true 5 0).core 0).withdrawn = false
    ∧ (∀ x ∈ (saving true 5 0).threads, ((saving true 5 0).team? x.team).isSome) ∧ (∀ m ∈ (saving true 5 0).teams, (saving true 5 0).team? m.id = some m)
    ∧ heldBy (saving true 5 0) none (doneLines (saving true 5 0) (c0 (saving true 5 0))
        ++ areaLines (saving true 5 0) (c0 (saving true 5 0)) (areaWords (saving true 5 0) (c0 (saving true 5 0))).length) = []
    ∧ ctxPa (saving true 5 0) (c0 (saving true 5 0)) (c0 (saving true 5 0)).done = some 0x201000 := by decide +kernel

/-- The walk of an address in the page at virtual 0, whose leaf names physical 0x200000. -/
structure ZeroPage (rd : Nat → Word) (o : List Nat) : Prop where
  r4 : rd 0 = 0x401
  r3 : rd 0x1000 = 0x801
  r2 : rd 0x2000 = 0xC01
  r1 : rd 0x3000 = 0x800000000800DF
  ok : pageAllowed o 0x200000 0x200000 = true

theorem ZeroPage.leaf {rd : Nat → Word} {o : List Nat} (z : ZeroPage rd o) (v : Nat) (h : v / 2 ^ 21 = 0)
    (seen : List (Nat × Nat × Nat × Nat)) (id : Nat) :
    ∃ e a p l, walkFrom rd (fun _ _ => none) false o id v 1 0x3000 seen = .leaf e a p l ∧ e.pbase = 0x200000 ∧ e.vbase = 0 := by
  have hd : 0x3000 + 8 * (v / 2 ^ (12 + 9 * 1) % 512) = 0x3000 := by rw [show (12 + 9 * 1) = 21 from rfl, h]
  have hp : ptePpn 0x800000000800DF * 0x1000 / leafSize 1 * leafSize 1 = 0x200000 := by decide
  have hs : leafSize 1 = 0x200000 := rfl
  rw [walkFrom]
  simp only [hd, z.r1]
  rw [if_neg (by decide), if_neg (by decide), if_neg (by decide), if_neg (by decide), if_neg (by decide), hp, hs, if_neg (by simp [z.ok])]
  exact ⟨_, _, _, _, rfl, rfl, by simp only; omega⟩

theorem ZeroPage.walk {rd : Nat → Word} {o : List Nat} (z : ZeroPage rd o) (v : Nat) (h : v / 2 ^ 21 = 0) (id : Nat) :
    ∃ e a p l, walkFrom rd (fun _ _ => none) false o id v 4 0 [] = .leaf e a p l ∧ e.pbase = 0x200000 ∧ e.vbase = 0 := by
  have h4 : 0 + 8 * (v / 2 ^ (12 + 9 * 4) % 512) = 0 := by rw [show (12 + 9 * 4) = 48 from rfl]; omega
  have h3 : 0x1000 + 8 * (v / 2 ^ (12 + 9 * 3) % 512) = 0x1000 := by rw [show (12 + 9 * 3) = 39 from rfl]; omega
  have h2 : 0x2000 + 8 * (v / 2 ^ (12 + 9 * 2) % 512) = 0x2000 := by rw [show (12 + 9 * 2) = 30 from rfl]; omega
  rw [walkFrom]
  simp only [h4, z.r4]
  rw [if_neg (by decide), if_neg (by decide), if_pos (by decide), show ptePpn 0x401 * 0x1000 = 0x1000 by decide, walkFrom]
  simp only [h3, z.r3]
  rw [if_neg (by decide), if_neg (by decide), if_pos (by decide), show ptePpn 0x801 * 0x1000 = 0x2000 by decide, walkFrom]
  simp only [h2, z.r2]
  rw [if_neg (by decide), if_neg (by decide), if_pos (by decide), show ptePpn 0xC01 * 0x1000 = 0x3000 by decide]
  exact z.leaf v h _ id

theorem canonical_small {w : Word} (h : w.toNat < 2 ^ 56) : canonical w = true := by
  have hb : ∀ i, 56 ≤ i → w.getLsbD i = false := fun i hi =>
    Nat.testBit_lt_two_pow (Nat.lt_of_lt_of_le h (Nat.pow_le_pow_right (by decide) hi))
  rw [canonical, beq_iff_eq]
  apply BitVec.eq_of_getLsbD_eq
  intro i hi
  rw [BitVec.getLsbD_signExtend]
  by_cases i57 : i < 57
  · simp [i57, hi]
  · simp only [hi, i57, decide_true, if_false, Bool.true_and, BitVec.msb_eq_getLsbD_last, hb i (by omega)]
    simpa using hb 56 (by omega)

theorem ZeroPage.run (s : State) (c : Context) (z : ZeroPage (fun a => BitVec.ofNat 64 (s.readM a 8)) (s.ownedBlocks c)) (ro : c.root = 0)
    (sa : c.saveArea = 0x4000) (k : Nat) (hk : k < 1216) : ctxPa s c (areaAddr c k) = some (0x204000 + 8 * k) := by
  have hv : (areaAddr c k).toNat % 2 ^ 57 = 0x4000 + 8 * k := by
    rw [areaAddr, sa, BitVec.toNat_add, BitVec.toNat_ofNat, show (0x4000 : Word).toNat = 0x4000 from rfl]
    omega
  obtain ⟨e, a, p, l, hw, hp, hb⟩ := z.walk (0x4000 + 8 * k) (by omega) c.id
  have hc : canonical (areaAddr c k) = true := canonical_small (by
    rw [areaAddr, sa, BitVec.toNat_add, BitVec.toNat_ofNat, show (0x4000 : Word).toNat = 0x4000 from rfl]
    omega)
  rw [ctxPa, if_neg (by rw [hc]; decide), State.walkTables, hv, ro, Nat.zero_mul, hw]
  exact congrArg some (by rw [hp, hb]; omega)

/-- The area of 512 + 512 + 192 doublewords stands at 0x204000, its one record at doubleword 1,024. -/
theorem test_hyp_SaveRestore_area (k : Nat) (hk : k < 1216) :
    ctxPa (saving true 5 0) (c0 (saving true 5 0)) (areaAddr (c0 (saving true 5 0)) k) = some (0x204000 + 8 * k) :=
  ZeroPage.run _ _ ⟨by decide +kernel, by decide +kernel, by decide +kernel, by decide +kernel, by decide +kernel⟩
    (by decide +kernel) (by decide +kernel) k hk
theorem test_hyp_SaveRestore_record : (areaWords (saving true 5 0) (c0 (saving true 5 0))).length = 1216
    ∧ recordPlaces (saving true 5 0).threads (saving true 5 0).cmds 512 (teamsOf (saving true 5 0) 0) = [(id0, 1024)] := by decide +kernel
theorem test_hyp_SaveRestore_savedIds : (saving true 5 0).IdsDistinct := ids_of (by decide +kernel)

/-- A context being restored, its thread, bundle and team in the save area. -/
def restoring : State :=
  { ctxt user (fun c => { c with st := .restoring, done := 0x1000, owes := true }) with
    threads := [], bundles := [], teams := [], focus := none
    saved := [⟨0, 0, user.threads, user.bundles, user.teams, [], [], [], [], [], []⟩] }
def saved0 : Saved := (restoring.saved.head?).getD ⟨0, 0, [], [], [], [], [], [], [], [], []⟩

theorem test_hyp_SaveRestore_restore : restoring.saved.find? (fun x => x.ctx == 0) = some saved0 ∧ (c0 restoring).st = .restoring
    ∧ (c0 restoring).saveDeadline = 0 ∧ saved0.teams.all (placeFree restoring saved0.teams) = true ∧ positionsFree restoring saved0 = true
    ∧ heldBy restoring none (doneLines restoring (c0 restoring) ++ areaLines restoring (c0 restoring) (areaSize saved0)
        ++ (openTickets restoring 0).flatMap fun o => resolveLines restoring o .retry) = [] ∧ restoring.tickets = [] ∧ restoring.sleepers ++ saved0.sleepers = []
    ∧ saved0.threads ≠ []
    ∧ recordPlaces saved0.threads saved0.cmds 512 saved0.teams = [(id0, 1024)] := by decide +kernel

/-- A thread frozen at H; its region's entry, and an address that is none. -/
def frozen : State := thr handler fun t => { t with status := .frozen }
theorem test_hyp_SaveRestore_frozen : (t0 frozen).results = [] ∧ (t0 frozen).pending = [] ∧ frozen.thread? id0 = some (t0 frozen) ∧ (t0 frozen).status = .frozen ∧ frozen.hlevel (t0 frozen) = true
    ∧ regionEntry frozen (t0 frozen) 0 = true ∧ regionEntry frozen (t0 frozen) 0x24 = false := by decide +kernel
theorem test_hyp_SaveRestore_ids : frozen.IdsDistinct ∧ restoring.IdsDistinct := ⟨ids_of (by decide +kernel), ids_of (by decide +kernel)⟩

/-! ### Partitions and the module -/

theorem test_hyp_PartitionTable : updateOk user { PartDesc.whole with ways := 0xFF } = true ∧ updateOk user { PartDesc.whole with rowN := 769 } = false
    ∧ updateOk user { PartDesc.whole with part := 15, active := false } = true ∧ updateOk user { PartDesc.whole with part := 15 } = false := by decide +kernel

/-- The block controller's ring at 0x300000 with one request (at 0x301000): block 9 from `src` to `dst`, done at 0x302000. -/
def blockAsked (src dst : Nat) : State :=
  let s := (((user.writeM 0x300000 8 0x301000).writeM 0x300008 8 4).writeM 0x300010 8 1).writeM 0x300018 8 0
  { (s.writeM 0x301000 3 (9 + 2 ^ 8 * src + 2 ^ 16 * dst)).writeM 0x301010 8 0x302000 with vkblk := 0x300000 }

theorem test_hyp_BlockMoves_request : (ringBlock (blockAsked 0 0xFF) (blockAsked 0 0xFF).vkblk (blockAsked 0 0xFF).blkBlock).toNat = 0x300000
    ∧ ringRequest (blockAsked 0 0xFF) 0x300000 32 = some 0x301000 ∧ (blockAsked 0 0xFF).blockMoves = []
    ∧ blockRequestBad (blockAsked 0 0xFF) 9 0 0xFF 0 = false ∧ blockRequestBad (blockAsked 0 0) 9 0 0 0 = true
    ∧ ringHolders (blockAsked 0 0xFF) (blockAsked 0 0xFF).vkblk (blockAsked 0 0xFF).blkBlock = []
    ∧ heldBy (blockAsked 0 0xFF) none (physLines 0x301000 32 ++ physLines 0x302000 8) = [] ∧ 0x300000 + 64 ≤ 0x302000 := by decide +kernel

/-- A block move in a state of its own. -/
def blockMove (st : BlockSt) (dst : Option Nat) : BlockMove := ⟨9, some 0, dst, st, 0, 0x302000, true⟩
def blockMoving (m : BlockMove) : State := { user with blockMoves := [m] }

theorem test_hyp_BlockMoves : ([blockMove .removing none, blockMove .scrubbing none, blockMove .scrubbing (some 0), blockMove .adding (some 0)].all fun m =>
      (blockMoving m).blockMoves.find? (fun x => x.block == m.block) == some m && m.noticed && decide (m.deadline ≤ (blockMoving m).tstamp)
        && heldBy (blockMoving m) none [lineOf m.done] == []) = true
    ∧ (∀ c ∈ (blockMoving (blockMove .scrubbing none)).cores, ∀ l ∈ c.nh, blockOf (64 * l) ≠ some 9)
    ∧ blockBusy (blockMoving (blockMove .scrubbing none)) 9 = false
    ∧ blockBusy { blockMoving (blockMove .scrubbing none) with moves := [{ moving true leafPte [] with target := blockBase 9 }] } 9 = true := by decide +kernel

/-- A request that waits for its block, and one whose block is moving. -/
def blockReq : BlockReq := ⟨9, 0, 0xFF, 0, 7, 0x302000⟩
theorem test_hyp_BlockMoves_waits : blockNext { user with blockQueue := [blockReq] } = some blockReq
    ∧ blockNext { blockMoving (blockMove .scrubbing none) with blockQueue := [blockReq] } = none ∧ blockNext (blockAsked 0 0xFF) = none
    ∧ heldBy { user with blockQueue := [blockReq] } none (physLines 0x302000 8) = [] := by decide +kernel

theorem test_hyp_ModulePower : user.powered = true ∧ user.epochOpen = none ∧ ({ user with epochOpen := some (1, user.mem) } : State).epochOpen.isSome = true
    ∧ ({ user with powered := false, keystore := [(1, user.mem)] } : State).powered = false := by decide +kernel

/-! ### Invariants -/

theorem next_of {o : Host.Outcome State Fault Refusal} (h : (match o with | .next _ => true | _ => false) = true) : ∃ t, o = .next t := by
  match o, h with
  | .next t, _ => exact ⟨t, rfl⟩

/-- A state that meets the invariants and has a next one. -/
theorem test_hyp_invariants : user.MemoriesWf ∧ user.IdsDistinct ∧ ∃ t, step addAt = .next t :=
  ⟨⟨by decide +kernel, by decide +kernel, fun e h => nomatch h⟩, ids_of (by decide +kernel), next_of (by decide +kernel)⟩

theorem test_hyp_invariants_step : addAt.MemoriesWf ∧ addAt.IdsDistinct :=
  ⟨⟨by decide +kernel, by decide +kernel, fun e h => nomatch h⟩, ids_of (by decide +kernel)⟩

end

end Sys2Proof.Tests
end

namespace Sys2Proof.Machine

/-! ## Every step keeps threads at positions of their own (O58, R10)

Almost every function of the model leaves the threads at their positions and the save areas as they
are: one lemma for each says so, in the order of the model's files. The few that add threads, save
areas, or take some away follow, each with the reason why no two threads come to one position. -/

/-- Where the threads of the module stand, in their order, and what the save areas hold. -/
def State.positions (s : State) : List ThreadId × List Saved := (s.threads.map (·.id), s.saved)

/-- Only a state's threads and save areas count: with `positions_fold`, an update of any other field
goes away by `simp`. -/
@[simp] theorem State.positions_mk
    x0 x1 x2 ts x4 x5 x6 x7 x8 areas x10 x11 x12 x13 x14 x15 x16 x17 x18 x19 x20 x21 x22 x23 x24
    x25 x26 x27 x28 x29 x30 x31 x32 x33 x34 x35 x36 x37 x38 x39 x40 x41 x42 x43 x44 x45 x46 x47
    x48 x49 x50 x51 x52 x53 x54 x55 x56 x57 x58 x59 :
    (State.mk
      x0 x1 x2 ts x4 x5 x6 x7 x8 areas x10 x11 x12 x13 x14 x15 x16 x17 x18 x19 x20 x21 x22 x23
      x24 x25 x26 x27 x28 x29 x30 x31 x32 x33 x34 x35 x36 x37 x38 x39 x40 x41 x42 x43 x44 x45
      x46 x47 x48 x49 x50 x51 x52 x53 x54 x55 x56 x57 x58 x59).positions =
      (ts.map (·.id), areas) := rfl

@[simp] theorem State.positions_fold (s : State) :
    (s.threads.map (·.id), s.saved) = s.positions := rfl

theorem State.idsDistinct_of {s : State} {ids : List ThreadId} {areas : List Saved}
    (h : s.positions = (ids, areas)) (hids : ids.Nodup)
    (hareas : ∀ x ∈ areas, (x.threads.map (·.id)).Nodup) : s.IdsDistinct := by
  obtain ⟨rfl, rfl⟩ := Prod.mk.inj h
  exact ⟨hids, hareas⟩

/-- What leaves the positions keeps them distinct. -/
theorem State.idsDistinct_of_positions {s t : State} (h : t.positions = s.positions)
    (hs : s.IdsDistinct) :
    t.IdsDistinct :=
  State.idsDistinct_of h hs.1 hs.2

theorem map_id_map (f : Thread → Thread) (l : List Thread) (h : ∀ t, (f t).id = t.id) :
    (l.map f).map (·.id) = l.map (·.id) := by
  simp [h]

@[simp] theorem map_id_comp (f : Thread → Thread) (l : List Thread) (h : ∀ t, (f t).id = t.id) :
    l.map ((fun t => t.id) ∘ f) = l.map (·.id) :=
  List.map_congr_left fun t _ => h t

@[simp] theorem updWhere_ids (p : Thread → Bool) (f : Thread → Thread) (l : List Thread)
    (h : ∀ t, (f t).id = t.id) :
    (updWhere p f l).map (·.id) = l.map (·.id) :=
  map_id_map _ l fun t => by split <;> simp [h]

@[simp] theorem positions_ite (c : Prop) [Decidable c] (s t : State) :
    (if c then s else t).positions = if c then s.positions else t.positions :=
  apply_ite ..

@[simp] theorem id_ite (c : Prop) [Decidable c] (t u : Thread) :
    (if c then t else u).id = if c then t.id else u.id := apply_ite ..

@[simp] theorem State.modThread_ids (s : State) (k : ThreadId) (f : Thread → Thread)
    (h : ∀ t, (f t).id = t.id) :
    (s.modThread k f).threads.map (·.id) = s.threads.map (·.id) := updWhere_ids _ _ _ h

@[simp] theorem positions_foldl {α : Type} (f : State → α → State)
    (h : ∀ s a, (f s a).positions = s.positions) (l : List α) (s : State) :
    (l.foldl f s).positions = s.positions := by
  induction l generalizing s with
  | nil => rfl
  | cons a l ih => exact (ih _).trans (h s a)

/-- An outcome whose next state, if there is one, has the threads and save areas of `s` where they
were. -/
def State.Stays (s : State) (o : Host.Outcome State Fault Refusal) : Prop :=
  ∀ t, o = .next t → t.positions = s.positions

@[simp] theorem State.stays_next (s t : State) :
    s.Stays (.next t) ↔ t.positions = s.positions := by simp [State.Stays]

@[simp] theorem State.stays_ite (s : State) (c : Prop) [Decidable c]
    (o p : Host.Outcome State Fault Refusal) :
    s.Stays (if c then o else p) ↔ if c then s.Stays o else s.Stays p := iff_of_eq (apply_ite ..)

theorem State.stays_ite_of {s : State} {c : Prop} [Decidable c]
    {o p : Host.Outcome State Fault Refusal} (ho : s.Stays o) (hp : s.Stays p) :
    s.Stays (if c then o else p) := by
  split <;> assumption

/-! ### Sys2Proof/Machine/Ops.lean -/

@[simp] theorem Thread.put_id (t : Thread) (n : RegName) (v : Word) (lat : Nat) :
    (Thread.put t n v lat).id = t.id := by
  simp [Thread.put]

@[simp] theorem Thread.putG_id (t : Thread) (d : Fin 32) (v : Word) (lat : Nat) :
    (Thread.putG t d v lat).id = t.id := by
  simp [Thread.putG]

@[simp] theorem Thread.putF_id (t : Thread) (d : Fin 32) (v : Word) (lat : Nat) :
    (Thread.putF t d v lat).id = t.id := by
  simp [Thread.putF]

@[simp] theorem Thread.putP_id (t : Thread) (d : Fin 8) (v : Bool) (lat : Nat) :
    (Thread.putP t d v lat).id = t.id := by
  simp [Thread.putP]

@[simp] theorem Thread.raiseFlags_id (t : Thread) (fl : BitVec 5) (lat : Nat) :
    (Thread.raiseFlags t fl lat).id = t.id := by
  simp [Thread.raiseFlags]

@[simp] theorem Thread.setSlot_id (t : Thread) (k : Nat) (c : CkSlot) :
    (Thread.setSlot t k c).id = t.id := by
  simp [Thread.setSlot]

@[simp] theorem State.bump_positions (s : State) : (State.bump s).positions = s.positions := by
  simp [State.bump]

@[simp] theorem State.modThread_positions (s : State) (t : ThreadId) (f : Thread → Thread)
    (h : ∀ t, (f t).id = t.id) :
    (State.modThread s t f).positions = s.positions := by
  simp [State.modThread, h]

@[simp] theorem State.modBundle_positions (s : State) (k : Nat) (f : Bundle → Bundle) :
    (State.modBundle s k f).positions = s.positions := by
  simp [State.modBundle]

@[simp] theorem State.modTeam_positions (s : State) (k : Nat) (f : Team → Team) :
    (State.modTeam s k f).positions = s.positions := by
  simp [State.modTeam]

@[simp] theorem State.modCtx_positions (s : State) (k : Nat) (f : Context → Context) :
    (State.modCtx s k f).positions = s.positions := by
  simp [State.modCtx]

@[simp] theorem State.modCmd_positions (s : State) (k : Nat) (f : TileCmd → TileCmd) :
    (State.modCmd s k f).positions = s.positions := by
  simp [State.modCmd]

@[simp] theorem State.modGrid_positions (s : State) (k : Nat) (f : Grid → Grid) :
    (State.modGrid s k f).positions = s.positions := by
  simp [State.modGrid]

@[simp] theorem State.modHazel_positions (s : State) (k : Nat) (f : Hazel → Hazel) :
    (State.modHazel s k f).positions = s.positions := by
  simp [State.modHazel]

@[simp] theorem State.setCore_positions (s : State) (c : Core) :
    (State.setCore s c).positions = s.positions := by
  simp [State.setCore]

@[simp] theorem State.modCore_positions (s : State) (n : Nat) (f : Core → Core) :
    (State.modCore s n f).positions = s.positions := by
  simp [State.modCore]

@[simp] theorem State.mapFocus_positions (s : State) (f : Thread → Thread)
    (h : ∀ t, (f t).id = t.id) :
    (State.mapFocus s f).positions = s.positions := by
  simp [State.mapFocus, h]

@[simp] theorem State.advance_positions (s : State) (n : Nat) :
    (State.advance s n).positions = s.positions := by
  simp [State.advance]

@[simp] theorem State.lanewise_positions (s : State) (n : Nat) (h : Hdr) (f : Thread → Thread)
    (hf : ∀ t, (f t).id = t.id) :
    (State.lanewise s n h f).positions = s.positions :=
  State.mapFocus_positions s _ fun t => by dsimp only; split <;> simp [hf]

@[simp] theorem State.newId_positions (s : State) : (State.newId s).2.positions = s.positions := by
  simp [State.newId]

@[simp] theorem State.writeM_positions (s : State) (a n v : Nat) :
    (State.writeM s a n v).positions = s.positions := by
  simp [State.writeM]

@[simp] theorem tbStore_positions (s : State) (core : Nat) (w : ThreadId × BitVec 32)
    (pa n v : Nat) :
    (tbStore s core w pa n v).positions = s.positions := by
  unfold tbStore
  dsimp only
  (repeat' split) <;> simp

@[simp] theorem wakeLine_positions (s : State) (pa n : Nat) :
    (wakeLine s pa n).positions = s.positions := by
  simp [wakeLine]

@[simp] theorem dropCopies_positions (s : State) (pa n : Nat) :
    (dropCopies s pa n).positions = s.positions := by
  simp [dropCopies]

@[simp] theorem writeMaster_positions (s : State) (pa n v : Nat) :
    (writeMaster s pa n v).positions = s.positions := by
  simp [writeMaster]

@[simp] theorem drainEntry_positions (s : State) (core : Nat) (k : Nat) :
    (drainEntry s core k).positions = s.positions := by
  unfold drainEntry
  dsimp only
  (repeat' split) <;> simp

@[simp] theorem State.track_positions (s : State) (lines : List Nat) :
    (State.track s lines).positions = s.positions := by
  simp [State.track]

@[simp] theorem placeMarker_positions (s : State) (core : Nat) (narrow : Bool) :
    (placeMarker s core narrow).positions = s.positions := by
  simp [placeMarker]

@[simp] theorem narrowRelease_positions (s : State) (core pa : Nat) :
    (narrowRelease s core pa).positions = s.positions := by
  unfold narrowRelease
  dsimp only
  (repeat' split) <;> simp

@[simp] theorem State.report_positions (s : State) (mk : Nat → Report) :
    (State.report s mk).positions = s.positions := by
  simp [State.report]

@[simp] theorem State.threadReport_positions (s : State) (t : Thread) (kind : Nat) (x : Trap)
    (w : Waiter) :
    (State.threadReport s t kind x w).positions = s.positions := by
  simp [State.threadReport]

@[simp] theorem State.dropBundle_positions (s : State) (k : Nat) :
    (State.dropBundle s k).positions = s.positions := by
  simp [State.dropBundle]

@[simp] theorem Thread.leaveRa_id (t : Thread) : (Thread.leaveRa t).id = t.id := by
  unfold Thread.leaveRa
  split <;> simp

@[simp] theorem restoreBundle_positions (s : State) (b : Bundle) :
    (restoreBundle s b).positions = s.positions := by
  simp [restoreBundle]

@[simp] theorem State.restoreGroup_positions (s : State) (team group : Nat) :
    (State.restoreGroup s team group).positions = s.positions := by
  simp [State.restoreGroup]

@[simp] theorem State.freezeGroup_positions (s : State) (team group : Nat) :
    (State.freezeGroup s team group).positions = s.positions := by
  simp [State.freezeGroup]

@[simp] theorem State.trapRegs_id (traps : List Trap) (t : Thread) :
    (State.trapRegs traps t).id = t.id := by
  unfold State.trapRegs
  split <;> simp

@[simp] theorem State.passNext_id (traps : List Trap) (t : Thread) :
    (State.passNext traps t).id = t.id := by
  unfold State.passNext
  split <;> simp

@[simp] theorem State.trapAtH_positions (s : State) (t : Thread) (traps : List Trap) :
    (State.trapAtH s t traps).positions = s.positions := by
  simp [State.trapAtH]

@[simp] theorem State.trapAtU_positions (s : State) (bs : List Bundle) (members : List Thread)
    (traps : List Trap) (resume : Option Word) :
    (s.trapAtU bs members traps resume).positions = s.positions := by
  unfold State.trapAtU
  cases bs <;> simp <;> exact positions_foldl _ (fun s x => by split <;> simp) _ _

@[simp] theorem State.takeTraps_positions (s : State) (traps : List Trap) (resume : Option Word) :
    (s.takeTraps traps resume).positions = s.positions := by
  unfold State.takeTraps; dsimp only; (repeat' split) <;> simp

@[simp] theorem State.faultBundles_positions (s : State) (bs : List Bundle) (traps : List Trap) :
    (State.faultBundles s bs traps).positions = s.positions := by
  unfold State.faultBundles
  dsimp only
  (repeat' split) <;> simp

@[simp] theorem State.faultBundle_positions (s : State) (b : Bundle) (traps : List Trap) :
    (State.faultBundle s b traps).positions = s.positions := by
  simp [State.faultBundle]

@[simp] theorem State.trapIn_positions (s : State) (l : List Thread) (cause : Cause) :
    (State.trapIn s l cause).positions = s.positions := by
  simp [State.trapIn]

@[simp] theorem State.arriveAt_positions (s : State) (t : ThreadId) (pc : Word) :
    (State.arriveAt s t pc).positions = s.positions := by
  simp [State.arriveAt]

@[simp] theorem State.closeWindows_positions (s : State) :
    (State.closeWindows s).positions = s.positions := by
  simp [State.closeWindows]

@[simp] theorem State.formBundle_positions (s : State) (core slot lg : Nat) (pc : Word)
    (lanes : List Nat) :
    (State.formBundle s core slot lg pc lanes).positions = s.positions := by
  unfold State.formBundle
  dsimp only
  (repeat' split) <;> simp

@[simp] theorem State.formBundles_positions (s : State) (n : Nat) (l : List (ThreadId × Word)) :
    (s.formBundles n l).positions = s.positions := by
  induction n generalizing s l with
  | zero => rfl
  | succ n ih => cases l <;> simp [State.formBundles, ih]

@[simp] theorem State.enter_positions (s : State) (l : List (ThreadId × Word)) :
    (s.enter l).positions = s.positions := by
  simp [State.enter]

@[simp] theorem State.leaveBundle_positions (s : State) (t : ThreadId) :
    (State.leaveBundle s t).positions = s.positions := by
  simp [State.leaveBundle]

@[simp] theorem State.endThread_positions (s : State) (t : ThreadId) (killed : Bool) :
    (State.endThread s t killed).positions = s.positions := by
  unfold State.endThread
  dsimp only
  (repeat' split) <;> simp

@[simp] theorem State.restoreRows_positions (s : State) (t : ThreadId) (k : BitVec 32) :
    (State.restoreRows s t k).positions = s.positions := by
  unfold State.restoreRows
  split <;> simp

@[simp] theorem State.restartRegion_positions (s : State) (t : ThreadId) :
    (State.restartRegion s t).positions = s.positions := by
  unfold State.restartRegion
  split <;> simp

@[simp] theorem State.enterAt_positions (s : State) (g : SleepGroup) (l : List ThreadId)
    (a : Word) :
    (State.enterAt s g l a).positions = s.positions := by
  unfold State.enterAt
  split <;> simp

@[simp] theorem State.wakeGroup_positions (s : State) (g : SleepGroup) :
    (State.wakeGroup s g).positions = s.positions := by
  unfold State.wakeGroup
  split <;> simp

@[simp] theorem State.wakeGroups_positions (s : State) :
    (State.wakeGroups s).positions = s.positions := by
  simp [State.wakeGroups]

@[simp] theorem State.resolveThread_positions (s : State) (t : ThreadId) (retry : Bool) :
    (State.resolveThread s t retry).positions = s.positions := by
  simp [State.resolveThread]

/-! ### Sys2Proof/Machine/Translate.lean -/

@[simp] theorem State.applyXEff_positions (s : State) (x : XEff) :
    (State.applyXEff s x).positions = s.positions := by
  unfold State.applyXEff
  (repeat' split) <;> simp

@[simp] theorem State.noteWatch_positions (s : State) (own : Option Nat) (mod src pos : Nat)
    (pa n : Nat) (want : Want) (acc : Nat) :
    (State.noteWatch s own mod src pos pa n want acc).positions = s.positions := by
  simp [State.noteWatch]

@[simp] theorem State.applyXEffs_positions (s : State) (l : List XEff) :
    (State.applyXEffs s l).positions = s.positions := by
  simp [State.applyXEffs]

/-! ### Sys2Proof/Machine/Cache.lean -/

@[simp] theorem State.noteTransfer_positions (s : State) (line src dst : Nat) :
    (State.noteTransfer s line src dst).positions = s.positions := by
  simp [State.noteTransfer]

@[simp] theorem State.spend_positions (s : State) (ctx pa n : Nat) :
    (State.spend s ctx pa n).positions = s.positions := by
  unfold State.spend
  split <;> simp

@[simp] theorem State.dropL1_positions (s : State) (core line : Nat) :
    (State.dropL1 s core line).positions = s.positions := by
  simp [State.dropL1]

@[simp] theorem State.setL1_positions (s : State) (core line : Nat) (st : Moesi) :
    (State.setL1 s core line st).positions = s.positions := by
  simp [State.setL1]

@[simp] theorem State.modDir_positions (s : State) (line : Nat) (f : DirEntry → DirEntry) :
    (State.modDir s line f).positions = s.positions := by
  simp [State.modDir]

@[simp] theorem State.l1Room_positions (s : State) (core line : Nat) :
    (State.l1Room s core line).positions = s.positions := by
  unfold State.l1Room
  dsimp only
  (repeat' split) <;> simp

@[simp] theorem State.l1Put_positions (s : State) (core pa : Nat) (st : Moesi) (h : Hint) :
    (State.l1Put s core pa st h).positions = s.positions := by
  simp [State.l1Put]

@[simp] theorem State.takeOwnership_positions (s : State) (core pa : Nat) (h : Hint) :
    (State.takeOwnership s core pa h).positions = s.positions := by
  unfold State.takeOwnership
  dsimp only
  (repeat' split) <;> simp

@[simp] theorem State.demote_positions (s : State) (core line : Nat) :
    (s.demote core line).positions = s.positions :=
  positions_foldl _ (fun s c => by split <;> simp) _ _

@[simp] theorem State.takeShared_positions (s : State) (core pa : Nat) (h : Hint) :
    (State.takeShared s core pa h).positions = s.positions := by
  unfold State.takeShared
  dsimp only
  (repeat' split) <;> simp

@[simp] theorem State.writeBack_positions (s : State) (pa n : Nat) :
    (State.writeBack s pa n).positions = s.positions := by
  simp [State.writeBack]

@[simp] theorem State.evict_positions (s : State) (ctx line : Nat) :
    (State.evict s ctx line).positions = s.positions := by
  unfold State.evict
  split <;> simp

@[simp] theorem State.sliceTouch_positions (s : State) (ctx pa : Nat) (fill write : Bool)
    (h : Hint) :
    (State.sliceTouch s ctx pa fill write h).positions = s.positions := by
  unfold State.sliceTouch
  dsimp only
  (repeat' split) <;> simp

@[simp] theorem State.sample_positions (s : State) (ctx : Nat) (va : Word) (pa : Nat)
    (isModule : Bool) (who : Nat) :
    (State.sample s ctx va pa isModule who).positions = s.positions := by
  simp [State.sample]

@[simp] theorem State.touchLine_positions (s : State) (core ctx : Nat) (va : Word) (pa : Nat)
    (write whole atSlice : Bool) (h : Hint) :
    (State.touchLine s core ctx va pa write whole atSlice h).positions = s.positions := by
  simp [State.touchLine]

@[simp] theorem State.touchSlice_positions (s : State) (die ctx : Nat) (va : Word) (pa : Nat)
    (write : Bool) :
    (State.touchSlice s die ctx va pa write).positions = s.positions := by
  simp [State.touchSlice]

@[simp] theorem State.noteStore_positions (s : State) (core ctx pa : Nat) (va : Word) (h : Hint) :
    (State.noteStore s core ctx pa va h).positions = s.positions := by
  simp [State.noteStore]

@[simp] theorem State.dropNote_positions (s : State) (core k : Nat) :
    (State.dropNote s core k).positions = s.positions := by
  simp [State.dropNote]

@[simp] theorem State.drain_positions (s : State) (core k : Nat) :
    (State.drain s core k).positions = s.positions := by
  unfold State.drain
  split <;> simp

@[simp] theorem State.publish_positions (s : State) (core : Nat) :
    (State.publish s core).positions = s.positions := by
  simp [State.publish]

@[simp] theorem State.publishFor_positions (s : State) (cores : List Nat) :
    (State.publishFor s cores).positions = s.positions := by
  simp [State.publishFor]

@[simp] theorem State.tagSettle_positions (n : Nat) (s : State) :
    (State.tagSettle n s).positions = s.positions := by
  induction n generalizing s with
  | zero => rfl
  | succ n ih => unfold State.tagSettle; split <;> simp [ih]

@[simp] theorem State.release_positions (s : State) (core : Nat) (narrow : Bool) :
    (State.release s core narrow).positions = s.positions := by
  simp [State.release]

@[simp] theorem State.prefetch_positions (s : State) (core ctx : Nat) (va : Word) (pa : Nat)
    (p : Prefetch) :
    (State.prefetch s core ctx va pa p).positions = s.positions := by
  simp [State.prefetch]

@[simp] theorem State.hazelTouch_positions (s : State) (ctx : Nat) (va : Word) (pa iod : Nat)
    (write : Bool) :
    (State.hazelTouch s ctx va pa iod write).positions = s.positions := by
  simp [State.hazelTouch]

@[simp] theorem State.noteWalk_positions (s : State) (iid : Nat) (t : ThreadId) (e : Option XEff) :
    (State.noteWalk s iid t e).positions = s.positions := by
  unfold State.noteWalk
  split <;> simp

/-! ### Sys2Proof/Machine/Integer.lean -/

@[simp] theorem gBinary_stays (s : State) (h : Hdr) (d a : Fin 32) (b : Src2) (lat : Nat)
    (f : Word → Word → Word) :
    s.Stays (gBinary s h d a b lat f) := by
  simp [gBinary]

@[simp] theorem gUnary_stays (s : State) (h : Hdr) (d a : Fin 32) (f : Word → Word) :
    s.Stays (gUnary s h d a f) := by
  simp [gUnary]

@[simp] theorem Thread.owe_id (t : Thread) (x : PendRes) : (Thread.owe t x).id = t.id := by
  simp [Thread.owe]

@[simp] theorem gInterlocked_stays (s : State) (h : Hdr) (d a : Fin 32) (b : Src2)
    (f : Word → Word → Word) :
    s.Stays (gInterlocked s h d a b f) := by
  simp [gInterlocked]

@[simp] theorem Thread.putPreds_id (t : Thread) (v : Word) (lat : Nat) :
    (Thread.putPreds t v lat).id = t.id := by
  simp [Thread.putPreds]

@[simp] theorem Thread.setSpecial_id (t : Thread) (n : Nat) (v : Word) :
    (Thread.setSpecial t n v).id = t.id := by
  simp [Thread.setSpecial]

/-! ### Sys2Proof/Machine/Floating.lean -/

@[simp] theorem rounding_stays (s : State) (n : Nat) (h : Hdr) (f : Thread → Thread)
    (hf : ∀ t, (f t).id = t.id) :
    s.Stays (rounding s n h f) := by
  unfold rounding; dsimp only; split <;> simp [hf]

@[simp] theorem Thread.putFRes_id (t : Thread) (w : FWidth) (d : Fin 32) (r : FRes) (lat : Nat) :
    (Thread.putFRes t w d r lat).id = t.id := by
  simp [Thread.putFRes]

@[simp] theorem fBinary_stays (s : State) (w : FWidth) (h : Hdr) (d a : Fin 32) (b : Src2)
    (op : Fmt → Nat → Nat → Nat → FRes) :
    s.Stays (fBinary s w h d a b op) := by
  simp [fBinary]

@[simp] theorem fPick_stays (s : State) (w : FWidth) (h : Hdr) (d a : Fin 32) (b : Src2)
    (max : Bool) :
    s.Stays (fPick s w h d a b max) := by
  simp [fPick]

@[simp] theorem fMulAdd_stays (s : State) (w : FWidth) (h : Hdr) (d a : Fin 32) (b : Src2) :
    s.Stays (fMulAdd s w h d a b) := by
  simp [fMulAdd]

@[simp] theorem fDivide_stays (s : State) (w : FWidth) (h : Hdr) (d a : Fin 32) (b : Src2) :
    s.Stays (fDivide s w h d a b) := by
  simp [fDivide]

@[simp] theorem fRoot_stays (s : State) (w : FWidth) (h : Hdr) (d a : Fin 32) :
    s.Stays (fRoot s w h d a) := by
  simp [fRoot]

@[simp] theorem fCompare_stays (s : State) (w : FWidth) (h : Hdr) (cond : Fin 4) (pd : Fin 8)
    (a : Fin 32) (b : Src2) :
    s.Stays (fCompare s w h cond pd a b) := by
  simp [fCompare]

@[simp] theorem Thread.fcvt_id (t : Thread) (d a : Fin 32) (code : Fin 32) :
    (Thread.fcvt t d a code).id = t.id := by
  simp [Thread.fcvt]

@[simp] theorem Thread.funary_id (t : Thread) (w : FWidth) (d a : Fin 32) (code : Fin 32) :
    (Thread.funary t w d a code).id = t.id := by
  unfold Thread.funary
  split <;> simp

@[simp] theorem execFmv_stays (h : Hdr) (d a : Fin 32) (code : Fin 32) (s : State) :
    s.Stays (execFmv h d a code s) := by
  unfold execFmv
  split <;> simp

@[simp] theorem pBinary_stays (s : State) (h : Hdr) (d a : Fin 32) (b : Src2)
    (op : Nat → Nat → Nat → FRes) :
    s.Stays (pBinary s h d a b op) := by
  simp [pBinary]

@[simp] theorem pMulAdd_stays (s : State) (f : Fmt) (h : Hdr) (d a : Fin 32) (b : Src2) :
    s.Stays (pMulAdd s f h d a b) := by
  simp [pMulAdd]

@[simp] theorem fDotProduct_stays (s : State) (f : Fmt) (h : Hdr) (d a : Fin 32) (b : Src2) :
    s.Stays (fDotProduct s f h d a b) := by
  simp [fDotProduct]

/-! ### Sys2Proof/Machine/Memory.lean -/

@[simp] theorem Thread.push_id (t : Thread) (iid : Nat) (r : MemReq) (loc : Loc) :
    (Thread.push t iid r loc).id = t.id := by
  simp [Thread.push]

@[simp] theorem noteProbe_positions (s : State) (t : Thread) (p : Probe) (c : CheckRes) :
    (noteProbe s t p c).positions = s.positions := by
  unfold noteProbe; split <;> simp

@[simp] theorem State.translated_positions (s : State) (iid : Nat) (t : ThreadId) (c : CheckRes) :
    (State.translated s iid t c).positions = s.positions := by
  unfold State.translated
  split <;> simp

@[simp] theorem memIssueOf_positions (s : State) (ts : List Thread) (n : Nat) (hold : Bool)
    (req : Thread → MemReq) (other : Thread → Thread) (after : State → State) (latch : Bool)
    (hother : ∀ t, (other t).id = t.id) (hafter : ∀ s, (after s).positions = s.positions) :
    (memIssueOf s ts n hold req other after latch).positions = s.positions := by
  unfold memIssueOf
  extract_lets holders lane res used traps iid s1 s1' s2 s3 s4
  have h1 : s1'.positions = s.positions := by simp [s1', s1]
  have h3 : s3.positions = s2.positions :=
    State.mapFocus_positions _ _ fun t => by dsimp only; split <;> simp [hother]
  have h4 : s4.positions = s3.positions := by dsimp only [s4]; split <;> simp
  simp [hafter, h4, h3, s2, h1]

@[simp] theorem memIssue_positions (s : State) (n : Nat) (h : Hdr) (commit hold : Bool)
    (req : Thread → MemReq)
    (kept : Thread → Nat → Thread) (hkept : ∀ t v, (kept t v).id = t.id) :
    (memIssue s n h commit hold req kept).positions = s.positions :=
  memIssueOf_positions _ _ _ _ _ _ _ _ (fun t => by (repeat' split) <;> simp [hkept]) fun _ => rfl

@[simp] theorem Thread.deliver_id (t : Thread) (l : List (RegName × Word)) :
    (t.deliver l).id = t.id := by
  induction l generalizing t with
  | nil => rfl
  | cons x l ih =>
    refine (ih _).trans ?_
    dsimp only
    split <;> simp

@[simp] theorem execLdnr_stays (h : Hdr) (d a b : Fin 32) (e : Exts) (s : State) :
    s.Stays (execLdnr h d a b e s) := by
  unfold execLdnr
  extract_lets pr req ts holders res used traps iid s1 s1' s2
  have h1 : s1'.positions = s.positions := by simp [s1', s1]
  have go : ∀ f : Thread → Thread, (∀ t, (f t).id = t.id) →
      (s2.mapFocus f).positions = s.positions := fun f hf => by
    simp [hf, s2, h1]
  (repeat' split) <;> simp
  apply go
  intro t; dsimp only; split <;> simp

@[simp] theorem prefetchIn_positions (s0 s : State) (t : Thread) (ea : Word) (p : Prefetch) :
    (prefetchIn s0 s t ea p).positions = s.positions := by
  unfold prefetchIn; (repeat' split) <;> simp

@[simp] theorem Thread.pushFence_id (t : Thread) (iid : Nat) (k : AccKind) :
    (Thread.pushFence t iid k).id = t.id := by
  simp [Thread.pushFence]

@[simp] theorem pgreqThread_positions (s : State) (t : Thread) (d : Fin 32) (ea : Word) :
    (pgreqThread s t d ea).positions = s.positions := by
  unfold pgreqThread
  (repeat' split) <;> simp

@[simp] theorem sweep_positions (s : State) (covers : TlbEntry → Bool) (ofPage : IcLine → Bool)
    (ctxs : List Nat) :
    (sweep s covers ofPage ctxs).positions = s.positions := by
  simp [sweep]

@[simp] theorem tlbi_stays (s : State) (h : Hdr) (covers : Thread → TlbEntry → Bool)
    (covered : Thread → Nat → Word → Bool) (lines : Thread → IcLine → Bool)
    (ctxs : Thread → List Nat) :
    s.Stays (tlbi s h covers covered lines ctxs) := by
  simp [tlbi]

/-! ### Sys2Proof/Machine/Perform.lean -/

@[simp] theorem Thread.dropAccess_id (t : Thread) (iid : Nat) :
    (Thread.dropAccess t iid).id = t.id := by
  simp [Thread.dropAccess]

@[simp] theorem Thread.keepReply_id (t : Thread) (serial : BitVec 32) (v : Nat) :
    (Thread.keepReply t serial v).id = t.id := by
  simp [Thread.keepReply]

@[simp] theorem State.dropSlow_positions (s : State) (iid : Nat) (t : ThreadId) :
    (State.dropSlow s iid t).positions = s.positions := by
  simp [State.dropSlow]

@[simp] theorem releaseHold_positions (s : State) (iid : Nat) :
    (releaseHold s iid).positions = s.positions := by
  simp [releaseHold]

@[simp] theorem lateFaults_positions (s : State) (iid : Nat)
    (bad : List (Thread × Access × Cause)) :
    (lateFaults s iid bad).positions = s.positions := by
  simp [lateFaults]

@[simp] theorem lateFault_positions (s : State) (iid : Nat) (bad : List (Thread × Access))
    (c : Cause) :
    (lateFault s iid bad c).positions = s.positions := by
  simp [lateFault]

@[simp] theorem strayFault_positions (s : State) (iid : Nat) (t : Thread) (a : Access) (c : Cause) :
    (strayFault s iid t a c).positions = s.positions := by
  simp [strayFault]

@[simp] theorem issueFaults_positions (s : State) (iid : Nat)
    (bad : List (Thread × Access × Cause)) :
    (issueFaults s iid bad).positions = s.positions := by
  unfold issueFaults
  split <;> simp

@[simp] theorem placeFault_positions (s : State) (iid : Nat) (bad : List (Thread × Access)) :
    (placeFault s iid bad).positions = s.positions := by
  simp [placeFault]

@[simp] theorem State.began_positions (s : State) (iid : Nat) :
    (State.began s iid).positions = s.positions := by
  simp [State.began]

@[simp] theorem reissueLane_positions (s0 s : State) (t : Thread) (a : Access) (c : CheckRes) :
    (reissueLane s0 s t a c).positions = s.positions := by
  unfold reissueLane
  split
  · simp
  · refine State.modThread_positions _ _ _ fun t => ?_
    split <;> simp

@[simp] theorem reissue_positions (s : State) (iid : Nat) :
    (reissue s iid).positions = s.positions := by
  simp [reissue]

@[simp] theorem performLdf_positions (s : State) (iid : Nat) :
    (performLdf s iid).positions = s.positions := by
  unfold performLdf
  extract_lets ls gone ready bad s1 s2
  have h1 : s1.positions = s.positions :=
    positions_foldl _ (fun s x => by dsimp only; split <;> simp) _ _
  have h2 : s2.positions = s1.positions :=
    positions_foldl _ (fun s x => by dsimp only; split <;> simp) _ _
  (repeat' split) <;> simp [h2, h1]

@[simp] theorem performCheck_positions (s : State) (t : Thread) (a : Access) :
    (performCheck s t a).positions = s.positions := by
  unfold performCheck
  split <;> simp

@[simp] theorem execLoad_stays (t : ThreadId) (k : Nat) (s : State) : s.Stays (execLoad t k s) := by
  unfold execLoad
  (repeat' split) <;> simp

theorem spStore_positions {s s' : State} {t : Thread} {serial : BitVec 32} {core off n v : Nat}
    (h : spStore s t serial core off n v = some s') : s'.positions = s.positions := by
  unfold spStore at h
  extract_lets opened at h
  split at h
  · obtain rfl := Option.some.inj h; simp
  split at h
  · obtain rfl := Option.some.inj h; simp
  · exact nomatch h

@[simp] theorem stfLane_positions (s : State) (t : Thread) (a : Access) :
    (stfLane s t a).positions = s.positions := by
  unfold stfLane
  split <;> simp

@[simp] theorem execStore_stays (t : ThreadId) (k : Nat) (s : State) :
    s.Stays (execStore t k s) := by
  unfold execStore
  (repeat' split) <;> simp
  all_goals simp [spStore_positions ‹spStore _ _ _ _ _ _ _ = some _›]

@[simp] theorem placeWrite_positions (s : State) (a : Access) (v : Nat) :
    (placeWrite s a v).positions = s.positions := by
  unfold placeWrite
  split <;> simp

@[simp] theorem rmwLanes_positions (l : List (Thread × Access)) (won : List Loc) (s : State) :
    (rmwLanes l won s).positions = s.positions := by
  induction l generalizing won s with
  | nil => rfl
  | cons x l ih => unfold rmwLanes; dsimp only; split <;> simp [ih]

@[simp] theorem execRmw_stays (iid : Nat) (s : State) : s.Stays (execRmw iid s) := by
  unfold execRmw
  extract_lets ls gone holders s'
  have touched : ∀ f : State → Thread × Access → State, (∀ s x, (f s x).positions = s.positions) →
      (ls.foldl f s').positions = s.positions := fun f hf => by simp [hf, s']
  (repeat' split) <;> simp
  apply touched
  intro s x; split <;> simp

@[simp] theorem performSc_positions (s : State) (t : Thread) (a : Access) (sc : Scope) :
    (performSc s t a sc).positions = s.positions := by
  simp [performSc]

@[simp] theorem execFencePerform_stays (t : ThreadId) (k : Nat) (s : State) :
    s.Stays (execFencePerform t k s) := by
  unfold execFencePerform
  (repeat' split) <;> simp

@[simp] theorem execDrain_stays (core entry : Nat) (s : State) :
    s.Stays (execDrain core entry s) := by
  unfold execDrain
  (repeat' split) <;> simp

@[simp] theorem execDurable_stays (t : ThreadId) (s : State) : s.Stays (execDurable t s) := by
  unfold execDurable
  (repeat' split) <;> simp

@[simp] theorem setMonitor_positions (s : State) (t : ThreadId) (f : MonState → MonState) :
    (setMonitor s t f).positions = s.positions := by
  simp [setMonitor]

@[simp] theorem execExpire_stays (t : ThreadId) (s : State) : s.Stays (execExpire t s) := by
  unfold execExpire
  (repeat' split) <;> simp

@[simp] theorem execInterlockedResultWrite_stays (t : ThreadId) (k : Nat) (s : State) :
    s.Stays (execInterlockedResultWrite t k s) := by
  unfold execInterlockedResultWrite
  (repeat' split) <;> simp

/-! ### Sys2Proof/Machine/Control.lean -/

@[simp] theorem depart_positions (s : State) (t : Thread) (isCall : Bool) (target : Word) :
    (depart s t isCall target).positions = s.positions := by
  simp only [depart, State.positions_mk, State.positions_fold, State.modThread_positions,
    State.newId_positions, implies_true]

@[simp] theorem releaseMark_positions (s : State) (t : Thread) :
    (releaseMark s t).positions = s.positions := by
  unfold releaseMark
  (repeat' split) <;> simp

@[simp] theorem Thread.met_id (a : Word) (m : BitVec 32) (t : Thread) :
    (Thread.met a m t).id = t.id := by
  simp [Thread.met]

@[simp] theorem passGsync_positions (s : State) (b : Bundle) (a : Word) :
    (passGsync s b a).positions = s.positions := by
  simp [passGsync]

@[simp] theorem settleGsync_positions (s : State) (b : Bundle) :
    (settleGsync s b).positions = s.positions := by
  unfold settleGsync
  dsimp only
  (repeat' split) <;> simp

@[simp] theorem settle_positions (s : State) : (settle s).positions = s.positions := by
  simp [settle]
  exact positions_foldl _ (fun s x => by split <;> simp) _ _

@[simp] theorem Thread.startRegion_id (t : Thread) (entry : Word) (implicit : Bool) (gm fm : Ext) :
    (Thread.startRegion t entry implicit gm fm).id = t.id := by
  simp [Thread.startRegion]

@[simp] theorem Thread.comeBack_id (t : Thread) (b : Back) : (Thread.comeBack t b).id = t.id := by
  simp [Thread.comeBack]

@[simp] theorem transferTo_positions (s : State) (k : Transfer)
    (l : List (Thread × Word × Option Fate)) (link : Option Word) :
    (transferTo s k l link).positions = s.positions := by
  unfold transferTo
  extract_lets s1 s2 s3
  have h1 : s1.positions = s.positions := by dsimp only [s1]; split <;> simp
  have h2 : s2.positions = s1.positions :=
    positions_foldl _ (fun s x => by dsimp only; split <;> simp) _ _
  have h3 : s3.positions = s2.positions :=
    positions_foldl _ (fun s x => by dsimp only; (repeat' split) <;> simp) _ _
  simp [h3, h2, h1]

@[simp] theorem transfer_positions (s : State) (k : Transfer) (words : Nat)
    (target : Thread → Word) :
    (transfer s k words target).positions = s.positions := by
  simp [transfer]

@[simp] theorem execYield_stays (h : Hdr) (b : Src2) (s : State) : s.Stays (execYield h b s) := by
  unfold execYield
  split <;> simp

@[simp] theorem execGsync_stays (h : Hdr) (m : RegOrExt) (s : State) :
    s.Stays (execGsync h m s) := by
  unfold execGsync
  dsimp only
  (repeat' split) <;> simp

@[simp] theorem execShfl_stays (h : Hdr) (d a b : Fin 32) (s : State) :
    s.Stays (execShfl h d a b s) := by
  unfold execShfl
  extract_lets ex
  split
  · simp
  · rw [State.stays_next]
    refine State.lanewise_positions _ _ _ _ fun t => ?_
    dsimp only; split <;> simp

@[simp] theorem barArrive_positions (h : Hdr) (a b : Fin 32) (sync : Bool) (s : State) :
    (barArrive h a b sync s).positions = s.positions := by
  unfold barArrive
  dsimp only
  (repeat' split) <;> simp

@[simp] theorem joinQueue_positions (s : State) (part : Nat) (l : Launch) :
    (joinQueue s part l).positions = s.positions := by
  simp [joinQueue]

@[simp] theorem modNode_positions (s : State) (ctx : Nat) (qcb : Word) (f : Node → Node) :
    (modNode s ctx qcb f).positions = s.positions := by
  simp [modNode]

@[simp] theorem formNode_positions (s : State) (c : Context) (n : Node) :
    (formNode s c n).positions = s.positions := by
  unfold formNode
  split <;> simp

@[simp] theorem formAt_positions (s : State) (ctx : Nat) (qcb : Word) :
    (formAt s ctx qcb).positions = s.positions := by
  unfold formAt
  (repeat' split) <;> simp

@[simp] theorem formDue_positions (s : State) : (formDue s).positions = s.positions := by
  simp [formDue]

@[simp] theorem appendRecord_positions (s : State) (ctx : Nat) (qcb : Word) (qcbPa slotPa : Nat)
    (rec : List Word) (origin : Option Nat) :
    (appendRecord s ctx qcb qcbPa slotPa rec origin).positions = s.positions := by
  unfold appendRecord
  split <;> simp

@[simp] theorem execRecd_stays (h : Hdr) (d a : Fin 32) (s : State) :
    s.Stays (execRecd h d a s) := by
  unfold execRecd
  extract_lets ts traps walks holders s1 s2 s3
  have h1 : s1.positions = s.positions :=
    positions_foldl _ (fun s x => by (repeat' split) <;> simp) _ _
  have h2 : s2.positions = s1.positions :=
    positions_foldl _ (fun s x => by dsimp only; split <;> simp) _ _
  simp [s3, h2, h1]

@[simp] theorem vaWrite_positions (s : State) (c : Context) (va v : Word) :
    (vaWrite s c va v).positions = s.positions := by
  unfold vaWrite
  split <;> simp

@[simp] theorem vaWritesBy_positions (m : State) (c : Context) (va : Word) (l : List Word)
    (s : State) :
    (vaWritesBy m c va l s).positions = s.positions := by
  induction l generalizing va s with
  | nil => rfl
  | cons w l ih => refine (ih _ _).trans ?_; split <;> simp

@[simp] theorem vaWrites_positions (s : State) (c : Context) (va : Word) (l : List Word) :
    (vaWrites s c va l).positions = s.positions := by
  simp [vaWrites]

@[simp] theorem writeDwords_positions (s : State) (pa : Nat) (l : List Word) :
    (writeDwords s pa l).positions = s.positions := by
  induction l generalizing s pa with
  | nil => rfl
  | cons w l ih => simp [writeDwords, ih]

@[simp] theorem Thread.answered_id (t : Thread) : (Thread.answered t).id = t.id := by
  unfold Thread.answered
  split <;> simp

@[simp] theorem execSysc_stays (h : Hdr) (a : Fin 32) (s : State) : s.Stays (execSysc h a s) := by
  unfold execSysc
  extract_lets ex ts
  cases ex with
  | nil => simp
  | cons t0 rest =>
  dsimp -zeta only
  extract_lets c first
  refine State.stays_ite_of (by simp) (State.stays_ite_of (by simp) ?_)
  cases ctxPa s c c.svcq with
  | none => simp
  | some q =>
  dsimp -zeta only
  extract_lets cap used done full walks lost holders s1 s2
  have h1 : s1.positions = s.positions := by dsimp -zeta only [s1]; split <;> simp
  have h2 : s2.positions = s1.positions := by simp [s2]
  cases s.focusBundle <;> simp [h2, h1]

@[simp] theorem execTrap_stays (h : Hdr) (e : Exts) (s : State) : s.Stays (execTrap h e s) := by
  unfold execTrap
  dsimp only
  (repeat' split) <;> simp

/-! ### Sys2Proof/Machine/Rails.lean -/

@[simp] theorem setRail_positions (s : State) (r : Rail) :
    (setRail s r).positions = s.positions := by
  simp [setRail]

@[simp] theorem noteVote_positions (s : State) (quad : Nat) :
    (noteVote s quad).positions = s.positions := by
  simp [noteVote]

@[simp] theorem slowQuad_positions (s : State) (quad : Nat) :
    (slowQuad s quad).positions = s.positions := by
  simp [slowQuad]

@[simp] theorem noteRise_positions (s : State) (quad : Nat) :
    (noteRise s quad).positions = s.positions := by
  simp [noteRise]

@[simp] theorem noteVotes_positions (s : State) (cores : List Nat) :
    (noteVotes s cores).positions = s.positions := by
  simp [noteVotes]

@[simp] theorem noteRises_positions (s : State) (cores : List Nat) :
    (noteRises s cores).positions = s.positions := by
  simp [noteRises]

/-! ### Sys2Proof/Machine/Matrix.lean -/

@[simp] theorem State.keepRow_positions (s : State) (t : Thread) (r : Nat) :
    (State.keepRow s t r).positions = s.positions := by
  simp [State.keepRow]

@[simp] theorem fetchOperands_positions (s : State) (b : Bundle) (i : Instr) :
    (fetchOperands s b i).positions = s.positions := by
  simp [fetchOperands]

@[simp] theorem oweRows_positions (s : State) (t : Thread) (rows : List (Nat × Nat × BitVec 2048)) :
    (oweRows s t rows).positions = s.positions := by
  simp [oweRows]

@[simp] theorem execProduct_positions (p : Product) (h : Hdr) (d a b : Fin 32) (s : State) :
    (execProduct p h d a b s).positions = s.positions := by
  unfold execProduct
  dsimp only
  (repeat' split) <;> simp

@[simp] theorem accInstr_positions (s : State) (h : Hdr) (tile : Nat) (act : State → Thread → State)
    (hact : ∀ s t, (act s t).positions = s.positions) :
    (accInstr s h tile act).positions = s.positions := by
  simp [accInstr, hact]

@[simp] theorem State.putTile_positions (s : State) (t : Thread) (d row : Nat) (v : BitVec 2048) :
    (State.putTile s t d row v).positions = s.positions := by
  simp [State.putTile]

@[simp] theorem cvtThread_positions (s : State) (a : Nat) (c : CvtCtl) (t : Thread) :
    (cvtThread s a c t).positions = s.positions := by
  simp [cvtThread]

/-! ### Sys2Proof/Machine/Engine.lean -/

@[simp] theorem issueCmd_positions (s : State) (t : Thread) (w : Word) :
    (issueCmd s t w).positions = s.positions := by
  simp [issueCmd]

@[simp] theorem execTxw_stays (h : Hdr) (m : RegOrExt) (s : State) : s.Stays (execTxw h m s) := by
  unfold execTxw
  split <;> simp

@[simp] theorem execTxwCompletion_stays (bundle : Nat) (s : State) :
    s.Stays (execTxwCompletion bundle s) := by
  unfold execTxwCompletion
  (repeat' split) <;> simp

@[simp] theorem engineEff_positions (s : State) (tm : Team) (e : XEff) (pa n : Nat) (write : Bool) :
    (engineEff s tm e pa n write).positions = s.positions := by
  simp [engineEff]

@[simp] theorem engineEffMask_positions (s : State) (tm : Team) (e : XEff) (pa mask : Nat) :
    (engineEffMask s tm e pa mask).positions = s.positions := by
  simp [engineEffMask]

@[simp] theorem cmdReport_positions (s : State) (c : TileCmd) (cause : Cause) (eaddr : Word)
    (info : Nat) (w : Waiter) :
    (cmdReport s c cause eaddr info w).positions = s.positions := by
  unfold cmdReport
  split <;> simp

@[simp] theorem cmdFault_positions (s : State) (c : TileCmd) (cause : Cause) (va : Word)
    (n acc : Nat) :
    (cmdFault s c cause va n acc).positions = s.positions := by
  simp [cmdFault]

@[simp] theorem keepOld_id (t : Thread) (serial : BitVec 32) : (keepOld t serial).id = t.id := by
  simp [keepOld]

/-- The state that a read of an engine goes on in, where it has one, has the threads where they
were. -/
theorem engineRead_positions {s s' : State} {tm : Team} {kind : TlbKind} {va : Word} {n v : Nat}
    (h : engineRead s tm kind va n = .ok v s') : s'.positions = s.positions := by
  unfold engineRead at h
  extract_lets walk at h
  split at h
  · exact nomatch h
  split at h
  · exact nomatch h
  extract_lets data at h
  split at h
  · exact nomatch h
  · obtain ⟨-, rfl⟩ := EngRead.ok.inj h; simp

theorem engineReads_positions {s s' : State} {tm : Team} {kind : TlbKind}
    {got : List (Nat × Nat × Gran)} {k v : Nat} {l : List (Word × Nat)} {acc vs : List Nat}
    (h : engineReads s tm kind got k l acc = (.ok v s', vs)) :
    s'.positions = s.positions := by
  induction l generalizing s k acc with
  | nil => simp_all [engineReads]
  | cons x l ih =>
    unfold engineReads at h
    split at h
    · exact ih h
    split at h
    · exact (ih h).trans (engineRead_positions ‹_›)
    · simp_all

@[simp] theorem readIn_positions (s : State) (c : TileCmd) (tm : Team) (d : TileDesc) :
    (readIn s c tm d).positions = s.positions := by
  unfold readIn
  split
  · simp
  · simp
  · next h => simp [engineReads_positions h]

@[simp] theorem readOut_positions (s : State) (c : TileCmd) (tm : Team) (d : TileDesc) :
    (readOut s c tm d).positions = s.positions := by
  simp [readOut]

@[simp] theorem readCp_positions (s : State) (c : TileCmd) (tm : Team) (d : TileDesc) :
    (readCp s c tm d).positions = s.positions := by
  simp [readCp]

@[simp] theorem readSources_positions (s : State) (c : TileCmd) :
    (readSources s c).positions = s.positions := by
  unfold readSources
  dsimp only
  (repeat' split) <;> simp

@[simp] theorem readOne_positions (s : State) (c : TileCmd) (n : Nat) :
    (readOne s c n).positions = s.positions := by
  unfold readOne
  split
  · rfl
  extract_lets d take
  have h : ∀ s e, (take s e).positions = s.positions := fun s e => by simp [take]
  (repeat' split) <;> simp [h]
  exact engineRead_positions ‹_›

@[simp] theorem execEnqueue_stays (cmd : Nat) (s : State) : s.Stays (execEnqueue cmd s) := by
  unfold execEnqueue
  dsimp only
  (repeat' split) <;> simp

@[simp] theorem engineGranule_positions (s : State) (tm : Team) (frame g : Nat) (data : Option Nat)
    (st : Gran) :
    (engineGranule s tm frame g data st).positions = s.positions := by
  simp [engineGranule]

@[simp] theorem execGranuleWrite_stays (cmd target : Nat) (s : State) :
    s.Stays (execGranuleWrite cmd target s) := by
  unfold execGranuleWrite
  (repeat' split) <;> simp

@[simp] theorem execSectorWrite_stays (cmd : Nat) (s : State) :
    s.Stays (execSectorWrite cmd s) := by
  unfold execSectorWrite
  dsimp only
  (repeat' split) <;> simp

@[simp] theorem finishCmd_positions (s : State) (c : TileCmd) :
    (finishCmd s c).positions = s.positions := by
  simp [finishCmd]

@[simp] theorem countCmd_positions (s : State) (c : TileCmd) :
    (countCmd s c).positions = s.positions := by
  simp [countCmd]

@[simp] theorem execCompletion_stays (cmd : Nat) (s : State) : s.Stays (execCompletion cmd s) := by
  unfold execCompletion
  dsimp only
  (repeat' split) <;> simp

@[simp] theorem endCmd_positions (s : State) (cmd : Nat) (quiet : Bool) :
    (endCmd s cmd quiet).positions = s.positions := by
  simp [endCmd]

@[simp] theorem retryCmd_positions (s : State) (cmd : Nat) :
    (retryCmd s cmd).positions = s.positions := by
  simp [retryCmd]

@[simp] theorem State.modQueue_positions (s : State) (team q : Nat) (f : Queue → Queue) :
    (State.modQueue s team q f).positions = s.positions := by
  simp [State.modQueue]

@[simp] theorem keepAll_positions (s : State) (l : List Thread) :
    (keepAll s l).positions = s.positions := by
  simp [keepAll]

@[simp] theorem execScfg_stays (h : Hdr) (q : Fin 8) (a : Fin 32) (s : State) :
    s.Stays (execScfg h q a s) := by
  unfold execScfg
  dsimp only
  (repeat' split) <;> simp

@[simp] theorem sctl_positions (s : State) (h : Hdr) (q : Fin 8) (ready : Thread → Bool)
    (f : Queue → Queue) :
    (sctl s h q ready f).positions = s.positions := by
  unfold sctl
  split <;> simp

@[simp] theorem execQpop_stays (h : Hdr) (d : Fin 32) (isF : Bool) (q : Fin 8) (pv : Fin 8)
    (s : State) :
    s.Stays (execQpop h d isF q pv s) := by
  unfold execQpop
  dsimp only
  (repeat' split) <;> simp

@[simp] theorem execQpush_stays (h : Hdr) (q : Fin 8) (a : Fin 32) (isF : Bool) (s : State) :
    s.Stays (execQpush h q a isF s) := by
  unfold execQpush
  dsimp only
  (repeat' split) <;> simp

@[simp] theorem streamReport_positions (s : State) (tm : Team) (q : Nat) (cause : Cause) (va : Word)
    (size : Nat) :
    (streamReport s tm q cause va size).positions = s.positions := by
  simp [streamReport]

@[simp] theorem lookAhead_positions (s : State) (tm : Team) (d : List Word) (e : Nat) :
    (lookAhead s tm d e).positions = s.positions := by
  unfold lookAhead
  dsimp only
  (repeat' split) <;> simp

@[simp] theorem readAhead_positions (s : State) (team q : Nat) :
    (readAhead s team q).positions = s.positions := by
  unfold readAhead
  dsimp only
  (repeat' split) <;> simp

/-! ### Sys2Proof/Machine/Resume.lean -/

@[simp] theorem completeGrid_positions (s : State) (g : Grid) (a0 a1 : Nat) :
    (completeGrid s g a0 a1).positions = s.positions := by
  simp [completeGrid]

@[simp] theorem gridDone_positions (s : State) (gid : Nat) :
    (gridDone s gid).positions = s.positions := by
  unfold gridDone
  split <;> simp

@[simp] theorem Thread.terminate_id (t : Thread) : (Thread.terminate t).id = t.id := by
  unfold Thread.terminate
  split <;> simp

@[simp] theorem dropRecords_positions (s : State) (c : Context) :
    (dropRecords s c).positions = s.positions := by
  simp [dropRecords]
  exact positions_foldl _ (fun s x => by split <;> simp) _ _

@[simp] theorem endSavedCmd_positions (s : State) (tm : Team) (k : TileCmd) :
    (endSavedCmd s tm k).positions = s.positions := by
  unfold endSavedCmd
  dsimp only
  (repeat' split) <;> simp

@[simp] theorem Thread.fromRecord_id (t : Thread) (w : Nat → Word) :
    (Thread.fromRecord t w).id = t.id := by
  simp [Thread.fromRecord]

@[simp] theorem resumeDebug_positions (s : State) (c : Context) (team group : Nat) (snap : Word) :
    (resumeDebug s c team group snap).positions = s.positions := by
  simp [resumeDebug]

@[simp] theorem killGroup_positions (s : State) (team group : Nat) :
    (killGroup s team group).positions = s.positions := by
  simp [killGroup]

@[simp] theorem resolveWaiter_positions (s : State) (retry : Bool) (w : Waiter) :
    (resolveWaiter s retry w).positions = s.positions := by
  unfold resolveWaiter; (repeat' split) <;> simp

@[simp] theorem closeTicket_positions (s : State) (o : OpenTicket) :
    (closeTicket s o).positions = s.positions := by
  simp [closeTicket]

@[simp] theorem addWaiter_positions (s : State) (o : OpenTicket) (w : Waiter) :
    (addWaiter s o w).positions = s.positions := by
  simp [addWaiter]

@[simp] theorem putTicket_positions (s : State) (o : OpenTicket) :
    (putTicket s o).positions = s.positions := by
  simp [putTicket]

@[simp] theorem resolveTicket_positions (s : State) (o : OpenTicket) (retry : Bool) :
    (resolveTicket s o retry).positions = s.positions := by
  unfold resolveTicket
  dsimp only
  (repeat' split) <;> simp

@[simp] theorem waitOn_positions (s : State) (w : Waiter) (va : Word) :
    (waitOn s w va).positions = s.positions := by
  unfold waitOn
  split <;> simp

@[simp] theorem raiseCount_positions (s : State) (entry : Nat) :
    (raiseCount s entry).positions = s.positions := by
  simp [raiseCount]

@[simp] theorem mergeInto_positions (o : OpenTicket) (s : State) (r : Report) :
    (mergeInto o s r).positions = s.positions := by
  simp [mergeInto]

@[simp] theorem execFaultQueueEntry_stays (report : Nat) (s : State) :
    s.Stays (execFaultQueueEntry report s) := by
  unfold execFaultQueueEntry
  dsimp only
  (repeat' split) <;> simp

@[simp] theorem freezeInPlace_positions (s : State) (team group : Nat) :
    (freezeInPlace s team group).positions = s.positions := by
  simp [freezeInPlace]

@[simp] theorem writeSnapshot_positions (s : State) (c : Context) (team group : Nat) (base : Word) :
    (writeSnapshot s c team group base).positions = s.positions := by
  simp [writeSnapshot]
  exact positions_foldl _ (fun s x => by split <;> simp) _ _

@[simp] theorem execBrk_stays (h : Hdr) (e : Exts) (s : State) : s.Stays (execBrk h e s) := by
  unfold execBrk
  dsimp only
  (repeat' split) <;> simp

/-! ### Sys2Proof/Machine/Select.lean -/

@[simp] theorem State.fetchFor_positions (s : State) (b : Bundle) :
    (State.fetchFor s b).positions = s.positions := by
  unfold State.fetchFor
  split <;> simp

@[simp] theorem State.clock_positions (s : State) : (State.clock s).positions = s.positions := by
  simp [State.clock]

@[simp] theorem State.tick_positions (s : State) : (State.tick s).positions = s.positions := by
  simp [State.tick]

@[simp] theorem State.passOver_positions (s s0 : State) (core lg id : Nat) :
    (State.passOver s s0 core lg id).positions = s.positions := by
  simp [State.passOver]

@[simp] theorem State.noteWaits_positions (s : State) (core lg : Nat) :
    (State.noteWaits s core lg).positions = s.positions := by
  simp [State.noteWaits]

@[simp] theorem execIssue_stays (core : Nat) (lg : Fin 4) (s : State) :
    s.Stays (execIssue core lg s) := by
  unfold execIssue
  dsimp only
  (repeat' split) <;> simp

@[simp] theorem execMergeWindow_stays (bundle : Nat) (s : State) :
    s.Stays (execMergeWindow bundle s) := by
  unfold execMergeWindow
  (repeat' split) <;> simp

@[simp] theorem execYieldEnd_stays (bundle : Nat) (s : State) :
    s.Stays (execYieldEnd bundle s) := by
  unfold execYieldEnd
  (repeat' split) <;> simp

@[simp] theorem execWalk_stays (core ctx : Nat) (va : Word) (kind : TlbKind) (lane : Option Nat)
    (write : Bool) (s : State) :
    s.Stays (execWalk core ctx va kind lane write s) := by
  unfold execWalk
  (repeat' split) <;> simp

@[simp] theorem Thread.enterRa_id (s : State) (t : Thread) : (Thread.enterRa s t).id = t.id := by
  simp [Thread.enterRa]

@[simp] theorem execRunaheadEntry_stays (bundle : Nat) (s : State) :
    s.Stays (execRunaheadEntry bundle s) := by
  unfold execRunaheadEntry
  dsimp only
  (repeat' split) <;> simp

@[simp] theorem execRunaheadRestore_stays (bundle : Nat) (s : State) :
    s.Stays (execRunaheadRestore bundle s) := by
  unfold execRunaheadRestore
  (repeat' split) <;> simp

/-! ### Sys2Proof/Machine/Launch.lean -/

@[simp] theorem pushLines_positions (s : State) (core : Nat) (c : Context) (k : Kernel) :
    (pushLines s core c k).positions = s.positions :=
  positions_foldl _ (fun s o => by dsimp only; (repeat' split) <;> simp) _ _

@[simp] theorem startTeams_positions (s : State) (p : Team → Bool) :
    (startTeams s p).positions = s.positions := by
  simp [startTeams]

@[simp] theorem setLastDie_positions (s : State) (part die : Nat) :
    (setLastDie s part die).positions = s.positions := by
  simp [setLastDie]

@[simp] theorem hazelTrap_positions (s : State) (h : Hazel) (cause : Nat) (tval : Word) :
    (hazelTrap s h cause tval).positions = s.positions := by
  simp [hazelTrap]

@[simp] theorem State.handled_positions (s : State) (h : Hazel) :
    (State.handled s h).positions = s.positions := by
  simp [State.handled]

@[simp] theorem execWideningCall_stays (hazel : Nat) (target : Word) (link : Fin 32) (s : State) :
    s.Stays (execWideningCall hazel target link s) := by
  unfold execWideningCall
  dsimp only
  (repeat' split) <;> simp

@[simp] theorem execLaunchForm_stays (ctx : Nat) (qcb : Word) (s : State) :
    s.Stays (execLaunchForm ctx qcb s) := by
  unfold execLaunchForm
  (repeat' split) <;> simp

@[simp] theorem leaveQueue_positions (s : State) (part : Nat) (l : Launch) :
    (leaveQueue s part l).positions = s.positions := by
  simp [leaveQueue]

/-! ### Sys2Proof/Machine/Hazel.lean -/

@[simp] theorem awayFault_positions (s : State) (h : Hazel) (t : ThreadId) (cause : Cause)
    (nr : Bool) (pc tval resume : Word) (info : Nat) (exc : Option Nat) :
    (awayFault s h t cause nr pc tval resume info exc).positions = s.positions := by
  unfold awayFault
  (repeat' split) <;> simp

@[simp] theorem transitFault_positions (s : State) (h : Hazel) (t : ThreadId) (page nr : Bool)
    (jalr target : Word) :
    (transitFault s h t page nr jalr target).positions = s.positions := by
  simp [transitFault]

@[simp] theorem execHazelReturn_stays (t : ThreadId) (jalr target : Word) (img : Image)
    (s : State) :
    s.Stays (execHazelReturn t jalr target img s) := by
  unfold execHazelReturn
  dsimp only
  (repeat' split) <;> simp

@[simp] theorem execNestedCrossing_stays (t : ThreadId) (jal target : Word) (link : Fin 32)
    (img : Image) (s : State) :
    s.Stays (execNestedCrossing t jal target link img s) := by
  unfold execNestedCrossing
  dsimp only
  (repeat' split) <;> simp

@[simp] theorem execArrival_stays (t : ThreadId) (s : State) : s.Stays (execArrival t s) := by
  unfold execArrival
  split <;> simp

@[simp] theorem execHazelException_stays (t : ThreadId) (exc : HazelExc) (pc tval : Word)
    (size acc : Nat) (img : Image) (s : State) :
    s.Stays (execHazelException t exc pc tval size acc img s) := by
  unfold execHazelException
  split <;> simp

@[simp] theorem execServiceReply_stays (ctx : Nat) (s : State) :
    s.Stays (execServiceReply ctx s) := by
  unfold execServiceReply
  dsimp only
  (repeat' split) <;> simp

@[simp] theorem Thread.putByte_id (t : Thread) (o b : Nat) : (Thread.putByte t o b).id = t.id := by
  unfold Thread.putByte
  (repeat' split) <;> simp

@[simp] theorem windowPut_positions (s : State) (n o b : Nat) :
    (windowPut s n o b).positions = s.positions := by
  unfold windowPut
  (repeat' split) <;> simp only [State.modThread_positions, State.setCore_positions,
    positions_ite, ite_self, Thread.putByte_id, implies_true]

@[simp] theorem windowWrite_positions (s : State) (n o k v : Nat) :
    (windowWrite s n o k v).positions = s.positions := by
  induction k generalizing s o v with
  | zero => rfl
  | succ k ih => simp [windowWrite, ih]

@[simp] theorem outerStep_positions (s : State) (own : Option Nat) (mod src pos : Nat)
    (x : OuterAccess) :
    (outerStep s own mod src pos x).positions = s.positions := by
  unfold outerStep
  (repeat' split) <;> simp

@[simp] theorem hazelHolds_positions (s : State) (pa n iod : Nat) (write : Bool) :
    (hazelHolds s pa n iod write).positions = s.positions := by
  simp [hazelHolds]

@[simp] theorem hazelThreadAccess_positions (s : State) (h : Hazel) (c : Context) (pc : Word)
    (x : OuterAccess) :
    (hazelThreadAccess s h c pc x).positions = s.positions := by
  unfold hazelThreadAccess
  dsimp only
  (repeat' split) <;> simp

@[simp] theorem hazelMem_stays (hazelCore : Nat) (pc : Word) (x : OuterAccess) (s : State) :
    s.Stays (hazelMem hazelCore pc x s) := by
  unfold hazelMem
  (repeat' split) <;> simp

@[simp] theorem tablePut_positions (s : State) (t : FwTable) (entry off : Nat) (v : Word) :
    (tablePut s t entry off v).positions = s.positions := by
  unfold tablePut
  (repeat' split) <;> simp

@[simp] theorem execHazelAccess_stays (hazelCore : Nat) (x : HazelOp) (s : State) :
    s.Stays (execHazelAccess hazelCore x s) := by
  unfold execHazelAccess
  (repeat' split) <;> simp

/-! ### Sys2Proof/Machine/Links.lean -/

@[simp] theorem setCount_positions (s : State) (c : WindowCount) :
    (setCount s c).positions = s.positions := by
  simp [setCount]

theorem appendOutside_positions {s t : State} {src : Bool × Nat} {ctx : Nat} {qcb : Word}
    {record : List Word}
    (h : appendOutside s src ctx qcb record = .done t) : t.positions = s.positions := by
  unfold appendOutside at h
  split at h
  · exact nomatch h
  extract_lets hold at h
  split at h
  · exact nomatch h
  split at h
  · exact nomatch h
  extract_lets slot hold' at h
  split at h
  · exact nomatch h
  split at h
  · exact nomatch h
  split at h
  · exact nomatch h
  split at h
  · exact nomatch h
  · rw [← Append.done.inj h]; simp

@[simp] theorem countDrop_positions (s : State) (source : Nat) :
    (countDrop s source).positions = s.positions := by
  simp [countDrop]

@[simp] theorem execHostRecord_stays (link : Fin 2) (window off size : Nat) (record : List Word)
    (s : State) :
    s.Stays (execHostRecord link window off size record s) := by
  unfold execHostRecord
  (repeat' split) <;> simp
  exact fun _ => appendOutside_positions ‹_›

@[simp] theorem modAdmission_positions (s : State) (a : Admission) (f : Admission → Admission) :
    (modAdmission s a f).positions = s.positions := by
  simp [modAdmission]

@[simp] theorem refusePacket_positions (s : State) (src : Nat) :
    (refusePacket s src).positions = s.positions := by
  simp [refusePacket]

@[simp] theorem execLaunchPacket_stays (p : LaunchPacket) (s : State) :
    s.Stays (execLaunchPacket p s) := by
  unfold execLaunchPacket
  (repeat' split) <;> simp
  exact appendOutside_positions ‹_›

@[simp] theorem outsideAccess_positions (s : State) (mod src : Nat) (x : OuterAccess) :
    (outsideAccess s mod src x).positions = s.positions := by
  unfold outsideAccess
  split <;> simp

@[simp] theorem peerSample_positions (s : State) (module : Nat) (x : OuterAccess) :
    (peerSample s module x).positions = s.positions := by
  unfold peerSample
  split <;> simp

@[simp] theorem nominate_positions (s : State) (hints : Nat) (rec : List Word) :
    (nominate s hints rec).positions = s.positions := by
  simp [nominate]

/-! ### Sys2Proof/Machine/Moves.lean -/

@[simp] theorem ringTake_positions (s : State) (blk : Nat) :
    (ringTake s blk).positions = s.positions := by
  simp [ringTake]

@[simp] theorem reserveRecord_positions (s : State) (ctx : Nat) (vpage : Word) :
    (reserveRecord s ctx vpage).positions = s.positions := by
  simp [reserveRecord]

@[simp] theorem recordMove_positions (s : State) (ctx : Nat) (vpage : Word) :
    (recordMove s ctx vpage).positions = s.positions := by
  simp [recordMove]

@[simp] theorem endMove_positions (s : State) (m : Move) (status : Nat) :
    (endMove s m status).positions = s.positions := by
  simp [endMove]

@[simp] theorem freezePage_positions (s : State) (m : Move) :
    (freezePage s m).positions = s.positions := by
  simp [freezePage]

@[simp] theorem takeMove_positions (s : State) (iod : Nat) :
    (takeMove s iod).positions = s.positions := by
  unfold takeMove
  dsimp only
  (repeat' split) <;> simp

@[simp] theorem execMoveRequest_stays (iod : Fin 2) (s : State) :
    s.Stays (execMoveRequest iod s) := by
  unfold execMoveRequest
  split <;> simp

@[simp] theorem retarget_positions (s : State) (m : Move) :
    (retarget s m).positions = s.positions := by
  simp [retarget]

@[simp] theorem copyWatch_positions (s : State) (m : Move) :
    (copyWatch s m).positions = s.positions := by
  simp [copyWatch]

@[simp] theorem execMoveRelease_stays (move : Nat) (s : State) :
    s.Stays (execMoveRelease move s) := by
  unfold execMoveRelease
  split <;> simp

@[simp] theorem execPeerTimeout_stays (move : Nat) (s : State) :
    s.Stays (execPeerTimeout move s) := by
  unfold execPeerTimeout
  split <;> simp

/-! ### Sys2Proof/Machine/SaveArea.lean -/

@[simp] theorem writeArea_positions (s : State) (c : Context) :
    (writeArea s c).positions = s.positions := by
  simp [writeArea]

@[simp] theorem Thread.reinstated_id (t : Thread) (w : Nat → Option Word) :
    (Thread.reinstated t w).id = t.id := by
  unfold Thread.reinstated
  (repeat' split) <;> simp

@[simp] theorem Thread.reloaded_id (t : Thread) (w : Nat → Option Word) :
    (Thread.reloaded t w).id = t.id := by
  simp [Thread.reloaded]

/-! ### Sys2Proof/Machine/Contexts.lean -/

@[simp] theorem ctxDone_positions (s : State) (c : Context) (status : Nat) :
    (ctxDone s c status).positions = s.positions := by
  simp [ctxDone]

@[simp] theorem Thread.restored_id (k : Kernel) (t : Thread) : (Thread.restored k t).id = t.id := by
  simp [Thread.restored]

@[simp] theorem resolveLate_positions (s : State) (ctx : Nat) :
    (resolveLate s ctx).positions = s.positions := by
  simp [resolveLate]

@[simp] theorem acceptSave_positions (s : State) (c : Context) :
    (acceptSave s c).positions = s.positions := by
  simp [acceptSave]

@[simp] theorem endRunahead_positions (s : State) (mine : Thread → Bool) :
    (endRunahead s mine).positions = s.positions := by
  simp [endRunahead]

@[simp] theorem wakeCore_positions (s : State) (core : Nat) :
    (wakeCore s core).positions = s.positions := by
  simp [wakeCore]

@[simp] theorem acceptRearm_positions (s : State) (c : Context) :
    (acceptRearm s c).positions = s.positions := by
  simp [acceptRearm]

@[simp] theorem State.writeResults_positions (s : State) (t : ThreadId) (n : Nat) :
    (s.writeResults t n).positions = s.positions := by
  induction n generalizing s with
  | zero => rfl
  | succ n ih =>
    unfold State.writeResults
    split
    · next h => exact (ih _).trans (execInterlockedResultWrite_stays _ _ _ _ h)
    · rfl

@[simp] theorem restartFrozen_positions (s : State) (t : ThreadId) (at_ : Word) :
    (restartFrozen s t at_).positions = s.positions := by
  unfold restartFrozen; (repeat' split) <;> simp

@[simp] theorem execFrozenGroupRestart_stays (t : ThreadId) (pcs : List (ThreadId × Option Word))
    (s : State) :
    s.Stays (execFrozenGroupRestart t pcs s) := by
  unfold execFrozenGroupRestart
  split <;> simp

/-! ### Sys2Proof/Machine/Loss.lean -/

@[simp] theorem Thread.cutAt_id (t : Thread) (stage : Nat) : (Thread.cutAt t stage).id = t.id := by
  unfold Thread.cutAt
  split <;> simp

@[simp] theorem Thread.resumeFrom_id (t : Thread) (c : CkSlot) (k : Nat) :
    (Thread.resumeFrom t c k).id = t.id := by
  simp [Thread.resumeFrom]

theorem Thread.afterLoss_id {t u : Thread} {stage k : Nat} (h : t.afterLoss stage k = some u) :
    u.id = t.id := by
  unfold Thread.afterLoss at h
  split at h
  · obtain rfl := Option.some.inj h; rfl
  · obtain ⟨c, -, rfl⟩ := Option.map_eq_some_iff.mp h; simp

@[simp] theorem Thread.afterLoss_getD_id (t : Thread) (stage k : Nat) :
    ((t.afterLoss stage k).getD t).id = t.id := by
  cases h : t.afterLoss stage k with
  | none => rfl
  | some u => exact afterLoss_id h

@[simp] theorem lostReport_positions (s : State) (ctx who : Nat) (t : Option Thread)
    (eaddr : Word) :
    (lostReport s ctx who t eaddr).positions = s.positions := by
  simp [lostReport]

@[simp] theorem forgetCmds_positions (s : State) (t : ThreadId) (k : BitVec 32) :
    (forgetCmds s t k).positions = s.positions := by
  simp [forgetCmds]

@[simp] theorem loseThread_positions (s : State) (t : ThreadId) :
    (loseThread s t).positions = s.positions := by
  unfold loseThread
  split <;> simp

@[simp] theorem logDrain_positions (s : State) (core k : Nat) :
    (logDrain s core k).positions = s.positions := by
  unfold logDrain
  (repeat' split) <;> simp

@[simp] theorem drainEscaped_positions (s : State) (core : Nat) :
    (drainEscaped s core).positions = s.positions := by
  simp [drainEscaped]
  exact positions_foldl _ (fun s x => by split <;> simp) _ _

@[simp] theorem loseCore_positions (s : State) (core : Nat) :
    (loseCore s core).positions = s.positions := by
  simp [loseCore]

@[simp] theorem loseEngines_positions (s : State) (core : Nat) :
    (loseEngines s core).positions = s.positions := by
  simp [loseEngines]

@[simp] theorem loseSleep_positions (s : State) (core : Nat) (stages : List (ThreadId × Nat)) :
    (loseSleep s core stages).positions = s.positions := by
  simp [loseSleep]

@[simp] theorem rowsOf_positions (s : State) (t : Thread) (stage : Nat) :
    (rowsOf s t stage).positions = s.positions := by
  simp [rowsOf]

@[simp] theorem restartSaves_positions (s : State) (core : Nat) :
    (restartSaves s core).positions = s.positions := by
  simp [restartSaves]

@[simp] theorem lossStep_positions (s : State) (core : Nat) (stages : List (ThreadId × Nat)) :
    (lossStep s core stages).positions = s.positions := by
  simp [lossStep]

@[simp] theorem strand_positions (s : State) (core : Nat) :
    (strand s core).positions = s.positions := by
  simp [strand]

@[simp] theorem replaceCore_positions (s : State) (core : Nat) :
    (replaceCore s core).positions = s.positions := by
  simp [replaceCore]

@[simp] theorem execInjectedRailEvent_stays (hazelCore : Nat) (stages : List (ThreadId × Nat))
    (s : State) :
    s.Stays (execInjectedRailEvent hazelCore stages s) := by
  unfold execInjectedRailEvent
  split <;> simp

@[simp] theorem lostOf_positions (s : State) (core : Nat) (tm : Option Team) (eaddr : Word) :
    (lostOf s core tm eaddr).positions = s.positions := by
  unfold lostOf
  split <;> simp

/-! ### Sys2Proof/Machine/Csr.lean -/

@[simp] theorem raiseHazel_positions (s : State) (core cause : Nat) :
    (raiseHazel s core cause).positions = s.positions := by
  simp [raiseHazel]

@[simp] theorem csrAccess_positions (s : State) (core : Nat) (machine : Bool) (v : Option Word)
    (value : Word) (ok : Word → Bool) (f : Word → State) (hf : ∀ v, (f v).positions = s.positions) :
    (csrAccess s core machine v value ok f).positions = s.positions := by
  unfold csrAccess; (repeat' split) <;> simp [hf]

@[simp] theorem execVkpcu_stays (hazelCore : Nat) (machine : Bool) (v : Option Word) (s : State) :
    s.Stays (execVkpcu hazelCore machine v s) :=
  (State.stays_next ..).mpr (csrAccess_positions _ _ _ _ _ _ _ fun _ => rfl)

@[simp] theorem execVkblk_stays (hazelCore : Nat) (machine : Bool) (v : Option Word) (s : State) :
    s.Stays (execVkblk hazelCore machine v s) :=
  (State.stays_next ..).mpr (csrAccess_positions _ _ _ _ _ _ _ fun _ => rfl)

@[simp] theorem execVkqwin_stays (hazelCore : Nat) (machine : Bool) (v : Option Word) (s : State) :
    s.Stays (execVkqwin hazelCore machine v s) :=
  (State.stays_next ..).mpr (csrAccess_positions _ _ _ _ _ _ _ fun _ => rfl)

@[simp] theorem execVkinj_stays (hazelCore : Nat) (machine : Bool) (v : Option Word) (s : State) :
    s.Stays (execVkinj hazelCore machine v s) :=
  (State.stays_next ..).mpr (csrAccess_positions _ _ _ _ _ _ _ fun _ => rfl)

@[simp] theorem execVkhome_stays (hazelCore : Nat) (v : Option Word) (s : State) :
    s.Stays (execVkhome hazelCore v s) := by
  unfold execVkhome
  split <;> simp

/-! ### Sys2Proof/Machine/Partitions.lean -/

@[simp] theorem execPartitionTableUpdate_stays (p : PartDesc) (s : State) :
    s.Stays (execPartitionTableUpdate p s) := by
  unfold execPartitionTableUpdate
  dsimp only
  (repeat' split) <;> simp

theorem putNotice_positions {s t : State} {part block kind : Nat}
    (h : putNotice s part block kind = some t) :
    t.positions = s.positions := by
  unfold putNotice at h
  split at h
  · rw [Option.some.inj h]
  extract_lets n cap tail at_ s1 s2 irq at h
  split at h
  · exact nomatch h
  · rw [← Option.some.inj h]; simp [s2, s1]

@[simp] theorem modMove_positions (s : State) (block : Nat) (f : BlockMove → BlockMove) :
    (modMove s block f).positions = s.positions := by
  simp [modMove]

@[simp] theorem notify_positions (s : State) (block : Nat) :
    (notify s block).positions = s.positions := by
  unfold notify; (repeat' split) <;> simp
  exact putNotice_positions ‹_›

@[simp] theorem endBlockMove_positions (s : State) (m : BlockMove) (status : Nat) :
    (endBlockMove s m status).positions = s.positions := by
  simp [endBlockMove]

@[simp] theorem startBlockMove_positions (s : State) (r : BlockReq) :
    (startBlockMove s r).positions = s.positions := by
  simp [startBlockMove]

@[simp] theorem takeBlockMove_positions (s : State) :
    (takeBlockMove s).positions = s.positions := by
  unfold takeBlockMove
  dsimp only
  (repeat' split) <;> simp

@[simp] theorem beginScrub_positions (s : State) (m : BlockMove) :
    (beginScrub s m).positions = s.positions := by
  simp [beginScrub]

@[simp] theorem zeroBlock_positions (s : State) (block : Nat) :
    (zeroBlock s block).positions = s.positions := by
  simp [zeroBlock]

@[simp] theorem execRemoveAcknowledgment_stays (block : Nat) (s : State) :
    s.Stays (execRemoveAcknowledgment block s) := by
  unfold execRemoveAcknowledgment
  split <;> simp

@[simp] theorem execRemoveDeadline_stays (block : Nat) (s : State) :
    s.Stays (execRemoveDeadline block s) := by
  unfold execRemoveDeadline
  split <;> simp

@[simp] theorem execScrubComplete_stays (block : Nat) (error : Bool) (s : State) :
    s.Stays (execScrubComplete block error s) := by
  unfold execScrubComplete
  (repeat' split) <;> simp

@[simp] theorem execAddAcknowledgment_stays (block : Nat) (s : State) :
    s.Stays (execAddAcknowledgment block s) := by
  unfold execAddAcknowledgment
  split <;> simp

/-! ### Sys2Proof/Machine/Power.lean -/

@[simp] theorem execRailHoldExpiry_stays (quad : Nat) (s : State) :
    s.Stays (execRailHoldExpiry quad s) := by
  unfold execRailHoldExpiry
  dsimp only
  (repeat' split) <;> simp

@[simp] theorem modLg_positions (s : State) (core : Nat) (lg : Fin 4) (f : LaneGroup → LaneGroup) :
    (modLg s core lg f).positions = s.positions := by
  simp [modLg]

@[simp] theorem execNearThresholdEntry_stays (core : Nat) (lg : Fin 4) (s : State) :
    s.Stays (execNearThresholdEntry core lg s) := by
  unfold execNearThresholdEntry
  split <;> simp

/-! ### Sys2Proof/Machine/Module.lean -/

@[simp] theorem execEpochComplete_stays (s : State) : s.Stays (execEpochComplete s) := by
  unfold execEpochComplete
  split <;> simp

@[simp] theorem execSpdmRequest_stays (m : SpdmMsg) (s : State) :
    s.Stays (execSpdmRequest m s) := by
  unfold execSpdmRequest
  split <;> simp

/-! ### Sys2Proof/Machine/Chain.lean -/

@[simp] theorem State.withSnap_positions (s : State) (b : Bundle) :
    (State.withSnap s b).positions = s.positions := by
  simp [State.withSnap]

@[simp] theorem State.cacheLine_positions (s : State) (core : Nat) (i : IcLine) :
    (State.cacheLine s core i).positions = s.positions := by
  simp [State.cacheLine]

@[simp] theorem State.cached_positions (s : State) (core : Nat) (l : List (XEff × IcLine)) :
    (State.cached s core l).positions = s.positions := by
  simp [State.cached]

@[simp] theorem State.fetched_positions (s : State) (core : Nat) (l : List (XEff × IcLine)) :
    (State.fetched s core l).positions = s.positions := by
  simp [State.fetched]

@[simp] theorem State.atPc_positions (s : State) (b : Bundle) (pc : Word) :
    (State.atPc s b pc).positions = s.positions := by
  simp [State.atPc]

@[simp] theorem State.unsnap_positions (s : State) : (State.unsnap s).positions = s.positions := by
  simp [State.unsnap]

@[simp] theorem State.issuedBundle_positions (s : State) (b : Bundle) (l : List Member) :
    (State.issuedBundle s b l).positions = s.positions := by
  simp [State.issuedBundle]

@[simp] theorem State.retryBundle_positions (s : State) (b : Bundle) (l : List Member) :
    (State.retryBundle s b l).positions = s.positions := by
  simp [State.retryBundle]

@[simp] theorem State.carryStall_positions (s : State) (b : Bundle) (l : List Member) :
    (State.carryStall s b l).positions = s.positions := by
  simp [State.carryStall]

@[simp] theorem State.closeChain_positions (s0 s : State) (b : Bundle) (pc : Word)
    (l : List Member) :
    (State.closeChain s0 s b pc l).positions = s.positions := by
  unfold State.closeChain; cases s.bundle? b.id <;> simp

@[simp] theorem State.trapSegment_positions (s : State) (b : Bundle) (l : List Member) :
    (State.trapSegment s b l).positions = s.positions := by
  simp [State.trapSegment]

@[simp] theorem State.midBundle_positions (s : State) (b : Bundle) (pc : Word)
    (l rest : List Member) :
    (State.midBundle s b pc l rest).positions = s.positions := by
  simp [State.midBundle]

@[simp] theorem State.resnap_positions (s : State) (m : MidChain) :
    (s.resnap m).positions = s.positions := by
  unfold State.resnap
  rw [State.positions_mk, map_id_map]
  · rfl
  · intro t; split <;> rfl

@[simp] theorem Thread.mark_id (t : Thread) (l : List RegName) : (Thread.mark t l).id = t.id := by
  simp [Thread.mark]

@[simp] theorem Thread.clear_id (t : Thread) (l : List RegName) : (Thread.clear t l).id = t.id := by
  simp [Thread.clear]

@[simp] theorem raPrefetch_positions (s : State) (t : Thread) (ea : Word) (p : Prefetch) :
    (raPrefetch s t ea p).positions = s.positions := by
  unfold raPrefetch
  (repeat' split) <;> simp

@[simp] theorem raStore_positions (s : State) (t : Thread) (ea : Word) :
    (raStore s t ea).positions = s.positions := by
  unfold raStore
  split <;> simp

@[simp] theorem raLoadIn_positions (s : State) (i : Instr) (t : Thread) :
    (raLoadIn s i t).positions = s.positions := by
  have puts : ∀ (l : List (RegName × Word)) (u : Thread),
      (l.foldl (fun u x => u.put x.1 x.2 0) u).id = u.id := fun l => by
    induction l with
    | nil => exact fun _ => rfl
    | cons x l ih => exact fun u => (ih _).trans (by simp)
  unfold raLoadIn
  (repeat' split) <;> simp <;> split <;> simp [puts]

@[simp] theorem raEnd_positions (s : State) (b : Bundle) : (raEnd s b).positions = s.positions := by
  simp [raEnd]

@[simp] theorem raMarks_id (i : Instr) (spread : Bool) (before t : Thread) :
    (raMarks i spread before t).id = t.id := by
  simp [raMarks]

@[simp] theorem raGo_positions (s : State) (b : Bundle) (f : Thread → Thread)
    (h : ∀ t, (f t).id = t.id) :
    (raGo s b f).positions = s.positions := by
  simp [raGo, h]

@[simp] theorem raWalks_positions (s : State) (l : List XEff) :
    (raWalks s l).positions = s.positions := by
  simp [raWalks]

/-! ### Placement (R10, R319): what a team's threads take, and what the search for room gives -/

/-- The 32 positions of a group slot of a core. -/
def slotIds (core : Nat) (g : Nat × Nat) : List ThreadId :=
  (List.range 32).map fun i => ⟨core, 32 * g.1 + i, g.2⟩

/-- Group slots of a core in which no thread stands, none of them twice. -/
def State.FreeSlots (s : State) (core : Nat) (groups : List (Nat × Nat)) : Prop :=
  groups.Nodup ∧ ∀ g ∈ groups, ∀ t ∈ s.threads.map (·.id), t.core = core → t.laneGroup = g.1 →
    t.slot ≠ g.2

theorem mem_slotIds {core : Nat} {g : Nat × Nat} {t : ThreadId} (h : t ∈ slotIds core g) :
    t.core = core ∧ t.laneGroup = g.1 ∧ t.slot = g.2 := by
  obtain ⟨i, hi, rfl⟩ := List.mem_map.mp h
  have := List.mem_range.mp hi
  exact ⟨rfl, by simp only [ThreadId.laneGroup]; omega, rfl⟩

theorem slotIds_nodup (core : Nat) (g : Nat × Nat) : (slotIds core g).Nodup :=
  List.pairwise_map.mpr (List.nodup_range.imp fun hne h => hne (by simpa using h))

/-- The threads of a team stand at the positions of its group slots. -/
theorem teamThreads_ids (tm : Team) (args : Nat → Option (List Word)) :
    (teamThreads tm args).map (·.id) = tm.groups.flatMap (slotIds tm.core) := by
  have groups :
      (List.range tm.groups.length).map (fun i => (tm.groups[i]?).getD (0, 0)) = tm.groups :=
    List.ext_getElem (by simp) fun i h _ => by simp at h; simp [h]
  calc
    _ = ((List.range tm.groups.length).map fun i => (tm.groups[i]?).getD (0, 0)).flatMap
          (slotIds tm.core) := by
      simp [teamThreads, slotIds, List.map_flatMap, List.flatMap_map, Function.comp_def,
        Thread.launch]
    _ = _ := by rw [groups]

theorem teamThreads_ids_nodup (tm : Team) (args : Nat → Option (List Word)) (h : tm.groups.Nodup) :
    ((teamThreads tm args).map (·.id)).Nodup := by
  rw [teamThreads_ids]
  refine List.pairwise_flatMap.mpr ⟨fun g _ => slotIds_nodup _ _,
    h.imp fun hne t ht u hu htu => ?_⟩
  subst htu
  refine hne ?_
  obtain ⟨-, hl, hs⟩ := mem_slotIds ht
  obtain ⟨-, hl', hs'⟩ := mem_slotIds hu
  exact Prod.ext (hl.symm.trans hl') (hs.symm.trans hs')

/-- The slots that the search takes are not taken, and it takes none twice. -/
theorem takeSlots_free {s : State} {core : Nat} {p : PartDesc} {fuel need lg : Nat}
    {acc r : List (Nat × Nat)} (h : takeSlots s core p fuel need lg acc = some r) (hn : acc.Nodup)
    (ht : ∀ g ∈ acc, slotTaken s core g.1 g.2 = false) :
    r.Nodup ∧ ∀ g ∈ r, slotTaken s core g.1 g.2 = false := by
  induction fuel generalizing need lg acc with
  | zero =>
    cases need with
    | zero => obtain rfl := Option.some.inj h; exact ⟨hn, ht⟩
    | succ => exact nomatch h
  | succ fuel ih =>
    cases need with
    | zero => obtain rfl := Option.some.inj h; exact ⟨hn, ht⟩
    | succ need =>
      unfold takeSlots at h
      split at h
      next sl hsl =>
        have hfree := List.find?_some hsl
        simp only [Bool.and_eq_true, Bool.not_eq_true', List.contains_eq_mem,
          decide_eq_false_iff_not] at hfree
        have hnew : (acc ++ [(lg, sl)]).Nodup := List.nodup_append.mpr
          ⟨hn, List.pairwise_singleton _ _, fun a ha b hb he =>
            hfree.2 (List.mem_singleton.mp hb ▸ he ▸ ha)⟩
        refine ih h hnew fun g hg => ?_
        rcases List.mem_append.mp hg with hg | hg
        · exact ht g hg
        · obtain rfl := List.mem_singleton.mp hg; exact hfree.1
      · exact ih h hn ht

theorem slotTaken_eq_false {s : State} {core lg slot : Nat} (h : slotTaken s core lg slot = false) :
    ∀ t ∈ s.threads.map (·.id), t.core = core → t.laneGroup = lg → t.slot ≠ slot := by
  intro t ht hc hl hs
  obtain ⟨x, hx, rfl⟩ := List.mem_map.mp ht
  have := (Bool.or_eq_false_iff.mp h).2
  simp only [List.any_eq_false] at this
  exact this x hx (by simp [hc, hl, hs])

theorem roomOn_free {s : State} {p : PartDesc} {k : Kernel} {core : Nat} {r : Room}
    (h : roomOn s p k core = some r) :
    r.core = core ∧ s.FreeSlots core r.groups := by
  unfold roomOn at h
  extract_lets here own c at h
  split at h
  · exact nomatch h
  split at h
  next g _ _ hg _ _ =>
    obtain rfl := Option.some.inj h
    obtain ⟨hn, ht⟩ := takeSlots_free hg List.nodup_nil (by simp)
    exact ⟨rfl, hn, fun g hg => slotTaken_eq_false (ht g hg)⟩
  · exact nomatch h

/-- Rooms that free slots stand behind, on cores of which none has two. -/
def State.FreeRooms (s : State) (rooms : List Room) : Prop :=
  (rooms.map (·.core)).Nodup ∧ ∀ r ∈ rooms, s.FreeSlots r.core r.groups

theorem mapM_roomOn {s : State} {p : PartDesc} {k : Kernel} {l : List Nat} {rooms : List Room}
    (h : l.mapM (roomOn s p k) = some rooms) :
    rooms.map (·.core) = l ∧ ∀ r ∈ rooms, s.FreeSlots r.core r.groups := by
  induction l generalizing rooms with
  | nil => obtain rfl := Option.some.inj h; simp
  | cons c l ih =>
    rw [List.mapM_cons] at h
    obtain ⟨r, hr, h⟩ := Option.bind_eq_some_iff.mp h
    obtain ⟨rs, hrs, h⟩ := Option.bind_eq_some_iff.mp h
    obtain rfl := Option.some.inj h
    obtain ⟨hc, hf⟩ := roomOn_free hr
    obtain ⟨hcs, hfs⟩ := ih hrs
    exact ⟨by simp [hc, hcs], List.forall_mem_cons.mpr ⟨hc ▸ hf, hfs⟩⟩

theorem rectangle_nodup {k : Kernel} (die origin : Nat) (h : k.ca ≤ 6) :
    (rectangle k die origin).Nodup := by
  refine List.pairwise_flatMap.mpr ⟨fun y _ => List.pairwise_map.mpr
    (List.nodup_range.imp fun hne hx => hne (by simpa using hx)), ?_⟩
  refine List.nodup_range.imp fun hne c hc c' hc' hcc => hne ?_
  obtain ⟨x, hx, rfl⟩ := List.mem_map.mp hc
  obtain ⟨x', hx', rfl⟩ := List.mem_map.mp hc'
  have := List.mem_range.mp hx
  have := List.mem_range.mp hx'
  omega

theorem roomAt_free {s : State} {p : PartDesc} {k : Kernel} {die origin : Nat} {rooms : List Room}
    (h : roomAt s p k die origin = some rooms) : s.FreeRooms rooms := by
  unfold roomAt at h
  split at h
  next hfit =>
    obtain ⟨hc, hf⟩ := mapM_roomOn h
    exact ⟨hc ▸ rectangle_nodup die origin (by omega), hf⟩
  · exact nomatch h

theorem findRoom_free {s : State} {p : PartDesc} {k : Kernel} {die : Nat} {rooms : List Room}
    (h : findRoom s p k = some (die, rooms)) : s.FreeRooms rooms := by
  obtain ⟨⟨d, o⟩, -, hroom⟩ := List.exists_of_findSome?_eq_some h
  obtain ⟨rs, hrs, he⟩ := Option.map_eq_some_iff.mp hroom
  obtain rfl : rs = rooms := congrArg Prod.snd he
  exact roomAt_free hrs

theorem State.FreeRooms.take {s : State} {rooms : List Room} (h : s.FreeRooms rooms) (n : Nat) :
    s.FreeRooms (rooms.take n) :=
  ⟨h.1.sublist ((List.take_sublist n rooms).map _), fun r hr => h.2 r (List.mem_of_mem_take hr)⟩

/-! ### Placing a cluster (R320) -/

theorem State.ids_eq_of_positions {s t : State} (h : t.positions = s.positions) :
    t.threads.map (·.id) = s.threads.map (·.id) :=
  congrArg Prod.fst h

theorem State.saved_eq_of_positions {s t : State} (h : t.positions = s.positions) :
    t.saved = s.saved := congrArg Prod.snd h

/-- A placement adds the positions of the team's group slots. -/
theorem placeTeam_positions (s : State) (tm : Team) (r : Room) (args : Nat → Option (List Word)) :
    (placeTeam s tm r args).positions =
      (s.threads.map (·.id) ++ tm.groups.flatMap (slotIds tm.core), s.saved) := by
  unfold placeTeam
  extract_lets s1 s2
  have h2 : s2.positions = s.positions := by dsimp -zeta only [s2]; split <;> simp [s1]
  rw [State.positions_mk, List.map_append, teamThreads_ids, State.ids_eq_of_positions h2,
    State.saved_eq_of_positions h2]

theorem placeTeam_ids (s : State) (tm : Team) (r : Room) (args : Nat → Option (List Word)) :
    (placeTeam s tm r args).threads.map (·.id) =
      s.threads.map (·.id) ++ tm.groups.flatMap (slotIds tm.core) :=
  congrArg Prod.fst (placeTeam_positions s tm r args)

theorem placeTeam_idsDistinct {s : State} {tm : Team} (r : Room) (args : Nat → Option (List Word))
    (hs : s.IdsDistinct)
    (hfree : s.FreeSlots tm.core tm.groups) : (placeTeam s tm r args).IdsDistinct := by
  refine State.idsDistinct_of (placeTeam_positions s tm r args) ?_ hs.2
  refine List.nodup_append.mpr ⟨hs.1, teamThreads_ids tm args ▸
    teamThreads_ids_nodup tm args hfree.1, fun t ht u hnew htu => ?_⟩
  subst htu
  obtain ⟨g, hg, htg⟩ := List.mem_flatMap.mp hnew
  obtain ⟨hc, hl, hsl⟩ := mem_slotIds htg
  exact hfree.2 g hg t ht hc hl hsl

/-- A placement on one core leaves the slots of another as they were. -/
theorem placeTeam_freeSlots {s : State} {tm : Team} (r : Room) (args : Nat → Option (List Word))
    {core : Nat} {groups : List (Nat × Nat)} (hcore : core ≠ tm.core)
    (hfree : s.FreeSlots core groups) :
    (placeTeam s tm r args).FreeSlots core groups := by
  refine ⟨hfree.1, fun g hg t ht => ?_⟩
  rw [placeTeam_ids] at ht
  rcases List.mem_append.mp ht with ht | ht
  · exact hfree.2 g hg t ht
  · obtain ⟨g', -, ht⟩ := List.mem_flatMap.mp ht
    exact fun hc => absurd (hc.symm.trans (mem_slotIds ht).1) hcore

theorem State.FreeSlots.of_positions {s t : State} {core : Nat} {groups : List (Nat × Nat)}
    (h : t.positions = s.positions)
    (hs : s.FreeSlots core groups) : t.FreeSlots core groups :=
  ⟨hs.1, State.ids_eq_of_positions h ▸ hs.2⟩

theorem State.FreeRooms.of_positions {s t : State} {rooms : List Room}
    (h : t.positions = s.positions) (hs : s.FreeRooms rooms) :
    t.FreeRooms rooms :=
  ⟨hs.1, fun r hr => (hs.2 r hr).of_positions h⟩

/-- Teams placed one after another, each in a room of its own, keep threads at positions of their
own. -/
theorem foldl_place_idsDistinct (place : State → Nat → State) (rooms : List Room)
    (hplace : ∀ s i r, rooms[i]? = some r → ∃ (u : State) (tm : Team)
      (args : Nat → Option (List Word)), u.positions = s.positions ∧ tm.core = r.core ∧
      tm.groups = r.groups ∧ place s i = placeTeam u tm r args)
    (hcores : (rooms.map (·.core)).Nodup) (is : List Nat) (his : is.Nodup)
    (hlt : ∀ i ∈ is, i < rooms.length) (s : State) (hs : s.IdsDistinct)
    (hfree : ∀ i ∈ is, ∀ r, rooms[i]? = some r → s.FreeSlots r.core r.groups) :
    (is.foldl place s).IdsDistinct := by
  induction is generalizing s with
  | nil => exact hs
  | cons i is ih =>
    obtain ⟨hi, his⟩ := List.nodup_cons.mp his
    obtain ⟨hlti, hlt⟩ := List.forall_mem_cons.mp hlt
    obtain ⟨hfi, hfree⟩ := List.forall_mem_cons.mp hfree
    have hr : rooms[i]? = some rooms[i] := List.getElem?_eq_getElem hlti
    obtain ⟨u, tm, args, hu, hcore, hgroups, hp⟩ := hplace s i _ hr
    refine ih his hlt _ ?_ fun j hj r hrj => ?_
    · rw [hp]
      refine placeTeam_idsDistinct _ _ (State.idsDistinct_of_positions hu hs) ?_
      rw [hcore, hgroups]
      exact (hfi _ hr).of_positions hu
    · rw [hp]
      refine placeTeam_freeSlots _ _ (fun hc => ?_) ((hfree j hj r hrj).of_positions hu)
      obtain ⟨hltj, rfl⟩ := List.getElem?_eq_some_iff.mp hrj
      have hi' : i < (rooms.map (·.core)).length := by simpa using hlti
      have hj' : j < (rooms.map (·.core)).length := by simpa using hltj
      have same : (rooms.map (·.core))[i] = (rooms.map (·.core))[j] := by
        simpa using (hc.trans hcore).symm
      exact hi ((List.getElem_inj hcores).mp same ▸ hj)

theorem placeCluster_idsDistinct {s : State} (ctx : Nat) (k : Kernel) {rooms : List Room}
    (grid gdim : Nat × Nat × Nat) (owner : Option Nat) (origins : List (Option Nat))
    (args : Nat → Option (List Word)) (hs : s.IdsDistinct) (hfree : s.FreeRooms rooms) :
    (placeCluster s ctx k rooms grid gdim owner origins args).IdsDistinct := by
  unfold placeCluster
  refine State.idsDistinct_of_positions (noteRises_positions _ _) ?_
  refine foldl_place_idsDistinct _ rooms (fun s i r hr =>
    ⟨s.newId.2, _, args, State.newId_positions s, ?_, ?_, by simp only [hr]; rfl⟩) hfree.1 _
    List.nodup_range (fun i hi => List.mem_range.mp hi) _
      (State.idsDistinct_of_positions (State.newId_positions s) hs)
    fun i _ r hr => (hfree.2 r (List.mem_of_getElem? hr)).of_positions (State.newId_positions s)
  · rfl
  · rfl

/-! ### Events that add threads or save areas, or take them away -/

/-- An outcome whose next state, if there is one, keeps threads at positions of their own as `s`
does. -/
def State.KeepsIds (s : State) (o : Host.Outcome State Fault Refusal) : Prop :=
  s.IdsDistinct → ∀ t, o = .next t → t.IdsDistinct

theorem State.Stays.keepsIds {s : State} {o : Host.Outcome State Fault Refusal} (h : s.Stays o) :
    s.KeepsIds o :=
  fun hs t ht => State.idsDistinct_of_positions (h t ht) hs

theorem State.keepsIds_next {s t : State} (h : s.IdsDistinct → t.IdsDistinct) :
    s.KeepsIds (.next t) :=
  fun hs u hu => by obtain rfl := Host.Outcome.next.inj hu; exact h hs

theorem foldl_idsDistinct {α : Type} {f : State → α → State}
    (h : ∀ s a, s.IdsDistinct → (f s a).IdsDistinct) (l : List α) {s : State}
    (hs : s.IdsDistinct) : (l.foldl f s).IdsDistinct :=
  List.foldlRecOn l f hs fun s hs a _ => h s a hs

/-! #### Dispatch -/

theorem dispatchGrid_idsDistinct {s : State} (p : PartDesc) (g : Grid) (hs : s.IdsDistinct) :
    (dispatchGrid s p g).IdsDistinct := by
  unfold dispatchGrid
  split
  · exact hs
  next die rooms hroom =>
    extract_lets total n s1 s2 s3
    have hd : (setLastDie s p.part die).positions = s.positions := setLastDie_positions _ _ _
    have h1 : s1.IdsDistinct :=
      placeCluster_idsDistinct _ _ _ _ _ _ _ (State.idsDistinct_of_positions hd hs)
      ((findRoom_free hroom).of_positions hd)
    refine State.idsDistinct_of_positions ?_ h1
    simp [s3, s2]

theorem dispatchNode_idsDistinct {s : State} (p : PartDesc) (c : Context) (n : Node) (pa : Nat)
    (l : Launch) (hs : s.IdsDistinct) :
    (dispatchNode s p c n pa l).IdsDistinct := by
  unfold dispatchNode
  extract_lets take unform hold record args
  split
  · exact State.idsDistinct_of_positions (by simp) hs
  split
  · exact State.idsDistinct_of_positions (by simp [unform]) hs
  split
  · exact hs
  next die rooms hroom =>
    extract_lets s1 s2 s3
    have hd : (setLastDie s p.part die).positions = s.positions := setLastDie_positions _ _ _
    have h1 : s1.IdsDistinct :=
      placeCluster_idsDistinct _ _ _ _ _ _ _ (State.idsDistinct_of_positions hd hs)
      (((findRoom_free hroom).take 1).of_positions hd)
    refine State.idsDistinct_of_positions ?_ h1
    simp [s3, s2, unform]

theorem execDispatch_keepsIds (part : Nat) (s : State) : s.KeepsIds (execDispatch part s) := by
  have stay : s.KeepsIds (.next s) := State.keepsIds_next id
  unfold execDispatch
  split
  · split
    · exact stay
    split
    · exact State.keepsIds_next (dispatchGrid_idsDistinct _ _)
    · exact stay
  · split
    · exact stay
    split
    · split
      · exact State.keepsIds_next (dispatchNode_idsDistinct _ _ _ _ _)
      · exact stay
    · exact stay
  · exact stay

/-! #### The end of teams and contexts -/

theorem State.idsDistinct_of_sublist {s t : State}
    (hids : (t.threads.map (·.id)).Sublist (s.threads.map (·.id)))
    (hareas : ∀ x ∈ t.saved, x ∈ s.saved) (hs : s.IdsDistinct) : t.IdsDistinct :=
  ⟨hs.1.sublist hids, fun x hx => hs.2 x (hareas x hx)⟩

theorem releaseTeam_idsDistinct {s : State} (tm : Team) (hs : s.IdsDistinct) :
    (releaseTeam s tm).IdsDistinct := by
  unfold releaseTeam
  extract_lets s1 s2
  have h1 : s1.IdsDistinct :=
    State.idsDistinct_of_sublist (List.filter_sublist.map _) (fun _ => id) hs
  exact State.idsDistinct_of_positions (by simp [s2]) h1

theorem execTeamRelease_keepsIds (team : Nat) (s : State) :
    s.KeepsIds (execTeamRelease team s) := by
  unfold execTeamRelease
  split
  · exact State.keepsIds_next id
  split
  · exact State.keepsIds_next (releaseTeam_idsDistinct _)
  · exact State.keepsIds_next id

theorem dropParties_idsDistinct {s : State} (ctx : Nat) (ids : List ThreadId) (teams : List Nat)
    (hs : s.IdsDistinct) :
    (dropParties s ctx ids teams).IdsDistinct := by
  have hsaved : ∀ x ∈ s.saved.filter fun x => x.ctx != ctx, (x.threads.map (·.id)).Nodup :=
    fun x hx => hs.2 x (List.mem_filter.mp hx).1
  exact ⟨hs.1, hsaved⟩

theorem terminateContext_idsDistinct {s : State} (ctx : Nat) (hs : s.IdsDistinct) :
    (terminateContext s ctx).IdsDistinct := by
  unfold terminateContext
  split
  · exact hs
  next c _ =>
    extract_lets teams gone ids s1 s2 s3 s4 s5
    have h2 : (gone.foldl State.dropBundle s2).positions = s.positions := by simp [s2, s1]
    have h3 : s3.IdsDistinct := dropParties_idsDistinct _ _ _ (State.idsDistinct_of_positions h2 hs)
    exact State.idsDistinct_of_positions (by simp [s5, s4]) h3

theorem resolveAs_idsDistinct {s : State} (o : OpenTicket) (k : Resolution) (hs : s.IdsDistinct) :
    (resolveAs s o k).IdsDistinct := by
  unfold resolveAs
  split
  · exact hs
  extract_lets s1
  have h1 : s1.IdsDistinct := State.idsDistinct_of_positions (by simp [s1]) hs
  cases k with
  | retry => exact State.idsDistinct_of_positions (by simp) h1
  | kill => exact State.idsDistinct_of_positions (by simp) h1
  | term => exact terminateContext_idsDistinct _ (State.idsDistinct_of_positions (by simp) h1)

theorem hresume_idsDistinct {s : State} (k : Resolution) (h : Hdr) (a : Fin 32)
    (hs : s.IdsDistinct) :
    (hresume k h a s).IdsDistinct := by
  have stay : ∀ t : State, t.positions = s.positions → t.IdsDistinct :=
    fun t ht => State.idsDistinct_of_positions ht hs
  unfold hresume
  extract_lets ex priv ts holders bad os hold s1 s2
  split
  · exact stay _ (by simp)
  split
  · exact stay _ (by simp)
  split
  · exact stay _ (by simp)
  split
  · exact stay _ (by simp)
  split
  · exact stay _ (by simp)
  split
  · exact hs
  · exact foldl_idsDistinct (fun s x => resolveAs_idsDistinct _ _) _ (stay s2 (by simp [s2, s1]))

theorem execPewterError_keepsIds (w : PewterWhere) (s : State) :
    s.KeepsIds (execPewterError w s) := by
  unfold execPewterError
  split
  · exact State.Stays.keepsIds (by dsimp only; (repeat' split) <;> simp)
  · exact State.Stays.keepsIds (by simp)
  · exact State.Stays.keepsIds (by simp)
  next core ctx =>
    extract_lets hold
    split
    · exact State.keepsIds_next id
    split
    · exact State.Stays.keepsIds (by simp)
    · exact State.keepsIds_next fun hs =>
        State.idsDistinct_of_positions (by simp) (terminateContext_idsDistinct ctx hs)

theorem execModulePowerLoss_keepsIds (s : State) : s.KeepsIds (execModulePowerLoss s) := by
  unfold execModulePowerLoss
  split
  · exact State.keepsIds_next id
  · exact State.keepsIds_next (State.idsDistinct_of_sublist (List.nil_sublist _) fun _ => id)

theorem execPowerRestore_keepsIds (s : State) : s.KeepsIds (execPowerRestore s) := by
  unfold execPowerRestore
  split
  · exact State.keepsIds_next id
  · exact State.keepsIds_next (State.idsDistinct_of_sublist (List.Sublist.refl _) fun _ hx =>
      (List.mem_filter.mp hx).1)

/-! #### Commands of the context controller -/

theorem command_keepsIds {s : State} {ctx : Nat} {f : State → Context → State} {more : List Nat}
    (hf : ∀ s c, s.IdsDistinct → (f s c).IdsDistinct) :
    s.KeepsIds (.next (command s ctx f more)) := by
  refine State.keepsIds_next fun hs => ?_
  unfold command
  split
  · exact hs
  split
  · exact hs
  extract_lets hold s1
  have h1 : s1.IdsDistinct := State.idsDistinct_of_positions (by simp [s1]) hs
  split
  · exact State.idsDistinct_of_positions (by simp) hs
  split
  · exact State.idsDistinct_of_positions (by simp) h1
  · exact hf _ _ h1

theorem takeArea_idsDistinct {s : State} {c : Context} (hs : s.IdsDistinct)
    (harea : holdsArea s c (savedOf s c.id) = true) :
    (takeArea s c).IdsDistinct := by
  have hx : ((savedOf s c.id).threads.map (·.id)).Nodup :=
    of_decide_eq_true (Bool.and_eq_true_iff.mp harea).1
  have others : ∀ y ∈ s.saved.filter (fun y => y.ctx != c.id), (y.threads.map (·.id)).Nodup :=
    fun y hy => hs.2 y (List.mem_filter.mp hy).1
  unfold takeArea
  extract_lets x rest
  split
  · exact ⟨hs.1, List.forall_mem_append.mpr ⟨others, List.forall_mem_singleton.mpr hx⟩⟩
  · exact ⟨hs.1, List.forall_mem_append.mpr ⟨others, List.forall_mem_singleton.mpr hx⟩⟩

theorem acceptRun_idsDistinct (s : State) (c : Context) (hs : s.IdsDistinct) :
    (acceptRun s c).IdsDistinct := by
  unfold acceptRun
  extract_lets x
  split
  · exact State.idsDistinct_of_positions (by simp) hs
  split
  · exact State.idsDistinct_of_positions (by simp) hs
  next harea =>
    have htaken : (takeArea s c).IdsDistinct := takeArea_idsDistinct hs (by simpa using harea)
    exact State.idsDistinct_of_positions (by simp) htaken

theorem acceptTerminate_idsDistinct (s : State) (c : Context) (hs : s.IdsDistinct) :
    (acceptTerminate s c).IdsDistinct := by
  unfold acceptTerminate
  split
  · exact State.idsDistinct_of_positions (by simp) hs
  extract_lets s1 s2
  have h2 : s2.IdsDistinct := by
    refine foldl_idsDistinct (fun s tm hs => ?_) _ (terminateContext_idsDistinct c.id hs)
    split
    · exact releaseTeam_idsDistinct tm hs
    · exact hs
  exact State.idsDistinct_of_positions (by simp) h2

/-- A save area found for a context holds threads at positions of their own. -/
theorem takenArea_nodup {s : State} (hs : s.IdsDistinct) (ctx : Nat) :
    ((takenArea s ctx).threads.map (·.id)).Nodup := by
  unfold takenArea
  cases h : s.saved.find? fun x => x.ctx == ctx with
  | none => exact List.nodup_nil
  | some x => exact hs.2 x (List.mem_of_find?_eq_some h)

theorem reloadThreads_ids (s : State) (c : Context) (x : Saved) :
    (reloadThreads s c x).map (·.id) = x.threads.map (·.id) :=
  map_id_map _ _ fun t => by simp

theorem restoreContext_idsDistinct {s : State} {c : Context} (hs : s.IdsDistinct)
    (hfree : positionsFree s (takenArea s c.id) = true) :
    (restoreContext s c).IdsDistinct := by
  unfold restoreContext
  extract_lets x s1 s2 s3 s4 s5
  have h1 : s1.IdsDistinct := by
    refine State.idsDistinct_of (State.positions_mk ..) ?_ fun y hy =>
      hs.2 y (List.mem_filter.mp hy).1
    rw [List.map_append, map_id_map _ _ fun t => by simp, reloadThreads_ids]
    refine List.nodup_append.mpr ⟨hs.1, takenArea_nodup hs c.id, fun t ht t' hx htt => ?_⟩
    subst htt
    obtain ⟨u, hu, rfl⟩ := List.mem_map.mp ht
    obtain ⟨v, hv, he⟩ := List.mem_map.mp hx
    have := List.all_eq_true.mp hfree v hv
    simp only [Bool.not_eq_true', List.any_eq_false, decide_eq_true_eq] at this
    exact this u hu he.symm
  exact State.idsDistinct_of_positions (by simp [s5, s4, s3, s2]) h1

theorem execRunStart_keepsIds (ctx : Nat) (s : State) : s.KeepsIds (execRunStart ctx s) := by
  unfold execRunStart
  split
  · exact State.keepsIds_next id
  next c hc =>
    have hid : c.id = ctx := by simpa using List.find?_some hc
    split
    · exact State.keepsIds_next id
    next hstart =>
      extract_lets hold
      split
      · exact State.Stays.keepsIds (by simp)
      · refine State.keepsIds_next fun hs => restoreContext_idsDistinct hs ?_
        simp only [not_or, Bool.not_eq_true', Bool.not_eq_false] at hstart
        exact hid ▸ hstart.2.2.2.2

theorem saveContext_idsDistinct {s : State} (c : Context) (hs : s.IdsDistinct) :
    (saveContext s c).IdsDistinct := by
  unfold saveContext
  extract_lets teams ts ids tids mineB ofCtx cores x stranded done s1 s2 s3
  have h1 : s1.positions = s.positions := by simp [s1]
  have hx : (x.threads.map (·.id)).Nodup := hs.1.sublist (List.filter_sublist.map _)
  have h2 : s2.IdsDistinct := by
    have hs1 := State.idsDistinct_of_positions h1 hs
    exact ⟨hs1.1.sublist (List.filter_sublist.map _),
      List.forall_mem_append.mpr ⟨fun y hy => hs1.2 y (List.mem_filter.mp hy).1,
        List.forall_mem_singleton.mpr hx⟩⟩
  have h3 : s3.positions = s2.positions := by simp [s3]
  refine State.idsDistinct_of_positions ?_ h2
  cases done <;> simp [h3]

theorem execSaveStop_keepsIds (ctx : Nat) (s : State) : s.KeepsIds (execSaveStop ctx s) := by
  unfold execSaveStop
  split
  · exact State.keepsIds_next id
  next c _ =>
    extract_lets ts cores mine narrow hold
    split
    · exact State.keepsIds_next id
    split
    · exact State.Stays.keepsIds (by simp)
    split
    · exact State.Stays.keepsIds (by simp)
    split
    · exact State.keepsIds_next id
    split
    · exact State.Stays.keepsIds (by simp)
    · exact State.keepsIds_next (saveContext_idsDistinct c)

/-! ### Every instruction and event, chains, and the step -/

/-- No instruction or event puts two threads at one position. -/
theorem exec_keepsIds (i : Instr) (s : State) : s.KeepsIds (exec i s) := by
  cases i
  case dispatch part => exact execDispatch_keepsIds part s
  case teamRelease team => exact execTeamRelease_keepsIds team s
  case hresumeRetry h a => exact State.keepsIds_next (hresume_idsDistinct .retry h a)
  case hresumeKill h a => exact State.keepsIds_next (hresume_idsDistinct .kill h a)
  case hresumeTerm h a => exact State.keepsIds_next (hresume_idsDistinct .term h a)
  case pewterError w => exact execPewterError_keepsIds w s
  case modulePowerLoss => exact execModulePowerLoss_keepsIds s
  case powerRestore => exact execPowerRestore_keepsIds s
  case run ctx => exact command_keepsIds acceptRun_idsDistinct
  case runStart ctx => exact execRunStart_keepsIds ctx s
  case save ctx => exact command_keepsIds fun s c => State.idsDistinct_of_positions (by simp)
  case saveStop ctx => exact execSaveStop_keepsIds ctx s
  case terminate ctx => exact command_keepsIds acceptTerminate_idsDistinct
  case rearm ctx => exact command_keepsIds fun s c => State.idsDistinct_of_positions (by simp)
  all_goals exact State.Stays.keepsIds (by
    simp [exec, execAdd, execSub, execAddw, execSubw, execMul, execMulw, execMulh, execMulhz,
      execDiv, execDivz, execRem, execRemz, execMin, execMax, execMinz, execMaxz, execAnd, execOr,
      execXor, execAndn, execSll, execSrl, execSra, execRot, execBfx, execClmul, execClmulh,
      execClz, execCtz, execPopc, execBrev, execBfi, execIcmp, execSel, execSh1add, execSh2add,
      execSh3add, execSh4add, execPlog, execPmovPg, execPmovGp, execGets, execSets, execNop,
      execFaddS, execFsubS, execFmulS, execFfmaS, execFminS, execFmaxS, execFdivS, execFsqrtS,
      execFaddD, execFsubD, execFmulD, execFfmaD, execFminD, execFmaxD, execFdivD, execFsqrtD,
      execFcmpS, execFcmpD, execFcvt, execFunaryS, execFunaryD, execPfmaH, execPfmaB, execFdotH,
      execFdotB, execPaddH, execPmulH, execIdotB, execPshuf, execLd, execSt, execLda, execStl,
      execLdf, execStf, execPref, execAtom, execCas, execFence, execPfenceCore, execPfenceModule,
      execWaitc, execPgreq, execTlbiPage, execTlbiCtx, execTlbiPart, execPublish, execWake,
      execWaiterReread, execNext, execNextp, execNextg, execCall, execCallg, execRet, execExit,
      execRegion, execEntryw, execVote, execBarSync, execBarArr, execMma, execMmas, execMmat,
      execAccz, execAccrd, execAccwr, execAcccvt, execTxf, execSctlStart, execSctlStop,
      execSctlDrain, execStreamReadAhead, execFrozenSourceClear, execHostAccess,
      execPeerModuleAccess, execAccountingPeriod, execPinEnd, execUnplannedLoss,
      execCorrectableError, execBlockMoveRequest, execRailSettled, execNominalReturn,
      execClockMask, execPlannedGating, execGatedCoreWake, execPtpSync, execEpoch, execBootStage])

theorem exec_idsDistinct {i : Instr} {s t : State} (hs : s.IdsDistinct) (h : exec i s = .next t) :
    t.IdsDistinct :=
  exec_keepsIds i s hs t h

/-! #### Chains -/

theorem tryMember_idsDistinct {s t : State} {b : Bundle} {m : Member} {c : Came}
    (hs : s.IdsDistinct) (h : tryMember s b m = some (t, c)) :
    t.IdsDistinct := by
  unfold tryMember at h
  split at h
  next he =>
    obtain ⟨rfl, -⟩ := Prod.mk.inj (Option.some.inj h)
    exact exec_idsDistinct (State.idsDistinct_of_positions (by simp) hs) he
  · exact nomatch h

theorem trials_idsDistinct {s : State} {b : Bundle} {l : List Member} (hs : s.IdsDistinct) :
    ∀ x ∈ trials s b l, x.2.1.IdsDistinct := by
  intro x hx
  obtain ⟨m, -, hm⟩ := List.mem_filterMap.mp hx
  obtain ⟨⟨t, c⟩, ht, rfl⟩ := Option.map_eq_some_iff.mp hm
  exact tryMember_idsDistinct hs ht

theorem firstTrial_idsDistinct {tries : List (Instr × State × Came)} {p : Instr → Came → Bool}
    {t : State} (htries : ∀ x ∈ tries, x.2.1.IdsDistinct) (h : firstTrial tries p = some t) :
    t.IdsDistinct := by
  obtain ⟨x, hx, rfl⟩ := Option.map_eq_some_iff.mp h
  exact htries x (List.mem_of_find?_eq_some hx)

theorem chainStop_idsDistinct {s t : State} {b : Bundle} {l : List Member} (hs : s.IdsDistinct)
    (h : chainStop s b l = some t) :
    t.IdsDistinct := by
  unfold chainStop at h
  extract_lets tries sb at h
  have htries : ∀ x ∈ tries, x.2.1.IdsDistinct := by
    dsimp -zeta only [tries]
    split
    · exact fun x hx => absurd hx List.not_mem_nil
    · exact trials_idsDistinct hs
  have found : ∀ p u, firstTrial tries p = some u → some u = some t → t.IdsDistinct :=
    fun p u hu he => Option.some.inj he ▸ firstTrial_idsDistinct htries hu
  split at h
  next hu => exact found _ _ hu h
  split at h
  · split at h
    next hu =>
      split at hu
      · exact Option.some.inj h ▸ firstTrial_idsDistinct (trials_idsDistinct hs) hu
      · exact nomatch hu
    · exact Option.some.inj h ▸ State.idsDistinct_of_positions (by simp) hs
  split at h
  next hu => exact found _ _ hu h
  split at h
  next hu => exact found _ _ hu h
  split at h
  next hu =>
    exact Option.some.inj h ▸ State.idsDistinct_of_positions (by simp)
      (firstTrial_idsDistinct htries hu)
  · exact nomatch h

theorem runMembers_idsDistinct {s t : State} {b : Bundle} {l rest : List Member} {c : Came}
    (hs : s.IdsDistinct)
    (h : runMembers s b l = .next (t, c, rest)) : t.IdsDistinct := by
  induction l generalizing s with
  | nil =>
    obtain ⟨rfl, -⟩ := Prod.mk.inj (Host.Outcome.next.inj h)
    exact hs
  | cons m l ih =>
    unfold runMembers at h
    split at h
    next s' he =>
      have hs' : s'.IdsDistinct := exec_idsDistinct (State.idsDistinct_of_positions (by simp) hs) he
      split at h
      · exact ih hs' h
      · obtain ⟨rfl, -⟩ := Prod.mk.inj (Host.Outcome.next.inj h)
        exact hs'
    · exact nomatch h
    · exact nomatch h

theorem afterChain_idsDistinct {s0 s t : State} {b : Bundle} {pc : Word} {l l' : List Member}
    (hs : s.IdsDistinct)
    (h : afterChain s0 b pc l (runMembers s b l') = .next t) : t.IdsDistinct := by
  unfold afterChain at h
  split at h
  next hrun =>
    have hs' := runMembers_idsDistinct hs hrun
    split at h
    · exact Host.Outcome.next.inj h ▸ State.idsDistinct_of_positions (by simp) hs'
    · exact Host.Outcome.next.inj h ▸ State.idsDistinct_of_positions (by simp) hs'
  next hrun =>
    exact Host.Outcome.next.inj h ▸ State.idsDistinct_of_positions (by simp)
      (runMembers_idsDistinct hs hrun)
  next hrun =>
    exact Host.Outcome.next.inj h ▸ State.idsDistinct_of_positions (by simp)
      (runMembers_idsDistinct hs hrun)
  · exact nomatch h
  · exact nomatch h

/-! #### Chains in runahead -/

theorem raMember_idsDistinct {s t : State} {b : Bundle} {found : List Thread} {m : Member}
    (hs : s.IdsDistinct)
    (h : raMember s b found m = some t) : t.IdsDistinct := by
  unfold raMember at h
  extract_lets ts past marks skip part lanes link linked at h
  have hpast : past.positions = s.positions := by simp [past]
  have hmarks : ∀ u : State, (marks u).positions = u.positions := fun u => by simp [marks]
  have hlanes : ∀ (u : State) l, (lanes u l).positions = u.positions := fun u l => by simp [lanes]
  have stay : ∀ u : State, u.positions = s.positions → some u = some t → t.IdsDistinct :=
    fun u hu he => Option.some.inj he ▸ State.idsDistinct_of_positions hu hs
  split at h
  · split at h
    · exact stay _ (by simp [hmarks, hpast]) h
    split at h
    next s' he =>
      have hs' : s'.IdsDistinct :=
        exec_idsDistinct (State.idsDistinct_of_positions (by simp [hlanes, hpast]) hs) he
      split at h
      · exact Option.some.inj h ▸ State.idsDistinct_of_positions (by simp [hmarks, hlanes]) hs'
      · exact nomatch h
    · exact nomatch h
  · exact stay _ (by simp [skip, hpast]) h
  · exact stay _ (by simp [hpast]) h
  · refine stay _ ((positions_foldl _ (fun s t => ?_) _ _).trans hpast) h
    (repeat' split) <;> simp
  · refine stay _ ((positions_foldl _ (fun s t => ?_) _ _).trans hpast) h
    (repeat' split) <;> simp
  · exact stay _ (by simp [hpast]) h
  · obtain ⟨a, -, rfl⟩ := Option.map_eq_some_iff.mp h
    refine State.idsDistinct_of_positions (raGo_positions _ _ _ fun t => ?_) hs
    dsimp only [linked]
    split <;> simp
  · exact nomatch h

theorem raMembers_idsDistinct {s t : State} {b : Bundle} {found : List Thread} {l : List Member}
    (hs : s.IdsDistinct)
    (h : raMembers s b found l = some t) : t.IdsDistinct := by
  induction l generalizing s with
  | nil => exact Option.some.inj h ▸ hs
  | cons m l ih =>
    obtain ⟨u, hu, h⟩ := Option.bind_eq_some_iff.mp h
    exact ih (raMember_idsDistinct hs hu) h

theorem raChain_idsDistinct {s : State} (b : Bundle) (c : Chain) (pc : Word) (hs : s.IdsDistinct) :
    (raChain s b c pc).IdsDistinct := by
  unfold raChain
  extract_lets n missing s0 found ends
  split
  · exact State.idsDistinct_of_positions (by simp) hs
  split
  · exact State.idsDistinct_of_positions (by simp) hs
  next s' h =>
    extract_lets s1
    have hs' : s'.IdsDistinct :=
      raMembers_idsDistinct (State.idsDistinct_of_positions (by simp) hs) h
    exact State.idsDistinct_of_positions (by simp [s1]) hs'

/-! #### The step -/

theorem issueChain_keepsIds (s : State) (b : Bundle) : s.KeepsIds (issueChain s b) := by
  have stay : ∀ t : State, t.positions = s.positions → s.KeepsIds (.next t) := fun t ht =>
    State.keepsIds_next (State.idsDistinct_of_positions ht)
  unfold issueChain
  split
  · exact stay _ rfl
  next t ts _ =>
  split
  · exact stay _ rfl
  split
  · exact fun hs u => afterChain_idsDistinct (State.idsDistinct_of_positions (by simp) hs)
  extract_lets holders held c s1 s2
  have h0 : held.positions = s.positions := by simp [held]
  have h1 : s1.positions = s.positions := by simp [s1]
  have h2 : s2.positions = s.positions := by simp [s2, h1]
  split
  · exact stay _ (by simp [h0])
  split
  · exact stay _ rfl
  split
  · exact State.keepsIds_next fun hs => raChain_idsDistinct _ _ _
      (State.idsDistinct_of_positions (by simp) hs)
  split
  · exact stay _ (by simp [h1])
  split
  · exact stay _ (by simp [h1])
  split
  next s' h =>
    exact State.keepsIds_next fun hs =>
      State.idsDistinct_of_positions (by simp)
        (chainStop_idsDistinct (State.idsDistinct_of_positions h2 hs) h)
  · exact fun hs u => afterChain_idsDistinct (State.idsDistinct_of_positions h2 hs)

theorem autoStep_keepsIds (s : State) (l : List Instr) : s.KeepsIds (autoStep s l) := by
  induction l with
  | nil => exact State.Stays.keepsIds (by simp [autoStep])
  | cons i l ih =>
    unfold autoStep
    split
    next he =>
      split
      · exact ih
      · exact he ▸ exec_keepsIds i s
    · exact exec_keepsIds i s

theorem step_keepsIds (s : State) : s.KeepsIds (step s) := by
  unfold step
  split
  next b _ => exact issueChain_keepsIds s b
  split
  next i rest _ => exact fun hs => exec_keepsIds i { s with schedule := rest } hs
  · exact autoStep_keepsIds s _

/-- Settles O58: every step function of the model either leaves the threads' positions and the save
areas as they are, or takes some away, or adds threads at positions that it has found free. -/
theorem stepKeepsIds : Obligations.StepKeepsIds := by
  unfold Obligations.StepKeepsIds
  exact fun s t hs => step_keepsIds s hs t

end Sys2Proof.Machine
